-- ==== Sys2Proof/Word.lean ====
section
/-! DEFINITION. The word types of the block: bytes, 32-bit words, 24-bit flash addresses (00_scope.md R8, R11). -/

namespace Sys2Proof

/-- A byte, 8 bits (R11). -/
abbrev Byte := BitVec 8

/-- A 32-bit word: a host register, a register-port value, a buffer address (ADDR_W = 32) or a count (COUNT_W = 32), R8. -/
abbrev Word := BitVec 32

/-- A flash address, FADDR_W = 24 bits (R8). -/
abbrev FlashAddr := BitVec 24

end Sys2Proof
end

