-- ==== Sys2Proof/Config.lean ====
section
/-! DEFINITION. The constants of the hardware (00_scope.md R8, R9), the agents of R20, and every free value of the model:
opaque constants, of which nothing can be evaluated or proved. -/

namespace Sys2Proof.Config

/-! The flash command set of this hardware, 00_scope.md R9 (the source's opcode table). -/

/-- page program (R260) -/
def opcPp : Byte := 0x02
/-- read data (R261) -/
def opcRead : Byte := 0x03
/-- read status register 1 (R262) -/
def opcRdsr1 : Byte := 0x05
/-- write enable (R263) -/
def opcWren : Byte := 0x06
/-- sector erase (R264) -/
def opcSe : Byte := 0x20
/-- read SFDP (R265) -/
def opcRdsfdp : Byte := 0x5A
/-- read JEDEC ID (R266) -/
def opcRdid : Byte := 0x9F
/-- chip erase (R267) -/
def opcCe : Byte := 0xC7
/-- volatile status-register write enable (R268) -/
def opcVwren : Byte := 0x50
/-- write status register 1 (R269) -/
def opcWrsr1 : Byte := 0x01
/-- write status register 2 (R270) -/
def opcWrsr2 : Byte := 0x31
/-- write status register 3 (R271) -/
def opcWrsr3 : Byte := 0x11
/-- read status register 2 (R272) -/
def opcRdsr2 : Byte := 0x35
/-- read status register 3 (R273) -/
def opcRdsr3 : Byte := 0x15

/-! Fixed values. -/

/-- `IDLE_MISO`, what the reference peer drives when it has nothing to return (45_flash_commands.md R276). -/
def idleMiso : Byte := 0xFF

/-- What an erased flash byte reads as (R278). -/
def erasedByte : Byte := 0xFF

/-- What a byte of buffer memory that nothing has written reads as. DESIGN CHOICE, entry 8: unsafe. -/
def memUnlisted : Byte := 0x00

/-- LEVEL_W, the width of the FIFO level fields (00_scope.md R8). -/
abbrev levelWidth : Nat := 8

/-! The agents of 10_state.md R20. The serial engine has three steps of its own and the peer one. -/

/-- Who takes the next step (00_scope.md R13). -/
inductive Agent where
  /-- the controller: one labelled line of its top activation -/
  | controller
  /-- the serial engine's EN_LOAD (20_memory.md R71) -/
  | engineLoad
  /-- the serial engine's EN_XCHG (R72) -/
  | engineExchange
  /-- the posted-write drain EN_CS (R77) -/
  | engineCs
  /-- the flash peer's own progress, PeerTick (45_flash_commands.md R279) -/
  | peerTick
  /-- the abort environment (20_memory.md R81) -/
  | abortEnv
  /-- the host (30_encoding.md R110) -/
  | host
  deriving DecidableEq, Repr, Inhabited

/-- The environment's choice for one step: who moves, and the number that any draw of that step takes its value from (R12
`draw()`; no step makes more than one draw). Entries 1 and 2. -/
structure Choice where
  agent : Agent
  draw : Nat
  deriving DecidableEq, Repr, Inhabited

/-! Free values: no body, so nothing can be proved of any of them. -/

/-- FREE VALUE: who takes the k-th free step (R13, R70, R78; 93 S22). Entry 1. -/
opaque freeAgent : Nat → Agent

/-- FREE VALUE: the number drawn in the k-th free step (R12 `draw()`). Entry 2. -/
opaque freeDraw : Nat → Nat

/-- FREE VALUE: STAT after reset, "unspecified: a draw" (10_state.md R47). Entry 10. -/
opaque resetStat : Byte

/-- FREE VALUE: ABORT_IN at reset, "a draw" (R48). Entry 11. -/
opaque resetAbortIn : Word

/-- PARAMETER of the reference peer: JEDEC_ID, first byte in the most significant bits (R276). Entry 14. -/
opaque jedecId : BitVec 24

/-- PARAMETER of the reference peer: SR2_INIT (R276). Entry 14. -/
opaque sr2Init : Byte

/-- PARAMETER of the reference peer: SR3_INIT (R276). Entry 14. -/
opaque sr3Init : Byte

end Sys2Proof.Config
end

