-- ==== Sys2Proof/Syntax.lean ====
section
/-! DEFINITION. The instructions: one constructor per row of spec/opcode_table.json, nine HOST_CMD operations (30_encoding.md
R101, R102) and fourteen FLASH_CMD opcodes (R103). -/

namespace Sys2Proof

/-- The fields of a command word beside OP and the reserved bits (10_state.md R22). Every operation carries all of them: the
start latches all five (30_encoding.md R110), and those an operation does not use are ignored (R107). -/
structure CmdFields where
  /-- TXK, bits [5:4] -/
  txk : BitVec 2
  /-- RXK, bits [7:6] -/
  rxk : BitVec 2
  /-- OPC, bits [15:8] -/
  opc : Byte
  /-- IMM, bits [23:16] -/
  imm : Byte
  /-- ACT, bit [24] -/
  act : Bool
  deriving DecidableEq, Repr

/-- The instructions. A host operation is a command word. A flash command is the frame so far: its opcode (the constructor)
and the bytes that followed it while chip-select stayed asserted (20_memory.md R75, 45_flash_commands.md R277). -/
inductive Instr where
  /-- SET_SELECT, OP 0x1 (40_csr_access.md R140); uses ACT -/
  | setSelect (f : CmdFields)
  /-- IS_ABORTED, OP 0x2 (R141); uses no field -/
  | isAborted (f : CmdFields)
  /-- TRANSFER, OP 0x3 (41_fifo_transport.md R150); uses TXK, RXK, IMM and ARG_TX, ARG_RX, ARG_N, ARG_SKIP -/
  | transfer (f : CmdFields)
  /-- ISSUE, OP 0x4 (42_command_dispatcher.md R180); uses OPC, TXK, RXK, IMM and ARG_TX, ARG_RX, ARG_N -/
  | issue (f : CmdFields)
  /-- ISSUE_ADDR, OP 0x5 (R181); uses OPC and ARG_ADDR -/
  | issueAddr (f : CmdFields)
  /-- WAIT_READY, OP 0x6 (43_status_poller.md R200); uses no field -/
  | waitReady (f : CmdFields)
  /-- ENABLE_WRITE, OP 0x7 (R201); uses no field -/
  | enableWrite (f : CmdFields)
  /-- ERASE_SEQ, OP 0x8 (44_erase_sequencer.md R230); uses no field -/
  | eraseSeq (f : CmdFields)
  /-- DIAG_STATUS, OP 0x9 (43_status_poller.md R202); uses no field -/
  | diagStatus (f : CmdFields)
  /-- 0x02 page program (45_flash_commands.md R260): address bytes, then data bytes -/
  | flashPp (rest : List Byte)
  /-- 0x03 read data (R261): address bytes, then one byte per data byte returned -/
  | flashRead (rest : List Byte)
  /-- 0x05 read status register 1 (R262): one byte per status byte returned -/
  | flashRdsr1 (rest : List Byte)
  /-- 0x06 write enable (R263) -/
  | flashWren (rest : List Byte)
  /-- 0x20 sector erase (R264): address bytes -/
  | flashSe (rest : List Byte)
  /-- 0x5A read SFDP (R265): address bytes, a dummy byte, then one byte per data byte returned -/
  | flashRdsfdp (rest : List Byte)
  /-- 0x9F read JEDEC ID (R266): one byte per identification byte returned -/
  | flashRdid (rest : List Byte)
  /-- 0xC7 chip erase (R267) -/
  | flashCe (rest : List Byte)
  /-- 0x50 volatile status-register write enable (R268) -/
  | flashVwren (rest : List Byte)
  /-- 0x01 write status register 1 (R269): the data byte -/
  | flashWrsr1 (rest : List Byte)
  /-- 0x31 write status register 2 (R270): the data byte -/
  | flashWrsr2 (rest : List Byte)
  /-- 0x11 write status register 3 (R271): the data byte -/
  | flashWrsr3 (rest : List Byte)
  /-- 0x35 read status register 2 (R272): one byte per status byte returned -/
  | flashRdsr2 (rest : List Byte)
  /-- 0x15 read status register 3 (R273): one byte per status byte returned -/
  | flashRdsr3 (rest : List Byte)
  deriving DecidableEq, Repr

end Sys2Proof
end

