-- ==== Sys2Proof/WellFormed.lean ====
section
/-! DEFINITION. Which terms of Instr stand for a legal instruction (30_encoding.md R104, R107). -/

namespace Sys2Proof

/-- The host may select transmit kinds 0, 1 and 2 (30_encoding.md R104); 3 is illegal (R107 (c)). -/
def CmdFields.txkLegal (f : CmdFields) : Bool := f.txk != 3#2

/-- The host may select receive kinds 0 and 1 (R104); 2 and 3 are illegal (R107 (d)). -/
def CmdFields.rxkLegal (f : CmdFields) : Bool := f.rxk != 2#2 && f.rxk != 3#2

/-- TRANSFER and ISSUE check their kinds; every other operation ignores the fields it does not use, and a frame may hold any
bytes after its opcode (R107, R109). -/
def Instr.wf : Instr → Bool
  | .transfer f => f.txkLegal && f.rxkLegal
  | .issue f => f.txkLegal && f.rxkLegal
  | .setSelect _ => true
  | .isAborted _ => true
  | .issueAddr _ => true
  | .waitReady _ => true
  | .enableWrite _ => true
  | .eraseSeq _ => true
  | .diagStatus _ => true
  | .flashPp _ => true
  | .flashRead _ => true
  | .flashRdsr1 _ => true
  | .flashWren _ => true
  | .flashSe _ => true
  | .flashRdsfdp _ => true
  | .flashRdid _ => true
  | .flashCe _ => true
  | .flashVwren _ => true
  | .flashWrsr1 _ => true
  | .flashWrsr2 _ => true
  | .flashWrsr3 _ => true
  | .flashRdsr2 _ => true
  | .flashRdsr3 _ => true

end Sys2Proof
end

