-- ==== Sys2Proof/Decode.lean ====
section
/-! DEFINITION. Decoding of command words (30_encoding.md R101, R102, R107, R108) and of flash frames (R103), both total and
rejecting by name, and the encoder of both. -/

namespace Sys2Proof

/-- Why a word or a frame is no instruction. -/
inductive Reject where
  /-- OP is 0x0 or 0xA to 0xF, R107 (a) -/
  | reservedOp
  /-- bits [31:25] are not zero, R107 (b) -/
  | reservedBits
  /-- TRANSFER or ISSUE with TXK = 3, R107 (c) -/
  | reservedTxk
  /-- TRANSFER or ISSUE with RXK = 2 or 3, R107 (d) -/
  | reservedRxk
  /-- a frame with no byte has no opcode -/
  | emptyFrame
  /-- an opcode byte outside the fourteen of R9 (R109) -/
  | unknownOpcode (opc : Byte)
  deriving DecidableEq, Repr

/-! ### Command words -/

/-- OP, bits [3:0] of a command word (R101). -/
def cmdOp (v : Word) : BitVec 4 := v.extractLsb' 0 4

/-- RSVD, bits [31:25] (R101). -/
def cmdRsvd (v : Word) : BitVec 7 := v.extractLsb' 25 7

/-- The five fields of R101 that an operation latches. -/
def cmdFields (v : Word) : CmdFields :=
  { txk := v.extractLsb' 4 2
    rxk := v.extractLsb' 6 2
    opc := v.extractLsb' 8 8
    imm := v.extractLsb' 16 8
    act := v.getLsbD 24 }

/-- The operations of R102 by their number; none for the reserved numbers. -/
def hostOp (op : BitVec 4) (f : CmdFields) : Option Instr :=
  match op.toNat with
  | 1 => some (.setSelect f)
  | 2 => some (.isAborted f)
  | 3 => some (.transfer f)
  | 4 => some (.issue f)
  | 5 => some (.issueAddr f)
  | 6 => some (.waitReady f)
  | 7 => some (.enableWrite f)
  | 8 => some (.eraseSeq f)
  | 9 => some (.diagStatus f)
  | _ => none

/-- Does the operation check its kinds (R107 (c), (d))? -/
def opHasKinds (op : BitVec 4) : Bool := op == 3#4 || op == 4#4

/-- A command word's operation, the checks in the order of R108: OP, RSVD, TXK, RXK. -/
def decodeCmd (v : Word) : Except Reject Instr :=
  match hostOp (cmdOp v) (cmdFields v) with
  | none => .error .reservedOp
  | some i =>
    if cmdRsvd v ≠ 0#7 then .error .reservedBits
    else if opHasKinds (cmdOp v) && !(cmdFields v).txkLegal then .error .reservedTxk
    else if opHasKinds (cmdOp v) && !(cmdFields v).rxkLegal then .error .reservedRxk
    else .ok i

/-- The command word of R101, most significant field first. -/
def encodeCmd (op : BitVec 4) (f : CmdFields) : Word :=
  0#7 ++ BitVec.ofBool f.act ++ f.imm ++ f.opc ++ f.rxk ++ f.txk ++ op

/-! ### Flash frames -/

/-- The flash command of an opcode byte (00_scope.md R9) with the bytes that follow it. -/
def flashOp (opc : Byte) (rest : List Byte) : Option Instr :=
  match opc.toNat with
  | 0x02 => some (.flashPp rest)
  | 0x03 => some (.flashRead rest)
  | 0x05 => some (.flashRdsr1 rest)
  | 0x06 => some (.flashWren rest)
  | 0x20 => some (.flashSe rest)
  | 0x5A => some (.flashRdsfdp rest)
  | 0x9F => some (.flashRdid rest)
  | 0xC7 => some (.flashCe rest)
  | 0x50 => some (.flashVwren rest)
  | 0x01 => some (.flashWrsr1 rest)
  | 0x31 => some (.flashWrsr2 rest)
  | 0x11 => some (.flashWrsr3 rest)
  | 0x35 => some (.flashRdsr2 rest)
  | 0x15 => some (.flashRdsr3 rest)
  | _ => none

/-- The flash command a frame's MOSI bytes stand for: the first byte is the opcode (30_encoding.md R100 (b), R103). -/
def decodeFrame : List Byte → Except Reject Instr
  | [] => .error .emptyFrame
  | opc :: rest =>
    match flashOp opc rest with
    | some i => .ok i
    | none => .error (.unknownOpcode opc)

/-! ### Both formats -/

/-- An instruction as the hardware receives it: a command word, or the bytes of a frame (R100). -/
inductive Code where
  | cmd (w : Word)
  | frame (bytes : List Byte)
  deriving DecidableEq, Repr

/-- Decode either format. -/
def decode : Code → Except Reject Instr
  | .cmd w => decodeCmd w
  | .frame bytes => decodeFrame bytes

/-- The code of an instruction (R101, R102; R9, R103). -/
def encode : Instr → Code
  | .setSelect f => .cmd (encodeCmd 1#4 f)
  | .isAborted f => .cmd (encodeCmd 2#4 f)
  | .transfer f => .cmd (encodeCmd 3#4 f)
  | .issue f => .cmd (encodeCmd 4#4 f)
  | .issueAddr f => .cmd (encodeCmd 5#4 f)
  | .waitReady f => .cmd (encodeCmd 6#4 f)
  | .enableWrite f => .cmd (encodeCmd 7#4 f)
  | .eraseSeq f => .cmd (encodeCmd 8#4 f)
  | .diagStatus f => .cmd (encodeCmd 9#4 f)
  | .flashPp rest => .frame (Config.opcPp :: rest)
  | .flashRead rest => .frame (Config.opcRead :: rest)
  | .flashRdsr1 rest => .frame (Config.opcRdsr1 :: rest)
  | .flashWren rest => .frame (Config.opcWren :: rest)
  | .flashSe rest => .frame (Config.opcSe :: rest)
  | .flashRdsfdp rest => .frame (Config.opcRdsfdp :: rest)
  | .flashRdid rest => .frame (Config.opcRdid :: rest)
  | .flashCe rest => .frame (Config.opcCe :: rest)
  | .flashVwren rest => .frame (Config.opcVwren :: rest)
  | .flashWrsr1 rest => .frame (Config.opcWrsr1 :: rest)
  | .flashWrsr2 rest => .frame (Config.opcWrsr2 :: rest)
  | .flashWrsr3 rest => .frame (Config.opcWrsr3 :: rest)
  | .flashRdsr2 rest => .frame (Config.opcRdsr2 :: rest)
  | .flashRdsr3 rest => .frame (Config.opcRdsr3 :: rest)

/-! ### A row of the opcode table as bits -/

/-- How many operand bytes the shortest whole frame of an opcode has (the frames of R260 to R273): address bytes, the dummy
byte, one data or status byte (three for the JEDEC identification). -/
def frameOperands (opc : Byte) : Nat :=
  match opc.toNat with
  | 0x02 => 4
  | 0x03 => 4
  | 0x05 => 1
  | 0x20 => 3
  | 0x5A => 5
  | 0x9F => 3
  | 0x01 => 1
  | 0x31 => 1
  | 0x11 => 1
  | 0x35 => 1
  | 0x15 => 1
  | _ => 0

/-- The frame of an opcode whose operand bytes are all zero. -/
def zeroFrame (opc : Byte) : List Byte := opc :: List.replicate (frameOperands opc) 0

/-- The instruction the decoder reads from the bits of an opcode-table row: a row of 32 bits is a command word, a row of 8
bits is the first byte of a frame whose other bytes are zero. -/
def decodeTableWord (nbits w : Nat) : Option Instr :=
  if nbits = 32 then (decode (.cmd (BitVec.ofNat 32 w))).toOption
  else if nbits = 8 then (decode (.frame (zeroFrame (BitVec.ofNat 8 w)))).toOption
  else none

end Sys2Proof
end

