-- ==== Sys2Proof/Machine/State.lean ====
section
/-! DEFINITION. The machine's state as plain data: everything 10_state.md gives the block and the agents around it, the ways
a step can stop, and the state after reset (10_state.md R47, R48). -/

namespace Sys2Proof.Machine

/-! ### How a step can stop -/

/-- The model's stop. The block's own faults (60_exceptions.md R311) are NEXT states with `State.faulted` set, not these. -/
inductive Fault where
  /-- Raised by the host's own buffer access (never by an instruction) to an address that the launch memory does not admit
  (20_memory.md R61). Safe: the model stops where the spec gives the access no step. Entry 18. -/
  | noSuchAddress (a : Word)
  deriving DecidableEq, Repr

/-- Why the model gives a request no meaning. -/
inductive Refusal where
  /-- Raised by an arm of exec whose instruction has no meaning yet. Safe. -/
  | notModelled (mnemonic : String)
  /-- Raised by a host register access that is not 32 bits wide or not aligned: "outside the model (refused)" (20_memory.md
  R83, 93 S12). Safe. -/
  | hostAccessShape (addr : Word)
  /-- Raised by a host access to a buffer byte that the running operation uses: "outside the model" (R60, 93 S14). Safe. -/
  | hostBufferRace (a : Word)
  deriving DecidableEq, Repr

/-! ### Memory -/

/-- Bytes by address, strictly rising, none equal to what an unlisted address reads as. -/
abbrev Cells := List Host.Cell

/-- A byte store whose unlisted addresses all read `fill`: the reference peer's ARRAY and SFDP (45_flash_commands.md R276). -/
structure Store where
  fill : Byte
  cells : Cells
  deriving DecidableEq, Repr

/-- A range of buffer addresses the launch memory admits (20_memory.md R61), with the accesses it admits. -/
structure Region where
  base : Nat
  size : Nat
  readable : Bool
  writable : Bool
  deriving DecidableEq, Repr

/-! ### Parameters -/

/-- The parameters of 00_scope.md R8 that have no one value for all models, with the launch memory (70_reset_and_hazards.md R357
(f)). No step changes them. Entry 5. -/
structure Params where
  /-- `D`, entries of each FIFO; OPEN, at least 4 -/
  depth : Nat
  /-- `S`, bytes the engine holds outside both FIFOs; OPEN, 0, 1 or 2 -/
  hold : Nat
  /-- `ABORT_MASK`; OPEN -/
  abortMask : Word
  /-- `SR2_VALUE`, opaque to the block (R10) -/
  sr2Value : Byte
  /-- `SR3_VALUE`, opaque to the block (R10) -/
  sr3Value : Byte
  /-- `SEQ_STOP_ON_ABORT` -/
  seqStopOnAbort : Bool
  /-- `HOST_BASE`; OPEN: the host registers are at `HOST_BASE + offset` (10_state.md R21) -/
  hostBase : Word
  /-- `REG_TXFLR`; OPEN: the address of TXFLR, as the next four are of theirs (20_memory.md R86) -/
  regTxflr : Word
  /-- `REG_RXFLR`; OPEN -/
  regRxflr : Word
  /-- `REG_DR`; OPEN -/
  regDr : Word
  /-- `REG_CSCTRL`; OPEN -/
  regCsctrl : Word
  /-- `REG_ABORT`; OPEN -/
  regAbort : Word
  /-- the launch memory (R61) -/
  regions : List Region
  deriving DecidableEq, Repr

/-! ### Activations of the sub-machines -/

/-- The transport's transmit kinds (30_encoding.md R104). -/
inductive TxKind where
  | none
  | mem
  | imm
  deriving DecidableEq, Repr

/-- The transport's receive kinds (R104); `stat` cannot be selected by the host. -/
inductive RxKind where
  | none
  | mem
  | stat
  deriving DecidableEq, Repr

/-- The arguments of a TRANSFER activation (41_fifo_transport.md R150). -/
structure XferArgs where
  txk : TxKind
  txb : Word
  imm : Byte
  rxk : RxKind
  rxb : Word
  n : Word
  skip : Word
  deriving DecidableEq, Repr

/-- Step labels of SET_SELECT (40_csr_access.md R140). -/
inductive CsLabel where
  | CS1 | CS2
  deriving DecidableEq, Repr

/-- Step labels of TRANSFER (41_fifo_transport.md R150). -/
inductive XLabel where
  | X0 | X1 | X2 | X3 | X4 | X5 | X6 | X7 | X8 | X9
  deriving DecidableEq, Repr

/-- Step labels of ISSUE (42_command_dispatcher.md R180). -/
inductive TLabel where
  | T0 | T1 | T2 | T3
  deriving DecidableEq, Repr

/-- Step labels of ISSUE_ADDR (R181). -/
inductive ALabel where
  | A0 | A1 | A2 | A3 | A4 | A5
  deriving DecidableEq, Repr

/-- Step labels of WAIT_READY (43_status_poller.md R200). -/
inductive WLabel where
  | W0 | W1 | W2 | W3 | W9
  deriving DecidableEq, Repr

/-- Step labels of DIAG_STATUS (R202). -/
inductive MLabel where
  | M0 | M1 | M2 | M3 | M9
  deriving DecidableEq, Repr

/-- Step labels of ERASE_SEQ (44_erase_sequencer.md R230). -/
inductive QLabel where
  | Q0 | Q1 | Q9
  deriving DecidableEq, Repr

/-- One activation: the sub-machine, the label it will take next (or at which it waits for its callee, when another frame
lies above it) and the arguments it was called with (00_scope.md R12, R14; 10_state.md R30). IS_ABORTED has the one label AB1
and ENABLE_WRITE the one label E1. Entry 17. -/
inductive Frame where
  | setSelect (l : CsLabel) (act : Bool)
  | isAborted
  | transfer (l : XLabel) (x : XferArgs)
  | issue (l : TLabel) (opc : Byte) (x : XferArgs)
  | issueAddr (l : ALabel) (opc : Byte) (a : FlashAddr)
  | waitReady (l : WLabel)
  | enableWrite
  | diagStatus (l : MLabel)
  | eraseSeq (l : QLabel)
  deriving DecidableEq, Repr

/-! ### Faults of the block -/

/-- The fault outcomes of 60_exceptions.md R311, each with the information it records. -/
inductive BlockFault where
  /-- code 1, raised by a CMD write that decodes to nothing (30_encoding.md R107): the CMD value -/
  | illegalOp (cmd : Word)
  /-- code 2, raised by a CMD write of ISSUE_ADDR with ARG_ADDR[31:24] not zero (R107): ARG_ADDR -/
  | badParam (argAddr : Word)
  /-- code 3, raised by a CMD write while BUSY (R112): the value written -/
  | hostOverrun (cmd : Word)
  /-- code 4, raised at X0, T0 and A0 (41 R151, 42 R180, R181): the bytes in flight and the bytes expected -/
  | entryMismatch (inFlight expected : Nat)
  /-- code 5, raised by a DR write with the transmit FIFO full (20_memory.md R65): the byte -/
  | txOverflow (b : Byte)
  /-- code 6, raised by an engine exchange with the receive FIFO full (R72): the byte received -/
  | rxOverflow (b : Byte)
  /-- code 7, raised by a DR read with the receive FIFO empty (R66) -/
  | rxUnderflow
  deriving DecidableEq, Repr

/-! ### Registers -/

/-- The host registers of 10_state.md R21 to R25. STATUS.FAULT and STATUS.FCODE mirror `State.faulted` (R43). -/
structure HostRegs where
  cmd : Word
  argAddr : Word
  argTx : Word
  argRx : Word
  argN : Word
  argSkip : Word
  /-- STATUS[0] -/
  busy : Bool
  /-- STATUS[1] -/
  aborted : Bool
  resSent : Word
  resRecv : Word
  resSkipLeft : Word
  resValue : Word
  /-- RES_STEP[7:0]; bits [31:8] read 0 -/
  resStep : Byte
  deriving DecidableEq, Repr

/-- The controller's internal registers, 10_state.md R29, in its order. -/
structure Ctl where
  /-- TOP: OP of the running operation, 0 when idle -/
  top : BitVec 4
  lOpc : Byte
  lImm : Byte
  lTxk : BitVec 2
  lRxk : BitVec 2
  lAct : Bool
  lAddr : Word
  lTx : Word
  lRx : Word
  lN : Word
  lSkip : Word
  csAct : Bool
  xTxk : TxKind
  xRxk : RxKind
  xTxb : Word
  xRxb : Word
  xImm : Byte
  txRem : Word
  rxRem : Word
  skipRem : Word
  sent : Word
  recv : Word
  /-- TL, the transmit level sampled in this iteration -/
  tl : BitVec Config.levelWidth
  /-- RL, the receive level sampled in this iteration -/
  rl : BitVec Config.levelWidth
  prog : Bool
  xabort : Bool
  xb : Byte
  dOpc : Byte
  aw : Word
  ai : BitVec 3
  pabort : Bool
  gacc : BitVec 24
  gi : BitVec 2
  gabort : Bool
  sk : BitVec 4
  sabort : Bool
  sfirst : BitVec 4
  /-- STAT: the last byte received into the `stat` destination (R27) -/
  stat : Byte
  deriving DecidableEq, Repr

/-- The serial engine's queues, head first (10_state.md R40). -/
structure Engine where
  txq : List Byte
  sh : List Byte
  rxq : List Byte
  deriving DecidableEq, Repr

/-- The chip-select state of 10_state.md R41. -/
structure ChipSelect where
  csreg : Word
  pend : Option Bool
  pin : Bool
  deriving DecidableEq, Repr

/-! ### Flash peer -/

/-- The reference peer of 45_flash_commands.md R276. -/
structure RefPeer where
  busy : Bool
  wel : Bool
  sr1h : BitVec 6
  sr2 : Byte
  sr3 : Byte
  vwe : Bool
  array : Store
  /-- JEDEC_ID, first byte returned in bits [23:16] -/
  jedec : BitVec 24
  sfdp : Store
  busyLeft : Nat
  sel : Bool
  fr : List Byte
  deriving DecidableEq, Repr

/-- PEER (10_state.md R45): absent, when no peer is fixed and every byte received is a draw (45_flash_commands.md R275), or
the reference peer. Entry 12. -/
inductive Peer where
  | absent
  | reference (p : RefPeer)
  deriving DecidableEq, Repr

/-! ### The outside -/

/-- One event of the bus trace (20_memory.md R75). -/
inductive BusEvent where
  /-- chip-select changed: `cs(1)` for true, `cs(0)` for false -/
  | cs (asserted : Bool)
  /-- a byte was exchanged with chip-select asserted -/
  | x (mosi miso : Byte)
  deriving DecidableEq, Repr

/-- The width of a host register access; only a word is inside the model (20_memory.md R83). -/
inductive AccessSize where
  | byte | half | word
  deriving DecidableEq, Repr

/-- What the host asks of the block, one request a host step. A register access names an address in the block's window: the
registers are at `HOST_BASE + offset` (10_state.md R21). Entries 4 and 19. -/
inductive HostReq where
  /-- write a host register -/
  | write (addr : Word) (size : AccessSize) (v : Word)
  /-- read a host register into `State.hostData` -/
  | read (addr : Word) (size : AccessSize)
  /-- place a byte in buffer memory (20_memory.md R60) -/
  | putByte (a : Word) (v : Byte)
  /-- read a byte of buffer memory into `State.hostData` (R60) -/
  | getByte (a : Word)
  /-- wait until STATUS.BUSY = 0 (30_encoding.md R114) -/
  | await
  /-- reset the block (70_reset_and_hazards.md R350) -/
  | reset
  deriving DecidableEq, Repr

/-! ### The state -/

/-- Everything the spec gives the machine. The last six fields are the model's own (entries 1, 2, 4, 21). -/
structure State where
  params : Params
  host : HostRegs
  ctl : Ctl
  /-- the active sub-machines, the running one first (00_scope.md R14); empty when every phase is IDLE -/
  stack : List Frame
  /-- FAULTED (10_state.md R43) -/
  faulted : Option BlockFault
  engine : Engine
  cs : ChipSelect
  /-- ABORT_IN (R44) -/
  abortIn : Word
  peer : Peer
  /-- buffer memory (20_memory.md R61) -/
  mem : Cells
  /-- the bus trace so far, oldest event first (R75); no step reads it -/
  trace : List BusEvent
  /-- what the host does next, oldest first -/
  hostQ : List HostReq
  /-- what the host's last read returned -/
  hostData : Word
  /-- choices already made by the environment, oldest first; when none is left, the free values decide -/
  sched : List Config.Choice
  /-- how many choices were taken from the free values -/
  tick : Nat
  /-- the choice of the step being taken -/
  now : Config.Choice
  deriving DecidableEq, Repr

/-! Whole-field updates. -/

def State.withHost (s : State) (h : HostRegs) : State := { s with host := h }
def State.withCtl (s : State) (c : Ctl) : State := { s with ctl := c }
def State.withStack (s : State) (k : List Frame) : State := { s with stack := k }
def State.withFaulted (s : State) (f : Option BlockFault) : State := { s with faulted := f }
def State.withEngine (s : State) (e : Engine) : State := { s with engine := e }
def State.withCs (s : State) (c : ChipSelect) : State := { s with cs := c }
def State.withAbortIn (s : State) (v : Word) : State := { s with abortIn := v }
def State.withPeer (s : State) (p : Peer) : State := { s with peer := p }
def State.withMem (s : State) (m : Cells) : State := { s with mem := m }
def State.withTrace (s : State) (t : List BusEvent) : State := { s with trace := t }
def State.withHostQ (s : State) (q : List HostReq) : State := { s with hostQ := q }
def State.withHostData (s : State) (v : Word) : State := { s with hostData := v }
def State.withChoice (s : State) (rest : List Config.Choice) (k : Nat) (c : Config.Choice) : State :=
  { s with sched := rest, tick := k, now := c }

/-! ### Reset -/

/-- The host registers after reset: all zero (10_state.md R47). -/
def HostRegs.reset : HostRegs :=
  { cmd := 0, argAddr := 0, argTx := 0, argRx := 0, argN := 0, argSkip := 0, busy := false, aborted := false,
    resSent := 0, resRecv := 0, resSkipLeft := 0, resValue := 0, resStep := 0 }

/-- The internal registers after reset: all zero, but for STAT, which R47 leaves to a draw. -/
def Ctl.reset (stat : Byte) : Ctl :=
  { top := 0, lOpc := 0, lImm := 0, lTxk := 0, lRxk := 0, lAct := false, lAddr := 0, lTx := 0, lRx := 0, lN := 0, lSkip := 0,
    csAct := false, xTxk := .none, xRxk := .none, xTxb := 0, xRxb := 0, xImm := 0, txRem := 0, rxRem := 0, skipRem := 0,
    sent := 0, recv := 0, tl := 0, rl := 0, prog := false, xabort := false, xb := 0, dOpc := 0, aw := 0, ai := 0,
    pabort := false, gacc := 0, gi := 0, gabort := false, sk := 0, sabort := false, sfirst := 0, stat := stat }

/-- The fresh reference peer (45_flash_commands.md R276). ARRAY_INIT and SFDP: erased bytes, DESIGN CHOICE, entry 13. -/
def RefPeer.fresh : RefPeer :=
  { busy := false, wel := false, sr1h := 0, sr2 := Config.sr2Init, sr3 := Config.sr3Init, vwe := false,
    array := { fill := Config.erasedByte, cells := [] }, jedec := Config.jedecId,
    sfdp := { fill := Config.erasedByte, cells := [] }, busyLeft := 0, sel := false, fr := [] }

/-- The parameters at reset: R8 where it gives a value; PRESUMED `D = 16`, `ABORT_MASK` and the five register addresses (the
RP2040's, 20_memory.md R68) and `S = 0` (the conventions of 95_test_vectors.md), and HOST_BASE 0, DESIGN CHOICE, entry 5; the whole
address space admitted, DESIGN CHOICE, entry 7. -/
def Params.reset : Params :=
  { depth := 16, hold := 0, abortMask := 0x00030000, sr2Value := 0x00, sr3Value := 0x20, seqStopOnAbort := true,
    hostBase := 0, regTxflr := 0x18000020, regRxflr := 0x18000024, regDr := 0x18000060, regCsctrl := 0x4001800C,
    regAbort := 0x4001801C,
    regions := [{ base := 0, size := 2 ^ 32, readable := true, writable := true }] }

/-- The machine right after reset, under the launch premise (10_state.md R47, R48; 70_reset_and_hazards.md R357). -/
def State.reset : State :=
  { params := Params.reset
    host := HostRegs.reset
    ctl := Ctl.reset Config.resetStat
    stack := []
    faulted := none
    engine := { txq := [], sh := [], rxq := [] }
    cs := { csreg := 0, pend := none, pin := false }
    abortIn := Config.resetAbortIn
    peer := .reference RefPeer.fresh
    mem := []
    trace := []
    hostQ := []
    hostData := 0
    sched := []
    tick := 0
    now := { agent := .controller, draw := 0 } }

end Sys2Proof.Machine
end

