-- ==== Sys2Proof/Machine/Memory.lean ====
section
/-! DEFINITION. Bytes by address in one canonical form: reading, writing, the form itself, and buffer memory under the launch
memory (20_memory.md R61, R62). -/

namespace Sys2Proof.Machine

/-! ### Cells: strictly rising addresses, no byte equal to `fill` -/

/-- The byte at `a`: the listed one, else what every unlisted address reads as. -/
def cellsRead (fill : Byte) : Cells → Nat → Byte
  | [], _ => fill
  | c :: m, a => if c.1 = a then c.2 else cellsRead fill m a

/-- List `v` at `a`, keeping the order. -/
def cellsInsert (a : Nat) (v : Byte) : Cells → Cells
  | [] => [(a, v)]
  | c :: m => if a < c.1 then (a, v) :: c :: m else if a = c.1 then (a, v) :: m else c :: cellsInsert a v m

/-- Unlist `a`. -/
def cellsErase (a : Nat) (m : Cells) : Cells := m.filter (fun c => c.1 != a)

/-- Write `v` at `a`; writing what an unlisted address reads as removes the entry. -/
def cellsWrite (fill : Byte) (m : Cells) (a : Nat) (v : Byte) : Cells :=
  if v = fill then cellsErase a m else cellsInsert a v m

/-- The canonical form of cells over addresses below `limit`. -/
abbrev cellsWf (fill : Byte) (limit : Nat) (m : Cells) : Prop :=
  m.Pairwise (fun c d => c.1 < d.1) ∧ ∀ c ∈ m, c.1 < limit ∧ c.2 ≠ fill

/-! ### Stores: cells with their own fill (45_flash_commands.md R276) -/

/-- The byte of a store at an address. -/
def storeRead (st : Store) (a : Nat) : Byte := cellsRead st.fill st.cells a

/-- Replace the byte at one address. -/
def storeWrite (st : Store) (a : Nat) (v : Byte) : Store := { st with cells := cellsWrite st.fill st.cells a v }

/-- Make every byte `v`. -/
def storeFillAll (v : Byte) : Store := { fill := v, cells := [] }

/-- Make the `size` bytes from `base` on read `v`. -/
def storeFillRange (st : Store) (base size : Nat) (v : Byte) : Store :=
  { st with
    cells :=
      st.cells.filter (fun c => c.1 < base) ++
        (if v = st.fill then [] else (List.range size).map (fun j => (base + j, v))) ++
        st.cells.filter (fun c => base + size ≤ c.1) }

/-- The canonical form of a store over addresses below `limit`. -/
abbrev storeWf (limit : Nat) (st : Store) : Prop := cellsWf st.fill limit st.cells

/-! ### Buffer memory (20_memory.md R61, R62) -/

/-- The canonical form of buffer memory: 2^32 byte addresses. -/
abbrev Memory.wf (m : Cells) : Prop := cellsWf Config.memUnlisted (2 ^ 32) m

/-- The byte of buffer memory at `a`, whether or not the launch memory admits an access to it. -/
def byteAt (m : Cells) (a : Word) : Byte := cellsRead Config.memUnlisted m a.toNat

/-- Does one of the regions hold `a`? -/
def Region.holds (r : Region) (a : Word) : Bool := r.base ≤ a.toNat && a.toNat < r.base + r.size

/-- Does the launch memory admit a read of `a` (R61)? -/
def admitsRead (p : Params) (a : Word) : Bool := p.regions.any (fun r => r.readable && r.holds a)

/-- Does the launch memory admit a write of `a` (R61)? -/
def admitsWrite (p : Params) (a : Word) : Bool := p.regions.any (fun r => r.writable && r.holds a)

/-- `MemRead(a, 1)` (R62); none where the launch memory refuses it. -/
def memRead (a : Word) (s : State) : Option Byte :=
  if admitsRead s.params a then some (byteAt s.mem a) else none

/-- `MemWrite(a, 1, v)` (R62); none where the launch memory refuses it. -/
def memWrite (a : Word) (v : Byte) (s : State) : Option State :=
  if admitsWrite s.params a then some (s.withMem (cellsWrite Config.memUnlisted s.mem a.toNat v)) else none

end Sys2Proof.Machine
end

