-- ==== Sys2Proof/Machine/FlashRead.lean ====
section
/-! DEFINITION. The flash commands that return data, on the device's side: what the reference peer answers for the byte being
exchanged (45_flash_commands.md R277). `rest` is the frame after its opcode, the byte being exchanged last, so the byte's
position is `k = rest.length`; a frame of the opcode alone (`k = 0`) is answered before any of these is asked. -/

namespace Sys2Proof.Machine

/-- `A = FR[1] ++ FR[2] ++ FR[3]` (R277, R278): the first three bytes after the opcode. -/
def frameAddress (rest : List Byte) : FlashAddr :=
  (rest[0]?.getD 0 : Byte) ++ (rest[1]?.getD 0 : Byte) ++ (rest[2]?.getD 0 : Byte)

/-- Status register 1 as read: `SR1H ++ WEL ++ BUSY` (R276). -/
def peerSr1 (p : RefPeer) : Byte := p.sr1h ++ BitVec.ofBool p.wel ++ BitVec.ofBool p.busy

/-- A command that returns nothing (R277, last case). -/
def answerIdle (_rest : List Byte) (_p : RefPeer) : Byte := Config.idleMiso

/-- 0x05: the current value of status register 1 for every byte after the opcode (R262, R277). -/
def answerRdsr1 (_rest : List Byte) (p : RefPeer) : Byte := peerSr1 p

/-- 0x35: status register 2 (R272, R277). -/
def answerRdsr2 (_rest : List Byte) (p : RefPeer) : Byte := p.sr2

/-- 0x15: status register 3 (R273, R277). -/
def answerRdsr3 (_rest : List Byte) (p : RefPeer) : Byte := p.sr3

/-- Byte `k - 1` of JEDEC_ID. -/
def jedecByte (jedec : BitVec 24) (k : Nat) : Byte := jedec.extractLsb' (8 * (3 - k)) 8

/-- 0x9F: the identification in positions 1 to 3, nothing while busy (R266, R277). -/
def answerRdid (rest : List Byte) (p : RefPeer) : Byte :=
  if p.busy then Config.idleMiso
  else if rest.length ≤ 3 then jedecByte p.jedec rest.length
  else Config.idleMiso

/-- 0x03: from position 4 on the array's bytes from the address on, modulo 2^24; nothing while busy (R261, R277). -/
def answerRead (rest : List Byte) (p : RefPeer) : Byte :=
  if p.busy then Config.idleMiso
  else if 4 ≤ rest.length then
    storeRead p.array (((frameAddress rest).toNat + rest.length - 4) % 2 ^ 24)
  else Config.idleMiso

/-- 0x5A: after the dummy byte, from position 5 on, the table's bytes from the address on, modulo 256; nothing while busy
(R265, R277). -/
def answerRdsfdp (rest : List Byte) (p : RefPeer) : Byte :=
  if p.busy then Config.idleMiso
  else if 5 ≤ rest.length then
    storeRead p.sfdp (((frameAddress rest).toNat + rest.length - 5) % 256)
  else Config.idleMiso

end Sys2Proof.Machine
end

