-- ==== Sys2Proof/Machine/FlashWrite.lean ====
section
/-! DEFINITION. The flash commands that change the device, on the device's side: what the reference peer does with a whole
frame at the deselect, when it is not busy (45_flash_commands.md R278). `rest` is the frame after its opcode, so the frame's
length is `L = rest.length + 1`; `draw` is the step's free number, of which BUSY_LEFT takes `draw() >= 1`. -/

namespace Sys2Proof.Machine

/-- `BUSY <- 1; BUSY_LEFT <- draw() >= 1` (R278). -/
def peerStartBusy (draw : Nat) (p : RefPeer) : RefPeer := { p with busy := true, busyLeft := draw + 1 }

/-- A command that does nothing at the deselect (R278, last line). -/
def commitNothing (_rest : List Byte) (_draw : Nat) (p : RefPeer) : RefPeer := p

/-- 0x06: WEL <- 1 (R263, R278). -/
def commitWren (_rest : List Byte) (_draw : Nat) (p : RefPeer) : RefPeer := { p with wel := true }

/-- 0x50: VWE <- 1 (R268, R278). -/
def commitVwren (_rest : List Byte) (_draw : Nat) (p : RefPeer) : RefPeer := { p with vwe := true }

/-- A status-register write whose register is set by `write` (R278): persistent and busy under WEL, volatile under VWE, else
without effect; both enables end with it. A frame without its data byte does nothing (R280). -/
def commitStatusWrite (write : Byte → RefPeer → RefPeer) (rest : List Byte) (draw : Nat) (p : RefPeer) : RefPeer :=
  match rest with
  | [] => p
  | b :: _ =>
    let p' := if p.wel then peerStartBusy draw (write b p) else if p.vwe then write b p else p
    { p' with wel := false, vwe := false }

/-- 0x01: status register 1, bits [7:2] only (R269, R278). -/
def commitWrsr1 : List Byte → Nat → RefPeer → RefPeer :=
  commitStatusWrite (fun b p => { p with sr1h := b.extractLsb' 2 6 })

/-- 0x31: status register 2 (R270, R278). -/
def commitWrsr2 : List Byte → Nat → RefPeer → RefPeer :=
  commitStatusWrite (fun b p => { p with sr2 := b })

/-- 0x11: status register 3 (R271, R278). -/
def commitWrsr3 : List Byte → Nat → RefPeer → RefPeer :=
  commitStatusWrite (fun b p => { p with sr3 := b })

/-- 0xC7, a frame of the opcode alone: under WEL every array byte is erased (R267, R278). -/
def commitCe (rest : List Byte) (draw : Nat) (p : RefPeer) : RefPeer :=
  if rest.length = 0 then
    let p' := if p.wel then peerStartBusy draw { p with array := storeFillAll Config.erasedByte } else p
    { p' with wel := false }
  else p

/-- 0x20, a frame of four bytes: under WEL the 4096 bytes of the address's sector are erased (R264, R278). -/
def commitSe (rest : List Byte) (draw : Nat) (p : RefPeer) : RefPeer :=
  if rest.length = 3 then
    let p' :=
      if p.wel then
        peerStartBusy draw
          { p with
            array := storeFillRange p.array (frameAddress rest &&& 0xFFF000#24).toNat 4096 Config.erasedByte }
      else p
    { p' with wel := false }
  else p

/-- The array address of the data byte at position `i`: the page of `A`, wrapping within it (R278). -/
def pageAddress (a : FlashAddr) (i : Nat) : FlashAddr :=
  (a &&& 0xFFFF00#24) + ((a + BitVec.ofNat 24 i) &&& 0xFF#24)

/-- Program the data bytes in order, each by AND; only the last 256 count (R278). -/
def programPage (a : FlashAddr) (data : List Byte) (array : Store) : Store :=
  (data.zipIdx.drop (data.length - 256)).foldl
    (fun st d => storeWrite st (pageAddress a d.2).toNat (storeRead st (pageAddress a d.2).toNat &&& d.1)) array

/-- 0x02, a frame of at least five bytes: under WEL its data bytes are programmed (R260, R278). -/
def commitPp (rest : List Byte) (draw : Nat) (p : RefPeer) : RefPeer :=
  if 4 ≤ rest.length then
    let p' :=
      if p.wel then
        peerStartBusy draw { p with array := programPage (frameAddress rest) (rest.drop 3) p.array }
      else p
    { p' with wel := false }
  else p

end Sys2Proof.Machine
end

