-- ==== Sys2Proof/Machine/Device.lean ====
section
/-! DEFINITION. The flash peer's side of the interface of 45_flash_commands.md R275: select, exchange, deselect, tick. -/

namespace Sys2Proof.Machine

/-- `PeerSelect` (R277). -/
def peerSelect (p : RefPeer) : RefPeer := { p with sel := true, fr := [] }

/-- `PeerTick` (R279). -/
def peerTick (p : RefPeer) : RefPeer :=
  if 0 < p.busyLeft then { p with busyLeft := p.busyLeft - 1, busy := if p.busyLeft - 1 = 0 then false else p.busy } else p

/-- What a device that is not busy does with a whole frame, by its command (R278). -/
def commitFrame (i : Instr) (draw : Nat) (p : RefPeer) : RefPeer :=
  match i with
  | .flashPp rest => commitPp rest draw p
  | .flashRead rest => commitNothing rest draw p
  | .flashRdsr1 rest => commitNothing rest draw p
  | .flashWren rest => commitWren rest draw p
  | .flashSe rest => commitSe rest draw p
  | .flashRdsfdp rest => commitNothing rest draw p
  | .flashRdid rest => commitNothing rest draw p
  | .flashCe rest => commitCe rest draw p
  | .flashVwren rest => commitVwren rest draw p
  | .flashWrsr1 rest => commitWrsr1 rest draw p
  | .flashWrsr2 rest => commitWrsr2 rest draw p
  | .flashWrsr3 rest => commitWrsr3 rest draw p
  | .flashRdsr2 rest => commitNothing rest draw p
  | .flashRdsr3 rest => commitNothing rest draw p
  | .setSelect _ => p
  | .isAborted _ => p
  | .transfer _ => p
  | .issue _ => p
  | .issueAddr _ => p
  | .waitReady _ => p
  | .enableWrite _ => p
  | .eraseSeq _ => p
  | .diagStatus _ => p

/-- The deselect of a frame that `commit` executes: a command while busy is ignored; SEL and FR end with the frame (R278). -/
def peerEndFrame (commit : Nat → RefPeer → RefPeer) (draw : Nat) (p : RefPeer) : RefPeer :=
  let p' := if p.busy then p else commit draw p
  { p' with sel := false, fr := [] }

/-- `PeerDeselect` (R278): the frame's command, if it has one, is executed. -/
def peerDeselect (draw : Nat) (p : RefPeer) : RefPeer :=
  match decodeFrame p.fr with
  | .ok i => peerEndFrame (commitFrame i) draw p
  | .error _ => peerEndFrame (fun _ p => p) draw p

end Sys2Proof.Machine
end

