-- ==== Sys2Proof/Machine/Ops.lean ====
section
/-! DEFINITION. The operations every step is made of: entering a fault and leaving it, the register port (20_memory.md R64 to
R69), the chip-select pin, the serial engine's steps (R71, R72, R77), and the draws of a step. -/

namespace Sys2Proof.Machine

/-! ### Faults (60_exceptions.md R311, R312; 70_reset_and_hazards.md R350) -/

/-- Entering a fault: FAULTED takes the fault, of which STATUS.FAULT and STATUS.FCODE are the mirror; the first is kept
(10_state.md R43). Nothing else changes: BUSY keeps its value and no result register is written (R312). -/
def raise (f : BlockFault) (s : State) : State :=
  match s.faulted with
  | some _ => s
  | none => s.withFaulted (some f)

/-- The block's reset, the only way out of a fault (R350): the block's own state takes its reset values (R47), STAT a draw;
the engine, the pin, the abort signal, the peer and memory stay as they are (R351). -/
def blockReset (stat : Byte) (s : State) : State :=
  (((s.withHost HostRegs.reset).withCtl (Ctl.reset stat)).withStack []).withFaulted none

/-! ### Draws of the step (00_scope.md R12) -/

/-- The step's drawn byte. -/
def drawByte (s : State) : Byte := BitVec.ofNat 8 s.now.draw

/-- The step's drawn word. -/
def drawWord (s : State) : Word := BitVec.ofNat 32 s.now.draw

/-! ### Bus trace (20_memory.md R75) -/

def logEvent (e : BusEvent) (s : State) : State := s.withTrace (s.trace ++ [e])

/-! ### Chip-select pin (R67, R77; 45_flash_commands.md R275) -/

/-- PEER after the pin changes to `c`. -/
def peerSeesPin (c : Bool) (draw : Nat) : Peer → Peer
  | .absent => .absent
  | .reference p => .reference (if c then peerSelect p else peerDeselect draw p)

/-- The chip-select line takes the state `c`; a change is an event of the bus and is told to the peer. -/
def setPin (c : Bool) (s : State) : State :=
  if s.cs.pin = c then s
  else
    (logEvent (.cs c) (s.withCs { s.cs with pin := c })).withPeer (peerSeesPin c s.now.draw s.peer)

/-- A pending chip-select write reaches the pin; nothing happens when none is pending. -/
def applyPend (s : State) : State :=
  match s.cs.pend with
  | none => s
  | some c => setPin c (s.withCs { s.cs with pend := none })

/-! ### Register port (R64 to R69) -/

/-- The controller-side registers (10_state.md R34). -/
inductive PortReg where
  /-- transmit FIFO level (R35) -/
  | txflr
  /-- receive FIFO level (R36) -/
  | rxflr
  /-- data register (R37) -/
  | dr
  /-- chip-select override (R38) -/
  | csctrl
  /-- abort signal (R39) -/
  | abortreg
  deriving DecidableEq, Repr

/-- Where each register is: the parameter addresses of 00_scope.md R8 (R86). The block's own accesses name the register, and no
rule's effect depends on its address (entry 19). -/
def portAddress (p : Params) : PortReg → Word
  | .txflr => p.regTxflr
  | .rxflr => p.regRxflr
  | .dr => p.regDr
  | .csctrl => p.regCsctrl
  | .abortreg => p.regAbort

/-- The register at an address, if one is there. -/
def portAt (p : Params) (a : Word) : Option PortReg :=
  [PortReg.txflr, .rxflr, .dr, .csctrl, .abortreg].find? (fun r => portAddress p r == a)

/-- The in-flight count IF (R73, 10_state.md R42). -/
def inFlight (s : State) : Nat := s.engine.txq.length + s.engine.sh.length + s.engine.rxq.length

/-- `RegRead(TXFLR)` (R64): the level in bits [LEVEL_W-1:0], other bits 0 (10_state.md R35). -/
def readTxflr (s : State) : Word := (BitVec.ofNat Config.levelWidth s.engine.txq.length).setWidth 32

/-- `RegRead(RXFLR)` (R64, R36). -/
def readRxflr (s : State) : Word := (BitVec.ofNat Config.levelWidth s.engine.rxq.length).setWidth 32

/-- `RegWrite(DR, v)` (R65). -/
def writeDr (v : Word) (s : State) : Except BlockFault State :=
  if s.engine.txq.length = s.params.depth then .error (.txOverflow (v.setWidth 8))
  else .ok (s.withEngine { s.engine with txq := s.engine.txq ++ [v.setWidth 8] })

/-- `RegRead(DR)` (R66). -/
def readDr (s : State) : Except BlockFault (Word × State) :=
  match s.engine.rxq with
  | [] => .error .rxUnderflow
  | h :: t => .ok (h.setWidth 32, s.withEngine { s.engine with rxq := t })

/-- `RegWrite(CSCTRL, v)` (R67): posted. -/
def writeCsctrl (v : Word) (s : State) : State :=
  s.withCs { s.cs with csreg := v, pend := some (v.getLsbD 0) }

/-- `RegRead(CSCTRL)` (R67): the value, after a pending write reached the pin. -/
def readCsctrl (s : State) : Word × State := (s.cs.csreg, applyPend s)

/-- `RegRead(ABORTREG)` (R69). -/
def readAbortreg (s : State) : Word := s.abortIn

/-! ### Serial engine (R71, R72) -/

/-- EN_LOAD (R71). -/
def engineLoad (s : State) : State :=
  match s.engine.txq with
  | [] => s
  | h :: t =>
    if s.engine.sh.length < s.params.hold then s.withEngine { s.engine with txq := t, sh := s.engine.sh ++ [h] } else s

/-- The byte EN_XCHG transmits, and the state with it removed: the head of SH, or of TXQ when `S = 0` (R72). -/
def engineTake (s : State) : Option (Byte × State) :=
  if 1 ≤ s.params.hold then
    match s.engine.sh with
    | [] => none
    | m :: t => some (m, s.withEngine { s.engine with sh := t })
  else
    match s.engine.txq with
    | [] => none
    | m :: t => some (m, s.withEngine { s.engine with txq := t })

/-- The received byte enters the receive FIFO, or RxOverflow (R72). -/
def engineReceive (miso : Byte) (s : State) : State :=
  if s.engine.rxq.length = s.params.depth then raise (.rxOverflow miso) s
  else s.withEngine { s.engine with rxq := s.engine.rxq ++ [miso] }

/-- The exchange of `m` that nothing answers: with chip-select deasserted the peer does not see it (R76); with no peer fixed
its answer is not known (45_flash_commands.md R275). The byte received is a draw. -/
def exchangeDrawn (m : Byte) (s : State) : State :=
  engineReceive (drawByte s) (if s.cs.pin then logEvent (.x m (drawByte s)) s else s)

/-- The exchange of `m` that the reference peer answers with `miso`, its frame then being `frame` (R277). -/
def exchangeAnswered (m miso : Byte) (frame : List Byte) (p : RefPeer) (s : State) : State :=
  engineReceive miso (logEvent (.x m miso) (s.withPeer (.reference { p with fr := frame })))

/-! ### The abort environment (R81) -/

/-- ABORT_IN takes any value. -/
def abortEnvStep (s : State) : State := s.withAbortIn (drawWord s)

/-- The peer's own step (45_flash_commands.md R279). -/
def peerTickStep (s : State) : State :=
  match s.peer with
  | .absent => s
  | .reference p => s.withPeer (.reference (peerTick p))

end Sys2Proof.Machine
end

