-- ==== Sys2Proof/Machine/FlashOps.lean ====
section
/-! DEFINITION. The meanings of the fourteen flash commands, at the device (45_flash_commands.md R260 to R273). A flash
command is a frame: while chip-select is asserted its meaning is the answer to the frame's last byte (R277), at the deselect
it is the frame's execution (R278) (entry 23). The frame after its opcode is `rest`. -/

namespace Sys2Proof.Machine

/-- A flash command's meaning, shared by the fourteen. With chip-select asserted the frame's last byte is exchanged: the
opcode is answered by IDLE_MISO, a later byte by `answer` (R277). With chip-select deasserted the frame ends and `commit`
executes it unless the device is busy (R278). With no peer fixed, the byte received is a draw and the deselect has no effect
to model (R275). -/
def flashCommand (opc : Byte) (rest : List Byte) (answer : List Byte → RefPeer → Byte)
    (commit : List Byte → Nat → RefPeer → RefPeer) (s : State) : Host.Outcome State Fault Refusal :=
  match s.peer, s.cs.pin with
  | .absent, true => .next (exchangeDrawn ((opc :: rest).getLastD opc) s)
  | .absent, false => .next s
  | .reference p, true =>
    .next
      (exchangeAnswered ((opc :: rest).getLastD opc) (if rest = [] then Config.idleMiso else answer rest p) (opc :: rest) p s)
  | .reference p, false => .next (s.withPeer (.reference (peerEndFrame (commit rest) s.now.draw p)))

/-- 0x02 page program (R260). -/
def execFlashPp (rest : List Byte) (s : State) : Host.Outcome State Fault Refusal :=
  flashCommand Config.opcPp rest answerIdle commitPp s

/-- 0x03 read data (R261). -/
def execFlashRead (rest : List Byte) (s : State) : Host.Outcome State Fault Refusal :=
  flashCommand Config.opcRead rest answerRead commitNothing s

/-- 0x05 read status register 1 (R262). -/
def execFlashRdsr1 (rest : List Byte) (s : State) : Host.Outcome State Fault Refusal :=
  flashCommand Config.opcRdsr1 rest answerRdsr1 commitNothing s

/-- 0x06 write enable (R263). -/
def execFlashWren (rest : List Byte) (s : State) : Host.Outcome State Fault Refusal :=
  flashCommand Config.opcWren rest answerIdle commitWren s

/-- 0x20 sector erase (R264). -/
def execFlashSe (rest : List Byte) (s : State) : Host.Outcome State Fault Refusal :=
  flashCommand Config.opcSe rest answerIdle commitSe s

/-- 0x5A read SFDP (R265). -/
def execFlashRdsfdp (rest : List Byte) (s : State) : Host.Outcome State Fault Refusal :=
  flashCommand Config.opcRdsfdp rest answerRdsfdp commitNothing s

/-- 0x9F read JEDEC ID (R266). -/
def execFlashRdid (rest : List Byte) (s : State) : Host.Outcome State Fault Refusal :=
  flashCommand Config.opcRdid rest answerRdid commitNothing s

/-- 0xC7 chip erase (R267). -/
def execFlashCe (rest : List Byte) (s : State) : Host.Outcome State Fault Refusal :=
  flashCommand Config.opcCe rest answerIdle commitCe s

/-- 0x50 volatile status-register write enable (R268). -/
def execFlashVwren (rest : List Byte) (s : State) : Host.Outcome State Fault Refusal :=
  flashCommand Config.opcVwren rest answerIdle commitVwren s

/-- 0x01 write status register 1 (R269). -/
def execFlashWrsr1 (rest : List Byte) (s : State) : Host.Outcome State Fault Refusal :=
  flashCommand Config.opcWrsr1 rest answerIdle commitWrsr1 s

/-- 0x31 write status register 2 (R270). -/
def execFlashWrsr2 (rest : List Byte) (s : State) : Host.Outcome State Fault Refusal :=
  flashCommand Config.opcWrsr2 rest answerIdle commitWrsr2 s

/-- 0x11 write status register 3 (R271). -/
def execFlashWrsr3 (rest : List Byte) (s : State) : Host.Outcome State Fault Refusal :=
  flashCommand Config.opcWrsr3 rest answerIdle commitWrsr3 s

/-- 0x35 read status register 2 (R272). -/
def execFlashRdsr2 (rest : List Byte) (s : State) : Host.Outcome State Fault Refusal :=
  flashCommand Config.opcRdsr2 rest answerRdsr2 commitNothing s

/-- 0x15 read status register 3 (R273). -/
def execFlashRdsr3 (rest : List Byte) (s : State) : Host.Outcome State Fault Refusal :=
  flashCommand Config.opcRdsr3 rest answerRdsr3 commitNothing s

end Sys2Proof.Machine
end

