-- ==== Sys2Proof/Machine/Operands.lean ====
section
/-! DEFINITION. Operand assembly: the transport's kinds, effective addresses, the command/address word, the arguments each
operation activates its sub-machine with, and the rows of the erase sequence (30_encoding.md R104 to R106; 20_memory.md R63;
44_erase_sequencer.md R231). -/

namespace Sys2Proof.Machine

/-- TXK of a command word (R104). Value 3 is refused at the CMD write (R107 (c)) and selects nothing. -/
def TxKind.ofBits (b : BitVec 2) : TxKind := if b = 1#2 then .mem else if b = 2#2 then .imm else .none

/-- RXK of a command word (R104). Values 2 and 3 are refused at the CMD write (R107 (d)) and select nothing. -/
def RxKind.ofBits (b : BitVec 2) : RxKind := if b = 1#2 then .mem else .none

/-- The address of the transmit byte at payload position `i`: `(X_TXB + i) mod 2^32` (20_memory.md R63). -/
def txAddress (c : Ctl) : Word := c.xTxb + c.sent

/-- The address of the received payload byte at position RECV: `(X_RXB + i) mod 2^32` (R63). -/
def rxAddress (c : Ctl) : Word := c.xRxb + c.recv

/-- FLASH_ADDR assembly (R106): `AW = OPC ++ a`. -/
def addressWord (opc : Byte) (a : FlashAddr) : Word := opc ++ a

/-- Byte `k` of AW, most significant first: `AW[31-8k : 24-8k]` (R106). -/
def addressByte (aw : Word) (k : Nat) : Byte := aw.extractLsb' (24 - 8 * k) 8

/-- The arguments of a host TRANSFER, from the latched registers (41_fifo_transport.md R150). -/
def hostXfer (c : Ctl) : XferArgs :=
  { txk := TxKind.ofBits c.lTxk, txb := c.lTx, imm := c.lImm, rxk := RxKind.ofBits c.lRxk, rxb := c.lRx, n := c.lN,
    skip := c.lSkip }

/-- The TRANSFER arguments of an ISSUE: `skip = 1`, the opcode's echo (42_command_dispatcher.md R180, T3). -/
def issueXfer (x : XferArgs) : XferArgs := { x with skip := 1 }

/-- No payload: the arguments of `ISSUE(opc, none, 0, 0x00, none, 0, 0)`. -/
def noPayload : XferArgs := { txk := .none, txb := 0, imm := 0, rxk := .none, rxb := 0, n := 0, skip := 1 }

/-- One status byte into STAT: the arguments of `ISSUE(opc, none, 0, 0x00, stat, 0, 1)`. -/
def statusRead : XferArgs := { txk := .none, txb := 0, imm := 0, rxk := .stat, rxb := 0, n := 1, skip := 1 }

/-- One constant byte: the arguments of `ISSUE(opc, imm, 0, v, none, 0, 1)`. -/
def constantWrite (v : Byte) : XferArgs := { txk := .imm, txb := 0, imm := v, rxk := .none, rxb := 0, n := 1, skip := 1 }

/-- SEQCALL(k), the call in row `k` of 44_erase_sequencer.md R231. -/
def seqCall (p : Params) (k : BitVec 4) : Frame :=
  match k.toNat with
  | 0 => .issue .T0 Config.opcVwren noPayload
  | 1 => .issue .T0 Config.opcWrsr2 (constantWrite p.sr2Value)
  | 2 => .waitReady .W0
  | 3 => .enableWrite
  | 4 => .issue .T0 Config.opcCe noPayload
  | 5 => .waitReady .W0
  | 6 => .enableWrite
  | 7 => .issue .T0 Config.opcWrsr2 (constantWrite p.sr2Value)
  | 8 => .waitReady .W0
  | 9 => .enableWrite
  | 10 => .issue .T0 Config.opcWrsr3 (constantWrite p.sr3Value)
  | _ => .waitReady .W0

/-- STEP(k), the source's step number of row `k` (R231). -/
def seqStep (k : BitVec 4) : Byte :=
  match k.toNat with
  | 0 => 1
  | 1 => 2
  | 2 => 2
  | 3 => 3
  | 4 => 3
  | 5 => 3
  | 6 => 4
  | 7 => 4
  | 8 => 4
  | 9 => 5
  | 10 => 5
  | 11 => 5
  | _ => 0

end Sys2Proof.Machine
end

