-- ==== Sys2Proof/Machine/Flags.lean ====
section
/-! DEFINITION. The flags and the conditions steps decide on: STATUS (10_state.md R24), the abort test (R39), and the
transport's end, enqueue and dequeue conditions (41_fifo_transport.md R154, R156, R158). -/

namespace Sys2Proof.Machine

/-- The code of a fault (60_exceptions.md R311). -/
def BlockFault.code : BlockFault → BitVec 4
  | .illegalOp _ => 1
  | .badParam _ => 2
  | .hostOverrun _ => 3
  | .entryMismatch _ _ => 4
  | .txOverflow _ => 5
  | .rxOverflow _ => 6
  | .rxUnderflow => 7

/-- STATUS.FCODE (R24): 0 when FAULT = 0. -/
def faultCode (s : State) : BitVec 4 :=
  match s.faulted with
  | none => 0
  | some f => f.code

/-- STATUS as the host reads it (R24). -/
def statusWord (s : State) : Word :=
  0#24 ++ faultCode s ++ 0#1 ++ BitVec.ofBool s.faulted.isSome ++ BitVec.ofBool s.host.aborted ++ BitVec.ofBool s.host.busy

/-- The abort test of a sample: `(v & ABORT_MASK) != 0` (R39, 40_csr_access.md R141). -/
def abortTest (p : Params) (v : Word) : Bool := (v &&& p.abortMask) != 0

/-- Is ARG_ADDR more than 24 bits (30_encoding.md R107, BadParam)? -/
def addressTooWide (a : Word) : Bool := a.extractLsb' 24 8 != 0#8

/-- The loop of TRANSFER is over: X1 (41_fifo_transport.md R158). -/
def transferDone (c : Ctl) : Bool := c.txRem == 0 && c.skipRem == 0 && c.rxRem == 0

/-- The enqueue guard of X4: `TX_REM > 0 and TL + RL < D - 2`, on natural numbers (R154). -/
def mayEnqueue (p : Params) (c : Ctl) : Bool := c.txRem != 0 && decide (c.tl.toNat + c.rl.toNat + 2 < p.depth)

/-- The dequeue condition of X6: `RL > 0 and (SKIP_REM > 0 or RX_REM > 0)` (R156). -/
def mayDequeue (c : Ctl) : Bool := c.rl != 0 && (c.skipRem != 0 || c.rxRem != 0)

/-- STAT[0], "operation in progress" (43_status_poller.md R200). -/
def statBusy (c : Ctl) : Bool := c.stat.getLsbD 0

end Sys2Proof.Machine
end

