-- ==== Sys2Proof/Machine/Activation.lean ====
section
/-! DEFINITION. What an activation of a sub-machine returns, and what one labelled line of it does to the stack of
activations (00_scope.md R12, R13, R14; 10_state.md R30). -/

namespace Sys2Proof.Machine

/-- The result `r` of an activation, by the sub-machine that returns it. -/
inductive Result where
  /-- SET_SELECT and ISSUE_ADDR: Completed, and nothing else (40_csr_access.md R140, 42_command_dispatcher.md R181) -/
  | completed
  /-- IS_ABORTED: the sample (40 R141) -/
  | sampled (set : Bool)
  /-- TRANSFER, ISSUE and ENABLE_WRITE (41_fifo_transport.md R150) -/
  | moved (aborted : Bool) (sent recv skipLeft : Word)
  /-- WAIT_READY: the last status byte (43_status_poller.md R200) -/
  | polled (aborted : Bool) (stat : Byte)
  /-- DIAG_STATUS: the composite (R202) -/
  | composite (aborted : Bool) (acc : BitVec 24)
  /-- ERASE_SEQ: the first aborted row and its source step (44_erase_sequencer.md R230) -/
  | sequenced (aborted : Bool) (first : BitVec 4) (step : Byte)
  deriving DecidableEq, Repr

/-- `r.status = Aborted`; SET_SELECT, IS_ABORTED and ISSUE_ADDR never return it (60_exceptions.md R316). -/
def Result.isAborted : Result → Bool
  | .completed => false
  | .sampled _ => false
  | .moved a _ _ _ => a
  | .polled a _ => a
  | .composite a _ => a
  | .sequenced a _ _ => a

/-- What a labelled line of the top activation does. -/
inductive Act where
  /-- the activation goes on at the given frame's label -/
  | goto (self : Frame) (s : State)
  /-- the activation waits at `self` for `callee` -/
  | call (self callee : Frame) (s : State)
  /-- the activation ends with a result -/
  | done (r : Result) (s : State)
  /-- the activation stays at its line: the step entered a fault, or the line has no step (20_memory.md R61) -/
  | halt (s : State)
  deriving DecidableEq, Repr

end Sys2Proof.Machine
end

