-- ==== Sys2Proof/Machine/ChipSelect.lean ====
section
/-! DEFINITION. The Chip-Select Controller and the Abort Monitor: the lines of SET_SELECT and IS_ABORTED (40_csr_access.md
R140, R141). -/

namespace Sys2Proof.Machine

/-- `zext_32(act)`, the value SET_SELECT writes to CSCTRL (R140). -/
def selectWord (act : Bool) : Word := (BitVec.ofBool act).setWidth 32

/-- SET_SELECT (R140). -/
def stepSetSelect (l : CsLabel) (act : Bool) (s : State) : Act :=
  match l with
  | .CS1 => .goto (.setSelect .CS2 act) (writeCsctrl (selectWord act) (s.withCtl { s.ctl with csAct := act }))
  | .CS2 => .done .completed (readCsctrl s).2

/-- IS_ABORTED (R141). -/
def stepIsAborted (s : State) : Act := .done (.sampled (abortTest s.params (readAbortreg s))) s

end Sys2Proof.Machine
end

