-- ==== Sys2Proof/Machine/Dispatcher.lean ====
section
/-! DEFINITION. The Command Dispatcher: the lines of ISSUE and ISSUE_ADDR and what they do when a callee returns
(42_command_dispatcher.md R180, R181). -/

namespace Sys2Proof.Machine

/-- ISSUE (R180). -/
def stepIssue (l : TLabel) (opc : Byte) (x : XferArgs) (s : State) : Act :=
  match l with
  | .T0 =>
    if inFlight s = 0 then .goto (.issue .T1 opc x) (s.withCtl { s.ctl with dOpc := opc })
    else .halt (raise (.entryMismatch (inFlight s) 0) s)
  | .T1 => .call (.issue .T1 opc x) (.setSelect .CS1 true) s
  | .T2 =>
    match writeDr (s.ctl.dOpc.setWidth 32) s with
    | .ok s' => .goto (.issue .T3 opc x) s'
    | .error f => .halt (raise f s)
  | .T3 => .call (.issue .T3 opc x) (.transfer .X0 x) s

/-- ISSUE when its callee returns: T1's SET_SELECT, T3's TRANSFER, whose result it returns (R180). -/
def resumeIssue (l : TLabel) (opc : Byte) (x : XferArgs) (r : Result) (s : State) : Act :=
  match l with
  | .T1 => .goto (.issue .T2 opc x) s
  | .T3 => .done r s
  | .T0 => .goto (.issue .T0 opc x) s
  | .T2 => .goto (.issue .T2 opc x) s

/-- A line A2 to A5: byte `k` of AW into DR, `AI <- k + 1` (R181). -/
def sendAddressByte (k : Nat) (s : State) : Except BlockFault State :=
  match writeDr ((addressByte s.ctl.aw k).setWidth 32) s with
  | .ok s' => .ok (s'.withCtl { s'.ctl with ai := BitVec.ofNat 3 (k + 1) })
  | .error f => .error f

/-- ISSUE_ADDR (R181). -/
def stepIssueAddr (l : ALabel) (opc : Byte) (a : FlashAddr) (s : State) : Act :=
  match l with
  | .A0 =>
    if inFlight s = 0 then
      .goto (.issueAddr .A1 opc a) (s.withCtl { s.ctl with aw := addressWord opc a, ai := 0 })
    else .halt (raise (.entryMismatch (inFlight s) 0) s)
  | .A1 => .call (.issueAddr .A1 opc a) (.setSelect .CS1 true) s
  | .A2 =>
    match sendAddressByte 0 s with
    | .ok s' => .goto (.issueAddr .A3 opc a) s'
    | .error f => .halt (raise f s)
  | .A3 =>
    match sendAddressByte 1 s with
    | .ok s' => .goto (.issueAddr .A4 opc a) s'
    | .error f => .halt (raise f s)
  | .A4 =>
    match sendAddressByte 2 s with
    | .ok s' => .goto (.issueAddr .A5 opc a) s'
    | .error f => .halt (raise f s)
  | .A5 =>
    match sendAddressByte 3 s with
    | .ok s' => .done .completed s'
    | .error f => .halt (raise f s)

/-- ISSUE_ADDR when A1's SET_SELECT returns (R181). -/
def resumeIssueAddr (l : ALabel) (opc : Byte) (a : FlashAddr) (s : State) : Act :=
  match l with
  | .A1 => .goto (.issueAddr .A2 opc a) s
  | l => .goto (.issueAddr l opc a) s

end Sys2Proof.Machine
end

