-- ==== Sys2Proof/Machine/Poller.lean ====
section
/-! DEFINITION. The Status Poller: the lines of WAIT_READY, ENABLE_WRITE and DIAG_STATUS and what they do when a callee returns
(43_status_poller.md R200, R201, R202). -/

namespace Sys2Proof.Machine

/-- WAIT_READY (R200). -/
def stepWaitReady (l : WLabel) (s : State) : Act :=
  match l with
  | .W0 => .goto (.waitReady .W1) (s.withCtl { s.ctl with pabort := false })
  | .W1 => .call (.waitReady .W1) (.issue .T0 Config.opcRdsr1 statusRead) s
  | .W2 => if statBusy s.ctl then .goto (.waitReady .W3) s else .goto (.waitReady .W9) s
  | .W3 => .call (.waitReady .W3) .isAborted s
  | .W9 => .done (.polled s.ctl.pabort s.ctl.stat) s

/-- WAIT_READY when its callee returns: W1's ISSUE, W3's abort sample (R200, R205). -/
def resumeWaitReady (l : WLabel) (r : Result) (s : State) : Act :=
  match l, r with
  | .W1, r => .goto (.waitReady .W2) (if r.isAborted then s.withCtl { s.ctl with pabort := true } else s)
  | .W3, .sampled true => .goto (.waitReady .W9) (s.withCtl { s.ctl with pabort := true })
  | .W3, _ => .goto (.waitReady .W1) s
  | l, _ => .goto (.waitReady l) s

/-- ENABLE_WRITE (R201); the result of its ISSUE is its own. -/
def stepEnableWrite (s : State) : Act := .call .enableWrite (.issue .T0 Config.opcWren noPayload) s

/-- DIAG_STATUS (R202). -/
def stepDiagStatus (l : MLabel) (s : State) : Act :=
  match l with
  | .M0 => .goto (.diagStatus .M1) (s.withCtl { s.ctl with gabort := false, gacc := 0, gi := 0 })
  | .M1 => .call (.diagStatus .M1) (.issue .T0 Config.opcRdsr1 statusRead) s
  | .M2 => .call (.diagStatus .M2) (.issue .T0 Config.opcRdsr2 statusRead) s
  | .M3 => .call (.diagStatus .M3) (.issue .T0 Config.opcRdsr3 statusRead) s
  | .M9 => .done (.composite s.ctl.gabort s.ctl.gacc) s

/-- `GACC[7:0] <- STAT` (R202, M1). -/
def setGacc1 (acc : BitVec 24) (b : Byte) : BitVec 24 := acc.extractLsb' 8 16 ++ b

/-- `GACC[15:8] <- STAT` (R202, M2). -/
def setGacc2 (acc : BitVec 24) (b : Byte) : BitVec 24 := acc.extractLsb' 16 8 ++ b ++ acc.extractLsb' 0 8

/-- `GACC[23:16] <- STAT` (R202, M3). -/
def setGacc3 (acc : BitVec 24) (b : Byte) : BitVec 24 := b ++ acc.extractLsb' 0 16

/-- DIAG_STATUS when a read returns (R202): stop at the first aborted one, else keep its byte. -/
def resumeDiagStatus (l : MLabel) (r : Result) (s : State) : Act :=
  match l with
  | .M1 =>
    if r.isAborted then .goto (.diagStatus .M9) (s.withCtl { s.ctl with gabort := true })
    else .goto (.diagStatus .M2) (s.withCtl { s.ctl with gacc := setGacc1 s.ctl.gacc s.ctl.stat, gi := 1 })
  | .M2 =>
    if r.isAborted then .goto (.diagStatus .M9) (s.withCtl { s.ctl with gabort := true })
    else .goto (.diagStatus .M3) (s.withCtl { s.ctl with gacc := setGacc2 s.ctl.gacc s.ctl.stat, gi := 2 })
  | .M3 =>
    if r.isAborted then .goto (.diagStatus .M9) (s.withCtl { s.ctl with gabort := true })
    else .goto (.diagStatus .M9) (s.withCtl { s.ctl with gacc := setGacc3 s.ctl.gacc s.ctl.stat })
  | .M0 => .goto (.diagStatus .M0) s
  | .M9 => .goto (.diagStatus .M9) s

end Sys2Proof.Machine
end

