-- ==== Sys2Proof/Machine/Sequencer.lean ====
section
/-! DEFINITION. The Erase Sequencer: the lines of ERASE_SEQ and what it does when a call returns (44_erase_sequencer.md R230,
R231, R233). -/

namespace Sys2Proof.Machine

/-- The result ERASE_SEQ returns (Q9, R230). -/
def eraseResult (c : Ctl) : Result := .sequenced c.sabort c.sfirst (if c.sabort then seqStep c.sfirst else 0)

/-- ERASE_SEQ (R230). -/
def stepEraseSeq (l : QLabel) (s : State) : Act :=
  match l with
  | .Q0 => .goto (.eraseSeq .Q1) (s.withCtl { s.ctl with sk := 0, sabort := false, sfirst := 12 })
  | .Q1 => if s.ctl.sk = 12 then .goto (.eraseSeq .Q9) s else .call (.eraseSeq .Q1) (seqCall s.params s.ctl.sk) s
  | .Q9 => .done (eraseResult s.ctl) s

/-- The first aborted row is recorded (R230). -/
def noteAborted (c : Ctl) : Ctl := { c with sfirst := if c.sabort then c.sfirst else c.sk, sabort := true }

/-- ERASE_SEQ when the call of row SK returns (R230, R233). -/
def resumeEraseSeq (l : QLabel) (r : Result) (s : State) : Act :=
  match l with
  | .Q1 =>
    let c := if r.isAborted then noteAborted s.ctl else s.ctl
    if r.isAborted && s.params.seqStopOnAbort then .goto (.eraseSeq .Q9) (s.withCtl c)
    else .goto (.eraseSeq .Q1) (s.withCtl { c with sk := c.sk + 1 })
  | .Q0 => .goto (.eraseSeq .Q0) s
  | .Q9 => .goto (.eraseSeq .Q9) s

end Sys2Proof.Machine
end

