-- ==== Sys2Proof/Machine/Transport.lean ====
section
/-! DEFINITION. The FIFO Transport: the lines of TRANSFER and what it does when a callee returns (41_fifo_transport.md R150). -/

namespace Sys2Proof.Machine

/-- X0's assignments (R150). -/
def startTransfer (x : XferArgs) (c : Ctl) : Ctl :=
  { c with
    xTxk := x.txk, xTxb := x.txb, xImm := x.imm, xRxk := x.rxk, xRxb := x.rxb
    txRem := x.n, rxRem := x.n, skipRem := x.skip, sent := 0, recv := 0, xabort := false }

/-- The byte X4 takes for the next payload position, by X_TXK; none where the launch memory refuses the read (R150, 30_encoding.md
R104). -/
def txByte (s : State) : Option Byte :=
  match s.ctl.xTxk with
  | .mem => memRead (txAddress s.ctl) s
  | .imm => some s.ctl.xImm
  | .none => some 0x00

/-- Where X7 puts XB, by X_RXK; none where the launch memory refuses the write (R150, R104). -/
def storeXb (s : State) : Option State :=
  match s.ctl.xRxk with
  | .mem => memWrite (rxAddress s.ctl) s.ctl.xb s
  | .stat => some (s.withCtl { s.ctl with stat := s.ctl.xb })
  | .none => some s

/-- X7's counts (R150). -/
def countReceived (c : Ctl) : Ctl := { c with rxRem := c.rxRem - 1, recv := c.recv + 1 }

/-- TRANSFER (R150), one line a step. -/
def stepTransfer (l : XLabel) (x : XferArgs) (s : State) : Act :=
  match l with
  | .X0 =>
    if inFlight s = x.skip.toNat then .goto (.transfer .X1 x) (s.withCtl (startTransfer x s.ctl))
    else .halt (raise (.entryMismatch (inFlight s) x.skip.toNat) s)
  | .X1 => if transferDone s.ctl then .goto (.transfer .X9 x) s else .goto (.transfer .X2 x) s
  | .X2 => .goto (.transfer .X3 x) (s.withCtl { s.ctl with tl := (readTxflr s).setWidth Config.levelWidth })
  | .X3 =>
    .goto (.transfer .X4 x) (s.withCtl { s.ctl with rl := (readRxflr s).setWidth Config.levelWidth, prog := false })
  | .X4 =>
    if mayEnqueue s.params s.ctl then
      match txByte s with
      | some b => .goto (.transfer .X5 x) (s.withCtl { s.ctl with xb := b })
      | none => .halt s
    else .goto (.transfer .X6 x) s
  | .X5 =>
    match writeDr (s.ctl.xb.setWidth 32) s with
    | .ok s' =>
      .goto (.transfer .X6 x)
        (s'.withCtl { s'.ctl with txRem := s'.ctl.txRem - 1, sent := s'.ctl.sent + 1, prog := true })
    | .error f => .halt (raise f s)
  | .X6 =>
    if mayDequeue s.ctl then
      match readDr s with
      | .ok (v, s') =>
        if s'.ctl.skipRem != 0 then
          .goto (.transfer .X8 x)
            (s'.withCtl { s'.ctl with xb := v.setWidth 8, prog := true, skipRem := s'.ctl.skipRem - 1 })
        else .goto (.transfer .X7 x) (s'.withCtl { s'.ctl with xb := v.setWidth 8, prog := true })
      | .error f => .halt (raise f s)
    else .goto (.transfer .X8 x) s
  | .X7 =>
    match storeXb s with
    | some s' => .goto (.transfer .X8 x) (s'.withCtl (countReceived s'.ctl))
    | none => .halt s
  | .X8 => if s.ctl.prog then .goto (.transfer .X1 x) s else .call (.transfer .X8 x) .isAborted s
  | .X9 => .call (.transfer .X9 x) (.setSelect .CS1 false) s

/-- The result TRANSFER returns (X9, R150). -/
def transferResult (c : Ctl) : Result := .moved c.xabort c.sent c.recv c.skipRem

/-- TRANSFER when its callee returns: the abort sample of X8, the deassertion of X9 (R150). -/
def resumeTransfer (l : XLabel) (x : XferArgs) (r : Result) (s : State) : Act :=
  match l, r with
  | .X8, .sampled true => .goto (.transfer .X9 x) (s.withCtl { s.ctl with xabort := true })
  | .X8, _ => .goto (.transfer .X1 x) s
  | .X9, _ => .done (transferResult s.ctl) s
  | l, _ => .goto (.transfer l x) s

end Sys2Proof.Machine
end

