-- ==== Sys2Proof/Machine/Controller.lean ====
section
/-! DEFINITION. One step of the controller: the line of its top activation, calls and returns over the stack of activations,
and the return of the top-level operation to the host (00_scope.md R13, R14; 30_encoding.md R111). -/

namespace Sys2Proof.Machine

/-- The line of an activation that is on top of the stack. -/
def stepFrame (fr : Frame) (s : State) : Act :=
  match fr with
  | .setSelect l act => stepSetSelect l act s
  | .isAborted => stepIsAborted s
  | .transfer l x => stepTransfer l x s
  | .issue l opc x => stepIssue l opc x s
  | .issueAddr l opc a => stepIssueAddr l opc a s
  | .waitReady l => stepWaitReady l s
  | .enableWrite => stepEnableWrite s
  | .diagStatus l => stepDiagStatus l s
  | .eraseSeq l => stepEraseSeq l s

/-- What a waiting activation does with its callee's result, fused with the callee's return (R13; entry 16). SET_SELECT and
IS_ABORTED call nothing. -/
def resumeFrame (fr : Frame) (r : Result) (s : State) : Act :=
  match fr with
  | .setSelect l act => .goto (.setSelect l act) s
  | .isAborted => .goto .isAborted s
  | .transfer l x => resumeTransfer l x r s
  | .issue l opc x => resumeIssue l opc x r s
  | .issueAddr l opc a => resumeIssueAddr l opc a s
  | .waitReady l => resumeWaitReady l r s
  | .enableWrite => .done r s
  | .diagStatus l => resumeDiagStatus l r s
  | .eraseSeq l => resumeEraseSeq l r s

/-- The result registers an operation names, from its result (10_state.md R25; 40 R140, R141; 41 R150; 42 R180, R181; 43 R200 to
R202; 44 R230). -/
def writeResults (r : Result) (h : HostRegs) : HostRegs :=
  match r with
  | .completed => h
  | .sampled b => { h with resValue := (BitVec.ofBool b).setWidth 32 }
  | .moved _ sent recv skipLeft => { h with resSent := sent, resRecv := recv, resSkipLeft := skipLeft }
  | .polled _ stat => { h with resValue := stat.setWidth 32 }
  | .composite _ acc => { h with resValue := acc.setWidth 32 }
  | .sequenced _ first step => { h with resValue := first.setWidth 32, resStep := step }

/-- The top-level return (30_encoding.md R111): ABORTED, the result registers, TOP <- 0, BUSY <- 0; every phase is IDLE. -/
def returnToHost (r : Result) (s : State) : State :=
  ((s.withHost { writeResults r s.host with aborted := r.isAborted, busy := false }).withCtl { s.ctl with top := 0 }).withStack []

/-- The result goes to the waiting activation below; one that returns it at once passes it on. -/
def deliver : List Frame → Result → State → State
  | [], r, s => returnToHost r s
  | fr :: below, r, s =>
    match resumeFrame fr r s with
    | .goto self s' => s'.withStack (self :: below)
    | .call self callee s' => s'.withStack (callee :: self :: below)
    | .done r' s' => deliver below r' s'
    | .halt s' => s'.withStack (fr :: below)

/-- One step of the controller (R13). An idle controller takes no step (10_state.md R49), nor does a faulted one
(60_exceptions.md R312). -/
def controllerStep (s : State) : State :=
  match s.faulted, s.stack with
  | some _, _ => s
  | none, [] => s
  | none, fr :: below =>
    match stepFrame fr s with
    | .goto self s' => s'.withStack (self :: below)
    | .call self callee s' => s'.withStack (callee :: self :: below)
    | .done r s' => deliver below r s'
    | .halt s' => s'

end Sys2Proof.Machine
end

