-- ==== Sys2Proof/Machine/HostOps.lean ====
section
/-! DEFINITION. The meanings of the nine host operations. A host operation is a long instruction: on an idle block its meaning
is the start of 30_encoding.md R110; while it runs, its meaning is the controller's next labelled line, up to the top-level
return of R111 (entry 3). -/

namespace Sys2Proof.Machine

/-- The latched registers of R110. -/
def latch (op : BitVec 4) (f : CmdFields) (h : HostRegs) (c : Ctl) : Ctl :=
  { c with
    top := op, lOpc := f.opc, lImm := f.imm, lTxk := f.txk, lRxk := f.rxk, lAct := f.act
    lAddr := h.argAddr, lTx := h.argTx, lRx := h.argRx, lN := h.argN, lSkip := h.argSkip }

/-- The start of an operation (R110): latch, BUSY <- 1, activate. -/
def startOperation (op : BitVec 4) (f : CmdFields) (activate : Ctl → Frame) (s : State) : State :=
  ((s.withCtl (latch op f s.host s.ctl)).withHost { s.host with busy := true }).withStack [activate (latch op f s.host s.ctl)]

/-- A host operation's meaning, shared by the nine: nothing on a faulted block (30_encoding.md R112, 60_exceptions.md R312);
the start on an idle one, or the parameter fault `refuse` of it (R107); the controller's next line on the block that runs this
very operation; on a block that runs another, a second command, HostOverrun (R112). -/
def operate (op : BitVec 4) (f : CmdFields) (refuse : State → Option BlockFault) (activate : Ctl → Frame) (s : State) :
    Host.Outcome State Fault Refusal :=
  if s.faulted.isSome then .next s
  else if s.host.busy then
    if s.ctl.top = op then .next (controllerStep s) else .next (raise (.hostOverrun (encodeCmd op f)) s)
  else
    match refuse s with
    | some e => .next (raise e s)
    | none => .next (startOperation op f activate s)

/-- The operations without a parameter check. -/
def noRefusal (_s : State) : Option BlockFault := none

/-- ISSUE_ADDR's parameter check: BadParam when ARG_ADDR[31:24] is not zero (R107). -/
def refuseWideAddress (s : State) : Option BlockFault :=
  if addressTooWide s.host.argAddr then some (.badParam s.host.argAddr) else none

/-- SET_SELECT (40_csr_access.md R140): `act = L_ACT`. -/
def execSetSelect (f : CmdFields) (s : State) : Host.Outcome State Fault Refusal :=
  operate 1#4 f noRefusal (fun c => .setSelect .CS1 c.lAct) s

/-- IS_ABORTED (40_csr_access.md R141). -/
def execIsAborted (f : CmdFields) (s : State) : Host.Outcome State Fault Refusal :=
  operate 2#4 f noRefusal (fun _ => .isAborted) s

/-- TRANSFER (41_fifo_transport.md R150): kinds, addresses, n and skip from the latched registers. -/
def execTransfer (f : CmdFields) (s : State) : Host.Outcome State Fault Refusal :=
  operate 3#4 f noRefusal (fun c => .transfer .X0 (hostXfer c)) s

/-- ISSUE (42_command_dispatcher.md R180): `opc = L_OPC`, the rest as TRANSFER's, ARG_SKIP unused. -/
def execIssue (f : CmdFields) (s : State) : Host.Outcome State Fault Refusal :=
  operate 4#4 f noRefusal (fun c => .issue .T0 c.lOpc (issueXfer (hostXfer c))) s

/-- ISSUE_ADDR (42_command_dispatcher.md R181): `opc = L_OPC`, `a = L_ADDR[23:0]`. -/
def execIssueAddr (f : CmdFields) (s : State) : Host.Outcome State Fault Refusal :=
  operate 5#4 f refuseWideAddress (fun c => .issueAddr .A0 c.lOpc (c.lAddr.setWidth 24)) s

/-- WAIT_READY (43_status_poller.md R200). -/
def execWaitReady (f : CmdFields) (s : State) : Host.Outcome State Fault Refusal :=
  operate 6#4 f noRefusal (fun _ => .waitReady .W0) s

/-- ENABLE_WRITE (43_status_poller.md R201). -/
def execEnableWrite (f : CmdFields) (s : State) : Host.Outcome State Fault Refusal :=
  operate 7#4 f noRefusal (fun _ => .enableWrite) s

/-- ERASE_SEQ (44_erase_sequencer.md R230). -/
def execEraseSeq (f : CmdFields) (s : State) : Host.Outcome State Fault Refusal :=
  operate 8#4 f noRefusal (fun _ => .eraseSeq .Q0) s

/-- DIAG_STATUS (43_status_poller.md R202). -/
def execDiagStatus (f : CmdFields) (s : State) : Host.Outcome State Fault Refusal :=
  operate 9#4 f noRefusal (fun _ => .diagStatus .M0) s

end Sys2Proof.Machine
end

