-- ==== Sys2Proof/Machine/Dispatch.lean ====
section
/-! DEFINITION. One arm per instruction, each a direct call of its meaning. -/

namespace Sys2Proof.Machine

def exec (i : Instr) (s : State) : Host.Outcome State Fault Refusal :=
  match i with
  | .setSelect f => Sys2Proof.Machine.execSetSelect f s
  | .isAborted f => Sys2Proof.Machine.execIsAborted f s
  | .transfer f => Sys2Proof.Machine.execTransfer f s
  | .issue f => Sys2Proof.Machine.execIssue f s
  | .issueAddr f => Sys2Proof.Machine.execIssueAddr f s
  | .waitReady f => Sys2Proof.Machine.execWaitReady f s
  | .enableWrite f => Sys2Proof.Machine.execEnableWrite f s
  | .eraseSeq f => Sys2Proof.Machine.execEraseSeq f s
  | .diagStatus f => Sys2Proof.Machine.execDiagStatus f s
  | .flashPp rest => Sys2Proof.Machine.execFlashPp rest s
  | .flashRead rest => Sys2Proof.Machine.execFlashRead rest s
  | .flashRdsr1 rest => Sys2Proof.Machine.execFlashRdsr1 rest s
  | .flashWren rest => Sys2Proof.Machine.execFlashWren rest s
  | .flashSe rest => Sys2Proof.Machine.execFlashSe rest s
  | .flashRdsfdp rest => Sys2Proof.Machine.execFlashRdsfdp rest s
  | .flashRdid rest => Sys2Proof.Machine.execFlashRdid rest s
  | .flashCe rest => Sys2Proof.Machine.execFlashCe rest s
  | .flashVwren rest => Sys2Proof.Machine.execFlashVwren rest s
  | .flashWrsr1 rest => Sys2Proof.Machine.execFlashWrsr1 rest s
  | .flashWrsr2 rest => Sys2Proof.Machine.execFlashWrsr2 rest s
  | .flashWrsr3 rest => Sys2Proof.Machine.execFlashWrsr3 rest s
  | .flashRdsr2 rest => Sys2Proof.Machine.execFlashRdsr2 rest s
  | .flashRdsr3 rest => Sys2Proof.Machine.execFlashRdsr3 rest s

end Sys2Proof.Machine
end

