-- ==== Sys2Proof/Machine/Fetch.lean ====
section
/-! DEFINITION. What each agent's step runs: where the next instruction is fetched (the host's CMD write, the controller's latched
operation, the byte or the deselect that reaches the device), and the steps that run no instruction (10_state.md R20). -/

namespace Sys2Proof.Machine

/-! ### The choice of the step (00_scope.md R13; entries 1, 2) -/

/-- The next choice: one already made, else a free one. -/
def takeChoice (s : State) : State :=
  match s.sched with
  | c :: rest => s.withChoice rest s.tick c
  | [] => s.withChoice [] (s.tick + 1) { agent := Config.freeAgent s.tick, draw := Config.freeDraw s.tick }

/-! ### The controller -/

/-- The operation that runs, from TOP and the latched fields (10_state.md R29, 30_encoding.md R110); none on an idle block. -/
def runningInstr (s : State) : Option Instr :=
  if s.host.busy then
    hostOp s.ctl.top { txk := s.ctl.lTxk, rxk := s.ctl.lRxk, opc := s.ctl.lOpc, imm := s.ctl.lImm, act := s.ctl.lAct }
  else none

/-- The controller's turn: the running operation's next line; an idle controller takes no step (R49). -/
def controllerTurn (s : State) : Host.Outcome State Fault Refusal :=
  match runningInstr s with
  | some i => exec i s
  | none => .next s

/-! ### The serial engine and the pin -/

/-- EN_XCHG (20_memory.md R72): the device runs the command of its frame so far, the exchanged byte its last. An opcode outside
the table returns IDLE_MISO (45_flash_commands.md R277). -/
def exchangeTurn (s : State) : Host.Outcome State Fault Refusal :=
  match engineTake s with
  | none => .next s
  | some (m, s') =>
    match s'.cs.pin, s'.peer with
    | true, .reference p =>
      match decodeFrame (p.fr ++ [m]) with
      | .ok i => exec i s'
      | .error _ => .next (exchangeAnswered m Config.idleMiso (p.fr ++ [m]) p s')
    | _, _ => .next (exchangeDrawn m s')

/-- EN_CS (20_memory.md R77): the pending write reaches the pin; when that deasserts the line, the device runs its frame
(45_flash_commands.md R278). -/
def drainTurn (s : State) : Host.Outcome State Fault Refusal :=
  match s.cs.pend, s.cs.pin, s.peer with
  | some false, true, .reference p =>
    match decodeFrame p.fr with
    | .ok i => exec i (logEvent (.cs false) (s.withCs { s.cs with pend := none, pin := false }))
    | .error _ => .next (applyPend s)
  | _, _, _ => .next (applyPend s)

/-! ### The host (10_state.md R21; 20_memory.md R60; 30_encoding.md R110, R112) -/

/-- A write of CMD: ignored on a faulted block, HostOverrun on a busy one (R112); else CMD takes the value, which is decoded
and started, or IllegalOp (R107, R108, R110). -/
def writeCmd (v : Word) (s : State) : Host.Outcome State Fault Refusal :=
  if s.faulted.isSome then .next s
  else if s.host.busy then .next (raise (.hostOverrun v) s)
  else
    match decodeCmd v with
    | .ok i => exec i (s.withHost { s.host with cmd := v })
    | .error _ => .next (raise (.illegalOp v) (s.withHost { s.host with cmd := v }))

/-- A write of another host register (R21): the arguments take it; read-only and reserved offsets ignore it. -/
def writeArg (offset v : Word) (h : HostRegs) : HostRegs :=
  match offset.toNat with
  | 0x04 => { h with argAddr := v }
  | 0x08 => { h with argTx := v }
  | 0x0C => { h with argRx := v }
  | 0x10 => { h with argN := v }
  | 0x14 => { h with argSkip := v }
  | _ => h

/-- A read of a host register (R21, R22, R24, R25); reserved offsets read 0, the window having no
end (entry 19). No side effect (20_memory.md R84). -/
def readHostReg (offset : Word) (s : State) : Word :=
  match offset.toNat with
  | 0x00 => s.host.cmd
  | 0x04 => s.host.argAddr
  | 0x08 => s.host.argTx
  | 0x0C => s.host.argRx
  | 0x10 => s.host.argN
  | 0x14 => s.host.argSkip
  | 0x18 => statusWord s
  | 0x1C => s.host.resSent
  | 0x20 => s.host.resRecv
  | 0x24 => s.host.resSkipLeft
  | 0x28 => s.host.resValue
  | 0x2C => s.host.resStep.setWidth 32
  | _ => 0

/-- The offset of an address in the block's window: its distance from HOST_BASE (10_state.md R21, 20_memory.md R86). -/
def hostOffset (p : Params) (addr : Word) : Word := addr - p.hostBase

/-- Is a host register access inside the model: 32 bits wide and aligned (20_memory.md R83)? HOST_BASE being a multiple of 4, an
address is aligned when its offset is (entry 19). -/
def accessInModel (offset : Word) (size : AccessSize) : Bool := size == .word && offset.extractLsb' 0 2 == 0#2

/-- Is `a` a byte of the running operation's transmit buffer: of TRANSFER or ISSUE with TXK = 1 (R60, R104)? -/
def inTxBuffer (s : State) (a : Word) : Bool :=
  s.host.busy && (s.ctl.top == 3#4 || s.ctl.top == 4#4) && s.ctl.lTxk == 1#2 && (a - s.ctl.lTx).toNat < s.ctl.lN.toNat

/-- Is `a` a byte of the running operation's receive buffer (R60, R104)? -/
def inRxBuffer (s : State) (a : Word) : Bool :=
  s.host.busy && (s.ctl.top == 3#4 || s.ctl.top == 4#4) && s.ctl.lRxk == 1#2 && (a - s.ctl.lRx).toNat < s.ctl.lN.toNat

/-- The host places a byte: not in a buffer the running operation uses (R60). -/
def hostPutByte (a : Word) (v : Byte) (s : State) : Host.Outcome State Fault Refusal :=
  if inTxBuffer s a || inRxBuffer s a then .refused (.hostBufferRace a)
  else
    match memWrite a v s with
    | some s' => .next s'
    | none => .fault (.noSuchAddress a)

/-- The host reads a byte: not of a buffer of the running operation, be it the one it reads (R60, last sentence; D35, S14). -/
def hostGetByte (a : Word) (s : State) : Host.Outcome State Fault Refusal :=
  if inTxBuffer s a || inRxBuffer s a then .refused (.hostBufferRace a)
  else
    match memRead a s with
    | some b => .next (s.withHostData (b.setWidth 32))
    | none => .fault (.noSuchAddress a)

/-- One request of the host. -/
def hostRequest (r : HostReq) (s : State) : Host.Outcome State Fault Refusal :=
  match r with
  | .write addr size v =>
    if accessInModel (hostOffset s.params addr) size then
      if hostOffset s.params addr = 0 then writeCmd v s
      else .next (s.withHost (writeArg (hostOffset s.params addr) v s.host))
    else .refused (.hostAccessShape addr)
  | .read addr size =>
    if accessInModel (hostOffset s.params addr) size then .next (s.withHostData (readHostReg (hostOffset s.params addr) s))
    else .refused (.hostAccessShape addr)
  | .putByte a v => hostPutByte a v s
  | .getByte a => hostGetByte a s
  | .await => .next s
  | .reset => .next (blockReset (drawByte s) s)

/-- The host's turn: its next request, taken off the queue; a wait stays while BUSY = 1 (R114). -/
def hostTurn (s : State) : Host.Outcome State Fault Refusal :=
  match s.hostQ with
  | [] => .next s
  | r :: rest => if r = .await ∧ s.host.busy then .next s else hostRequest r (s.withHostQ rest)

/-! ### All agents -/

/-- The step of the agent that was chosen (R20). -/
def agentTurn (s : State) : Host.Outcome State Fault Refusal :=
  match s.now.agent with
  | .controller => controllerTurn s
  | .engineLoad => .next (engineLoad s)
  | .engineExchange => exchangeTurn s
  | .engineCs => drainTurn s
  | .peerTick => .next (peerTickStep s)
  | .abortEnv => .next (abortEnvStep s)
  | .host => hostTurn s

/-! ### Placing an instruction where the next step fetches it (entries 4, 24) -/

/-- A command word: the block idle and not faulted, and the host's next step a write of it to CMD. -/
def placeCmd (w : Word) (s : State) : State :=
  (((((s.withFaulted none).withHost { s.host with busy := false }).withCtl { s.ctl with top := 0 }).withStack []).withHostQ
      (.write s.params.hostBase .word w :: s.hostQ)).withChoice ({ agent := .host, draw := 0 } :: s.sched) s.tick s.now

/-- The peer that receives a placed frame. -/
def placedPeer : Peer → RefPeer
  | .absent => RefPeer.fresh
  | .reference p => p

/-- Does the command answer with data (its effect is at the exchange of the frame's last byte), or act at the deselect? -/
def answersData : Instr → Bool
  | .setSelect _ => false
  | .isAborted _ => false
  | .transfer _ => false
  | .issue _ => false
  | .issueAddr _ => false
  | .waitReady _ => false
  | .enableWrite _ => false
  | .eraseSeq _ => false
  | .diagStatus _ => false
  | .flashPp _ => false
  | .flashRead _ => true
  | .flashRdsr1 _ => true
  | .flashWren _ => false
  | .flashSe _ => false
  | .flashRdsfdp _ => true
  | .flashRdid _ => true
  | .flashCe _ => false
  | .flashVwren _ => false
  | .flashWrsr1 _ => false
  | .flashWrsr2 _ => false
  | .flashWrsr3 _ => false
  | .flashRdsr2 _ => true
  | .flashRdsr3 _ => true

/-- The engine with `m` next to be exchanged. -/
def engineOffer (m : Byte) (s : State) : Engine :=
  if 1 ≤ s.params.hold then { s.engine with sh := m :: s.engine.sh } else { s.engine with txq := m :: s.engine.txq }

/-- A frame of which all but the last byte reached the device, chip-select asserted, and the last byte is exchanged next. -/
def placeLastByte (init : List Byte) (m : Byte) (s : State) : State :=
  (((s.withPeer (.reference { placedPeer s.peer with sel := true, fr := init })).withCs { s.cs with pin := true }).withEngine
      (engineOffer m s)).withChoice ({ agent := .engineExchange, draw := 0 } :: s.sched) s.tick s.now

/-- A frame that reached the device whole, chip-select asserted, and its pending deassertion reaches the pin next. -/
def placeDeselect (frame : List Byte) (s : State) : State :=
  ((s.withPeer (.reference { placedPeer s.peer with sel := true, fr := frame })).withCs
      { s.cs with pend := some false, pin := true }).withChoice ({ agent := .engineCs, draw := 0 } :: s.sched) s.tick s.now

/-- A flash command: its frame with zero operand bytes, placed where its effect is the next step. -/
def placeFrame (opc : Byte) (s : State) : State :=
  match decodeFrame (zeroFrame opc) with
  | .ok i =>
    if answersData i then placeLastByte (zeroFrame opc).dropLast ((zeroFrame opc).getLastD opc) s
    else placeDeselect (zeroFrame opc) s
  | .error _ => placeDeselect (zeroFrame opc) s

end Sys2Proof.Machine
end

