-- ==== Sys2Proof/Machine/Step.lean ====
section
/-! DEFINITION. One step of the machine: the next choice is taken and the chosen agent moves (00_scope.md R13); and an
instruction placed where the next step fetches it. -/

namespace Sys2Proof.Machine

/-- One atomic step of one agent (R13). -/
def step (s : State) : Host.Outcome State Fault Refusal := agentTurn (takeChoice s)

/-- The instruction of an opcode-table row placed so that the very next step runs it: a 32-bit row is a command word the host
writes to CMD, an 8-bit row a flash frame at the device. Entries 4 and 24. -/
def State.withFetchWord (s : State) (nbits w : Nat) : State :=
  if nbits = 32 then placeCmd (BitVec.ofNat 32 w) s
  else placeFrame (BitVec.ofNat 8 w) s

end Sys2Proof.Machine
end

