-- ==== Sys2Proof/Machine/Pseudo.lean ====
section
/-! DEFINITION. The textual operations and pseudo-operations of 30_encoding.md R114, R115 as the host's requests: the argument
writes, the CMD write, and the wait for STATUS.BUSY = 0. Each takes `base`, the block's HOST_BASE (10_state.md R21). -/

namespace Sys2Proof.Machine

/-- Write the host register at an offset of the block at `base`. -/
def putReg (base offset v : Word) : HostReq := .write (base + offset) .word v

/-- A command word whose fields are all zero but for those given. -/
def fieldsOf (txk rxk : BitVec 2) (opc imm : Byte) (act : Bool) : CmdFields :=
  { txk := txk, rxk := rxk, opc := opc, imm := imm, act := act }

/-- A CMD write and the wait for its end (R114). -/
def command (base : Word) (op : BitVec 4) (f : CmdFields) : List HostReq := [putReg base 0x00 (encodeCmd op f), .await]

/-- A transmit source `<tx>` of R114. -/
inductive TxSource where
  | zeros
  | mem (a : Word)
  | imm (b : Byte)
  deriving DecidableEq, Repr

/-- A receive destination `<rx>` of R114. -/
inductive RxDest where
  | drop
  | mem (a : Word)
  deriving DecidableEq, Repr

/-- TXK of a source (R104). -/
def TxSource.kind : TxSource → BitVec 2
  | .zeros => 0
  | .mem _ => 1
  | .imm _ => 2

/-- IMM of a source. -/
def TxSource.byte : TxSource → Byte
  | .zeros => 0
  | .mem _ => 0
  | .imm b => b

/-- The ARG_TX write a source names. -/
def TxSource.writes (base : Word) : TxSource → List HostReq
  | .zeros => []
  | .mem a => [putReg base 0x08 a]
  | .imm _ => []

/-- RXK of a destination (R104). -/
def RxDest.kind : RxDest → BitVec 2
  | .drop => 0
  | .mem _ => 1

/-- The ARG_RX write a destination names. -/
def RxDest.writes (base : Word) : RxDest → List HostReq
  | .drop => []
  | .mem a => [putReg base 0x0C a]

/-- `SET_SELECT <0|1>` -/
def lineSetSelect (base : Word) (act : Bool) : List HostReq := command base 1 (fieldsOf 0 0 0 0 act)
/-- `IS_ABORTED` -/
def lineIsAborted (base : Word) : List HostReq := command base 2 (fieldsOf 0 0 0 0 false)
/-- `TRANSFER <tx>, <rx>, <n>, <skip>` -/
def lineTransfer (base : Word) (tx : TxSource) (rx : RxDest) (n skip : Word) : List HostReq :=
  tx.writes base ++ rx.writes base ++ [putReg base 0x10 n, putReg base 0x14 skip] ++
    command base 3 (fieldsOf tx.kind rx.kind 0 tx.byte false)
/-- `ISSUE <opc>, <tx>, <rx>, <n>` -/
def lineIssue (base : Word) (opc : Byte) (tx : TxSource) (rx : RxDest) (n : Word) : List HostReq :=
  tx.writes base ++ rx.writes base ++ [putReg base 0x10 n] ++ command base 4 (fieldsOf tx.kind rx.kind opc tx.byte false)
/-- `ISSUE_ADDR <opc>, <addr24>` -/
def lineIssueAddr (base : Word) (opc : Byte) (a : FlashAddr) : List HostReq :=
  putReg base 0x04 (a.setWidth 32) :: command base 5 (fieldsOf 0 0 opc 0 false)
/-- `WAIT_READY` -/
def lineWaitReady (base : Word) : List HostReq := command base 6 (fieldsOf 0 0 0 0 false)
/-- `ENABLE_WRITE` -/
def lineEnableWrite (base : Word) : List HostReq := command base 7 (fieldsOf 0 0 0 0 false)
/-- `ERASE_SEQ` -/
def lineEraseSeq (base : Word) : List HostReq := command base 8 (fieldsOf 0 0 0 0 false)
/-- `DIAG_STATUS` -/
def lineDiagStatus (base : Word) : List HostReq := command base 9 (fieldsOf 0 0 0 0 false)

/-- `READ_DATA a, mem(R), n` (R115) -/
def pseudoReadData (base : Word) (a : FlashAddr) (r n : Word) : List HostReq :=
  lineIssueAddr base Config.opcRead a ++ lineTransfer base .zeros (.mem r) n 4
/-- `PAGE_PROGRAM a, mem(T), n` (R115) -/
def pseudoPageProgram (base : Word) (a : FlashAddr) (t n : Word) : List HostReq :=
  lineEnableWrite base ++ lineIssueAddr base Config.opcPp a ++ lineTransfer base (.mem t) .drop n 4 ++ lineWaitReady base
/-- `SECTOR_ERASE a` (R115) -/
def pseudoSectorErase (base : Word) (a : FlashAddr) : List HostReq :=
  lineEnableWrite base ++ lineIssueAddr base Config.opcSe a ++ lineTransfer base .zeros .drop 0 4 ++ lineWaitReady base
/-- `READ_JEDEC_ID mem(R)` (R115) -/
def pseudoReadJedecId (base : Word) (r : Word) : List HostReq := lineIssue base Config.opcRdid .zeros (.mem r) 3
/-- `READ_SFDP a, mem(R), n` (R115): the first stored byte is the dummy byte's. ARG_N is 32 bits wide and R115 does not say what
`n + 1` is for `n = 2^32 - 1`: it is taken modulo 2^32, so ARG_N is 0 there, DESIGN CHOICE, entry 31. -/
def pseudoReadSfdp (base : Word) (a : FlashAddr) (r n : Word) : List HostReq :=
  lineIssueAddr base Config.opcRdsfdp a ++ lineTransfer base .zeros (.mem r) (n + 1) 4
/-- `WRITE_SR1 b` (R115) -/
def pseudoWriteSr1 (base : Word) (b : Byte) : List HostReq :=
  lineEnableWrite base ++ lineIssue base Config.opcWrsr1 (.imm b) .drop 1 ++ lineWaitReady base
/-- `ENABLE_WRITE` as an expansion (R115) -/
def pseudoEnableWrite (base : Word) : List HostReq := lineIssue base Config.opcWren .zeros .drop 0

end Sys2Proof.Machine
end

