-- ==== Sys2Proof/Machine/Rp2040.lean ====
section
/-! DEFINITION. The RP2040 binding of the abstract register port (20_memory.md R68), "from general knowledge, not in source": the
addresses, the fields, and how the abstract chip-select write and abort sample read there. R68 gives it so that a model of that
chip can instantiate the abstract registers: `rp2040Params` is that instance of the parameters, and the steps, which use the
abstract registers (R35 to R39), are the same for every instance (entry 26). -/

namespace Sys2Proof.Machine

/-- The registers' RP2040 addresses (R68). -/
def rp2040Address : PortReg → Word
  | .txflr => 0x18000020
  | .rxflr => 0x18000024
  | .dr => 0x18000060
  | .csctrl => 0x4001800C
  | .abortreg => 0x4001801C

/-- OUTOVER, bits [9:8] of GPIO_QSPI_SS_CTRL: what drives the line (R68). -/
inductive Outover where
  /-- 0: the peripheral drives it -/
  | normal
  /-- 1: the peripheral drives it, inverted -/
  | invert
  /-- 2: low -/
  | driveLow
  /-- 3: high -/
  | driveHigh
  deriving DecidableEq, Repr

/-- An OUTOVER value's two bits (R68). -/
def Outover.bits : Outover → BitVec 2
  | .normal => 0
  | .invert => 1
  | .driveLow => 2
  | .driveHigh => 3

/-- OUTOVER of a register value (R68). -/
def rp2040Outover (v : Word) : Outover :=
  match (v.extractLsb' 8 2).toNat with
  | 0 => .normal
  | 1 => .invert
  | 2 => .driveLow
  | _ => .driveHigh

/-- The level of the line, high for true, where the peripheral's own output has the level `own` (R68). -/
def Outover.level (o : Outover) (own : Bool) : Bool :=
  match o with
  | .normal => own
  | .invert => !own
  | .driveLow => false
  | .driveHigh => true

/-- The value a chip-select state is written as: the line is active low, so asserted is driven low (R68). -/
def outoverOf (active : Bool) : Outover := if active then .driveLow else .driveHigh

/-- The RP2040 register after the abstract CSCTRL write of CS_ACTIVE: only bits [9:8] change (R68). -/
def rp2040WriteCs (old : Word) (active : Bool) : Word :=
  old.extractLsb' 10 22 ++ (outoverOf active).bits ++ old.extractLsb' 0 8

/-- CS_ACTIVE as the RP2040 register holds it: the line driven low. -/
def rp2040CsActive (v : Word) : Bool := rp2040Outover v == .driveLow

/-- INOVER, bits [17:16] of GPIO_QSPI_SD1_CTRL: the abort field (R68). -/
def rp2040AbortMask : Word := 0x00030000

/-- The XIP SSI's FIFO depth (R68). -/
def rp2040Depth : Nat := 16

/-- A block's parameters on the RP2040: R68's depth, mask and register addresses; the others as they were. -/
def rp2040Params (p : Params) : Params :=
  { p with
    depth := rp2040Depth, abortMask := rp2040AbortMask
    regTxflr := rp2040Address .txflr, regRxflr := rp2040Address .rxflr, regDr := rp2040Address .dr
    regCsctrl := rp2040Address .csctrl, regAbort := rp2040Address .abortreg }

end Sys2Proof.Machine
end

