-- ==== Sys2Proof/Safety.lean ====
section
/-! DEFINITION. What claims about the machine are said in: the launch premise, the canonical forms, the control state's shape, the
no-overflow invariant of 20_memory.md R80, the transport's byte accounts (41_fifo_transport.md R162), the frames of a bus trace
(20_memory.md R75), and the fair schedules of R78 and 45_flash_commands.md R279. -/

namespace Sys2Proof.Machine

/-! ### Parameters and launch premise -/

/-- The parameter domain: `D >= 4`, `S` in {0, 1, 2} (00_scope.md R8); a level fits its LEVEL_W = 8 bits (10_state.md R35, entry
6). -/
abbrev Params.ok (p : Params) : Prop := 4 ≤ p.depth ∧ p.depth ≤ 255 ∧ p.hold ≤ 2

/-- The launch premise that the state can show: parameters in their domain, HOST_BASE a multiple of 4 (log entry 19), queues empty,
chip-select deasserted and no write pending (70_reset_and_hazards.md R357 (d), (e), (f)). -/
abbrev launchPremise (s : State) : Prop :=
  s.params.ok ∧ s.params.hostBase.extractLsb' 0 2 = 0#2 ∧ inFlight s = 0 ∧ s.cs.pin = false ∧ s.cs.pend = none

/-! ### Canonical forms -/

/-- The peer's stores are canonical: an array of 2^24 bytes and a table of 256 (45_flash_commands.md R276). -/
def peerWf : Peer → Prop
  | .absent => True
  | .reference p => storeWf (2 ^ 24) p.array ∧ storeWf 256 p.sfdp

/-- Every memory of the machine is in its canonical form. -/
def memoriesWf (s : State) : Prop := Memory.wf s.mem ∧ peerWf s.peer

/-! ### Control state -/

/-- May `caller` be waiting for `callee`: the calls of the pseudocode (40 R143; 41 R150; 42 R180, R181; 43 R200 to R202; 44
R231)? -/
def waitsFor : Frame → Frame → Bool
  | .transfer .X8 _, .isAborted => true
  | .transfer .X9 _, .setSelect _ act => !act
  | .issue .T1 _ _, .setSelect _ act => act
  | .issue .T3 _ x, .transfer _ y => y == x
  | .issueAddr .A1 _ _, .setSelect _ act => act
  | .waitReady .W1, .issue _ opc x => opc == Config.opcRdsr1 && x == statusRead
  | .waitReady .W3, .isAborted => true
  | .enableWrite, .issue _ opc x => opc == Config.opcWren && x == noPayload
  | .diagStatus .M1, .issue _ opc x => opc == Config.opcRdsr1 && x == statusRead
  | .diagStatus .M2, .issue _ opc x => opc == Config.opcRdsr2 && x == statusRead
  | .diagStatus .M3, .issue _ opc x => opc == Config.opcRdsr3 && x == statusRead
  | .eraseSeq .Q1, .issue _ _ x => x.skip == 1
  | .eraseSeq .Q1, .waitReady _ => true
  | .eraseSeq .Q1, .enableWrite => true
  | _, _ => false

/-- Every frame is the callee its caller waits for; an ISSUE's transfer skips the one pre-pushed byte. -/
def stackLegal : List Frame → Bool
  | [] => true
  | [.issue _ _ x] => x.skip == 1
  | [_] => true
  | callee :: caller :: rest => waitsFor caller callee && stackLegal (caller :: rest)

/-- The OP of the host operation that runs as the given outermost activation (30_encoding.md R102). -/
def frameOp : Frame → BitVec 4
  | .setSelect _ _ => 1
  | .isAborted => 2
  | .transfer _ _ => 3
  | .issue _ _ _ => 4
  | .issueAddr _ _ _ => 5
  | .waitReady _ => 6
  | .enableWrite => 7
  | .eraseSeq _ => 8
  | .diagStatus _ => 9

/-- The control state of a reachable machine: a legal stack, whose outermost activation is the operation TOP names; BUSY exactly
while an activation exists; TOP = 0 when none does (10_state.md R29, R30; 30_encoding.md R110, R111). -/
def controlOk (s : State) : Prop :=
  stackLegal s.stack = true ∧ s.host.busy = !s.stack.isEmpty ∧
    s.ctl.top = (match s.stack.getLast? with | none => 0#4 | some fr => frameOp fr)

/-! ### Flow control -/

/-- What a transfer's label says about the bytes in flight: the levels sampled in this iteration, and room for the byte about
to be written (20_memory.md R80, R155). -/
def levelFlow (s : State) : XLabel → Prop
  | .X3 => inFlight s ≤ s.ctl.tl.toNat + s.params.hold + s.engine.rxq.length
  | .X4 => inFlight s ≤ s.ctl.tl.toNat + s.ctl.rl.toNat + s.params.hold ∧ s.ctl.rl.toNat ≤ s.engine.rxq.length
  | .X5 => inFlight s + 3 ≤ s.params.depth + s.params.hold ∧ s.ctl.rl.toNat ≤ s.engine.rxq.length
  | .X6 => s.ctl.rl.toNat ≤ s.engine.rxq.length
  | _ => True

/-- What each activation's label says about the bytes in flight: none before an opcode, the address bytes already sent, and
during a transfer the bound of 41_fifo_transport.md R165 (42 R180, R181). -/
def labelFlow (s : State) : Frame → Prop
  | .issue .T1 _ _ => inFlight s = 0
  | .issue .T2 _ _ => inFlight s = 0
  | .issueAddr .A1 _ _ => inFlight s = 0
  | .issueAddr .A2 _ _ => inFlight s = 0
  | .issueAddr .A3 _ _ => inFlight s = 1
  | .issueAddr .A4 _ _ => inFlight s = 2
  | .issueAddr .A5 _ _ => inFlight s = 3
  | .transfer l x =>
    (l = .X0 ∨ inFlight s ≤ max x.skip.toNat (s.params.depth - 2 + s.params.hold)) ∧ levelFlow s l
  | _ => True

/-- A fault of the three that flow control rules out (60_exceptions.md R313). -/
def isFifoFault : BlockFault → Bool
  | .txOverflow _ => true
  | .rxOverflow _ => true
  | .rxUnderflow => true
  | .illegalOp _ => false
  | .badParam _ => false
  | .hostOverrun _ => false
  | .entryMismatch _ _ => false

/-- The no-overflow invariant (20_memory.md R80, 60_exceptions.md R313): the queues hold at most D bytes together, no FIFO fault
was entered, and, on an unfaulted block, the active labels' conditions hold. -/
def flowOk (s : State) : Prop :=
  s.params.ok ∧ inFlight s ≤ s.params.depth ∧ s.engine.sh.length ≤ s.params.hold ∧
    (∀ f, s.faulted = some f → isFifoFault f = false) ∧
    stackLegal s.stack = true ∧ (s.faulted = none → ∀ fr ∈ s.stack, labelFlow s fr)

/-! ### The transport's accounts (41_fifo_transport.md R154, R156, R162, R164) -/

/-- Bytes taken from the receive FIFO that X7 has yet to store. -/
def inTransit : XLabel → Nat
  | .X7 => 1
  | _ => 0

/-- The counters of a transfer of `n` payload bytes at a label: what was sent and received, and what is in flight. -/
def transferAccounts (s : State) (l : XLabel) (x : XferArgs) : Prop :=
  l = .X0 ∨
    (s.ctl.txRem.toNat + s.ctl.sent.toNat = x.n.toNat ∧ s.ctl.rxRem.toNat + s.ctl.recv.toNat = x.n.toNat ∧
      inFlight s + s.ctl.recv.toNat + inTransit l = s.ctl.sent.toNat + s.ctl.skipRem.toNat ∧
      (l = .X5 → s.ctl.txRem ≠ 0) ∧ (l = .X7 → s.ctl.rxRem ≠ 0 ∧ s.ctl.skipRem = 0) ∧
      (s.ctl.skipRem ≠ 0 → s.ctl.recv = 0))

/-- On an unfaulted block the running transfer's accounts are in balance. -/
def accountsOk (s : State) : Prop :=
  s.faulted = none → ∀ l x, Frame.transfer l x ∈ s.stack → transferAccounts s l x

/-! ### Bus trace (20_memory.md R75) -/

/-- The MOSI bytes of a trace's frames, oldest first; `cur` holds those of the frame being read, none outside a frame. A frame that
has not ended, no `cs(0)` closing it yet, is none of them (R75, 00_scope.md R16). -/
def traceFramesFrom : Option (List Byte) → List BusEvent → List (List Byte)
  | _, [] => []
  | _, .cs true :: rest => traceFramesFrom (some []) rest
  | some cur, .cs false :: rest => cur :: traceFramesFrom none rest
  | none, .cs false :: rest => traceFramesFrom none rest
  | some cur, .x m _ :: rest => traceFramesFrom (some (cur ++ [m])) rest
  | none, .x _ _ :: rest => traceFramesFrom none rest

/-- The ordered opcode trace of a run: the MOSI bytes of its frames. -/
def traceFrames (t : List BusEvent) : List (List Byte) := traceFramesFrom none t

/-! ### Where a statement about a line or a command starts and ends -/

/-- No fault, no operation: the next CMD write starts one (30_encoding.md R110). -/
abbrev isReady (s : State) : Prop := s.faulted = none ∧ s.host.busy = false

/-- The operation `op` runs unfaulted and its activations are `k`, the running one first. -/
abbrev runsAt (op : BitVec 4) (k : List Frame) (s : State) : Prop :=
  s.faulted = none ∧ s.host.busy = true ∧ s.ctl.top = op ∧ s.stack = k

/-- Some operation runs unfaulted, and the controller's next line is `fr`'s. -/
abbrev lineAt (fr : Frame) (below : List Frame) (s : State) : Prop :=
  s.faulted = none ∧ (runningInstr s).isSome = true ∧ s.stack = fr :: below

/-- The next step is taken by `agent`, drawing `d`; then the rest of `s.sched` follows. -/
def chosen (agent : Config.Agent) (d : Nat) (s : State) : State :=
  { s with sched := { agent := agent, draw := d } :: s.sched }

/-- The state after a step's choice was taken and before its agent moved. -/
def taken (agent : Config.Agent) (d : Nat) (s : State) : State := { s with now := { agent := agent, draw := d } }

/-- `k` steps of the machine, up to the first fault or refusal. -/
def runSteps : Nat → State → Host.Outcome State Fault Refusal
  | 0, s => .next s
  | k + 1, s =>
    match step s with
    | .next t => runSteps k t
    | .fault r => .fault r
    | .refused r => .refused r

/-- The chip-select line after the state `act` reached it (20_memory.md R67, R77): no write pending, a change on the bus trace and
told to the peer, which starts a frame or executes the one that ends (R75; 45_flash_commands.md R275, R277, R278). -/
def pinTakes (act : Bool) (s : State) : State :=
  { s with
    cs := { s.cs with pend := none, pin := act }
    trace := if s.cs.pin = act then s.trace else s.trace ++ [.cs act]
    peer := if s.cs.pin = act then s.peer else
      match s.peer with
      | .absent => .absent
      | .reference p => .reference (if act then { p with sel := true, fr := [] } else peerDeselect s.now.draw p) }

/-- The pending write, or with none the line itself, is the state `act`: what a SET_SELECT finds at CS2 after its own CS1 (40_csr_access.md
R142). -/
abbrev selectPosted (act : Bool) (s : State) : Prop := s.cs.pend = some act ∨ (s.cs.pend = none ∧ s.cs.pin = act)

/-- A device that answered `b` to the last byte of the frame `opc :: rest`: the byte in the receive FIFO, the exchange on the
bus trace, the frame remembered (45_flash_commands.md R277; 20_memory.md R72, R75). -/
def afterAnswer (s : State) (p : RefPeer) (opc : Byte) (rest : List Byte) (b : Byte) : State :=
  { s with
    engine := { s.engine with rxq := s.engine.rxq ++ [b] }
    trace := s.trace ++ [.x ((opc :: rest).getLastD opc) b]
    peer := .reference { p with fr := opc :: rest } }

/-- A device whose frame ended, its state otherwise `p` (R278). -/
def afterDeselect (s : State) (p : RefPeer) : State := { s with peer := .reference { p with sel := false, fr := [] } }

/-- The fourteen opcodes of the command set (00_scope.md R9). -/
def flashOpcodes : List Byte :=
  [0x02, 0x03, 0x05, 0x06, 0x20, 0x5A, 0x9F, 0xC7, 0x50, 0x01, 0x31, 0x11, 0x35, 0x15]

/-- The device exchanges a byte of a frame: chip-select asserted, room in the receive FIFO. -/
abbrev exchanging (p : RefPeer) (s : State) : Prop :=
  s.peer = .reference p ∧ s.cs.pin = true ∧ s.engine.rxq.length ≠ s.params.depth

/-- The device sees the end of a frame: chip-select deasserted. -/
abbrev deselecting (p : RefPeer) (s : State) : Prop := s.peer = .reference p ∧ s.cs.pin = false

/-- The 24-bit address in the first three bytes after the opcode, as a number (R277, R278). -/
def addressNat (rest : List Byte) : Nat :=
  (rest.getD 0 0).toNat * 65536 + (rest.getD 1 0).toNat * 256 + (rest.getD 2 0).toNat

/-! ### Fair schedules (20_memory.md R78; 45_flash_commands.md R279) -/

/-- The run in which the `k`-th step is taken by the agent of `c k`, drawing its number, up to the first fault or refusal. -/
def runOn (c : Nat → Config.Choice) (s : State) : Nat → Host.Outcome State Fault Refusal
  | 0 => .next s
  | k + 1 =>
    match runOn c s k with
    | .next t => step (chosen (c k).agent (c k).draw t)
    | .fault r => .fault r
    | .refused r => .refused r

/-- The agent's step is enabled: it has something to do. -/
def canMove (a : Config.Agent) (s : State) : Prop :=
  match a with
  | .controller => s.faulted = none ∧ s.stack ≠ []
  | .engineLoad => s.engine.txq ≠ [] ∧ s.engine.sh.length < s.params.hold
  | .engineExchange => if s.params.hold = 0 then s.engine.txq ≠ [] else s.engine.sh ≠ []
  | .engineCs => s.cs.pend ≠ none
  | .peerTick => ∃ p, s.peer = .reference p ∧ 0 < p.busyLeft
  | .abortEnv => True
  | .host => s.hostQ ≠ []

/-- Weak fairness (R78): from every point of the run on, the agent's step is taken, or is not enabled, at some later point. -/
def fairTo (a : Config.Agent) (c : Nat → Config.Choice) (s : State) : Prop :=
  ∀ k, ∃ j, k ≤ j ∧ ((c j).agent = a ∨ ∀ t, runOn c s j = .next t → ¬canMove a t)

/-- The fair runs of 70_reset_and_hazards.md R368: EN_LOAD and EN_XCHG are weakly fair (R78), and so is the controller, without
which nothing it runs could end (DEDUCED, log entry 25). -/
def fairSchedule (c : Nat → Config.Choice) (s : State) : Prop :=
  fairTo .controller c s ∧ fairTo .engineLoad c s ∧ fairTo .engineExchange c s

/-- The controller is at a buffer access that the launch memory refuses: there it has no step (20_memory.md R61). -/
def memoryRefuses (s : State) : Prop :=
  ∃ x below,
    (s.stack = .transfer .X4 x :: below ∧ mayEnqueue s.params s.ctl = true ∧ s.ctl.xTxk = .mem ∧
      admitsRead s.params (txAddress s.ctl) = false) ∨
    (s.stack = .transfer .X7 x :: below ∧ s.ctl.xRxk = .mem ∧ admitsWrite s.params (rxAddress s.ctl) = false)

/-- The controller samples a clear abort signal between two polls of a device that reports busy (43_status_poller.md R200, W3). -/
def pollsAgain (s : State) : Prop :=
  s.faulted = none ∧ (∃ below, s.stack = .isAborted :: .waitReady .W3 :: below) ∧ s.abortIn &&& s.params.abortMask = 0

end Sys2Proof.Machine
end

