-- ==== Sys2Proof/Certificates/Slice0/Obligations.lean ====
section
/-! DEFINITION. The statements for the provers. Each docstring names the rules of spec/ it formalises. Where a statement says what
`exec` of a running host operation does, it is the model's reading (log entries 3 and 16): `exec` takes the controller's next
labelled line, and a callee's return, with what its caller does with the result, belongs to the same step. -/

open Sys2Proof Sys2Proof.Machine

/-! ### Encoding -/

/-- 30_encoding.md R101, R102, R103; 00_scope.md R9: the code of every well-formed instruction decodes to it, with every field
at every value and every frame of any length. -/
def Obligations.DecodeOfEncode : Prop :=
  ∀ i : Instr, i.wf = true → decode (encode i) = .ok i

/-- R101, R107: whatever decodes is well formed, and its code is the very word or frame that was decoded, so that two codes
never mean one instruction. -/
def Obligations.EncodeOfDecode : Prop :=
  ∀ (c : Code) (i : Instr), decode c = .ok i → i.wf = true ∧ encode i = c

/-- Words written out from the spec's encodings (95_test_vectors.md section 0, V33, V65): a sanity check. -/
def Obligations.SpecWordsDecode : Prop :=
  decodeCmd 0x01000001 = .ok (.setSelect (fieldsOf 0 0 0 0 true)) ∧
  decodeCmd 0x00000002 = .ok (.isAborted (fieldsOf 0 0 0 0 false)) ∧
  decodeCmd 0x00A50023 = .ok (.transfer (fieldsOf 2 0 0 0xA5 false)) ∧
  decodeCmd 0x003C0124 = .ok (.issue (fieldsOf 2 0 0x01 0x3C false)) ∧
  decodeCmd 0x00005A05 = .ok (.issueAddr (fieldsOf 0 0 0x5A 0 false)) ∧
  decodeCmd 0x00000009 = .ok (.diagStatus (fieldsOf 0 0 0 0 false)) ∧
  decodeFrame [0x02, 0x00, 0x00, 0xFE, 0x12] = .ok (.flashPp [0x00, 0x00, 0xFE, 0x12]) ∧
  decodeFrame [0xC7] = .ok (.flashCe [])

/-- 30_encoding.md R107: a CMD write to a ready block whose value is illegal by one of (a) to (d) enters IllegalOp and starts
nothing; a legal one of ISSUE_ADDR with ARG_ADDR[31:24] not zero enters BadParam and starts nothing; CMD holds the value. Any
other starts an operation, whatever its unused fields are. -/
def Obligations.IllegalCommandFaults : Prop :=
  ∀ (s : State) (v : Word) (q : List HostReq), isReady s →
    let bad := v.extractLsb' 0 4 = 0#4 ∨ 9 < (v.extractLsb' 0 4).toNat ∨ v.extractLsb' 25 7 ≠ 0#7 ∨
      ((v.extractLsb' 0 4 = 3#4 ∨ v.extractLsb' 0 4 = 4#4) ∧
        (v.extractLsb' 4 2 = 3#2 ∨ v.extractLsb' 6 2 = 2#2 ∨ v.extractLsb' 6 2 = 3#2))
    (bad →
      step (chosen .host 0 { s with hostQ := .write s.params.hostBase .word v :: q }) =
        .next { taken .host 0 s with hostQ := q, host := { s.host with cmd := v }, faulted := some (.illegalOp v) }) ∧
    (¬bad → v.extractLsb' 0 4 = 5#4 → s.host.argAddr.extractLsb' 24 8 ≠ 0#8 →
      step (chosen .host 0 { s with hostQ := .write s.params.hostBase .word v :: q }) =
        .next { taken .host 0 s with
          hostQ := q, host := { s.host with cmd := v }, faulted := some (.badParam s.host.argAddr) }) ∧
    (¬bad → (v.extractLsb' 0 4 = 5#4 → s.host.argAddr.extractLsb' 24 8 = 0#8) →
      ∃ t, step (chosen .host 0 { s with hostQ := .write s.params.hostBase .word v :: q }) = .next t ∧ t.faulted = none ∧
        t.host.busy = true ∧ t.ctl.top = v.extractLsb' 0 4 ∧ t.stack ≠ [])

/-! ### Starting, refusing and running operations -/

/-- R110 and the table of R102: a CMD write of a legal value to a ready block sets CMD, latches the five fields and the five
arguments, sets TOP and BUSY, activates the operation's sub-machine with the latched arguments, and changes nothing else. -/
def Obligations.CommandStartsOperation : Prop :=
  ∀ (s : State) (op : BitVec 4) (f : CmdFields) (i : Instr) (q : List HostReq), isReady s →
    hostOp op f = some i → i.wf = true → (op = 5#4 → s.host.argAddr.extractLsb' 24 8 = 0#8) →
    let c := { s.ctl with
      top := op, lOpc := f.opc, lImm := f.imm, lTxk := f.txk, lRxk := f.rxk, lAct := f.act
      lAddr := s.host.argAddr, lTx := s.host.argTx, lRx := s.host.argRx, lN := s.host.argN, lSkip := s.host.argSkip }
    let x : XferArgs :=
      { txk := if f.txk = 1#2 then .mem else if f.txk = 2#2 then .imm else .none
        txb := s.host.argTx, imm := f.imm, rxk := if f.rxk = 1#2 then .mem else .none
        rxb := s.host.argRx, n := s.host.argN, skip := s.host.argSkip }
    let start : Instr → List Frame
      | .setSelect _ => [.setSelect .CS1 f.act]
      | .isAborted _ => [.isAborted]
      | .transfer _ => [.transfer .X0 x]
      | .issue _ => [.issue .T0 f.opc { x with skip := 1 }]
      | .issueAddr _ => [.issueAddr .A0 f.opc (s.host.argAddr.extractLsb' 0 24)]
      | .waitReady _ => [.waitReady .W0]
      | .enableWrite _ => [.enableWrite]
      | .eraseSeq _ => [.eraseSeq .Q0]
      | .diagStatus _ => [.diagStatus .M0]
      | _ => []
    step (chosen .host 0 { s with hostQ := .write s.params.hostBase .word (encodeCmd op f) :: q }) =
      .next { taken .host 0 s with
        hostQ := q, host := { s.host with cmd := encodeCmd op f, busy := true }, ctl := c, stack := start i }

/-- R112, R108: a CMD write while BUSY = 1 leaves CMD as it is and enters HostOverrun with the value, whatever the value; a CMD
write on a faulted block is ignored. -/
def Obligations.CommandWhileBusyOrFaulted : Prop :=
  ∀ (s : State) (v : Word) (q : List HostReq),
    (s.faulted = none → s.host.busy = true →
      step (chosen .host 0 { s with hostQ := .write s.params.hostBase .word v :: q }) =
        .next { taken .host 0 s with hostQ := q, faulted := some (.hostOverrun v) }) ∧
    (s.faulted ≠ none →
      step (chosen .host 0 { s with hostQ := .write s.params.hostBase .word v :: q }) = .next { taken .host 0 s with hostQ := q })

/-- R110, R13 (the model's shape, log entry 3): a host's CMD write of a legal word on a ready block runs `exec` of the decoded
operation on the state whose CMD holds the word; the controller's turn runs `exec` of the operation that runs. -/
def Obligations.StepRunsHostOperation : Prop :=
  (∀ (s : State) (v : Word) (i : Instr) (q : List HostReq), isReady s → decodeCmd v = .ok i →
    step (chosen .host 0 { s with hostQ := .write s.params.hostBase .word v :: q }) =
      exec i { taken .host 0 s with hostQ := q, host := { s.host with cmd := v } }) ∧
  (∀ (s : State) (d : Nat) (i : Instr), runningInstr s = some i →
    step (chosen .controller d s) = exec i (taken .controller d s)) ∧
  (∀ (s : State) (d : Nat), runningInstr s = none → step (chosen .controller d s) = .next (taken .controller d s))

/-- 20_memory.md R72, R77; 45_flash_commands.md R277, R278 (log entry 23): with chip-select asserted, an exchange runs `exec` of
the command that the device's frame with the new byte decodes to, on the state with that byte taken from the engine; a pending
deassertion that reaches the pin runs `exec` of the command of the whole frame, on the state with the pin deasserted. That `exec`
is the device's PeerDeselect, so that the pin's other ways to the deasserted state execute the same frame. -/
def Obligations.StepRunsFlashCommand : Prop :=
  (∀ (s s' : State) (d : Nat) (p : RefPeer) (m : Byte) (i : Instr),
    engineTake (taken .engineExchange d s) = some (m, s') → s.peer = .reference p → s.cs.pin = true →
    decodeFrame (p.fr ++ [m]) = .ok i → step (chosen .engineExchange d s) = exec i s') ∧
  (∀ (s : State) (d : Nat) (p : RefPeer) (i : Instr), s.peer = .reference p → s.cs.pin = true → s.cs.pend = some false →
    decodeFrame p.fr = .ok i →
    step (chosen .engineCs d s) =
      exec i { taken .engineCs d s with
        cs := { s.cs with pend := none, pin := false }, trace := s.trace ++ [.cs false] }) ∧
  (∀ (s : State) (p : RefPeer) (i : Instr), deselecting p s → decodeFrame p.fr = .ok i →
    exec i s = .next { s with peer := .reference (peerDeselect s.now.draw p) })

/-- The model's own convention (log entries 4 and 24), no rule of the spec: an opcode-table row placed with `withFetchWord` is
what the next step runs, from every state: a command word as the host's CMD write to an idle block, a flash row at the device,
while it exchanges the frame's last byte for a command that returns data, at the deselect for one that acts. -/
def Obligations.PlacedRowRunsNext : Prop :=
  ∀ (s : State) (w : Nat) (i : Instr),
    (decodeTableWord 32 w = some i →
      step (s.withFetchWord 32 w) =
        exec i { s with
          faulted := none, stack := [], ctl := { s.ctl with top := 0 }
          host := { s.host with busy := false, cmd := BitVec.ofNat 32 w }
          now := { agent := .host, draw := 0 } }) ∧
    (decodeTableWord 8 w = some i →
      ∃ s' p, step (s.withFetchWord 8 w) = exec i s' ∧ s'.cs.pin = answersData i ∧ s'.peer = .reference p ∧ p.sel = true ∧
        s' = { s with
          peer := .reference p, engine := s'.engine, cs := s'.cs, trace := s'.trace, now := s'.now })

/-! ### Host registers -/

/-- 10_state.md R21, R23, R25; 20_memory.md R86: reading each host register at `HOST_BASE + offset`, reserved offsets read 0;
writing an argument register sets it alone, busy or not, and a write to any other aligned offset but CMD's changes nothing. That
the reserved offsets go on from 0x30 to 0xFFFFFFFC is the model's choice (log entry 19, DESIGN CHOICE): R21 speaks of those inside
the block's window and gives the window no size. -/
def Obligations.HostRegisterMap : Prop :=
  (∀ (s : State) (q : List HostReq) (o v : Word),
    (o, v) ∈ [(0x00, s.host.cmd), (0x04, s.host.argAddr), (0x08, s.host.argTx), (0x0C, s.host.argRx), (0x10, s.host.argN),
      (0x14, s.host.argSkip), (0x18, statusWord s), (0x1C, s.host.resSent), (0x20, s.host.resRecv),
      (0x24, s.host.resSkipLeft), (0x28, s.host.resValue), (0x2C, s.host.resStep.setWidth 32)] →
    step (chosen .host 0 { s with hostQ := .read (s.params.hostBase + o) .word :: q }) =
      .next { taken .host 0 s with hostQ := q, hostData := v }) ∧
  (∀ (s : State) (q : List HostReq) (o : Word), o.extractLsb' 0 2 = 0#2 → 0x30 ≤ o.toNat →
    step (chosen .host 0 { s with hostQ := .read (s.params.hostBase + o) .word :: q }) =
      .next { taken .host 0 s with hostQ := q, hostData := 0 }) ∧
  (∀ (s : State) (q : List HostReq) (o v : Word) (h : HostRegs),
    (o, h) ∈ [((0x04 : Word), { s.host with argAddr := v }), (0x08, { s.host with argTx := v }),
      (0x0C, { s.host with argRx := v }), (0x10, { s.host with argN := v }), (0x14, { s.host with argSkip := v })] →
    step (chosen .host 0 { s with hostQ := .write (s.params.hostBase + o) .word v :: q }) =
      .next { taken .host 0 s with hostQ := q, host := h }) ∧
  (∀ (s : State) (q : List HostReq) (o v : Word), o.extractLsb' 0 2 = 0#2 → 0x18 ≤ o.toNat →
    step (chosen .host 0 { s with hostQ := .write (s.params.hostBase + o) .word v :: q }) =
      .next { taken .host 0 s with hostQ := q })

/-- 10_state.md R24, R43; 60_exceptions.md R311: STATUS bit by bit, FAULT and FCODE mirroring FAULTED. -/
def Obligations.StatusFields : Prop :=
  ∀ s : State,
    (statusWord s).getLsbD 0 = s.host.busy ∧ (statusWord s).getLsbD 1 = s.host.aborted ∧
    (statusWord s).getLsbD 2 = s.faulted.isSome ∧ (statusWord s).getLsbD 3 = false ∧
    (statusWord s).extractLsb' 8 24 = 0#24 ∧
    (statusWord s).extractLsb' 4 4 =
      (match s.faulted with
      | none => 0#4
      | some (.illegalOp _) => 1#4
      | some (.badParam _) => 2#4
      | some (.hostOverrun _) => 3#4
      | some (.entryMismatch _ _) => 4#4
      | some (.txOverflow _) => 5#4
      | some (.rxOverflow _) => 6#4
      | some .rxUnderflow => 7#4)

/-- 20_memory.md R83, R60, R61, R62; 30_encoding.md R114; 93 S12, S14 (log entries 18, 19): a host register access that is not 32
bits wide or not aligned is refused, and so is every host access to a byte of the transmit or the receive buffer of a running
TRANSFER or ISSUE; the host stops at a buffer address the launch memory does not admit. Any other buffer byte the host writes holds
the value and every other byte stays, and one it reads comes back; the wait stays while BUSY = 1 and ends when BUSY = 0. -/
def Obligations.OutsideHostAccessesStop : Prop :=
  (∀ (s : State) (q : List HostReq) (a v : Word) (z : AccessSize), s.params.hostBase.extractLsb' 0 2 = 0#2 →
    z ≠ .word ∨ a.extractLsb' 0 2 ≠ 0#2 →
    step (chosen .host 0 { s with hostQ := .write a z v :: q }) = .refused (.hostAccessShape a) ∧
    step (chosen .host 0 { s with hostQ := .read a z :: q }) = .refused (.hostAccessShape a)) ∧
  (∀ (s : State) (q : List HostReq) (a : Word) (v : Byte),
    let put := step (chosen .host 0 { s with hostQ := .putByte a v :: q })
    let get := step (chosen .host 0 { s with hostQ := .getByte a :: q })
    let used := s.host.busy = true ∧ (s.ctl.top = 3#4 ∨ s.ctl.top = 4#4) ∧
      ∃ k, k < s.ctl.lN.toNat ∧ ((s.ctl.lTxk = 1#2 ∧ a = s.ctl.lTx + BitVec.ofNat 32 k) ∨
        (s.ctl.lRxk = 1#2 ∧ a = s.ctl.lRx + BitVec.ofNat 32 k))
    (used → put = .refused (.hostBufferRace a) ∧ get = .refused (.hostBufferRace a)) ∧
    (¬used → admitsWrite s.params a = false → put = .fault (.noSuchAddress a)) ∧
    (¬used → admitsRead s.params a = false → get = .fault (.noSuchAddress a)) ∧
    (¬used → admitsWrite s.params a = true →
      ∃ t, put = .next t ∧ t = { taken .host 0 s with hostQ := q, mem := t.mem } ∧ byteAt t.mem a = v ∧
        ∀ b, b ≠ a → byteAt t.mem b = byteAt s.mem b) ∧
    (¬used → admitsRead s.params a = true →
      get = .next { taken .host 0 s with hostQ := q, hostData := (byteAt s.mem a).setWidth 32 })) ∧
  (∀ (s : State) (q : List HostReq),
    step (chosen .host 0 { s with hostQ := .await :: q }) =
      .next { taken .host 0 s with hostQ := if s.host.busy = true then .await :: q else q })

/-! ### Chip-select and abort -/

/-- 40_csr_access.md R140, 20_memory.md R67; 45_flash_commands.md R278: CS1, whoever called, writes CSCTRL and only posts it; CS2
reads it back, which brings the line to the posted state, starting a frame at the device or having it execute the frame that ends,
and the host's SET_SELECT completes with ABORTED <- 0 and no result register written (at its return, log entry 16). -/
def Obligations.SetSelectWritesAndReadsBack : Prop :=
  ∀ (f : CmdFields) (s : State) (act : Bool) (below : List Frame),
    let posted : State :=
      { s with
        stack := .setSelect .CS2 act :: below, ctl := { s.ctl with csAct := act }
        cs := { s.cs with csreg := if act then 1 else 0, pend := some act } }
    (lineAt (.setSelect .CS1 act) below s → controllerTurn s = .next posted) ∧
    (runsAt 1#4 [.setSelect .CS1 act] s → below = [] → exec (.setSelect f) s = .next posted) ∧
    (runsAt 1#4 [.setSelect .CS2 act] s → selectPosted act s →
      exec (.setSelect f) s =
        .next { pinTakes act s with
          stack := [], ctl := { s.ctl with top := 0 }, host := { s.host with busy := false, aborted := false } })

/-- 40_csr_access.md R142: whatever the serial engine, the peer and the abort environment do between the two lines of SET_SELECT,
after it returns the line is in the requested state and no write is pending. -/
def Obligations.SelectHoldsUnderEveryInterleaving : Prop :=
  ∀ (s : State) (act : Bool) (es rest : List Config.Choice) (d e : Nat),
    runsAt 1#4 [.setSelect .CS1 act] s → flowOk s →
    (∀ c ∈ es, c.agent ≠ .controller ∧ c.agent ≠ .host) →
    s.sched = { agent := .controller, draw := d } :: (es ++ { agent := .controller, draw := e } :: rest) →
    ∃ t, runSteps (es.length + 2) s = .next t ∧ t.cs.pin = act ∧ t.cs.pend = none ∧ t.host.busy = false ∧
      t.host.aborted = false

/-- 20_memory.md R67, R77; 70_reset_and_hazards.md R365: the line changes only when a posted write is applied, to the state
posted, by EN_CS or by the read-back of CS2, and the change is an event of the bus. -/
def Obligations.PinChangesOnlyWhenPostedWriteLands : Prop :=
  ∀ s t : State, step s = .next t → t.cs.pin ≠ s.cs.pin →
    s.cs.pend = some t.cs.pin ∧ t.cs.pend = none ∧ t.trace = s.trace ++ [.cs t.cs.pin] ∧
      ((takeChoice s).now.agent = .engineCs ∨
        ((takeChoice s).now.agent = .controller ∧ ∃ act below, s.stack = .setSelect .CS2 act :: below))

/-- 40_csr_access.md R141 (the return in the same step: log entry 16): the sample is of ABORTREG at AB1 under ABORT_MASK;
RES_VALUE is 1 or 0, ABORTED <- 0, the block is idle again and nothing else changed. -/
def Obligations.IsAbortedCompletes : Prop :=
  ∀ (f : CmdFields) (s : State), runsAt 2#4 [.isAborted] s →
    exec (.isAborted f) s =
      .next { s with
        stack := [], ctl := { s.ctl with top := 0 }
        host := { s.host with
          busy := false, aborted := false, resValue := if s.abortIn &&& s.params.abortMask = 0 then 0 else 1 } }

/-- 40_csr_access.md R144, 20_memory.md R69, R81: no instruction and no agent but the abort environment changes ABORT_IN. -/
def Obligations.AbortSignalNeverWritten : Prop :=
  (∀ (i : Instr) (s t : State), exec i s = .next t → t.abortIn = s.abortIn) ∧
  (∀ s t : State, step s = .next t → (takeChoice s).now.agent ≠ .abortEnv → t.abortIn = s.abortIn) ∧
  (∀ (s : State) (v : Word), step (chosen .abortEnv v.toNat s) = .next { taken .abortEnv v.toNat s with abortIn := v })

/-! ### FIFO Transport -/

/-- 41_fifo_transport.md R151, R150 X0: with exactly `skip` bytes in flight the transfer starts with its counters set; with any
other number it enters EntryMismatch and stays at X0. -/
def Obligations.TransferEntry : Prop :=
  ∀ (s : State) (x : XferArgs) (below : List Frame), lineAt (.transfer .X0 x) below s →
    (inFlight s = x.skip.toNat →
      controllerTurn s =
        .next { s with
          stack := .transfer .X1 x :: below
          ctl := { s.ctl with
            xTxk := x.txk, xTxb := x.txb, xImm := x.imm, xRxk := x.rxk, xRxb := x.rxb
            txRem := x.n, rxRem := x.n, skipRem := x.skip, sent := 0, recv := 0, xabort := false } }) ∧
    (inFlight s ≠ x.skip.toNat →
      controllerTurn s = .next { s with faulted := some (.entryMismatch (inFlight s) x.skip.toNat) })

/-- 41_fifo_transport.md R152, R153, R158: an iteration starts at X1 unless all counters are zero, and samples TXFLR at X2, then
RXFLR at X3, as two steps. -/
def Obligations.TransferSamplesBothLevels : Prop :=
  ∀ (s : State) (x : XferArgs) (below : List Frame),
    (lineAt (.transfer .X1 x) below s →
      controllerTurn s =
        .next { s with
          stack := (if s.ctl.txRem = 0 ∧ s.ctl.skipRem = 0 ∧ s.ctl.rxRem = 0 then .transfer .X9 x else .transfer .X2 x) ::
            below }) ∧
    (lineAt (.transfer .X2 x) below s →
      controllerTurn s =
        .next { s with
          stack := .transfer .X3 x :: below, ctl := { s.ctl with tl := BitVec.ofNat 8 s.engine.txq.length } }) ∧
    (lineAt (.transfer .X3 x) below s →
      controllerTurn s =
        .next { s with
          stack := .transfer .X4 x :: below
          ctl := { s.ctl with rl := BitVec.ofNat 8 s.engine.rxq.length, prog := false } })

/-- 41_fifo_transport.md R154, R150 X4, X5; 30_encoding.md R104; 20_memory.md R61, R63, R65: a byte is enqueued exactly when
`TX_REM > 0` and `TL + RL < D - 2`; it is the buffer's byte at `(X_TXB + SENT) mod 2^32`, the immediate or zero by the kind; a
refused read leaves the controller where it is (a turn that changes nothing: log entry 9); X5 writes it to DR and counts it. -/
def Obligations.TransferEnqueues : Prop :=
  ∀ (s : State) (x : XferArgs) (below : List Frame),
    (lineAt (.transfer .X4 x) below s →
      let guard := 0 < s.ctl.txRem.toNat ∧ s.ctl.tl.toNat + s.ctl.rl.toNat < s.params.depth - 2
      let take (b : Byte) := Host.Outcome.next { s with stack := .transfer .X5 x :: below, ctl := { s.ctl with xb := b } }
      let a := BitVec.ofNat 32 (s.ctl.xTxb.toNat + s.ctl.sent.toNat)
      (¬guard → controllerTurn s = .next { s with stack := .transfer .X6 x :: below }) ∧
      (guard → s.ctl.xTxk = .none → controllerTurn s = take 0x00) ∧
      (guard → s.ctl.xTxk = .imm → controllerTurn s = take s.ctl.xImm) ∧
      (guard → s.ctl.xTxk = .mem → admitsRead s.params a = true → controllerTurn s = take (byteAt s.mem a)) ∧
      (guard → s.ctl.xTxk = .mem → admitsRead s.params a = false → controllerTurn s = .next s)) ∧
    (lineAt (.transfer .X5 x) below s →
      (s.engine.txq.length ≠ s.params.depth →
        controllerTurn s =
          .next { s with
            stack := .transfer .X6 x :: below, engine := { s.engine with txq := s.engine.txq ++ [s.ctl.xb] }
            ctl := { s.ctl with txRem := s.ctl.txRem - 1, sent := s.ctl.sent + 1, prog := true } }) ∧
      (s.engine.txq.length = s.params.depth → controllerTurn s = .next { s with faulted := some (.txOverflow s.ctl.xb) }))

/-- 41_fifo_transport.md R156, R150 X6, X7; 20_memory.md R62, R63, R66: a byte is dequeued exactly when `RL > 0` and bytes are
owed; it is discarded while SKIP_REM > 0, else stored at `(X_RXB + RECV) mod 2^32`, in STAT or nowhere by the kind; every other
byte of memory stays; a refused write leaves the controller where it is (log entry 9). -/
def Obligations.TransferDequeues : Prop :=
  ∀ (s : State) (x : XferArgs) (below : List Frame),
    (lineAt (.transfer .X6 x) below s →
      let guard := 0 < s.ctl.rl.toNat ∧ (0 < s.ctl.skipRem.toNat ∨ 0 < s.ctl.rxRem.toNat)
      (¬guard → controllerTurn s = .next { s with stack := .transfer .X8 x :: below }) ∧
      (guard → s.engine.rxq = [] → controllerTurn s = .next { s with faulted := some .rxUnderflow }) ∧
      (guard → ∀ b q, s.engine.rxq = b :: q →
        controllerTurn s =
          .next { s with
            stack := (if s.ctl.skipRem = 0 then .transfer .X7 x else .transfer .X8 x) :: below
            engine := { s.engine with rxq := q }
            ctl := { s.ctl with
              xb := b, prog := true, skipRem := if s.ctl.skipRem = 0 then 0 else s.ctl.skipRem - 1 } })) ∧
    (lineAt (.transfer .X7 x) below s →
      let a := BitVec.ofNat 32 (s.ctl.xRxb.toNat + s.ctl.recv.toNat)
      let c := { s.ctl with rxRem := s.ctl.rxRem - 1, recv := s.ctl.recv + 1 }
      (s.ctl.xRxk = .none → controllerTurn s = .next { s with stack := .transfer .X8 x :: below, ctl := c }) ∧
      (s.ctl.xRxk = .stat →
        controllerTurn s = .next { s with stack := .transfer .X8 x :: below, ctl := { c with stat := s.ctl.xb } }) ∧
      (s.ctl.xRxk = .mem → admitsWrite s.params a = true →
        ∃ t, controllerTurn s = .next t ∧ t = { s with stack := .transfer .X8 x :: below, ctl := c, mem := t.mem } ∧
          byteAt t.mem a = s.ctl.xb ∧ ∀ b, b ≠ a → byteAt t.mem b = byteAt s.mem b) ∧
      (s.ctl.xRxk = .mem → admitsWrite s.params a = false → controllerTurn s = .next s))

/-- 41_fifo_transport.md R157, 60_exceptions.md R314 (c), R315: an iteration that moved a byte goes on without sampling; an idle
one samples the abort signal once, ends the loop if it is set, and goes on if it is clear; X9 then deasserts chip-select
(R159). -/
def Obligations.TransferSamplesAbortOnlyWhenIdle : Prop :=
  ∀ (s : State) (x : XferArgs) (below : List Frame),
    (lineAt (.transfer .X8 x) below s →
      controllerTurn s =
        .next { s with
          stack := (if s.ctl.prog then [.transfer .X1 x] else [.isAborted, .transfer .X8 x]) ++ below }) ∧
    (lineAt .isAborted (.transfer .X8 x :: below) s →
      controllerTurn s =
        .next (if s.abortIn &&& s.params.abortMask = 0 then { s with stack := .transfer .X1 x :: below }
          else { s with stack := .transfer .X9 x :: below, ctl := { s.ctl with xabort := true } })) ∧
    (lineAt (.transfer .X9 x) below s →
      controllerTurn s = .next { s with stack := .setSelect .CS1 false :: .transfer .X9 x :: below })

/-- 41_fifo_transport.md R150, R159; 42_command_dispatcher.md R180; 43_status_poller.md R201; 30_encoding.md R111: TRANSFER, ISSUE
and ENABLE_WRITE complete at the read-back of their transfer's SET_SELECT(0): chip-select deasserted, the device executing the frame
that ends, ABORTED the transfer's status, the three counts in RES_SENT, RES_RECV and RES_SKIP_LEFT, the block idle (the returns in
one step: log entry 16). -/
def Obligations.TransfersComplete : Prop :=
  ∀ (f : CmdFields) (s : State) (x : XferArgs) (opc : Byte), selectPosted false s →
    let done (o : Host.Outcome State Fault Refusal) :=
      ∃ t, o = .next t ∧ t.cs.pin = false ∧
        t = { pinTakes false s with
          stack := [], ctl := { s.ctl with top := 0 }
          host := { s.host with
            busy := false, aborted := s.ctl.xabort, resSent := s.ctl.sent, resRecv := s.ctl.recv
            resSkipLeft := s.ctl.skipRem } }
    (runsAt 3#4 [.setSelect .CS2 false, .transfer .X9 x] s → done (exec (.transfer f) s)) ∧
    (runsAt 4#4 [.setSelect .CS2 false, .transfer .X9 x, .issue .T3 opc x] s → done (exec (.issue f) s)) ∧
    (runsAt 7#4 [.setSelect .CS2 false, .transfer .X9 x, .issue .T3 opc x, .enableWrite] s →
      done (exec (.enableWrite f) s))

/-- 41_fifo_transport.md R158, R166; 95_test_vectors.md V26: a host TRANSFER with `n = 0` and `skip = 0` on empty queues makes no
iteration and no abort sample: five controller steps after its start it is Completed, with zero counts and chip-select
deasserted, whatever the abort signal. -/
def Obligations.EmptyTransferCompletes : Prop :=
  ∀ (s : State) (x : XferArgs) (ds : List Nat) (rest : List Config.Choice),
    runsAt 3#4 [.transfer .X0 x] s → x.n = 0 → x.skip = 0 → inFlight s = 0 → ds.length = 5 →
    s.sched = ds.map (fun d => { agent := .controller, draw := d }) ++ rest →
    ∃ t, runSteps 5 s = .next t ∧ t.host.busy = false ∧ t.host.aborted = false ∧ t.host.resSent = 0 ∧
      t.host.resRecv = 0 ∧ t.host.resSkipLeft = 0 ∧ t.cs.pin = false ∧ t.cs.pend = none ∧ t.mem = s.mem ∧ t.sched = rest

/-- 41_fifo_transport.md R162, R164; 20_memory.md R73, R80: the transfer's accounts stay in balance under every step of every
agent, given the flow invariant: what was written to DR less what was read back is in flight, and the counters add up. -/
def Obligations.TransferAccountsKept : Prop :=
  ∀ s t : State, flowOk s → accountsOk s → step s = .next t → accountsOk t

/-- 41_fifo_transport.md R162, 70_reset_and_hazards.md R363: when a TRANSFER or an ISSUE returns to the host, the bytes left in
flight are `RES_SENT + RES_SKIP_LEFT - RES_RECV`, and `RES_RECV <= RES_SENT` (R164). -/
def Obligations.ReturnedTransferLeavesCountedBytes : Prop :=
  ∀ (i : Instr) (f : CmdFields) (s t : State), accountsOk s → controlOk s → s.faulted = none → s.host.busy = true →
    (i = .transfer f ∧ s.ctl.top = 3#4) ∨ (i = .issue f ∧ s.ctl.top = 4#4) →
    exec i s = .next t → t.host.busy = false →
    inFlight t + t.host.resRecv.toNat = t.host.resSent.toNat + t.host.resSkipLeft.toNat ∧
      t.host.resRecv.toNat ≤ t.host.resSent.toNat

/-- 41_fifo_transport.md R161, R156, 70_reset_and_hazards.md R369, on the controller's turns of a transfer whose accounts balance:
X4 takes the byte at the address of position SENT, X7 stores at the address of position RECV, which was enqueued before, and X6,
wherever it finds a byte, dequeues it: it is owed. With the receive buffer at the transmit buffer or `d` bytes below it, the address
X4 reads is that of no position stored so far, so it reads the buffer's original byte, and the address X7 writes is that of no
position X4 has yet to read. -/
def Obligations.PositionsAreReadBeforeWritten : Prop :=
  ∀ (s : State) (x : XferArgs) (below : List Frame) (d : Nat), accountsOk s →
    let aliased := s.ctl.xTxb = s.ctl.xRxb + BitVec.ofNat 32 d ∧ d + x.n.toNat ≤ 2 ^ 32
    (lineAt (.transfer .X4 x) below s → mayEnqueue s.params s.ctl = true → s.ctl.xTxk = .mem →
      admitsRead s.params (txAddress s.ctl) = true →
      controllerTurn s =
        .next { s with stack := .transfer .X5 x :: below, ctl := { s.ctl with xb := byteAt s.mem (txAddress s.ctl) } } ∧
      (aliased → ∀ j, j < s.ctl.recv.toNat → s.ctl.xRxb + BitVec.ofNat 32 j ≠ txAddress s.ctl)) ∧
    (lineAt (.transfer .X7 x) below s → s.ctl.xRxk = .mem → admitsWrite s.params (rxAddress s.ctl) = true →
      (∃ t, controllerTurn s = .next t ∧ byteAt t.mem (rxAddress s.ctl) = s.ctl.xb ∧
        ∀ b, b ≠ rxAddress s.ctl → byteAt t.mem b = byteAt s.mem b) ∧
      s.ctl.recv.toNat < s.ctl.sent.toNat ∧
      (aliased → ∀ j, s.ctl.sent.toNat ≤ j → j < x.n.toNat → s.ctl.xTxb + BitVec.ofNat 32 j ≠ rxAddress s.ctl)) ∧
    (lineAt (.transfer .X6 x) below s → 0 < s.ctl.rl.toNat → ∀ b q, s.engine.rxq = b :: q →
      ∃ t, controllerTurn s = .next t ∧ t.engine = { s.engine with rxq := q } ∧ t.ctl.xb = b ∧
        (s.ctl.skipRem = 0 → t.stack = .transfer .X7 x :: below) ∧
        (s.ctl.skipRem ≠ 0 → t.ctl.skipRem = s.ctl.skipRem - 1 ∧ t.stack = .transfer .X8 x :: below))

/-! ### Command Dispatcher -/

/-- 42_command_dispatcher.md R180: ISSUE's lines: EntryMismatch unless nothing is in flight; SET_SELECT(1), whose read-back asserts
chip-select, a frame starting at the device, and returns to T2 in the same step (log entry 16); the opcode into DR without flow
control; then TRANSFER. -/
def Obligations.IssueLines : Prop :=
  ∀ (s : State) (opc : Byte) (x : XferArgs) (below : List Frame),
    (lineAt (.issue .T0 opc x) below s →
      controllerTurn s =
        .next (if inFlight s = 0 then { s with stack := .issue .T1 opc x :: below, ctl := { s.ctl with dOpc := opc } }
          else { s with faulted := some (.entryMismatch (inFlight s) 0) })) ∧
    (lineAt (.issue .T1 opc x) below s →
      controllerTurn s = .next { s with stack := .setSelect .CS1 true :: .issue .T1 opc x :: below }) ∧
    (lineAt (.setSelect .CS1 true) (.issue .T1 opc x :: below) s →
      controllerTurn s =
        .next { s with
          stack := .setSelect .CS2 true :: .issue .T1 opc x :: below, ctl := { s.ctl with csAct := true }
          cs := { s.cs with csreg := 1, pend := some true } }) ∧
    (lineAt (.setSelect .CS2 true) (.issue .T1 opc x :: below) s → selectPosted true s →
      controllerTurn s = .next { pinTakes true s with stack := .issue .T2 opc x :: below }) ∧
    (lineAt (.issue .T2 opc x) below s → s.engine.txq.length ≠ s.params.depth →
      controllerTurn s =
        .next { s with
          stack := .issue .T3 opc x :: below, engine := { s.engine with txq := s.engine.txq ++ [s.ctl.dOpc] } }) ∧
    (lineAt (.issue .T3 opc x) below s →
      controllerTurn s = .next { s with stack := .transfer .X0 x :: .issue .T3 opc x :: below })

/-- 42_command_dispatcher.md R181, 30_encoding.md R106 (the return in the same step: log entry 16): ISSUE_ADDR completes at A5
with the fourth byte written and no result register changed; A1's SET_SELECT(1) asserts chip-select at its read-back and returns to
A2; A2 to A5 write the opcode and the address bytes, most significant first; A0 faults when bytes are in flight. -/
def Obligations.IssueAddrLines : Prop :=
  ∀ (f : CmdFields) (s : State) (opc : Byte) (a : FlashAddr) (below : List Frame),
    (lineAt (.issueAddr .A0 opc a) below s →
      controllerTurn s =
        .next (if inFlight s = 0 then
            { s with stack := .issueAddr .A1 opc a :: below, ctl := { s.ctl with aw := opc ++ a, ai := 0 } }
          else { s with faulted := some (.entryMismatch (inFlight s) 0) })) ∧
    (lineAt (.issueAddr .A1 opc a) below s →
      controllerTurn s = .next { s with stack := .setSelect .CS1 true :: .issueAddr .A1 opc a :: below }) ∧
    (lineAt (.setSelect .CS2 true) (.issueAddr .A1 opc a :: below) s → selectPosted true s →
      controllerTurn s = .next { pinTakes true s with stack := .issueAddr .A2 opc a :: below }) ∧
    (s.engine.txq.length ≠ s.params.depth →
      let sent (k : Nat) : Engine := { s.engine with txq := s.engine.txq ++ [s.ctl.aw.extractLsb' (24 - 8 * k) 8] }
      (lineAt (.issueAddr .A2 opc a) below s → controllerTurn s =
        .next { s with stack := .issueAddr .A3 opc a :: below, engine := sent 0, ctl := { s.ctl with ai := 1 } }) ∧
      (lineAt (.issueAddr .A3 opc a) below s → controllerTurn s =
        .next { s with stack := .issueAddr .A4 opc a :: below, engine := sent 1, ctl := { s.ctl with ai := 2 } }) ∧
      (lineAt (.issueAddr .A4 opc a) below s → controllerTurn s =
        .next { s with stack := .issueAddr .A5 opc a :: below, engine := sent 2, ctl := { s.ctl with ai := 3 } }) ∧
      (runsAt 5#4 [.issueAddr .A5 opc a] s → exec (.issueAddr f) s =
        .next { s with
          stack := [], engine := sent 3, ctl := { s.ctl with ai := 4, top := 0 }
          host := { s.host with busy := false, aborted := false } }))

/-- 42_command_dispatcher.md R181, R184; 95_test_vectors.md V33: eight controller steps with no step of another agent between
them take a started ISSUE_ADDR to its end: chip-select asserted, the opcode and the three address bytes in the transmit FIFO in
that order, four bytes in flight, no result register written. -/
def Obligations.IssueAddrStreamsFourBytes : Prop :=
  ∀ (s : State) (opc a2 a1 a0 : Byte) (ds : List Nat) (rest : List Config.Choice),
    runsAt 5#4 [.issueAddr .A0 opc (a2 ++ a1 ++ a0)] s → 4 ≤ s.params.depth → inFlight s = 0 → ds.length = 8 →
    s.sched = ds.map (fun d => { agent := .controller, draw := d }) ++ rest →
    ∃ t, runSteps 8 s = .next t ∧ t.engine.txq = [opc, a2, a1, a0] ∧ inFlight t = 4 ∧ t.cs.pin = true ∧
      t.cs.pend = none ∧ t.host = { s.host with busy := false, aborted := false } ∧ t.stack = []

/-! ### Status Poller -/

/-- 43_status_poller.md R200, R205; 60_exceptions.md R314 (d), R316: WAIT_READY reads status register 1 into STAT, remembers an
aborted read, ends when STAT[0] = 0, else samples the abort signal and ends or polls again; it completes at W9 with ABORTED and
the last status byte in RES_VALUE (returns in the same step: log entry 16). -/
def Obligations.WaitReadyLines : Prop :=
  ∀ (f : CmdFields) (s : State) (below : List Frame),
    (lineAt (.waitReady .W0) below s →
      controllerTurn s = .next { s with stack := .waitReady .W1 :: below, ctl := { s.ctl with pabort := false } }) ∧
    (lineAt (.waitReady .W1) below s →
      controllerTurn s =
        .next { s with
          stack := .issue .T0 0x05 { txk := .none, txb := 0, imm := 0, rxk := .stat, rxb := 0, n := 1, skip := 1 } ::
            .waitReady .W1 :: below }) ∧
    (lineAt (.waitReady .W2) below s →
      controllerTurn s =
        .next { s with stack := (if s.ctl.stat.getLsbD 0 then .waitReady .W3 else .waitReady .W9) :: below }) ∧
    (lineAt (.waitReady .W3) below s → controllerTurn s = .next { s with stack := .isAborted :: .waitReady .W3 :: below }) ∧
    (lineAt .isAborted (.waitReady .W3 :: below) s →
      controllerTurn s =
        .next (if s.abortIn &&& s.params.abortMask = 0 then { s with stack := .waitReady .W1 :: below }
          else { s with stack := .waitReady .W9 :: below, ctl := { s.ctl with pabort := true } })) ∧
    (∀ x, lineAt (.setSelect .CS2 false) (.transfer .X9 x :: .issue .T3 0x05 x :: .waitReady .W1 :: below) s →
      selectPosted false s →
      controllerTurn s =
        .next { pinTakes false s with
          stack := .waitReady .W2 :: below, ctl := { s.ctl with pabort := s.ctl.pabort || s.ctl.xabort } }) ∧
    (runsAt 6#4 [.waitReady .W9] s →
      exec (.waitReady f) s =
        .next { s with
          stack := [], ctl := { s.ctl with top := 0 }
          host := { s.host with busy := false, aborted := s.ctl.pabort, resValue := s.ctl.stat.setWidth 32 } })

/-- 43_status_poller.md R201: ENABLE_WRITE is the frame of the one opcode 0x06 with no payload. -/
def Obligations.EnableWriteIssuesWren : Prop :=
  ∀ (s : State) (below : List Frame), lineAt .enableWrite below s →
    controllerTurn s =
      .next { s with
        stack := .issue .T0 0x06 { txk := .none, txb := 0, imm := 0, rxk := .none, rxb := 0, n := 0, skip := 1 } ::
          .enableWrite :: below }

/-- 43_status_poller.md R202: DIAG_STATUS reads status registers 1, 2 and 3 by 0x05, 0x35 and 0x15 into bits [7:0], [15:8] and
[23:16], stops at the first aborted read, and completes at M9 with the composite in RES_VALUE (returns in the same step: log
entry 16). -/
def Obligations.DiagStatusLines : Prop :=
  ∀ (f : CmdFields) (s : State) (below : List Frame),
    let read (opc : Byte) : Frame :=
      .issue .T0 opc { txk := .none, txb := 0, imm := 0, rxk := .stat, rxb := 0, n := 1, skip := 1 }
    (lineAt (.diagStatus .M0) below s →
      controllerTurn s =
        .next { s with stack := .diagStatus .M1 :: below, ctl := { s.ctl with gabort := false, gacc := 0, gi := 0 } }) ∧
    (lineAt (.diagStatus .M1) below s →
      controllerTurn s = .next { s with stack := read 0x05 :: .diagStatus .M1 :: below }) ∧
    (lineAt (.diagStatus .M2) below s →
      controllerTurn s = .next { s with stack := read 0x35 :: .diagStatus .M2 :: below }) ∧
    (lineAt (.diagStatus .M3) below s →
      controllerTurn s = .next { s with stack := read 0x15 :: .diagStatus .M3 :: below }) ∧
    (∀ (l : MLabel) (opc : Byte) (x : XferArgs), l = .M1 ∨ l = .M2 ∨ l = .M3 →
      lineAt (.setSelect .CS2 false) (.transfer .X9 x :: .issue .T3 opc x :: .diagStatus l :: below) s →
      selectPosted false s →
      ∃ t, controllerTurn s = .next t ∧ t = { pinTakes false s with stack := t.stack, ctl := t.ctl } ∧
        (s.ctl.xabort = true → t.stack = .diagStatus .M9 :: below ∧ t.ctl = { s.ctl with gabort := true }) ∧
        (s.ctl.xabort = false → l = .M1 → t.stack = .diagStatus .M2 :: below ∧
          t.ctl = { s.ctl with gacc := s.ctl.gacc.extractLsb' 8 16 ++ s.ctl.stat, gi := 1 }) ∧
        (s.ctl.xabort = false → l = .M2 → t.stack = .diagStatus .M3 :: below ∧
          t.ctl = { s.ctl with
            gacc := s.ctl.gacc.extractLsb' 16 8 ++ s.ctl.stat ++ s.ctl.gacc.extractLsb' 0 8, gi := 2 }) ∧
        (s.ctl.xabort = false → l = .M3 → t.stack = .diagStatus .M9 :: below ∧
          t.ctl = { s.ctl with gacc := s.ctl.stat ++ s.ctl.gacc.extractLsb' 0 16 })) ∧
    (runsAt 9#4 [.diagStatus .M9] s →
      exec (.diagStatus f) s =
        .next { s with
          stack := [], ctl := { s.ctl with top := 0 }
          host := { s.host with busy := false, aborted := s.ctl.gabort, resValue := s.ctl.gacc.setWidth 32 } })

/-! ### Erase Sequencer -/

/-- 44_erase_sequencer.md R230, R231: ERASE_SEQ starts at row 0, calls the twelve rows of R231 in order, ends after row 11, and
completes at Q9 with the index of the first aborted row (12 if none) in RES_VALUE and its source step in RES_STEP. -/
def Obligations.EraseSeqLines : Prop :=
  ∀ (f : CmdFields) (s : State) (below : List Frame),
    let issue (opc : Byte) : Frame :=
      .issue .T0 opc { txk := .none, txb := 0, imm := 0, rxk := .none, rxb := 0, n := 0, skip := 1 }
    let write (opc v : Byte) : Frame :=
      .issue .T0 opc { txk := .imm, txb := 0, imm := v, rxk := .none, rxb := 0, n := 1, skip := 1 }
    let rows : List Frame :=
      [issue 0x50, write 0x31 s.params.sr2Value, .waitReady .W0, .enableWrite, issue 0xC7, .waitReady .W0, .enableWrite,
        write 0x31 s.params.sr2Value, .waitReady .W0, .enableWrite, write 0x11 s.params.sr3Value, .waitReady .W0]
    let steps : List Byte := [1, 2, 2, 3, 3, 3, 4, 4, 4, 5, 5, 5]
    (lineAt (.eraseSeq .Q0) below s →
      controllerTurn s =
        .next { s with stack := .eraseSeq .Q1 :: below, ctl := { s.ctl with sk := 0, sabort := false, sfirst := 12 } }) ∧
    (lineAt (.eraseSeq .Q1) below s → s.ctl.sk = 12#4 →
      controllerTurn s = .next { s with stack := .eraseSeq .Q9 :: below }) ∧
    (∀ (k : Nat) (callee : Frame), lineAt (.eraseSeq .Q1) below s → s.ctl.sk.toNat = k → rows[k]? = some callee →
      controllerTurn s = .next { s with stack := callee :: .eraseSeq .Q1 :: below }) ∧
    (runsAt 8#4 [.eraseSeq .Q9] s → s.ctl.sabort = true → ∀ st : Byte, steps[s.ctl.sfirst.toNat]? = some st →
      exec (.eraseSeq f) s =
        .next { s with
          stack := [], ctl := { s.ctl with top := 0 }
          host := { s.host with busy := false, aborted := true, resValue := s.ctl.sfirst.setWidth 32, resStep := st } }) ∧
    (runsAt 8#4 [.eraseSeq .Q9] s → s.ctl.sabort = false →
      exec (.eraseSeq f) s =
        .next { s with
          stack := [], ctl := { s.ctl with top := 0 }
          host := { s.host with busy := false, aborted := false, resValue := s.ctl.sfirst.setWidth 32, resStep := 0 } })

/-- 44_erase_sequencer.md R233, R230: when a call of the sequence returns, a completed one goes on with the next row; the first
aborted one is recorded and, with SEQ_STOP_ON_ABORT, no further call is made; without it, the remaining rows are called and the
first aborted row stays recorded. Said of all three kinds of row, at their returns (in the same step: log entry 16): an ISSUE row
and an ENABLE_WRITE row return with their transfer's status, chip-select deasserted; a WAIT_READY row with its own. -/
def Obligations.EraseSeqStopsAtFirstAbort : Prop :=
  ∀ (s : State) (x : XferArgs) (opc : Byte) (below : List Frame),
    let returned (aborted : Bool) (u : State) : State :=
      if aborted = false then { u with stack := .eraseSeq .Q1 :: below, ctl := { s.ctl with sk := s.ctl.sk + 1 } }
      else
        let first := if s.ctl.sabort then s.ctl.sfirst else s.ctl.sk
        if s.params.seqStopOnAbort then
          { u with stack := .eraseSeq .Q9 :: below, ctl := { s.ctl with sabort := true, sfirst := first } }
        else
          { u with
            stack := .eraseSeq .Q1 :: below, ctl := { s.ctl with sabort := true, sfirst := first, sk := s.ctl.sk + 1 } }
    (lineAt (.waitReady .W9) (.eraseSeq .Q1 :: below) s → controllerTurn s = .next (returned s.ctl.pabort s)) ∧
    (lineAt (.setSelect .CS2 false) (.transfer .X9 x :: .issue .T3 opc x :: .eraseSeq .Q1 :: below) s →
      selectPosted false s → controllerTurn s = .next (returned s.ctl.xabort (pinTakes false s))) ∧
    (lineAt (.setSelect .CS2 false) (.transfer .X9 x :: .issue .T3 opc x :: .enableWrite :: .eraseSeq .Q1 :: below) s →
      selectPosted false s → controllerTurn s = .next (returned s.ctl.xabort (pinTakes false s)))

/-! ### Flash commands at the device -/

/-- 45_flash_commands.md R277, R262, R272, R273, R266, R261, R265: what the six reading commands return for the byte in position
`k`, the opcode being position 0. -/
def Obligations.FlashReadsAnswer : Prop :=
  ∀ (s : State) (p : RefPeer) (rest : List Byte), exchanging p s → rest ≠ [] →
    let k := rest.length
    exec (.flashRdsr1 rest) s =
      .next (afterAnswer s p 0x05 rest (p.sr1h ++ BitVec.ofBool p.wel ++ BitVec.ofBool p.busy)) ∧
    exec (.flashRdsr2 rest) s = .next (afterAnswer s p 0x35 rest p.sr2) ∧
    exec (.flashRdsr3 rest) s = .next (afterAnswer s p 0x15 rest p.sr3) ∧
    exec (.flashRdid rest) s =
      .next (afterAnswer s p 0x9F rest
        (if p.busy = true ∨ 3 < k then 0xFF else BitVec.ofNat 8 (p.jedec.toNat / 256 ^ (3 - k)))) ∧
    exec (.flashRead rest) s =
      .next (afterAnswer s p 0x03 rest
        (if p.busy = true ∨ k < 4 then 0xFF else storeRead p.array ((addressNat rest + k - 4) % 2 ^ 24))) ∧
    exec (.flashRdsfdp rest) s =
      .next (afterAnswer s p 0x5A rest
        (if p.busy = true ∨ k < 5 then 0xFF else storeRead p.sfdp ((addressNat rest + k - 5) % 256)))

/-- 45_flash_commands.md R277: the opcode itself of every command, and every byte of a command that returns nothing, is answered
by IDLE_MISO = 0xFF; so is every byte of a frame whose opcode is none of the fourteen. -/
def Obligations.FlashIdleAnswers : Prop :=
  (∀ (s : State) (p : RefPeer) (rest : List Byte), exchanging p s →
    (∀ i opc, (i, opc) ∈ [(Instr.flashPp rest, (0x02 : Byte)), (.flashWren rest, 0x06), (.flashSe rest, 0x20),
        (.flashCe rest, 0xC7), (.flashVwren rest, 0x50), (.flashWrsr1 rest, 0x01), (.flashWrsr2 rest, 0x31),
        (.flashWrsr3 rest, 0x11)] →
      exec i s = .next (afterAnswer s p opc rest 0xFF)) ∧
    (∀ i opc, (i, opc) ∈ [(Instr.flashRead [], (0x03 : Byte)), (.flashRdsr1 [], 0x05), (.flashRdsfdp [], 0x5A),
        (.flashRdid [], 0x9F), (.flashRdsr2 [], 0x35), (.flashRdsr3 [], 0x15)] →
      exec i s = .next (afterAnswer s p opc [] 0xFF))) ∧
  (∀ (s s' : State) (d : Nat) (p : RefPeer) (m opc : Byte) (rest : List Byte), exchanging p s →
    engineTake (taken .engineExchange d s) = some (m, s') → p.fr ++ [m] = opc :: rest →
    opc ∉ flashOpcodes → step (chosen .engineExchange d s) = .next (afterAnswer s' p opc rest 0xFF))

/-- 45_flash_commands.md R278, "a command while busy is ignored" and "other opcodes: nothing": at the deselect a busy device does
nothing with any of the fourteen commands, and the six reading commands do nothing in any case; the frame ends. A frame of no byte,
or of an opcode that is none of the fourteen, ends without any other effect. -/
def Obligations.FlashDeselectWithoutEffect : Prop :=
  (∀ (s : State) (p : RefPeer) (rest : List Byte), deselecting p s →
    (p.busy = true → ∀ i ∈ [Instr.flashPp rest, .flashRead rest, .flashRdsr1 rest, .flashWren rest, .flashSe rest,
        .flashRdsfdp rest, .flashRdid rest, .flashCe rest, .flashVwren rest, .flashWrsr1 rest, .flashWrsr2 rest,
        .flashWrsr3 rest, .flashRdsr2 rest, .flashRdsr3 rest],
      exec i s = .next (afterDeselect s p)) ∧
    (∀ i ∈ [Instr.flashRead rest, .flashRdsr1 rest, .flashRdsfdp rest, .flashRdid rest, .flashRdsr2 rest,
        .flashRdsr3 rest],
      exec i s = .next (afterDeselect s p))) ∧
  (∀ (s : State) (d : Nat) (p : RefPeer), s.peer = .reference p → s.cs.pin = true → s.cs.pend = some false →
    (∀ opc ∈ p.fr.head?, opc ∉ flashOpcodes) →
    step (chosen .engineCs d s) =
      .next (afterDeselect
        { taken .engineCs d s with cs := { s.cs with pend := none, pin := false }, trace := s.trace ++ [.cs false] } p))

/-- 45_flash_commands.md R278, R263, R268: 0x06 sets WEL, 0x50 sets VWE, on a device that is not busy. -/
def Obligations.WriteEnablesSetTheirLatches : Prop :=
  ∀ (s : State) (p : RefPeer) (rest : List Byte), deselecting p s → p.busy = false →
    exec (.flashWren rest) s = .next (afterDeselect s { p with wel := true }) ∧
    exec (.flashVwren rest) s = .next (afterDeselect s { p with vwe := true })

/-- 45_flash_commands.md R278, R269 to R271, R274, R280: a status write with its data byte, under WEL, writes the register and
makes the device busy for at least one tick; under VWE alone it writes without being busy; under neither it writes nothing; both
enables end. Cut before its data byte it does nothing. How long the device stays busy is a free value (log entry 2). -/
def Obligations.StatusWritesFollowTheEnables : Prop :=
  ∀ (s : State) (p : RefPeer) (b : Byte) (more : List Byte), deselecting p s → p.busy = false →
    (∀ (i : List Byte → Instr) (w : RefPeer),
      (i, w) ∈ [(Instr.flashWrsr1, { p with sr1h := b.extractLsb' 2 6 }), (.flashWrsr2, { p with sr2 := b }),
        (.flashWrsr3, { p with sr3 := b })] →
      exec (i []) s = .next (afterDeselect s p) ∧
      (p.wel = true →
        ∃ n, 1 ≤ n ∧
          exec (i (b :: more)) s =
            .next (afterDeselect s { w with busy := true, busyLeft := n, wel := false, vwe := false })) ∧
      (p.wel = false → p.vwe = true →
        exec (i (b :: more)) s = .next (afterDeselect s { w with wel := false, vwe := false })) ∧
      (p.wel = false → p.vwe = false → exec (i (b :: more)) s = .next (afterDeselect s p)))

/-- 45_flash_commands.md R278, R267, R264, R274: chip erase (a frame of the opcode alone) and sector erase (opcode and three
address bytes) under WEL make every byte of the array, or of the 4096-byte sector, read 0xFF and leave the others, make the
device busy and end WEL; without WEL they change nothing else; a frame of another length does nothing. -/
def Obligations.ErasesMakeBytesReadFF : Prop :=
  ∀ (s : State) (p : RefPeer) (rest : List Byte), deselecting p s → p.busy = false →
    (rest ≠ [] → exec (.flashCe rest) s = .next (afterDeselect s p)) ∧
    (rest.length ≠ 3 → exec (.flashSe rest) s = .next (afterDeselect s p)) ∧
    (p.wel = false → exec (.flashCe []) s = .next (afterDeselect s p)) ∧
    (p.wel = false → rest.length = 3 → exec (.flashSe rest) s = .next (afterDeselect s p)) ∧
    (p.wel = true →
      ∃ (n : Nat) (m : Store), 1 ≤ n ∧
        exec (.flashCe []) s = .next (afterDeselect s { p with busy := true, busyLeft := n, wel := false, array := m }) ∧
        ∀ a, a < 2 ^ 24 → storeRead m a = 0xFF) ∧
    (p.wel = true → rest.length = 3 →
      ∃ (n : Nat) (m : Store), 1 ≤ n ∧
        exec (.flashSe rest) s = .next (afterDeselect s { p with busy := true, busyLeft := n, wel := false, array := m }) ∧
        ∀ a, a < 2 ^ 24 →
          storeRead m a = if a / 4096 = addressNat rest / 4096 then 0xFF else storeRead p.array a)

/-- 45_flash_commands.md R278, R260, R274: a page program of a frame of at least five bytes, under WEL, ANDs its last 256 data
bytes into the page of its address, wrapping within the page, and leaves every other byte; the device is busy and WEL ends.
Without WEL nothing but WEL changes; a shorter frame does nothing. -/
def Obligations.PageProgramAndsIntoItsPage : Prop :=
  ∀ (s : State) (p : RefPeer) (rest : List Byte), deselecting p s → p.busy = false →
    (rest.length < 4 → exec (.flashPp rest) s = .next (afterDeselect s p)) ∧
    (4 ≤ rest.length → p.wel = false → exec (.flashPp rest) s = .next (afterDeselect s p)) ∧
    (4 ≤ rest.length → p.wel = true →
      let data := rest.drop 3
      let at_ (i : Nat) := addressNat rest / 256 * 256 + (addressNat rest + i) % 256
      ∃ (n : Nat) (m : Store), 1 ≤ n ∧
        exec (.flashPp rest) s = .next (afterDeselect s { p with busy := true, busyLeft := n, wel := false, array := m }) ∧
        (∀ (i : Nat) (d : Byte), data.length ≤ i + 256 → data[i]? = some d →
          storeRead m (at_ i) = storeRead p.array (at_ i) &&& d) ∧
        (∀ a, a < 2 ^ 24 → (∀ i, data.length ≤ i + 256 → i < data.length → a ≠ at_ i) →
          storeRead m a = storeRead p.array a))

/-- Frame of the fourteen flash commands (45_flash_commands.md R275, 20_memory.md R72): only the peer changes at a deselect; at an
exchange only the peer, the receive FIFO, the bus trace and, on RxOverflow, FAULTED. No byte of buffer memory, no register of
the block and no line changes. -/
def Obligations.FlashCommandFrame : Prop :=
  ∀ (i : Instr) (bytes : List Byte) (s t : State), encode i = .frame bytes → exec i s = .next t →
    t = { s with peer := t.peer, engine := { s.engine with rxq := t.engine.rxq }, trace := t.trace, faulted := t.faulted } ∧
    (s.cs.pin = false → t = { s with peer := t.peer }) ∧ (∀ a, byteAt t.mem a = byteAt s.mem a) ∧
    (s.peer = .absent → t.peer = .absent)

/-! ### Frames of the host operations -/

/-- Frame of the nine host operations, whatever state they run in (60_exceptions.md R330; 10_state.md R23, R25, R28, R29): CMD and
the argument registers, the parameters, the abort signal, SH and everything of the host's and the environment's stay; the latched
registers stay while the operation runs; result registers and ABORTED change only when it returns; every byte of memory stays but
the one X7 stores at `(X_RXB + RECV) mod 2^32`. -/
def Obligations.HostOperationFrame : Prop :=
  ∀ (i : Instr) (w : Word) (s t : State), encode i = .cmd w → exec i s = .next t →
    t = { s with
      ctl := t.ctl, stack := t.stack, faulted := t.faulted, cs := t.cs, peer := t.peer, mem := t.mem, trace := t.trace
      engine := { s.engine with txq := t.engine.txq, rxq := t.engine.rxq }
      host := { s.host with
        busy := t.host.busy, aborted := t.host.aborted, resSent := t.host.resSent, resRecv := t.host.resRecv
        resSkipLeft := t.host.resSkipLeft, resValue := t.host.resValue, resStep := t.host.resStep } } ∧
    (t.stack ≠ [] → t.host = { s.host with busy := t.host.busy }) ∧
    (s.host.busy = true →
      t.ctl.lOpc = s.ctl.lOpc ∧ t.ctl.lImm = s.ctl.lImm ∧ t.ctl.lTxk = s.ctl.lTxk ∧ t.ctl.lRxk = s.ctl.lRxk ∧
      t.ctl.lAct = s.ctl.lAct ∧ t.ctl.lAddr = s.ctl.lAddr ∧ t.ctl.lTx = s.ctl.lTx ∧ t.ctl.lRx = s.ctl.lRx ∧
      t.ctl.lN = s.ctl.lN ∧ t.ctl.lSkip = s.ctl.lSkip) ∧
    (∀ a, (∀ x below, s.stack = .transfer .X7 x :: below → s.ctl.xRxk = .mem → a ≠ rxAddress s.ctl) →
      byteAt t.mem a = byteAt s.mem a) ∧
    (s.host.busy = true → (∀ act below, s.stack ≠ .setSelect .CS2 act :: below) → t.cs.pin = s.cs.pin ∧ t.peer = s.peer ∧
      t.trace = s.trace)

/-- Frames of SET_SELECT, IS_ABORTED and ISSUE_ADDR while they run (10_state.md R29, R32; 40_csr_access.md R140, R141;
42_command_dispatcher.md R181): which internal registers, and that the queues, memory and result registers stay but for what
each writes. -/
def Obligations.ShortOperationFrames : Prop :=
  ∀ (f : CmdFields) (s t : State), controlOk s → s.host.busy = true →
    (s.ctl.top = 1#4 → exec (.setSelect f) s = .next t →
      t.ctl = { s.ctl with csAct := t.ctl.csAct, top := t.ctl.top } ∧ t.engine = s.engine ∧ t.mem = s.mem ∧
      t.faulted = s.faulted ∧ t.host = { s.host with busy := t.host.busy, aborted := t.host.aborted }) ∧
    (s.ctl.top = 2#4 → exec (.isAborted f) s = .next t →
      t.ctl = { s.ctl with top := t.ctl.top } ∧ t.engine = s.engine ∧ t.cs = s.cs ∧ t.peer = s.peer ∧ t.mem = s.mem ∧
      t.faulted = s.faulted ∧
      t.host = { s.host with busy := t.host.busy, aborted := t.host.aborted, resValue := t.host.resValue }) ∧
    (s.ctl.top = 5#4 → exec (.issueAddr f) s = .next t →
      t.ctl = { s.ctl with aw := t.ctl.aw, ai := t.ctl.ai, csAct := t.ctl.csAct, top := t.ctl.top } ∧
      t.engine = { s.engine with txq := t.engine.txq } ∧ t.mem = s.mem ∧
      t.host = { s.host with busy := t.host.busy, aborted := t.host.aborted })

/-- Frames of TRANSFER, ISSUE, ENABLE_WRITE, WAIT_READY, DIAG_STATUS and ERASE_SEQ while they run (10_state.md R29, R25): each
writes the transport's registers and its own; STAT only through a transfer whose destination is `stat` (R27); RES_VALUE and
RES_STEP, or the three counts, only where its rule names them. -/
def Obligations.LongOperationFrames : Prop :=
  ∀ (f : CmdFields) (s t : State), controlOk s → s.host.busy = true →
    let xfer (c d : Ctl) : Ctl :=
      { c with
        csAct := d.csAct, xTxk := d.xTxk, xRxk := d.xRxk, xTxb := d.xTxb, xRxb := d.xRxb, xImm := d.xImm, txRem := d.txRem
        rxRem := d.rxRem, skipRem := d.skipRem, sent := d.sent, recv := d.recv, tl := d.tl, rl := d.rl, prog := d.prog
        xabort := d.xabort, xb := d.xb, stat := d.stat, top := d.top }
    let counts : HostRegs :=
      { s.host with
        busy := t.host.busy, aborted := t.host.aborted, resSent := t.host.resSent, resRecv := t.host.resRecv
        resSkipLeft := t.host.resSkipLeft }
    let value : HostRegs :=
      { s.host with busy := t.host.busy, aborted := t.host.aborted, resValue := t.host.resValue }
    (s.ctl.top = 3#4 → exec (.transfer f) s = .next t → t.ctl = xfer s.ctl t.ctl ∧ t.host = counts) ∧
    (s.ctl.top = 4#4 → exec (.issue f) s = .next t →
      t.ctl = { xfer s.ctl t.ctl with dOpc := t.ctl.dOpc } ∧ t.host = counts) ∧
    (s.ctl.top = 7#4 → exec (.enableWrite f) s = .next t →
      t.ctl = { xfer s.ctl t.ctl with dOpc := t.ctl.dOpc } ∧ t.host = counts) ∧
    (s.ctl.top = 6#4 → exec (.waitReady f) s = .next t →
      t.ctl = { xfer s.ctl t.ctl with dOpc := t.ctl.dOpc, pabort := t.ctl.pabort } ∧ t.host = value) ∧
    (s.ctl.top = 9#4 → exec (.diagStatus f) s = .next t →
      t.ctl = { xfer s.ctl t.ctl with dOpc := t.ctl.dOpc, gacc := t.ctl.gacc, gi := t.ctl.gi, gabort := t.ctl.gabort } ∧
      t.host = value) ∧
    (s.ctl.top = 8#4 → exec (.eraseSeq f) s = .next t →
      t.ctl = { xfer s.ctl t.ctl with
        dOpc := t.ctl.dOpc, pabort := t.ctl.pabort, sk := t.ctl.sk, sabort := t.ctl.sabort, sfirst := t.ctl.sfirst } ∧
      t.host = { value with resStep := t.host.resStep }) ∧
    (step (chosen .controller 0 s) = .next t → (∀ x below, s.stack ≠ .transfer .X7 x :: below) ∨ s.ctl.xRxk ≠ .stat →
      t.ctl.stat = s.ctl.stat)

/-! ### Faults and reset -/

/-- 60_exceptions.md R312: on a faulted block every host operation's meaning and the controller's turn change nothing ("takes no
further step" is a turn that leaves the state: log entry 9). -/
def Obligations.FaultedControllerStops : Prop :=
  ∀ (s : State), s.faulted ≠ none →
    (∀ (i : Instr) (w : Word), encode i = .cmd w → exec i s = .next s) ∧
    ∀ d, step (chosen .controller d s) = .next (taken .controller d s)

/-- 60_exceptions.md R312, 10_state.md R43: the first fault stays, whoever steps, until the block is reset; entering one changes
neither BUSY nor ABORTED nor a result register. That it is the host that resets the block, by a request of its queue, is the
model's choice (log entry 20): R350 does not say who does. -/
def Obligations.OnlyResetLeavesAFault : Prop :=
  ∀ s t : State, step s = .next t →
    (s.faulted ≠ none → t.faulted = s.faulted ∨
      ((takeChoice s).now.agent = .host ∧ s.hostQ.head? = some .reset ∧ t.faulted = none)) ∧
    (s.faulted = none → t.faulted ≠ none → t.host = { s.host with cmd := t.host.cmd } ∧ t.stack = s.stack ∧ t.mem = s.mem)

/-- 70_reset_and_hazards.md R350, R351; 10_state.md R47: the block's reset, whatever runs: host registers, internal registers
and phases at their reset values, STAT drawn, FAULTED none; engine, pin, pending write, abort signal, peer and memory as they
were. That the host requests it is the model's choice (log entry 20). -/
def Obligations.BlockResetLeavesTheOutside : Prop :=
  ∀ (s : State) (q : List HostReq) (b : Byte),
    step (chosen .host b.toNat { s with hostQ := .reset :: q }) =
      .next { taken .host b.toNat s with
        hostQ := q, host := HostRegs.reset, ctl := Ctl.reset b, stack := [], faulted := none }

/-- 10_state.md R47, R48; 70_reset_and_hazards.md R357 (d), (e): what reset leaves: STATUS, the result and argument registers and
CMD zero, TOP zero and no activation, no fault, the queues empty, chip-select deasserted with no write pending; the invariants
of the other statements hold there. That the parameters at reset are in their domain is the model's choice (log entry 5). -/
def Obligations.ResetState : Prop :=
  State.reset.host = HostRegs.reset ∧ statusWord State.reset = 0 ∧
    (∀ o ∈ [(0x00 : Word), 0x04, 0x08, 0x0C, 0x10, 0x14, 0x18, 0x1C, 0x20, 0x24, 0x28, 0x2C], readHostReg o State.reset = 0) ∧
    State.reset.ctl = Ctl.reset State.reset.ctl.stat ∧ State.reset.stack = [] ∧ State.reset.faulted = none ∧
    launchPremise State.reset ∧ memoriesWf State.reset ∧ controlOk State.reset ∧ flowOk State.reset ∧
    accountsOk State.reset

/-! ### The serial engine and the peer's own step -/

/-- 20_memory.md R71, R72, R75, R76; 45_flash_commands.md R275: EN_LOAD moves the oldest byte of TXQ into SH when there is room; an
exchange that no device answers (chip-select deasserted, or no peer fixed) takes the next byte from SH, or from TXQ when S = 0,
and puts a drawn byte into RXQ, or enters RxOverflow when it is full; with chip-select asserted the exchange is an event of the bus
trace. The byte received is a free value (log entry 2); that an earlier fault stays FAULTED's is log entry 15. -/
def Obligations.EngineMovesBytes : Prop :=
  ∀ (s : State) (d : Nat) (m : Byte) (q : List Byte),
    (s.engine.txq = m :: q →
      step (chosen .engineLoad d s) =
        .next (if s.engine.sh.length < s.params.hold then
            { taken .engineLoad d s with engine := { s.engine with txq := q, sh := s.engine.sh ++ [m] } }
          else taken .engineLoad d s)) ∧
    (s.cs.pin = false ∨ s.peer = .absent →
      let miso : Byte := BitVec.ofNat 8 d
      let seen := if s.cs.pin then s.trace ++ [.x m miso] else s.trace
      let got (e : Engine) : State :=
        if s.engine.rxq.length = s.params.depth then
          { taken .engineExchange d s with engine := e, trace := seen, faulted := some (s.faulted.getD (.rxOverflow miso)) }
        else { taken .engineExchange d s with engine := { e with rxq := s.engine.rxq ++ [miso] }, trace := seen }
      (s.params.hold = 0 → s.engine.txq = m :: q →
        step (chosen .engineExchange d s) = .next (got { s.engine with txq := q })) ∧
      (1 ≤ s.params.hold → s.engine.sh = m :: q →
        step (chosen .engineExchange d s) = .next (got { s.engine with sh := q })))

/-- 20_memory.md R73: engine steps, and every other agent but the controller, conserve the in-flight count; a controller step
changes it by at most one, up by a DR write, down by a DR read. Given the flow invariant, under which no byte is lost. -/
def Obligations.InFlightChangedOnlyByController : Prop :=
  ∀ s t : State, flowOk s → step s = .next t →
    ((takeChoice s).now.agent ≠ .controller → inFlight t = inFlight s) ∧
    inFlight t ≤ inFlight s + 1 ∧ inFlight s ≤ inFlight t + 1 ∧
    (inFlight t = inFlight s + 1 → ∃ b, t.engine.txq = s.engine.txq ++ [b] ∧ t.engine.rxq = s.engine.rxq) ∧
    (inFlight s = inFlight t + 1 → ∃ b, s.engine.rxq = b :: t.engine.rxq ∧ t.engine.txq = s.engine.txq)

/-- 45_flash_commands.md R279: the reference peer's tick: one less of BUSY_LEFT, and BUSY ends when it reaches 0; and, PeerTick being
weakly fair, every internal operation ends, whatever the other agents do (the host asking for nothing more). -/
def Obligations.PeerTickCountsDown : Prop :=
  (∀ (s : State) (p : RefPeer) (d : Nat), s.peer = .reference p →
    (0 < p.busyLeft →
      step (chosen .peerTick d s) =
        .next { taken .peerTick d s with
          peer := .reference
            { p with busyLeft := p.busyLeft - 1, busy := if p.busyLeft = 1 then false else p.busy } }) ∧
    (p.busyLeft = 0 → step (chosen .peerTick d s) = .next (taken .peerTick d s))) ∧
  (∀ (c : Nat → Config.Choice) (s : State) (p : RefPeer), s.hostQ = [] → s.peer = .reference p → p.busy = true →
    0 < p.busyLeft → fairTo .peerTick c s →
    ∃ k t q, runOn c s k = .next t ∧ t.peer = .reference q ∧ q.busy = false ∧ q.busyLeft = 0)

/-! ### Invariants that every step keeps -/

/-- 20_memory.md R80, 60_exceptions.md R313, 41_fifo_transport.md R155, R165: from every state that meets the flow invariant
every step of every agent keeps it. So with `S <= 2`, `D >= 4` and the entry checks, no FIFO overflows or underflows under any
interleaving, at most D bytes are in flight, and during a transfer at most `max(skip, D - 2 + S)`. -/
def Obligations.FlowInvariantKept : Prop :=
  ∀ s t : State, flowOk s → step s = .next t → flowOk t

/-- 00_scope.md R14, 10_state.md R29, R30; 30_encoding.md R110, R111; 60_exceptions.md R331: every step keeps the control state
legal; a legal stack has at most five activations. -/
def Obligations.ControlInvariantKept : Prop :=
  (∀ s t : State, controlOk s → step s = .next t → controlOk t) ∧
  (∀ k : List Frame, stackLegal k = true → k.length ≤ 5)

/-- 20_memory.md R61, R62; 45_flash_commands.md R276: every step keeps buffer memory, the flash array and the SFDP table in their
canonical form. -/
def Obligations.MemoryFormKept : Prop :=
  ∀ s t : State, memoriesWf s → step s = .next t → memoriesWf t

/-- 00_scope.md R8, 20_memory.md R60, R88; 10_state.md R28: who may change what in one step: the parameters nobody; buffer memory
only the controller at X7 and the host; the internal registers and activations only the controller and the host. -/
def Obligations.AgentsKeepToTheirState : Prop :=
  ∀ s t : State, step s = .next t →
    t.params = s.params ∧
    (t.mem ≠ s.mem → (takeChoice s).now.agent = .host ∨
      ((takeChoice s).now.agent = .controller ∧ ∃ x below, s.stack = .transfer .X7 x :: below)) ∧
    ((takeChoice s).now.agent ≠ .controller → (takeChoice s).now.agent ≠ .host →
      t.ctl = s.ctl ∧ t.stack = s.stack ∧ t.host = s.host ∧ t.mem = s.mem)

/-! ### Pseudo-operations and the RP2040 binding -/

/-- 30_encoding.md R115, R114; 10_state.md R21, with the CMD words of 95_test_vectors.md section 0: the host writes that each
pseudo-operation stands for, at `HOST_BASE + offset`. (READ_SFDP is said where `n + 1` fits ARG_N: log entry 31.) -/
def Obligations.PseudoOperationsExpand : Prop :=
  ∀ (base : Word) (a : FlashAddr) (r n : Word) (b : Byte),
    let cmd (v : Word) : List HostReq := [.write base .word v, .await]
    let arg (o v : Word) : HostReq := .write (base + o) .word v
    pseudoReadData base a r n =
      arg 0x04 (a.setWidth 32) :: cmd 0x00000305 ++ [arg 0x0C r, arg 0x10 n, arg 0x14 4] ++ cmd 0x00000043 ∧
    pseudoPageProgram base a r n =
      cmd 0x00000007 ++ [arg 0x04 (a.setWidth 32)] ++ cmd 0x00000205 ++ [arg 0x08 r, arg 0x10 n, arg 0x14 4] ++
        cmd 0x00000013 ++ cmd 0x00000006 ∧
    pseudoSectorErase base a =
      cmd 0x00000007 ++ [arg 0x04 (a.setWidth 32)] ++ cmd 0x00002005 ++ [arg 0x10 0, arg 0x14 4] ++ cmd 0x00000003 ++
        cmd 0x00000006 ∧
    pseudoReadJedecId base r = [arg 0x0C r, arg 0x10 3] ++ cmd 0x00009F44 ∧
    (n.toNat + 1 < 2 ^ 32 →
      pseudoReadSfdp base a r n =
        arg 0x04 (a.setWidth 32) :: cmd 0x00005A05 ++ [arg 0x0C r, arg 0x10 (BitVec.ofNat 32 (n.toNat + 1)), arg 0x14 4] ++
          cmd 0x00000043) ∧
    pseudoWriteSr1 base b = cmd 0x00000007 ++ [arg 0x10 1] ++ cmd (0x00000124 + b.setWidth 32 * 0x10000) ++ cmd 0x00000006 ∧
    pseudoEnableWrite base = arg 0x10 0 :: cmd 0x00000604

/-- 20_memory.md R68, R86 (general knowledge, log entry 26): on the RP2040 the five registers are at R68's addresses, which are
different, with 16-entry FIFOs and the INOVER field as ABORT_MASK; a chip-select write changes only OUTOVER, bits [9:8], to 2 or 3,
drives the active-low line low or high whatever the peripheral drives, and reads back as the state written; OUTOVER 0 and 1 pass the
peripheral's level and its inverse. -/
def Obligations.Rp2040ChipSelectField : Prop :=
  (∀ (old : Word) (act own : Bool),
    rp2040CsActive (rp2040WriteCs old act) = act ∧
    (rp2040WriteCs old act).extractLsb' 8 2 = (if act then 2#2 else 3#2) ∧
    (rp2040Outover (rp2040WriteCs old act)).level own = !act ∧
    ∀ k, k < 32 → k ≠ 8 → k ≠ 9 → (rp2040WriteCs old act).getLsbD k = old.getLsbD k) ∧
  (∀ (v : Word) (own : Bool),
    (v.extractLsb' 8 2 = 0#2 → (rp2040Outover v).level own = own) ∧
    (v.extractLsb' 8 2 = 1#2 → (rp2040Outover v).level own = !own)) ∧
  (∀ p : Params,
    (∀ r a, (r, a) ∈ [(PortReg.txflr, (0x18000020 : Word)), (.rxflr, 0x18000024), (.dr, 0x18000060), (.csctrl, 0x4001800C),
        (.abortreg, 0x4001801C)] →
      portAddress (rp2040Params p) r = a ∧ portAt (rp2040Params p) a = some r) ∧
    (rp2040Params p).depth = 16 ∧ (rp2040Params p).abortMask = 0x00030000)

/-! ### Termination -/

/-- 70_reset_and_hazards.md R368; 20_memory.md R78, R61; 60_exceptions.md R310: under weak fairness of the serial engine and of the
controller (the latter DEDUCED, log entry 25), whatever the peer, the abort signal and the draws are, an operation that runs returns
with no fault, or enters EntryMismatch, or comes to a buffer access that the launch memory refuses; only WAIT_READY and ERASE_SEQ
have one way more, to find the device busy and the abort signal clear again and again for ever. -/
def Obligations.FairOperationsReturn : Prop :=
  ∀ (c : Nat → Config.Choice) (s : State), fairSchedule c s → flowOk s → accountsOk s → controlOk s →
    s.faulted = none → s.host.busy = true → s.hostQ = [] →
    (∃ k t, runOn c s k = .next t ∧
      ((t.host.busy = false ∧ t.faulted = none) ∨ (∃ n e, t.faulted = some (.entryMismatch n e)) ∨ memoryRefuses t)) ∨
    ((s.ctl.top = 6#4 ∨ s.ctl.top = 8#4) ∧
      ∀ k, ∃ j t, k ≤ j ∧ runOn c s j = .next t ∧ (c j).agent = .controller ∧ pollsAgain t)
end

