-- ==== Sys2Proof/Laws/State.lean ====
section
/-! SUPPORT. One lemma per field per update of State, so that no proof unfolds a record update. -/

namespace Sys2Proof.Machine

/-! `withHost` -/

@[simp] theorem State.withHost_params (s : State) (v : HostRegs) : (s.withHost v).params = s.params := rfl
@[simp] theorem State.withHost_host (s : State) (v : HostRegs) : (s.withHost v).host = v := rfl
@[simp] theorem State.withHost_ctl (s : State) (v : HostRegs) : (s.withHost v).ctl = s.ctl := rfl
@[simp] theorem State.withHost_stack (s : State) (v : HostRegs) : (s.withHost v).stack = s.stack := rfl
@[simp] theorem State.withHost_faulted (s : State) (v : HostRegs) : (s.withHost v).faulted = s.faulted := rfl
@[simp] theorem State.withHost_engine (s : State) (v : HostRegs) : (s.withHost v).engine = s.engine := rfl
@[simp] theorem State.withHost_cs (s : State) (v : HostRegs) : (s.withHost v).cs = s.cs := rfl
@[simp] theorem State.withHost_abortIn (s : State) (v : HostRegs) : (s.withHost v).abortIn = s.abortIn := rfl
@[simp] theorem State.withHost_peer (s : State) (v : HostRegs) : (s.withHost v).peer = s.peer := rfl
@[simp] theorem State.withHost_mem (s : State) (v : HostRegs) : (s.withHost v).mem = s.mem := rfl
@[simp] theorem State.withHost_trace (s : State) (v : HostRegs) : (s.withHost v).trace = s.trace := rfl
@[simp] theorem State.withHost_hostQ (s : State) (v : HostRegs) : (s.withHost v).hostQ = s.hostQ := rfl
@[simp] theorem State.withHost_hostData (s : State) (v : HostRegs) : (s.withHost v).hostData = s.hostData := rfl
@[simp] theorem State.withHost_sched (s : State) (v : HostRegs) : (s.withHost v).sched = s.sched := rfl
@[simp] theorem State.withHost_tick (s : State) (v : HostRegs) : (s.withHost v).tick = s.tick := rfl
@[simp] theorem State.withHost_now (s : State) (v : HostRegs) : (s.withHost v).now = s.now := rfl

/-! `withCtl` -/

@[simp] theorem State.withCtl_params (s : State) (v : Ctl) : (s.withCtl v).params = s.params := rfl
@[simp] theorem State.withCtl_host (s : State) (v : Ctl) : (s.withCtl v).host = s.host := rfl
@[simp] theorem State.withCtl_ctl (s : State) (v : Ctl) : (s.withCtl v).ctl = v := rfl
@[simp] theorem State.withCtl_stack (s : State) (v : Ctl) : (s.withCtl v).stack = s.stack := rfl
@[simp] theorem State.withCtl_faulted (s : State) (v : Ctl) : (s.withCtl v).faulted = s.faulted := rfl
@[simp] theorem State.withCtl_engine (s : State) (v : Ctl) : (s.withCtl v).engine = s.engine := rfl
@[simp] theorem State.withCtl_cs (s : State) (v : Ctl) : (s.withCtl v).cs = s.cs := rfl
@[simp] theorem State.withCtl_abortIn (s : State) (v : Ctl) : (s.withCtl v).abortIn = s.abortIn := rfl
@[simp] theorem State.withCtl_peer (s : State) (v : Ctl) : (s.withCtl v).peer = s.peer := rfl
@[simp] theorem State.withCtl_mem (s : State) (v : Ctl) : (s.withCtl v).mem = s.mem := rfl
@[simp] theorem State.withCtl_trace (s : State) (v : Ctl) : (s.withCtl v).trace = s.trace := rfl
@[simp] theorem State.withCtl_hostQ (s : State) (v : Ctl) : (s.withCtl v).hostQ = s.hostQ := rfl
@[simp] theorem State.withCtl_hostData (s : State) (v : Ctl) : (s.withCtl v).hostData = s.hostData := rfl
@[simp] theorem State.withCtl_sched (s : State) (v : Ctl) : (s.withCtl v).sched = s.sched := rfl
@[simp] theorem State.withCtl_tick (s : State) (v : Ctl) : (s.withCtl v).tick = s.tick := rfl
@[simp] theorem State.withCtl_now (s : State) (v : Ctl) : (s.withCtl v).now = s.now := rfl

/-! `withStack` -/

@[simp] theorem State.withStack_params (s : State) (v : List Frame) : (s.withStack v).params = s.params := rfl
@[simp] theorem State.withStack_host (s : State) (v : List Frame) : (s.withStack v).host = s.host := rfl
@[simp] theorem State.withStack_ctl (s : State) (v : List Frame) : (s.withStack v).ctl = s.ctl := rfl
@[simp] theorem State.withStack_stack (s : State) (v : List Frame) : (s.withStack v).stack = v := rfl
@[simp] theorem State.withStack_faulted (s : State) (v : List Frame) : (s.withStack v).faulted = s.faulted := rfl
@[simp] theorem State.withStack_engine (s : State) (v : List Frame) : (s.withStack v).engine = s.engine := rfl
@[simp] theorem State.withStack_cs (s : State) (v : List Frame) : (s.withStack v).cs = s.cs := rfl
@[simp] theorem State.withStack_abortIn (s : State) (v : List Frame) : (s.withStack v).abortIn = s.abortIn := rfl
@[simp] theorem State.withStack_peer (s : State) (v : List Frame) : (s.withStack v).peer = s.peer := rfl
@[simp] theorem State.withStack_mem (s : State) (v : List Frame) : (s.withStack v).mem = s.mem := rfl
@[simp] theorem State.withStack_trace (s : State) (v : List Frame) : (s.withStack v).trace = s.trace := rfl
@[simp] theorem State.withStack_hostQ (s : State) (v : List Frame) : (s.withStack v).hostQ = s.hostQ := rfl
@[simp] theorem State.withStack_hostData (s : State) (v : List Frame) : (s.withStack v).hostData = s.hostData := rfl
@[simp] theorem State.withStack_sched (s : State) (v : List Frame) : (s.withStack v).sched = s.sched := rfl
@[simp] theorem State.withStack_tick (s : State) (v : List Frame) : (s.withStack v).tick = s.tick := rfl
@[simp] theorem State.withStack_now (s : State) (v : List Frame) : (s.withStack v).now = s.now := rfl

/-! `withFaulted` -/

@[simp] theorem State.withFaulted_params (s : State) (v : Option BlockFault) : (s.withFaulted v).params = s.params := rfl
@[simp] theorem State.withFaulted_host (s : State) (v : Option BlockFault) : (s.withFaulted v).host = s.host := rfl
@[simp] theorem State.withFaulted_ctl (s : State) (v : Option BlockFault) : (s.withFaulted v).ctl = s.ctl := rfl
@[simp] theorem State.withFaulted_stack (s : State) (v : Option BlockFault) : (s.withFaulted v).stack = s.stack := rfl
@[simp] theorem State.withFaulted_faulted (s : State) (v : Option BlockFault) : (s.withFaulted v).faulted = v := rfl
@[simp] theorem State.withFaulted_engine (s : State) (v : Option BlockFault) : (s.withFaulted v).engine = s.engine := rfl
@[simp] theorem State.withFaulted_cs (s : State) (v : Option BlockFault) : (s.withFaulted v).cs = s.cs := rfl
@[simp] theorem State.withFaulted_abortIn (s : State) (v : Option BlockFault) : (s.withFaulted v).abortIn = s.abortIn := rfl
@[simp] theorem State.withFaulted_peer (s : State) (v : Option BlockFault) : (s.withFaulted v).peer = s.peer := rfl
@[simp] theorem State.withFaulted_mem (s : State) (v : Option BlockFault) : (s.withFaulted v).mem = s.mem := rfl
@[simp] theorem State.withFaulted_trace (s : State) (v : Option BlockFault) : (s.withFaulted v).trace = s.trace := rfl
@[simp] theorem State.withFaulted_hostQ (s : State) (v : Option BlockFault) : (s.withFaulted v).hostQ = s.hostQ := rfl
@[simp] theorem State.withFaulted_hostData (s : State) (v : Option BlockFault) : (s.withFaulted v).hostData = s.hostData := rfl
@[simp] theorem State.withFaulted_sched (s : State) (v : Option BlockFault) : (s.withFaulted v).sched = s.sched := rfl
@[simp] theorem State.withFaulted_tick (s : State) (v : Option BlockFault) : (s.withFaulted v).tick = s.tick := rfl
@[simp] theorem State.withFaulted_now (s : State) (v : Option BlockFault) : (s.withFaulted v).now = s.now := rfl

/-! `withEngine` -/

@[simp] theorem State.withEngine_params (s : State) (v : Engine) : (s.withEngine v).params = s.params := rfl
@[simp] theorem State.withEngine_host (s : State) (v : Engine) : (s.withEngine v).host = s.host := rfl
@[simp] theorem State.withEngine_ctl (s : State) (v : Engine) : (s.withEngine v).ctl = s.ctl := rfl
@[simp] theorem State.withEngine_stack (s : State) (v : Engine) : (s.withEngine v).stack = s.stack := rfl
@[simp] theorem State.withEngine_faulted (s : State) (v : Engine) : (s.withEngine v).faulted = s.faulted := rfl
@[simp] theorem State.withEngine_engine (s : State) (v : Engine) : (s.withEngine v).engine = v := rfl
@[simp] theorem State.withEngine_cs (s : State) (v : Engine) : (s.withEngine v).cs = s.cs := rfl
@[simp] theorem State.withEngine_abortIn (s : State) (v : Engine) : (s.withEngine v).abortIn = s.abortIn := rfl
@[simp] theorem State.withEngine_peer (s : State) (v : Engine) : (s.withEngine v).peer = s.peer := rfl
@[simp] theorem State.withEngine_mem (s : State) (v : Engine) : (s.withEngine v).mem = s.mem := rfl
@[simp] theorem State.withEngine_trace (s : State) (v : Engine) : (s.withEngine v).trace = s.trace := rfl
@[simp] theorem State.withEngine_hostQ (s : State) (v : Engine) : (s.withEngine v).hostQ = s.hostQ := rfl
@[simp] theorem State.withEngine_hostData (s : State) (v : Engine) : (s.withEngine v).hostData = s.hostData := rfl
@[simp] theorem State.withEngine_sched (s : State) (v : Engine) : (s.withEngine v).sched = s.sched := rfl
@[simp] theorem State.withEngine_tick (s : State) (v : Engine) : (s.withEngine v).tick = s.tick := rfl
@[simp] theorem State.withEngine_now (s : State) (v : Engine) : (s.withEngine v).now = s.now := rfl

/-! `withCs` -/

@[simp] theorem State.withCs_params (s : State) (v : ChipSelect) : (s.withCs v).params = s.params := rfl
@[simp] theorem State.withCs_host (s : State) (v : ChipSelect) : (s.withCs v).host = s.host := rfl
@[simp] theorem State.withCs_ctl (s : State) (v : ChipSelect) : (s.withCs v).ctl = s.ctl := rfl
@[simp] theorem State.withCs_stack (s : State) (v : ChipSelect) : (s.withCs v).stack = s.stack := rfl
@[simp] theorem State.withCs_faulted (s : State) (v : ChipSelect) : (s.withCs v).faulted = s.faulted := rfl
@[simp] theorem State.withCs_engine (s : State) (v : ChipSelect) : (s.withCs v).engine = s.engine := rfl
@[simp] theorem State.withCs_cs (s : State) (v : ChipSelect) : (s.withCs v).cs = v := rfl
@[simp] theorem State.withCs_abortIn (s : State) (v : ChipSelect) : (s.withCs v).abortIn = s.abortIn := rfl
@[simp] theorem State.withCs_peer (s : State) (v : ChipSelect) : (s.withCs v).peer = s.peer := rfl
@[simp] theorem State.withCs_mem (s : State) (v : ChipSelect) : (s.withCs v).mem = s.mem := rfl
@[simp] theorem State.withCs_trace (s : State) (v : ChipSelect) : (s.withCs v).trace = s.trace := rfl
@[simp] theorem State.withCs_hostQ (s : State) (v : ChipSelect) : (s.withCs v).hostQ = s.hostQ := rfl
@[simp] theorem State.withCs_hostData (s : State) (v : ChipSelect) : (s.withCs v).hostData = s.hostData := rfl
@[simp] theorem State.withCs_sched (s : State) (v : ChipSelect) : (s.withCs v).sched = s.sched := rfl
@[simp] theorem State.withCs_tick (s : State) (v : ChipSelect) : (s.withCs v).tick = s.tick := rfl
@[simp] theorem State.withCs_now (s : State) (v : ChipSelect) : (s.withCs v).now = s.now := rfl

/-! `withAbortIn` -/

@[simp] theorem State.withAbortIn_params (s : State) (v : Word) : (s.withAbortIn v).params = s.params := rfl
@[simp] theorem State.withAbortIn_host (s : State) (v : Word) : (s.withAbortIn v).host = s.host := rfl
@[simp] theorem State.withAbortIn_ctl (s : State) (v : Word) : (s.withAbortIn v).ctl = s.ctl := rfl
@[simp] theorem State.withAbortIn_stack (s : State) (v : Word) : (s.withAbortIn v).stack = s.stack := rfl
@[simp] theorem State.withAbortIn_faulted (s : State) (v : Word) : (s.withAbortIn v).faulted = s.faulted := rfl
@[simp] theorem State.withAbortIn_engine (s : State) (v : Word) : (s.withAbortIn v).engine = s.engine := rfl
@[simp] theorem State.withAbortIn_cs (s : State) (v : Word) : (s.withAbortIn v).cs = s.cs := rfl
@[simp] theorem State.withAbortIn_abortIn (s : State) (v : Word) : (s.withAbortIn v).abortIn = v := rfl
@[simp] theorem State.withAbortIn_peer (s : State) (v : Word) : (s.withAbortIn v).peer = s.peer := rfl
@[simp] theorem State.withAbortIn_mem (s : State) (v : Word) : (s.withAbortIn v).mem = s.mem := rfl
@[simp] theorem State.withAbortIn_trace (s : State) (v : Word) : (s.withAbortIn v).trace = s.trace := rfl
@[simp] theorem State.withAbortIn_hostQ (s : State) (v : Word) : (s.withAbortIn v).hostQ = s.hostQ := rfl
@[simp] theorem State.withAbortIn_hostData (s : State) (v : Word) : (s.withAbortIn v).hostData = s.hostData := rfl
@[simp] theorem State.withAbortIn_sched (s : State) (v : Word) : (s.withAbortIn v).sched = s.sched := rfl
@[simp] theorem State.withAbortIn_tick (s : State) (v : Word) : (s.withAbortIn v).tick = s.tick := rfl
@[simp] theorem State.withAbortIn_now (s : State) (v : Word) : (s.withAbortIn v).now = s.now := rfl

/-! `withPeer` -/

@[simp] theorem State.withPeer_params (s : State) (v : Peer) : (s.withPeer v).params = s.params := rfl
@[simp] theorem State.withPeer_host (s : State) (v : Peer) : (s.withPeer v).host = s.host := rfl
@[simp] theorem State.withPeer_ctl (s : State) (v : Peer) : (s.withPeer v).ctl = s.ctl := rfl
@[simp] theorem State.withPeer_stack (s : State) (v : Peer) : (s.withPeer v).stack = s.stack := rfl
@[simp] theorem State.withPeer_faulted (s : State) (v : Peer) : (s.withPeer v).faulted = s.faulted := rfl
@[simp] theorem State.withPeer_engine (s : State) (v : Peer) : (s.withPeer v).engine = s.engine := rfl
@[simp] theorem State.withPeer_cs (s : State) (v : Peer) : (s.withPeer v).cs = s.cs := rfl
@[simp] theorem State.withPeer_abortIn (s : State) (v : Peer) : (s.withPeer v).abortIn = s.abortIn := rfl
@[simp] theorem State.withPeer_peer (s : State) (v : Peer) : (s.withPeer v).peer = v := rfl
@[simp] theorem State.withPeer_mem (s : State) (v : Peer) : (s.withPeer v).mem = s.mem := rfl
@[simp] theorem State.withPeer_trace (s : State) (v : Peer) : (s.withPeer v).trace = s.trace := rfl
@[simp] theorem State.withPeer_hostQ (s : State) (v : Peer) : (s.withPeer v).hostQ = s.hostQ := rfl
@[simp] theorem State.withPeer_hostData (s : State) (v : Peer) : (s.withPeer v).hostData = s.hostData := rfl
@[simp] theorem State.withPeer_sched (s : State) (v : Peer) : (s.withPeer v).sched = s.sched := rfl
@[simp] theorem State.withPeer_tick (s : State) (v : Peer) : (s.withPeer v).tick = s.tick := rfl
@[simp] theorem State.withPeer_now (s : State) (v : Peer) : (s.withPeer v).now = s.now := rfl

/-! `withMem` -/

@[simp] theorem State.withMem_params (s : State) (v : Cells) : (s.withMem v).params = s.params := rfl
@[simp] theorem State.withMem_host (s : State) (v : Cells) : (s.withMem v).host = s.host := rfl
@[simp] theorem State.withMem_ctl (s : State) (v : Cells) : (s.withMem v).ctl = s.ctl := rfl
@[simp] theorem State.withMem_stack (s : State) (v : Cells) : (s.withMem v).stack = s.stack := rfl
@[simp] theorem State.withMem_faulted (s : State) (v : Cells) : (s.withMem v).faulted = s.faulted := rfl
@[simp] theorem State.withMem_engine (s : State) (v : Cells) : (s.withMem v).engine = s.engine := rfl
@[simp] theorem State.withMem_cs (s : State) (v : Cells) : (s.withMem v).cs = s.cs := rfl
@[simp] theorem State.withMem_abortIn (s : State) (v : Cells) : (s.withMem v).abortIn = s.abortIn := rfl
@[simp] theorem State.withMem_peer (s : State) (v : Cells) : (s.withMem v).peer = s.peer := rfl
@[simp] theorem State.withMem_mem (s : State) (v : Cells) : (s.withMem v).mem = v := rfl
@[simp] theorem State.withMem_trace (s : State) (v : Cells) : (s.withMem v).trace = s.trace := rfl
@[simp] theorem State.withMem_hostQ (s : State) (v : Cells) : (s.withMem v).hostQ = s.hostQ := rfl
@[simp] theorem State.withMem_hostData (s : State) (v : Cells) : (s.withMem v).hostData = s.hostData := rfl
@[simp] theorem State.withMem_sched (s : State) (v : Cells) : (s.withMem v).sched = s.sched := rfl
@[simp] theorem State.withMem_tick (s : State) (v : Cells) : (s.withMem v).tick = s.tick := rfl
@[simp] theorem State.withMem_now (s : State) (v : Cells) : (s.withMem v).now = s.now := rfl

/-! `withTrace` -/

@[simp] theorem State.withTrace_params (s : State) (v : List BusEvent) : (s.withTrace v).params = s.params := rfl
@[simp] theorem State.withTrace_host (s : State) (v : List BusEvent) : (s.withTrace v).host = s.host := rfl
@[simp] theorem State.withTrace_ctl (s : State) (v : List BusEvent) : (s.withTrace v).ctl = s.ctl := rfl
@[simp] theorem State.withTrace_stack (s : State) (v : List BusEvent) : (s.withTrace v).stack = s.stack := rfl
@[simp] theorem State.withTrace_faulted (s : State) (v : List BusEvent) : (s.withTrace v).faulted = s.faulted := rfl
@[simp] theorem State.withTrace_engine (s : State) (v : List BusEvent) : (s.withTrace v).engine = s.engine := rfl
@[simp] theorem State.withTrace_cs (s : State) (v : List BusEvent) : (s.withTrace v).cs = s.cs := rfl
@[simp] theorem State.withTrace_abortIn (s : State) (v : List BusEvent) : (s.withTrace v).abortIn = s.abortIn := rfl
@[simp] theorem State.withTrace_peer (s : State) (v : List BusEvent) : (s.withTrace v).peer = s.peer := rfl
@[simp] theorem State.withTrace_mem (s : State) (v : List BusEvent) : (s.withTrace v).mem = s.mem := rfl
@[simp] theorem State.withTrace_trace (s : State) (v : List BusEvent) : (s.withTrace v).trace = v := rfl
@[simp] theorem State.withTrace_hostQ (s : State) (v : List BusEvent) : (s.withTrace v).hostQ = s.hostQ := rfl
@[simp] theorem State.withTrace_hostData (s : State) (v : List BusEvent) : (s.withTrace v).hostData = s.hostData := rfl
@[simp] theorem State.withTrace_sched (s : State) (v : List BusEvent) : (s.withTrace v).sched = s.sched := rfl
@[simp] theorem State.withTrace_tick (s : State) (v : List BusEvent) : (s.withTrace v).tick = s.tick := rfl
@[simp] theorem State.withTrace_now (s : State) (v : List BusEvent) : (s.withTrace v).now = s.now := rfl

/-! `withHostQ` -/

@[simp] theorem State.withHostQ_params (s : State) (v : List HostReq) : (s.withHostQ v).params = s.params := rfl
@[simp] theorem State.withHostQ_host (s : State) (v : List HostReq) : (s.withHostQ v).host = s.host := rfl
@[simp] theorem State.withHostQ_ctl (s : State) (v : List HostReq) : (s.withHostQ v).ctl = s.ctl := rfl
@[simp] theorem State.withHostQ_stack (s : State) (v : List HostReq) : (s.withHostQ v).stack = s.stack := rfl
@[simp] theorem State.withHostQ_faulted (s : State) (v : List HostReq) : (s.withHostQ v).faulted = s.faulted := rfl
@[simp] theorem State.withHostQ_engine (s : State) (v : List HostReq) : (s.withHostQ v).engine = s.engine := rfl
@[simp] theorem State.withHostQ_cs (s : State) (v : List HostReq) : (s.withHostQ v).cs = s.cs := rfl
@[simp] theorem State.withHostQ_abortIn (s : State) (v : List HostReq) : (s.withHostQ v).abortIn = s.abortIn := rfl
@[simp] theorem State.withHostQ_peer (s : State) (v : List HostReq) : (s.withHostQ v).peer = s.peer := rfl
@[simp] theorem State.withHostQ_mem (s : State) (v : List HostReq) : (s.withHostQ v).mem = s.mem := rfl
@[simp] theorem State.withHostQ_trace (s : State) (v : List HostReq) : (s.withHostQ v).trace = s.trace := rfl
@[simp] theorem State.withHostQ_hostQ (s : State) (v : List HostReq) : (s.withHostQ v).hostQ = v := rfl
@[simp] theorem State.withHostQ_hostData (s : State) (v : List HostReq) : (s.withHostQ v).hostData = s.hostData := rfl
@[simp] theorem State.withHostQ_sched (s : State) (v : List HostReq) : (s.withHostQ v).sched = s.sched := rfl
@[simp] theorem State.withHostQ_tick (s : State) (v : List HostReq) : (s.withHostQ v).tick = s.tick := rfl
@[simp] theorem State.withHostQ_now (s : State) (v : List HostReq) : (s.withHostQ v).now = s.now := rfl

/-! `withHostData` -/

@[simp] theorem State.withHostData_params (s : State) (v : Word) : (s.withHostData v).params = s.params := rfl
@[simp] theorem State.withHostData_host (s : State) (v : Word) : (s.withHostData v).host = s.host := rfl
@[simp] theorem State.withHostData_ctl (s : State) (v : Word) : (s.withHostData v).ctl = s.ctl := rfl
@[simp] theorem State.withHostData_stack (s : State) (v : Word) : (s.withHostData v).stack = s.stack := rfl
@[simp] theorem State.withHostData_faulted (s : State) (v : Word) : (s.withHostData v).faulted = s.faulted := rfl
@[simp] theorem State.withHostData_engine (s : State) (v : Word) : (s.withHostData v).engine = s.engine := rfl
@[simp] theorem State.withHostData_cs (s : State) (v : Word) : (s.withHostData v).cs = s.cs := rfl
@[simp] theorem State.withHostData_abortIn (s : State) (v : Word) : (s.withHostData v).abortIn = s.abortIn := rfl
@[simp] theorem State.withHostData_peer (s : State) (v : Word) : (s.withHostData v).peer = s.peer := rfl
@[simp] theorem State.withHostData_mem (s : State) (v : Word) : (s.withHostData v).mem = s.mem := rfl
@[simp] theorem State.withHostData_trace (s : State) (v : Word) : (s.withHostData v).trace = s.trace := rfl
@[simp] theorem State.withHostData_hostQ (s : State) (v : Word) : (s.withHostData v).hostQ = s.hostQ := rfl
@[simp] theorem State.withHostData_hostData (s : State) (v : Word) : (s.withHostData v).hostData = v := rfl
@[simp] theorem State.withHostData_sched (s : State) (v : Word) : (s.withHostData v).sched = s.sched := rfl
@[simp] theorem State.withHostData_tick (s : State) (v : Word) : (s.withHostData v).tick = s.tick := rfl
@[simp] theorem State.withHostData_now (s : State) (v : Word) : (s.withHostData v).now = s.now := rfl

/-! `withChoice` -/

@[simp] theorem State.withChoice_params (s : State) (q : List Config.Choice) (k : Nat) (c : Config.Choice) :
    (s.withChoice q k c).params = s.params := rfl
@[simp] theorem State.withChoice_host (s : State) (q : List Config.Choice) (k : Nat) (c : Config.Choice) :
    (s.withChoice q k c).host = s.host := rfl
@[simp] theorem State.withChoice_ctl (s : State) (q : List Config.Choice) (k : Nat) (c : Config.Choice) :
    (s.withChoice q k c).ctl = s.ctl := rfl
@[simp] theorem State.withChoice_stack (s : State) (q : List Config.Choice) (k : Nat) (c : Config.Choice) :
    (s.withChoice q k c).stack = s.stack := rfl
@[simp] theorem State.withChoice_faulted (s : State) (q : List Config.Choice) (k : Nat) (c : Config.Choice) :
    (s.withChoice q k c).faulted = s.faulted := rfl
@[simp] theorem State.withChoice_engine (s : State) (q : List Config.Choice) (k : Nat) (c : Config.Choice) :
    (s.withChoice q k c).engine = s.engine := rfl
@[simp] theorem State.withChoice_cs (s : State) (q : List Config.Choice) (k : Nat) (c : Config.Choice) :
    (s.withChoice q k c).cs = s.cs := rfl
@[simp] theorem State.withChoice_abortIn (s : State) (q : List Config.Choice) (k : Nat) (c : Config.Choice) :
    (s.withChoice q k c).abortIn = s.abortIn := rfl
@[simp] theorem State.withChoice_peer (s : State) (q : List Config.Choice) (k : Nat) (c : Config.Choice) :
    (s.withChoice q k c).peer = s.peer := rfl
@[simp] theorem State.withChoice_mem (s : State) (q : List Config.Choice) (k : Nat) (c : Config.Choice) :
    (s.withChoice q k c).mem = s.mem := rfl
@[simp] theorem State.withChoice_trace (s : State) (q : List Config.Choice) (k : Nat) (c : Config.Choice) :
    (s.withChoice q k c).trace = s.trace := rfl
@[simp] theorem State.withChoice_hostQ (s : State) (q : List Config.Choice) (k : Nat) (c : Config.Choice) :
    (s.withChoice q k c).hostQ = s.hostQ := rfl
@[simp] theorem State.withChoice_hostData (s : State) (q : List Config.Choice) (k : Nat) (c : Config.Choice) :
    (s.withChoice q k c).hostData = s.hostData := rfl
@[simp] theorem State.withChoice_sched (s : State) (q : List Config.Choice) (k : Nat) (c : Config.Choice) :
    (s.withChoice q k c).sched = q := rfl
@[simp] theorem State.withChoice_tick (s : State) (q : List Config.Choice) (k : Nat) (c : Config.Choice) :
    (s.withChoice q k c).tick = k := rfl
@[simp] theorem State.withChoice_now (s : State) (q : List Config.Choice) (k : Nat) (c : Config.Choice) :
    (s.withChoice q k c).now = c := rfl

end Sys2Proof.Machine
end

