-- ==== Sys2Proof/Laws/Memory.lean ====
section
/-! SUPPORT. Cells, stores and buffer memory: a read after a write, every other place, and the canonical form that every
operation keeps. -/

namespace Sys2Proof.Machine

variable {fill : Byte} {limit : Nat} {m : Cells}

/-! ### Reading -/

theorem cellsRead_of_not_mem {a : Nat} (h : ∀ c ∈ m, c.1 ≠ a) : cellsRead fill m a = fill := by
  induction m with
  | nil => rfl
  | cons c m ih =>
    have hc := h c (by simp)
    simp only [cellsRead, hc, if_false]
    exact ih (fun d hd => h d (by simp [hd]))

theorem cellsRead_insert_self (a : Nat) (v : Byte) : cellsRead fill (cellsInsert a v m) a = v := by
  induction m with
  | nil => simp [cellsInsert, cellsRead]
  | cons c m ih =>
    unfold cellsInsert
    split
    · simp [cellsRead]
    · split
      · simp [cellsRead]
      · rename_i h1 h2
        simp [cellsRead, Ne.symm h2, ih]

theorem cellsRead_insert_other {a b : Nat} (v : Byte) (h : b ≠ a) :
    cellsRead fill (cellsInsert a v m) b = cellsRead fill m b := by
  induction m with
  | nil => simp [cellsInsert, cellsRead, Ne.symm h]
  | cons c m ih =>
    unfold cellsInsert
    split
    · simp [cellsRead, Ne.symm h]
    · split
      · rename_i h2
        simp [cellsRead, Ne.symm h, ← h2]
      · simp [cellsRead, ih]

theorem cellsRead_erase_self (a : Nat) : cellsRead fill (cellsErase a m) a = fill := by
  apply cellsRead_of_not_mem
  intro c hc
  simpa using (List.mem_filter.mp hc).2

theorem cellsRead_erase_other {a b : Nat} (h : b ≠ a) : cellsRead fill (cellsErase a m) b = cellsRead fill m b := by
  induction m with
  | nil => rfl
  | cons c m ih =>
    simp only [cellsErase, List.filter_cons] at ih ⊢
    by_cases hc : c.1 = a
    · have : c.1 ≠ b := fun e => h (e ▸ hc ▸ rfl)
      simp [hc, cellsRead, Ne.symm h, ih]
    · simp [hc, cellsRead, ih]

theorem cellsRead_write_self (a : Nat) (v : Byte) : cellsRead fill (cellsWrite fill m a v) a = v := by
  unfold cellsWrite
  split
  · rename_i h; rw [cellsRead_erase_self, h]
  · exact cellsRead_insert_self a v

theorem cellsRead_write_other {a b : Nat} (v : Byte) (h : b ≠ a) :
    cellsRead fill (cellsWrite fill m a v) b = cellsRead fill m b := by
  unfold cellsWrite
  split
  · exact cellsRead_erase_other h
  · exact cellsRead_insert_other v h

/-! ### The canonical form -/

theorem mem_cellsInsert {a : Nat} {v : Byte} {c : Host.Cell} (h : c ∈ cellsInsert a v m) : c = (a, v) ∨ c ∈ m := by
  induction m with
  | nil => simpa [cellsInsert] using h
  | cons d m ih =>
    unfold cellsInsert at h
    split at h
    · simpa using h
    · split at h
      · simp only [List.mem_cons] at h ⊢
        tauto
      · simp only [List.mem_cons] at h ⊢
        rcases h with h | h
        · exact Or.inr (Or.inl h)
        · rcases ih h with h | h <;> tauto

theorem cellsInsert_sorted {a : Nat} {v : Byte} (h : m.Pairwise (fun c d => c.1 < d.1)) :
    (cellsInsert a v m).Pairwise (fun c d => c.1 < d.1) := by
  induction m with
  | nil => simp [cellsInsert]
  | cons d m ih =>
    rw [List.pairwise_cons] at h
    unfold cellsInsert
    split
    · rename_i hlt
      refine List.pairwise_cons.mpr ⟨fun c hc => ?_, List.pairwise_cons.mpr h⟩
      rcases List.mem_cons.mp hc with rfl | hc
      · exact hlt
      · exact Nat.lt_trans hlt (h.1 c hc)
    · split
      · rename_i _ heq
        exact List.pairwise_cons.mpr ⟨fun c hc => heq ▸ h.1 c hc, h.2⟩
      · rename_i hlt hne
        refine List.pairwise_cons.mpr ⟨fun c hc => ?_, ih h.2⟩
        rcases mem_cellsInsert hc with rfl | hc
        · change d.1 < a
          omega
        · exact h.1 c hc

theorem cellsErase_wf (a : Nat) (h : cellsWf fill limit m) : cellsWf fill limit (cellsErase a m) :=
  ⟨h.1.filter _, fun c hc => h.2 c (List.mem_of_mem_filter hc)⟩

theorem cellsInsert_wf {a : Nat} {v : Byte} (ha : a < limit) (hv : v ≠ fill) (h : cellsWf fill limit m) :
    cellsWf fill limit (cellsInsert a v m) := by
  refine ⟨cellsInsert_sorted h.1, fun c hc => ?_⟩
  rcases mem_cellsInsert hc with rfl | hc
  · exact ⟨ha, hv⟩
  · exact h.2 c hc

/-- A write keeps the canonical form. -/
theorem cellsWrite_wf {a : Nat} (v : Byte) (ha : a < limit) (h : cellsWf fill limit m) :
    cellsWf fill limit (cellsWrite fill m a v) := by
  unfold cellsWrite
  split
  · exact cellsErase_wf a h
  · rename_i hv; exact cellsInsert_wf ha hv h

theorem cellsWf_nil : cellsWf fill limit [] := by simp [cellsWf]

/-! ### Stores -/

theorem storeRead_write_self (st : Store) (a : Nat) (v : Byte) : storeRead (storeWrite st a v) a = v :=
  cellsRead_write_self a v

theorem storeRead_write_other (st : Store) {a b : Nat} (v : Byte) (h : b ≠ a) :
    storeRead (storeWrite st a v) b = storeRead st b :=
  cellsRead_write_other v h

theorem storeWrite_wf {st : Store} {a : Nat} (v : Byte) (ha : a < limit) (h : storeWf limit st) :
    storeWf limit (storeWrite st a v) :=
  cellsWrite_wf v ha h

theorem storeFillAll_wf (v : Byte) : storeWf limit (storeFillAll v) := cellsWf_nil

@[simp] theorem storeRead_fillAll (v : Byte) (a : Nat) : storeRead (storeFillAll v) a = v := rfl

/-- Filling a range that lies below the limit keeps the canonical form. -/
theorem storeFillRange_wf {st : Store} {base size : Nat} (v : Byte) (hb : base + size ≤ limit) (h : storeWf limit st) :
    storeWf limit (storeFillRange st base size v) := by
  refine ⟨?_, fun c hc => ?_⟩
  · simp only [storeFillRange]
    refine List.pairwise_append.mpr ⟨List.pairwise_append.mpr ⟨h.1.filter _, ?_, ?_⟩, h.1.filter _, ?_⟩
    · split
      · simp
      · refine List.Pairwise.map _ (R := (· < ·)) (fun i j hij => Nat.add_lt_add_left hij base) ?_
        exact List.pairwise_lt_range
    · intro c hc d hd
      have hc := (List.mem_filter.mp hc).2
      split at hd
      · simp at hd
      · obtain ⟨j, _, rfl⟩ := List.mem_map.mp hd
        simp only [decide_eq_true_eq] at hc
        change c.1 < base + j
        omega
    · intro c hc d hd
      have hd := (List.mem_filter.mp hd).2
      simp only [decide_eq_true_eq] at hd
      rcases List.mem_append.mp hc with hc | hc
      · have hc := (List.mem_filter.mp hc).2
        simp only [decide_eq_true_eq] at hc
        omega
      · split at hc
        · simp at hc
        · obtain ⟨j, hj, rfl⟩ := List.mem_map.mp hc
          have := List.mem_range.mp hj
          change base + j < d.1
          omega
  · simp only [storeFillRange, List.mem_append] at hc
    rcases hc with (hc | hc) | hc
    · exact h.2 c (List.mem_of_mem_filter hc)
    · split at hc
      · simp at hc
      · rename_i hv
        obtain ⟨j, hj, rfl⟩ := List.mem_map.mp hc
        have := List.mem_range.mp hj
        exact ⟨by change base + j < limit; omega, hv⟩
    · exact h.2 c (List.mem_of_mem_filter hc)

/-! ### Buffer memory -/

theorem byteAt_write_self (m : Cells) (a : Word) (v : Byte) :
    byteAt (cellsWrite Config.memUnlisted m a.toNat v) a = v :=
  cellsRead_write_self a.toNat v

theorem byteAt_write_other (m : Cells) {a b : Word} (v : Byte) (h : b ≠ a) :
    byteAt (cellsWrite Config.memUnlisted m a.toNat v) b = byteAt m b :=
  cellsRead_write_other v (fun e => h (BitVec.eq_of_toNat_eq e))

/-- `MemWrite` keeps the canonical form and touches nothing but memory. -/
theorem memWrite_spec {a : Word} {v : Byte} {s t : State} (h : memWrite a v s = some t) :
    admitsWrite s.params a = true ∧ t = s.withMem (cellsWrite Config.memUnlisted s.mem a.toNat v) ∧
      (Memory.wf s.mem → Memory.wf t.mem) := by
  unfold memWrite at h
  split at h
  · rename_i ha
    cases h
    exact ⟨ha, rfl, fun hw => cellsWrite_wf v a.isLt hw⟩
  · cases h

/-- Memory after reset lists nothing and is canonical. -/
theorem reset_mem_wf : Memory.wf State.reset.mem := cellsWf_nil

end Sys2Proof.Machine
end

