-- ==== Sys2Proof/Laws/Flash.lean ====
section
/-! SUPPORT. The flash device: what filling and programming do to each byte, that every command keeps the device's stores
canonical, and the one shape of the fourteen meanings (45_flash_commands.md R277, R278). -/

namespace Sys2Proof.Machine

/-! ### Addresses of a frame -/

theorem frameAddress_toNat (rest : List Byte) : (frameAddress rest).toNat = addressNat rest := by
  unfold frameAddress addressNat
  simp only [BitVec.toNat_append, List.getD_eq_getElem?_getD]
  have h (i : Nat) := (rest[i]?.getD 0 : Byte).isLt
  have h1 := h 1
  have h2 := h 2
  rw [← Nat.shiftLeft_add_eq_or_of_lt h2, ← Nat.shiftLeft_add_eq_or_of_lt h1]
  simp only [Nat.shiftLeft_eq]
  omega

theorem sectorBase_eq (a : FlashAddr) : a &&& 0xFFF000#24 = (a >>> 12) <<< 12 := by
  apply BitVec.eq_of_getLsbD_eq
  intro i hi
  interval_cases i <;> simp
theorem sectorBase_toNat (a : FlashAddr) : (a &&& 0xFFF000#24).toNat = a.toNat / 4096 * 4096 := by
  rw [sectorBase_eq, BitVec.toNat_shiftLeft, BitVec.toNat_ushiftRight, Nat.shiftRight_eq_div_pow, Nat.shiftLeft_eq]
  apply Nat.mod_eq_of_lt
  have := a.isLt
  omega
theorem sectorBase_le (a : FlashAddr) : (a &&& 0xFFF000#24).toNat + 4096 ≤ 2 ^ 24 := by
  rw [sectorBase_toNat]
  have := a.isLt
  omega
theorem pageAddress_toNat (a : FlashAddr) (i : Nat) :
    (pageAddress a i).toNat = a.toNat / 256 * 256 + (a.toNat + i) % 256 := by
  have h1 : a &&& 0xFFFF00#24 = (a >>> 8) <<< 8 := by
    apply BitVec.eq_of_getLsbD_eq
    intro i hi
    interval_cases i <;> simp
  have h2 (b : FlashAddr) : (b &&& 0xFF#24).toNat = b.toNat % 256 := by
    rw [BitVec.toNat_and]
    exact Nat.and_two_pow_sub_one_eq_mod b.toNat 8
  have h3 : (a &&& 0xFFFF00#24).toNat = a.toNat / 256 * 256 := by
    rw [h1, BitVec.toNat_shiftLeft, BitVec.toNat_ushiftRight, Nat.shiftRight_eq_div_pow, Nat.shiftLeft_eq]
    apply Nat.mod_eq_of_lt
    have := a.isLt
    omega
  unfold pageAddress
  rw [BitVec.toNat_add, h3, h2, BitVec.toNat_add, BitVec.toNat_ofNat]
  have := a.isLt
  omega

/-! ### Filling a range -/

section
variable (st : Store) (base size : Nat) (v : Byte)
theorem cellsRead_append {fill : Byte} (l r : Cells) (a : Nat) :
    cellsRead fill (l ++ r) a = if l.any (fun c => c.1 = a) then cellsRead fill l a else cellsRead fill r a := by
  induction l with
  | nil => rfl
  | cons c l ih =>
    simp only [List.cons_append, cellsRead, List.any_cons]
    by_cases h : c.1 = a
    · simp [h]
    · simp [h, ih]

theorem cellsRead_filter {fill : Byte} (p : Nat → Bool) (l : Cells) {a : Nat} (h : p a = true) :
    cellsRead fill (l.filter (fun c => p c.1)) a = cellsRead fill l a := by
  induction l with
  | nil => rfl
  | cons c l ih =>
    rw [List.filter_cons]
    by_cases hc : c.1 = a
    · subst hc; simp [h, cellsRead]
    · split <;> simp [cellsRead, hc, ih]

theorem cellsRead_range {fill : Byte} {a : Nat} (h1 : base ≤ a) (h2 : a < base + size) :
    cellsRead fill ((List.range size).map (fun j => (base + j, v))) a = v := by
  have : ∀ l : List Nat, (a - base) ∈ l → cellsRead fill (l.map (fun j => (base + j, v))) a = v := by
    intro l hl
    induction l with
    | nil => cases hl
    | cons j l ih =>
      simp only [List.map_cons, cellsRead]
      split
      · rfl
      · rename_i hne
        rcases List.mem_cons.mp hl with rfl | hl
        · omega
        · exact ih hl
  exact this _ (List.mem_range.mpr (by omega))

/-- After a range was filled, its addresses read the value and every other as before. -/
theorem storeRead_fillRange (a : Nat) :
    storeRead (storeFillRange st base size v) a = if base ≤ a ∧ a < base + size then v else storeRead st a := by
  unfold storeRead storeFillRange
  simp only
  rw [cellsRead_append, cellsRead_append]
  have hnot : ∀ (l : Cells) (p : Nat → Bool), p a = false → (l.filter (fun c => p c.1)).any (fun c => c.1 = a) = false := by
    intro l p hp
    rw [List.any_eq_false]
    intro c hc
    have := (List.mem_filter.mp hc).2
    simp only [decide_eq_true_eq]
    rintro rfl
    simp [hp] at this
  have hmid : ((if v = st.fill then [] else (List.range size).map (fun j => (base + j, v))) : Cells).any (fun c => c.1 = a) = true →
      base ≤ a ∧ a < base + size ∧ v ≠ st.fill := by
    intro h
    split at h
    · simp at h
    · rename_i hv
      rw [List.any_eq_true] at h
      obtain ⟨c, hc, he⟩ := h
      obtain ⟨j, hj, rfl⟩ := List.mem_map.mp hc
      have := List.mem_range.mp hj
      simp only [decide_eq_true_eq] at he
      exact ⟨by omega, by omega, hv⟩
  have hany : ∀ (l : Cells), l.any (fun c => c.1 = a) = false → cellsRead st.fill l a = st.fill := by
    intro l h
    apply cellsRead_of_not_mem
    intro c hc
    have := List.any_eq_false.mp h c hc
    simpa using this
  by_cases h1 : a < base
  · rw [if_neg (show ¬(base ≤ a ∧ a < base + size) by omega)]
    have e1 := cellsRead_filter (fill := st.fill) (fun n => decide (n < base)) st.cells (a := a) (by simpa using h1)
    by_cases hA : (st.cells.filter (fun c => decide (c.1 < base))).any (fun c => c.1 = a) = true
    · simp only [List.any_append, hA, Bool.true_or, if_true]
      exact e1
    · have hA := Bool.eq_false_iff.mpr hA
      have hB : ((if v = st.fill then [] else (List.range size).map (fun j => (base + j, v))) : Cells).any (fun c => c.1 = a) = false := by
        rw [Bool.eq_false_iff]; intro h; have := hmid h; omega
      simp only [List.any_append, hA, hB, Bool.or_false, Bool.false_eq_true, if_false]
      rw [← e1, hany _ hA]
      apply hany
      exact hnot st.cells (fun n => decide (base + size ≤ n)) (by simp; omega)
  · have hA := hnot st.cells (fun n => decide (n < base)) (by simpa using h1)
    simp only [List.any_append, hA, Bool.false_or, Bool.false_eq_true, if_false]
    by_cases h2 : a < base + size
    · rw [if_pos (show base ≤ a ∧ a < base + size by omega)]
      by_cases hv : v = st.fill
      · simp only [hv, if_true, List.any_nil, Bool.false_eq_true, if_false]
        apply hany
        exact hnot st.cells (fun n => decide (base + size ≤ n)) (by simp; omega)
      · have : (((List.range size).map (fun j => (base + j, v))) : Cells).any (fun c => c.1 = a) = true := by
          rw [List.any_eq_true]
          exact ⟨(base + (a - base), v), List.mem_map.mpr ⟨a - base, List.mem_range.mpr (by omega), rfl⟩, by simp; omega⟩
        simp only [hv, if_false, this, if_true]
        exact cellsRead_range base size v (by omega) h2
    · rw [if_neg (show ¬(base ≤ a ∧ a < base + size) by omega)]
      have hB : ((if v = st.fill then [] else (List.range size).map (fun j => (base + j, v))) : Cells).any (fun c => c.1 = a) = false := by
        rw [Bool.eq_false_iff]; intro h; have := hmid h; omega
      simp only [hB, Bool.false_eq_true, if_false]
      exact cellsRead_filter (fill := st.fill) (fun n => decide (base + size ≤ n)) st.cells (a := a) (by simp; omega)
end

/-! ### Programming -/

/-- Programming bytes at distinct addresses: each ANDs into its own byte. -/
theorem program_read_mem {addr : Byte × Nat → Nat} (l : List (Byte × Nat)) (st : Store)
    (hp : l.Pairwise (fun d e => addr d ≠ addr e)) {d : Byte × Nat} (hd : d ∈ l) :
    storeRead (l.foldl (fun st d => storeWrite st (addr d) (storeRead st (addr d) &&& d.1)) st) (addr d) =
      storeRead st (addr d) &&& d.1 := by
  induction l generalizing st with
  | nil => cases hd
  | cons e l ih =>
    rw [List.pairwise_cons] at hp
    rw [List.foldl_cons]
    rcases List.mem_cons.mp hd with rfl | hd
    · have : ∀ (l : List (Byte × Nat)) (st : Store), (∀ e ∈ l, addr d ≠ addr e) →
          storeRead (l.foldl (fun st d => storeWrite st (addr d) (storeRead st (addr d) &&& d.1)) st) (addr d) =
            storeRead st (addr d) := by
        intro l
        induction l with
        | nil => intros; rfl
        | cons e l ih2 =>
          intro st h
          rw [List.foldl_cons, ih2 _ (fun e he => h e (List.mem_cons_of_mem _ he)),
            storeRead_write_other _ _ (h e (by simp))]
      rw [this l _ hp.1, storeRead_write_self]
    · rw [ih _ hp.2 hd, storeRead_write_other _ _ (Ne.symm (hp.1 d hd))]

theorem program_read_not_mem {addr : Byte × Nat → Nat} (l : List (Byte × Nat)) (st : Store) {b : Nat}
    (h : ∀ e ∈ l, b ≠ addr e) :
    storeRead (l.foldl (fun st d => storeWrite st (addr d) (storeRead st (addr d) &&& d.1)) st) b = storeRead st b := by
  induction l generalizing st with
  | nil => rfl
  | cons e l ih =>
    rw [List.foldl_cons, ih _ (fun e he => h e (List.mem_cons_of_mem _ he)), storeRead_write_other _ _ (h e (by simp))]

theorem mem_lastBytes (data : List Byte) (d : Byte) (i : Nat) :
    (d, i) ∈ data.zipIdx.drop (data.length - 256) ↔ data.length ≤ i + 256 ∧ data[i]? = some d := by
  rw [List.mem_iff_getElem?]
  constructor
  · rintro ⟨n, hn⟩
    rw [List.getElem?_drop, List.getElem?_zipIdx] at hn
    simp only [Option.map_eq_some_iff, Prod.mk.injEq] at hn
    obtain ⟨x, hx, rfl, h⟩ := hn
    have := (List.getElem?_eq_some_iff.mp hx).1
    simp at h
    subst h
    exact ⟨by omega, hx⟩
  · rintro ⟨h1, h2⟩
    refine ⟨i - (data.length - 256), ?_⟩
    have := (List.getElem?_eq_some_iff.mp h2).1
    rw [List.getElem?_drop, List.getElem?_zipIdx, show data.length - 256 + (i - (data.length - 256)) = i by omega, h2]
    simp

/-- The page program at one address: a data byte that counts is ANDed in; an address no such byte has stays. -/
theorem programPage_spec (a : FlashAddr) (data : List Byte) (st : Store) :
    (∀ i d, data.length ≤ i + 256 → data[i]? = some d →
      storeRead (programPage a data st) (pageAddress a i).toNat = storeRead st (pageAddress a i).toNat &&& d) ∧
    (∀ b, (∀ i, data.length ≤ i + 256 → i < data.length → b ≠ (pageAddress a i).toNat) →
      storeRead (programPage a data st) b = storeRead st b) := by
  constructor
  · intro i d h1 h2
    have hm := (mem_lastBytes data d i).mpr ⟨h1, h2⟩
    unfold programPage
    generalize hl : data.zipIdx.drop (data.length - 256) = l at hm
    have hpw : l.Pairwise (fun d e => (pageAddress a d.2).toNat ≠ (pageAddress a e.2).toNat) := ?_
    · have h := program_read_mem (addr := fun d => (pageAddress a d.2).toNat) l st hpw hm
      dsimp only at h
      exact h
    subst hl
    have hd : (data.zipIdx.drop (data.length - 256)).Pairwise (fun d e => d.2 < e.2) := by
      apply List.Pairwise.drop
      rw [List.pairwise_iff_getElem]
      intro i j hi hj hij
      simp
      exact hij
    refine hd.imp_of_mem ?_
    rintro ⟨d, i⟩ ⟨e, j⟩ hd he hij
    have h1 := (mem_lastBytes data d i).mp hd
    have h2 := (mem_lastBytes data e j).mp he
    have h3 := (List.getElem?_eq_some_iff.mp h2.2).1
    simp only [ne_eq, pageAddress_toNat] at hij ⊢
    omega
  · intro b h
    unfold programPage
    refine program_read_not_mem (addr := fun d => (pageAddress a d.2).toNat) (data.zipIdx.drop (data.length - 256)) st ?_
    rintro ⟨d, i⟩ he
    have h1 := (mem_lastBytes data d i).mp he
    exact h i h1.1 (List.getElem?_eq_some_iff.mp h1.2).1

/-! ### The stores stay canonical -/

/-- What a deselect may do to the device's stores: nothing that breaks their canonical form. -/
def KeepsStores (commit : RefPeer → RefPeer) : Prop :=
  ∀ p, peerWf (.reference p) → peerWf (.reference (commit p))

theorem programPage_wf (a : FlashAddr) (data : List Byte) {st : Store} {limit : Nat} (hl : 2 ^ 24 ≤ limit) (h : storeWf limit st) :
    storeWf limit (programPage a data st) := by
  unfold programPage
  generalize (data.zipIdx.drop (data.length - 256)) = l
  induction l generalizing st with
  | nil => exact h
  | cons d l ih => exact ih (storeWrite_wf _ (Nat.lt_of_lt_of_le (pageAddress a d.2).isLt hl) h)

theorem commitPp_wf (rest : List Byte) (d : Nat) : KeepsStores (commitPp rest d) := by
  intro p h
  unfold commitPp
  split
  · cases p.wel
    · exact h
    · simp only [if_true, peerStartBusy]
      have h1 := h.1
      have h2 := programPage_wf (frameAddress rest) (rest.drop 3) (Nat.le_refl _) h1
      exact ⟨h2, h.2⟩
  · exact h

theorem commitSe_wf (rest : List Byte) (d : Nat) : KeepsStores (commitSe rest d) := by
  intro p h
  unfold commitSe
  split
  · cases p.wel
    · exact h
    · simp only [if_true, peerStartBusy]
      exact ⟨storeFillRange_wf _ (sectorBase_le _) h.1, h.2⟩
  · exact h

theorem commitCe_wf (rest : List Byte) (d : Nat) : KeepsStores (commitCe rest d) := by
  intro p h
  unfold commitCe
  split
  · cases p.wel
    · exact h
    · exact ⟨storeFillAll_wf _, h.2⟩
  · exact h

theorem commitStatusWrite_wf {write : Byte → RefPeer → RefPeer} (hw : ∀ b p, (write b p).array = p.array ∧ (write b p).sfdp = p.sfdp)
    (rest : List Byte) (d : Nat) : KeepsStores (commitStatusWrite write rest d) := by
  intro p h
  unfold commitStatusWrite
  cases rest with
  | nil => exact h
  | cons b rest =>
    cases p.wel <;> cases p.vwe <;> simp [peerWf, peerStartBusy, hw] <;> exact h

theorem commitFrame_wf (i : Instr) (d : Nat) : KeepsStores (commitFrame i d) := by
  cases i <;>
    first
    | exact commitPp_wf _ _
    | exact commitSe_wf _ _
    | exact commitCe_wf _ _
    | exact commitStatusWrite_wf (write := fun b p => { p with sr1h := b.extractLsb' 2 6 }) (fun _ _ => ⟨rfl, rfl⟩) _ _
    | exact commitStatusWrite_wf (write := fun b p => { p with sr2 := b }) (fun _ _ => ⟨rfl, rfl⟩) _ _
    | exact commitStatusWrite_wf (write := fun b p => { p with sr3 := b }) (fun _ _ => ⟨rfl, rfl⟩) _ _
    | exact fun _ h => h

theorem peerEndFrame_wf {commit : Nat → RefPeer → RefPeer} (h : ∀ d, KeepsStores (commit d)) (d : Nat) :
    KeepsStores (peerEndFrame commit d) := by
  intro p hp
  unfold peerEndFrame
  cases p.busy
  · exact h d p hp
  · exact hp

theorem peerDeselect_wf (d : Nat) : KeepsStores (peerDeselect d) := by
  intro p hp
  unfold peerDeselect
  split
  · exact peerEndFrame_wf (fun d => commitFrame_wf _ d) d p hp
  · exact peerEndFrame_wf (fun d p h => h) d p hp

theorem peerSeesPin_wf (c : Bool) (d : Nat) {p : Peer} (h : peerWf p) : peerWf (peerSeesPin c d p) := by
  cases p with
  | absent => exact h
  | reference p =>
    cases c
    · exact peerDeselect_wf d p h
    · exact h

/-- Every flash command is `flashCommand` of its opcode, its answer and its effect at the deselect. -/
theorem exec_flash {i : Instr} {bytes : List Byte} (h : encode i = .frame bytes) :
    ∃ opc rest answer commit, bytes = opc :: rest ∧ commit rest = commitFrame i ∧
      ∀ s, exec i s = flashCommand opc rest answer commit s := by
  cases i <;> simp only [encode, Code.frame.injEq, reduceCtorEq] at h <;> subst h <;>
    exact ⟨_, _, _, _, rfl, rfl, fun _ => rfl⟩

/-- A frame whose opcode is none of the fourteen decodes to nothing. -/
theorem decodeFrame_unknown {opc : Byte} {rest : List Byte} (h : opc ∉ flashOpcodes) :
    decodeFrame (opc :: rest) = .error (.unknownOpcode opc) := by
  have hn : ∀ n : Nat, n ∈ flashOpcodes.map BitVec.toNat → opc.toNat ≠ n := by
    intro n hn e
    obtain ⟨c, hc, rfl⟩ := List.mem_map.mp hn
    exact h (BitVec.eq_of_toNat_eq e ▸ hc)
  have : flashOp opc rest = none := by
    unfold flashOp
    split
    all_goals first
      | rfl
      | (rename_i e; exact absurd e (hn _ (by decide)))
  simp only [decodeFrame, this]

/-- A frame's command is the command of its bytes. -/
theorem decodeFrame_encode {fr : List Byte} {i : Instr} (h : decodeFrame fr = .ok i) : encode i = .frame fr := by
  cases fr with
  | nil => cases h
  | cons opc rest =>
    simp only [decodeFrame] at h
    split at h
    · rename_i j hj
      cases h
      unfold flashOp at hj
      split at hj
      all_goals try contradiction
      all_goals
        rename_i ho
        cases hj
        simp only [encode]
        congr 2
        exact BitVec.eq_of_toNat_eq ho.symm
    · cases h

end Sys2Proof.Machine
end

