-- ==== Sys2Proof/Laws/Ops.lean ====
section
/-! SUPPORT. What the shared operations, the controller's step and the machine's step can do, said once each. -/

namespace Sys2Proof.Machine

/-! ### Addresses -/

@[simp] theorem hostOffset_add (p : Params) (o : Word) : hostOffset p (p.hostBase + o) = o := by
  simp [hostOffset, BitVec.add_comm p.hostBase]
@[simp] theorem hostOffset_base (p : Params) : hostOffset p p.hostBase = 0 := by simp [hostOffset]

/-- With five different addresses each register is found at its own (20_memory.md R86). -/
theorem portAt_portAddress {p : Params} (h : ∀ r r', portAddress p r = portAddress p r' → r = r') (r : PortReg) :
    portAt p (portAddress p r) = some r := by
  have hne : ∀ r r', r ≠ r' → (portAddress p r == portAddress p r') = false := fun r r' hr => by
    simpa using fun e => hr (h r r' e)
  cases r <;> simp [portAt, hne]

/-! ### Choices -/

/-- A chosen step is the chosen agent's turn. -/
theorem step_chosen (a : Config.Agent) (d : Nat) (s : State) : step (chosen a d s) = agentTurn (taken a d s) := rfl

/-- A step that answers a next state goes on from there. -/
theorem runSteps_succ {k : Nat} {s t : State} (h : step s = .next t) : runSteps (k + 1) s = runSteps k t := by
  simp only [runSteps, h]

/-- A choice already made is taken. -/
theorem step_sched {s : State} {c : Config.Choice} {rest : List Config.Choice} (h : s.sched = c :: rest) :
    step s = agentTurn { s with sched := rest, now := c } := by
  unfold step takeChoice; rw [h]; rfl

/-- Taking the choice changes nothing but the choice. -/
theorem takeChoice_spec (s : State) :
    takeChoice s = s.withChoice (takeChoice s).sched (takeChoice s).tick (takeChoice s).now := by
  unfold takeChoice; split <;> rfl

section
variable (s : State)
@[simp] theorem takeChoice_params : (takeChoice s).params = s.params := by unfold takeChoice; split <;> rfl
@[simp] theorem takeChoice_host : (takeChoice s).host = s.host := by unfold takeChoice; split <;> rfl
@[simp] theorem takeChoice_ctl : (takeChoice s).ctl = s.ctl := by unfold takeChoice; split <;> rfl
@[simp] theorem takeChoice_stack : (takeChoice s).stack = s.stack := by unfold takeChoice; split <;> rfl
@[simp] theorem takeChoice_faulted : (takeChoice s).faulted = s.faulted := by unfold takeChoice; split <;> rfl
@[simp] theorem takeChoice_engine : (takeChoice s).engine = s.engine := by unfold takeChoice; split <;> rfl
@[simp] theorem takeChoice_cs : (takeChoice s).cs = s.cs := by unfold takeChoice; split <;> rfl
@[simp] theorem takeChoice_abortIn : (takeChoice s).abortIn = s.abortIn := by unfold takeChoice; split <;> rfl
@[simp] theorem takeChoice_peer : (takeChoice s).peer = s.peer := by unfold takeChoice; split <;> rfl
@[simp] theorem takeChoice_mem : (takeChoice s).mem = s.mem := by unfold takeChoice; split <;> rfl
@[simp] theorem takeChoice_trace : (takeChoice s).trace = s.trace := by unfold takeChoice; split <;> rfl
@[simp] theorem takeChoice_hostQ : (takeChoice s).hostQ = s.hostQ := by unfold takeChoice; split <;> rfl
@[simp] theorem takeChoice_hostData : (takeChoice s).hostData = s.hostData := by unfold takeChoice; split <;> rfl
end

/-! ### Faults -/

theorem raise_of_none {f : BlockFault} {s : State} (h : s.faulted = none) : raise f s = s.withFaulted (some f) := by
  simp [raise, h]

theorem raise_of_some {f g : BlockFault} {s : State} (h : s.faulted = some g) : raise f s = s := by
  simp [raise, h]

/-- Entering a fault changes FAULTED alone, and only from none. -/
theorem raise_spec (f : BlockFault) (s : State) :
    raise f s = s.withFaulted (some (s.faulted.getD f)) := by
  unfold raise
  split
  · rename_i g h
    simp only [h, Option.getD_some]
    rw [← h]; rfl
  · rename_i h; simp [h]

section
variable (f : BlockFault) (s : State)
@[simp] theorem raise_params : (raise f s).params = s.params := by unfold raise; split <;> rfl
@[simp] theorem raise_host : (raise f s).host = s.host := by unfold raise; split <;> rfl
@[simp] theorem raise_ctl : (raise f s).ctl = s.ctl := by unfold raise; split <;> rfl
@[simp] theorem raise_stack : (raise f s).stack = s.stack := by unfold raise; split <;> rfl
@[simp] theorem raise_engine : (raise f s).engine = s.engine := by unfold raise; split <;> rfl
@[simp] theorem raise_cs : (raise f s).cs = s.cs := by unfold raise; split <;> rfl
@[simp] theorem raise_abortIn : (raise f s).abortIn = s.abortIn := by unfold raise; split <;> rfl
@[simp] theorem raise_peer : (raise f s).peer = s.peer := by unfold raise; split <;> rfl
@[simp] theorem raise_mem : (raise f s).mem = s.mem := by unfold raise; split <;> rfl
@[simp] theorem raise_trace : (raise f s).trace = s.trace := by unfold raise; split <;> rfl
@[simp] theorem raise_hostQ : (raise f s).hostQ = s.hostQ := by unfold raise; split <;> rfl
@[simp] theorem raise_hostData : (raise f s).hostData = s.hostData := by unfold raise; split <;> rfl
@[simp] theorem raise_sched : (raise f s).sched = s.sched := by unfold raise; split <;> rfl
@[simp] theorem raise_tick : (raise f s).tick = s.tick := by unfold raise; split <;> rfl
@[simp] theorem raise_now : (raise f s).now = s.now := by unfold raise; split <;> rfl
end

/-! ### The pin -/

/-- A pending write that reaches the pin changes CS_PEND, the pin, and, with the pin, the trace and the peer. -/
theorem applyPend_spec (s : State) :
    (s.cs.pend = none ∧ applyPend s = s) ∨
      (∃ c, s.cs.pend = some c ∧ s.cs.pin = c ∧ applyPend s = s.withCs { s.cs with pend := none }) ∨
      (∃ c, s.cs.pend = some c ∧ s.cs.pin ≠ c ∧
        applyPend s =
          ((s.withCs { s.cs with pend := none, pin := c }).withTrace (s.trace ++ [.cs c])).withPeer
            (peerSeesPin c s.now.draw s.peer)) := by
  unfold applyPend
  split
  · exact .inl ⟨‹_›, rfl⟩
  · rename_i c h
    by_cases hp : s.cs.pin = c
    · exact .inr (.inl ⟨c, h, hp, by simp [setPin, hp]⟩)
    · exact .inr (.inr ⟨c, h, hp, by simp [setPin, hp, logEvent]; rfl⟩)

/-! ### The register port -/

/-- A DR write that answers a state appends the byte to TXQ; else the transmit FIFO was full (20_memory.md R65). -/
theorem writeDr_cases (v : Word) (s : State) :
    (s.engine.txq.length = s.params.depth ∧ writeDr v s = .error (.txOverflow (v.setWidth 8))) ∨
      (s.engine.txq.length ≠ s.params.depth ∧
        writeDr v s = .ok (s.withEngine { s.engine with txq := s.engine.txq ++ [v.setWidth 8] })) := by
  unfold writeDr; split <;> simp_all

/-- A DR read takes the head of RXQ; else the receive FIFO was empty (R66). -/
theorem readDr_cases (s : State) :
    (s.engine.rxq = [] ∧ readDr s = .error .rxUnderflow) ∨
      (∃ h t, s.engine.rxq = h :: t ∧
        readDr s = .ok (h.setWidth 32, s.withEngine { s.engine with rxq := t })) := by
  unfold readDr; split <;> simp_all

/-! ### The serial engine -/

/-- EN_LOAD moves the oldest byte of TXQ to SH, or does nothing (R71). -/
theorem engineLoad_cases (s : State) :
    engineLoad s = s ∨
      ∃ h t, s.engine.txq = h :: t ∧ s.engine.sh.length < s.params.hold ∧
        engineLoad s = s.withEngine { s.engine with txq := t, sh := s.engine.sh ++ [h] } := by
  unfold engineLoad
  split
  · exact .inl rfl
  · split
    · exact .inr ⟨_, _, ‹_›, ‹_›, rfl⟩
    · exact .inl rfl

/-- The byte EN_XCHG takes leaves SH, or TXQ when `S = 0`, and nothing else changes (R72). -/
theorem engineTake_cases {s s' : State} {m : Byte} (h : engineTake s = some (m, s')) :
    (1 ≤ s.params.hold ∧ ∃ t, s.engine.sh = m :: t ∧ s' = s.withEngine { s.engine with sh := t }) ∨
      (s.params.hold = 0 ∧ ∃ t, s.engine.txq = m :: t ∧ s' = s.withEngine { s.engine with txq := t }) := by
  unfold engineTake at h
  split at h
  · split at h
    · cases h
    · cases h; exact .inl ⟨‹_›, _, ‹_›, rfl⟩
  · split at h
    · cases h
    · cases h; exact .inr ⟨by omega, _, ‹_›, rfl⟩

/-- The received byte enters RXQ, or RxOverflow is raised (R72). -/
theorem engineReceive_cases (miso : Byte) (s : State) :
    (s.engine.rxq.length = s.params.depth ∧ engineReceive miso s = raise (.rxOverflow miso) s) ∨
      (s.engine.rxq.length ≠ s.params.depth ∧
        engineReceive miso s = s.withEngine { s.engine with rxq := s.engine.rxq ++ [miso] }) := by
  unfold engineReceive; split <;> simp_all

/-! ### The controller -/

/-- An idle controller takes no step. -/
theorem controllerStep_nil {s : State} (h : s.stack = []) : controllerStep s = s := by
  unfold controllerStep; rw [h]; cases s.faulted <;> rfl

/-- A faulted controller takes no step. -/
theorem controllerStep_faulted {s : State} (h : s.faulted ≠ none) : controllerStep s = s := by
  unfold controllerStep
  cases hf : s.faulted with
  | none => exact absurd hf h
  | some f => rfl

/-- An unfaulted controller's step is its top activation's line. -/
theorem controllerStep_cons {s : State} {fr : Frame} {below : List Frame} (hf : s.faulted = none)
    (hs : s.stack = fr :: below) :
    controllerStep s =
      match stepFrame fr s with
      | .goto self s' => s'.withStack (self :: below)
      | .call self callee s' => s'.withStack (callee :: self :: below)
      | .done r s' => deliver below r s'
      | .halt s' => s' := by
  cases h : stepFrame fr s <;> simp only [controllerStep, hf, hs, h]

/-- A host operation that runs takes the controller's step. -/
theorem operate_busy {op : BitVec 4} {f : CmdFields} {refuse : State → Option BlockFault} {activate : Ctl → Frame}
    {s : State} (hb : s.host.busy = true) (ht : s.ctl.top = op) :
    operate op f refuse activate s = .next (controllerStep s) := by
  unfold operate
  cases hf : s.faulted with
  | none => simp [hb, ht]
  | some g => simp [controllerStep_faulted (s := s) (by simp [hf])]

/-- The meaning of the operation that runs is the controller's step. -/
theorem exec_running {s : State} {i : Instr} (h : runningInstr s = some i) : exec i s = .next (controllerStep s) := by
  unfold runningInstr at h
  split at h
  · rename_i hb
    unfold hostOp at h
    split at h
    all_goals try contradiction
    all_goals
      rename_i hop
      simp only [Option.some.injEq] at h
      subst h
      simp only [exec, execSetSelect, execIsAborted, execTransfer, execIssue, execIssueAddr, execWaitReady,
        execEnableWrite, execEraseSeq, execDiagStatus]
      exact operate_busy hb (BitVec.eq_of_toNat_eq hop)
  · cases h

/-- The controller's turn is the controller's step while an operation runs, and nothing otherwise. -/
theorem controllerTurn_cases (s : State) :
    (runningInstr s = none ∧ controllerTurn s = .next s) ∨
      ((runningInstr s).isSome = true ∧ controllerTurn s = .next (controllerStep s)) := by
  unfold controllerTurn
  cases h : runningInstr s with
  | none => exact .inl ⟨rfl, rfl⟩
  | some i => exact .inr ⟨rfl, exec_running h⟩

/-- At a line, the controller's turn is that line. -/
theorem controllerTurn_line {s : State} {fr : Frame} {below : List Frame} (h : lineAt fr below s) :
    controllerTurn s =
      .next
        (match stepFrame fr s with
        | .goto self s' => s'.withStack (self :: below)
        | .call self callee s' => s'.withStack (callee :: self :: below)
        | .done r s' => deliver below r s'
        | .halt s' => s') := by
  rcases controllerTurn_cases s with ⟨hn, _⟩ | ⟨_, ht⟩
  · exact absurd h.2.1 (by simp [hn])
  · rw [ht, controllerStep_cons h.1 h.2.2]

end Sys2Proof.Machine
end

