-- ==== Sys2Proof/Laws/Step.lean ====
section
/-! SUPPORT. What one step of each agent can do, said once: every case of a step that answers a next state. -/

namespace Sys2Proof.Machine

/-! ### The pin and the exchange -/

/-- The deselect that runs the frame's command is the drain of the pending write (20_memory.md R77, 45_flash_commands.md R278). -/
theorem drainTurn_eq (s : State) : drainTurn s = .next (applyPend s) := by
  unfold drainTurn
  split
  · rename_i p hpend hpin hpeer
    split
    · rename_i i hi
      obtain ⟨opc, rest, answer, commit, _, hc, he⟩ := exec_flash (decodeFrame_encode hi)
      rw [he]
      simp [flashCommand, logEvent, hpeer, applyPend, hpend, setPin, hpin, peerSeesPin, peerDeselect, hi, hc]
      rfl
    · rfl
  · rfl

/-- With chip-select deasserted, or no peer fixed, the exchange receives a drawn byte (20_memory.md R76; 45_flash_commands.md
R275). -/
theorem exchangeTurn_drawn {s s' : State} {m : Byte} (ht : engineTake s = some (m, s'))
    (h : s.cs.pin = false ∨ s.peer = .absent) : exchangeTurn s = .next (exchangeDrawn m s') := by
  have hs : s'.cs = s.cs ∧ s'.peer = s.peer := by
    rcases engineTake_cases ht with ⟨_, _, _, rfl⟩ | ⟨_, _, _, rfl⟩ <;> exact ⟨rfl, rfl⟩
  unfold exchangeTurn
  rw [ht]
  simp only [hs.1, hs.2]
  rcases h with h | h <;> rw [h]
  cases s.cs.pin <;> rfl

/-- What an exchange can do: nothing to send; a drawn answer; the device's answer, which its frame then ends in. -/
theorem exchangeTurn_cases (s : State) :
    (engineTake s = none ∧ exchangeTurn s = .next s) ∨
      ∃ m s', engineTake s = some (m, s') ∧
        (exchangeTurn s = .next (exchangeDrawn m s') ∨
          ∃ p miso, s'.peer = .reference p ∧ s'.cs.pin = true ∧
            exchangeTurn s = .next (exchangeAnswered m miso (p.fr ++ [m]) p s')) := by
  unfold exchangeTurn
  cases h : engineTake s with
  | none => exact .inl ⟨rfl, rfl⟩
  | some ms =>
    obtain ⟨m, s'⟩ := ms
    refine .inr ⟨m, s', rfl, ?_⟩
    cases hpin : s'.cs.pin with
    | false => exact .inl (by simp [hpin])
    | true =>
      cases hpeer : s'.peer with
      | absent => exact .inl (by simp [hpin, hpeer])
      | reference p =>
        refine .inr ⟨p, ?_⟩
        simp only [hpin, hpeer]
        cases hd : decodeFrame (p.fr ++ [m]) with
        | error e => exact ⟨_, trivial, trivial, rfl⟩
        | ok i =>
          obtain ⟨opc, rest, answer, commit, hb, _, he⟩ := exec_flash (decodeFrame_encode hd)
          refine ⟨if rest = [] then Config.idleMiso else answer rest p, trivial, trivial, ?_⟩
          have hl : (p.fr ++ [m]).getLastD opc = m := by simp
          simp only [he, flashCommand, hpeer, hpin, ← hb, hl]

/-- The exchange, seen from the engine: the byte taken, and what entered RXQ, or RxOverflow. Nothing of the block changes but
FAULTED. -/
theorem exchangeTurn_effect (s : State) :
    exchangeTurn s = .next s ∨
      ∃ m v e, engineTake s = some (m, v) ∧ ∃ t, exchangeTurn s = .next t ∧
        t = { s with engine := t.engine, trace := t.trace, peer := t.peer, faulted := t.faulted } ∧
        ((v.engine.rxq.length = s.params.depth ∧ t.engine = v.engine ∧ t.faulted = some (s.faulted.getD (.rxOverflow e))) ∨
          (v.engine.rxq.length ≠ s.params.depth ∧ t.engine = { v.engine with rxq := v.engine.rxq ++ [e] } ∧
            t.faulted = s.faulted)) ∧
        (t.peer = s.peer ∨ ∃ p fr, s.peer = .reference p ∧ t.peer = .reference { p with fr := fr }) := by
  rcases exchangeTurn_cases s with ⟨_, h⟩ | ⟨m, v, hm, h⟩
  · exact .inl h
  · right
    have hv : v = { s with engine := v.engine } := by
      rcases engineTake_cases hm with ⟨_, q, _, h⟩ | ⟨_, q, _, h⟩ <;> rw [h] <;> rfl
    have key : ∀ (e : Byte) (u : State),
        u = { v with trace := u.trace, peer := u.peer } →
        (u.peer = v.peer ∨ ∃ p fr, v.peer = .reference p ∧ u.peer = .reference { p with fr := fr }) →
        ∃ m' v' e', engineTake s = some (m', v') ∧ ∃ t, (Host.Outcome.next (engineReceive e u) : Host.Outcome State Fault Refusal) = .next t ∧
          t = { s with engine := t.engine, trace := t.trace, peer := t.peer, faulted := t.faulted } ∧
          ((v'.engine.rxq.length = s.params.depth ∧ t.engine = v'.engine ∧ t.faulted = some (s.faulted.getD (.rxOverflow e'))) ∨
            (v'.engine.rxq.length ≠ s.params.depth ∧ t.engine = { v'.engine with rxq := v'.engine.rxq ++ [e'] } ∧
              t.faulted = s.faulted)) ∧
          (t.peer = s.peer ∨ ∃ p fr, s.peer = .reference p ∧ t.peer = .reference { p with fr := fr }) := by
      intro e u hu hp
      refine ⟨m, v, e, hm, _, rfl, ?_⟩
      have hp' : u.peer = s.peer ∨ ∃ p fr, s.peer = .reference p ∧ u.peer = .reference { p with fr := fr } := by
        rw [hv] at hp; exact hp
      have hu' : u = { s with engine := v.engine, trace := u.trace, peer := u.peer } := by
        rw [hu]; rw [hv]
      rcases engineReceive_cases e u with ⟨hd, h⟩ | ⟨hd, h⟩ <;> rw [h] <;> rw [hu'] at hd ⊢
      · rw [raise_spec]
        exact ⟨rfl, .inl ⟨hd, rfl, rfl⟩, hp'⟩
      · exact ⟨rfl, .inr ⟨hd, rfl, rfl⟩, hp'⟩
    rcases h with h | ⟨p, miso, hpeer, hpin, h⟩ <;> rw [h]
    · unfold exchangeDrawn
      apply key
      · split <;> rfl
      · left; split <;> rfl
    · unfold exchangeAnswered
      apply key
      · rfl
      · exact .inr ⟨p, _, hpeer, rfl⟩

/-- A pending write that reaches the pin changes the line, the trace and the peer alone. -/
theorem applyPend_frame (s : State) :
    applyPend s = { s with cs := (applyPend s).cs, trace := (applyPend s).trace, peer := (applyPend s).peer } := by
  rcases applyPend_spec s with ⟨_, h⟩ | ⟨c, _, _, h⟩ | ⟨c, _, _, h⟩ <;> rw [h] <;> rfl

theorem applyPend_cs (s : State) :
    (applyPend s).cs = { s.cs with pend := none, pin := s.cs.pend.getD s.cs.pin } := by
  rcases applyPend_spec s with ⟨hp, h⟩ | ⟨c, hp, hc, h⟩ | ⟨c, hp, _, h⟩ <;> rw [h]
  · cases hs : s.cs; rw [hs] at hp; cases hp; rfl
  · simp [hp, hc]
  · simp [hp]

theorem applyPend_peer (s : State) :
    (applyPend s).peer = if s.cs.pend.getD s.cs.pin = s.cs.pin then s.peer
      else peerSeesPin (s.cs.pend.getD s.cs.pin) s.now.draw s.peer := by
  rcases applyPend_spec s with ⟨hp, h⟩ | ⟨c, hp, hc, h⟩ | ⟨c, hp, hc, h⟩ <;> rw [h, hp]
  · simp
  · simp [hc]
  · simp [Ne.symm hc]

theorem applyPend_trace (s : State) :
    (applyPend s).trace = if s.cs.pend.getD s.cs.pin = s.cs.pin then s.trace
      else s.trace ++ [.cs (s.cs.pend.getD s.cs.pin)] := by
  rcases applyPend_spec s with ⟨hp, h⟩ | ⟨c, hp, hc, h⟩ | ⟨c, hp, hc, h⟩ <;> rw [h, hp]
  · simp
  · simp [hc]
  · simp [Ne.symm hc]

/-- CS2's read-back after its own CS1: the line takes the state asked for (20_memory.md R67, 40_csr_access.md R142). -/
theorem applyPend_posted {act : Bool} {s : State} (h : selectPosted act s) : applyPend s = pinTakes act s := by
  have hp : s.cs.pend.getD s.cs.pin = act := by
    rcases h with h | ⟨h, h'⟩
    · simp [h]
    · simp [h, h']
  rw [applyPend_frame, applyPend_cs, applyPend_trace, applyPend_peer, hp]
  by_cases hc : s.cs.pin = act
  · simp [pinTakes, hc]
  · simp only [pinTakes, hc, Ne.symm hc, if_false]
    cases s.peer <;> rfl

/-! ### Host operations -/

/-- The first line of an operation's sub-machine (30_encoding.md R102, R110). -/
def isStart : Frame → Bool
  | .setSelect .CS1 _ => true
  | .isAborted => true
  | .transfer .X0 _ => true
  | .issue .T0 _ x => x.skip == 1
  | .issueAddr .A0 _ _ => true
  | .waitReady .W0 => true
  | .enableWrite => true
  | .eraseSeq .Q0 => true
  | .diagStatus .M0 => true
  | _ => false

/-- Every host operation is `operate` of its number, its fields, its parameter check and its first line. -/
theorem exec_host {i : Instr} {w : Word} (h : encode i = .cmd w) :
    ∃ op f refuse activate, (∀ s, exec i s = operate op f refuse activate s) ∧
      (∀ s e, refuse s = some e → e = .badParam s.host.argAddr) ∧
      ∀ c, frameOp (activate c) = op ∧ isStart (activate c) = true := by
  have hw : ∀ s e, refuseWideAddress s = some e → e = .badParam s.host.argAddr := by
    intro s e h
    unfold refuseWideAddress at h
    split at h
    · exact (Option.some.inj h).symm
    · cases h
  have hn : ∀ s e, noRefusal s = some e → e = .badParam s.host.argAddr := fun s e h => by cases h
  cases i <;> simp only [encode, Code.cmd.injEq, reduceCtorEq] at h
  · exact ⟨1#4, _, noRefusal, _, fun _ => rfl, hn, fun c => ⟨rfl, rfl⟩⟩
  · exact ⟨2#4, _, noRefusal, _, fun _ => rfl, hn, fun c => ⟨rfl, rfl⟩⟩
  · exact ⟨3#4, _, noRefusal, _, fun _ => rfl, hn, fun c => ⟨rfl, rfl⟩⟩
  · exact ⟨4#4, _, noRefusal, _, fun _ => rfl, hn, fun c => ⟨rfl, rfl⟩⟩
  · exact ⟨5#4, _, refuseWideAddress, _, fun _ => rfl, hw, fun c => ⟨rfl, rfl⟩⟩
  · exact ⟨6#4, _, noRefusal, _, fun _ => rfl, hn, fun c => ⟨rfl, rfl⟩⟩
  · exact ⟨7#4, _, noRefusal, _, fun _ => rfl, hn, fun c => ⟨rfl, rfl⟩⟩
  · exact ⟨8#4, _, noRefusal, _, fun _ => rfl, hn, fun c => ⟨rfl, rfl⟩⟩
  · exact ⟨9#4, _, noRefusal, _, fun _ => rfl, hn, fun c => ⟨rfl, rfl⟩⟩

/-- A command word's instruction is a host operation. -/
theorem decodeCmd_encode {v : Word} {i : Instr} (h : decodeCmd v = .ok i) : ∃ w, encode i = .cmd w := by
  unfold decodeCmd at h
  split at h
  · cases h
  · rename_i j hj
    have : j = i := by
      repeat (split at h <;> try cases h)
      rfl
    subst this
    unfold hostOp at hj
    split at hj <;> cases hj <;> exact ⟨_, rfl⟩

/-- What a host operation's meaning can do: nothing on a faulted block; its next line; HostOverrun; the parameter fault; the
start. -/
theorem exec_host_cases {i : Instr} {w : Word} (h : encode i = .cmd w) (s : State) :
    (s.faulted ≠ none ∧ exec i s = .next s) ∨
      (s.faulted = none ∧ s.host.busy = true ∧ exec i s = .next (controllerStep s)) ∨
      (s.faulted = none ∧ s.host.busy = true ∧ ∃ v, exec i s = .next (s.withFaulted (some (.hostOverrun v)))) ∨
      (s.faulted = none ∧ s.host.busy = false ∧ exec i s = .next (s.withFaulted (some (.badParam s.host.argAddr)))) ∨
      (s.faulted = none ∧ s.host.busy = false ∧ ∃ op f fr, frameOp fr = op ∧ isStart fr = true ∧
        exec i s =
          .next (((s.withCtl (latch op f s.host s.ctl)).withHost { s.host with busy := true }).withStack [fr])) := by
  obtain ⟨op, f, refuse, activate, he, hr, ha⟩ := exec_host h
  rw [he]
  unfold operate
  cases hf : s.faulted with
  | some g => exact .inl ⟨by simp, by simp⟩
  | none =>
    right
    cases hb : s.host.busy with
    | true =>
      by_cases ht : s.ctl.top = op
      · exact .inl ⟨rfl, rfl, by simp [ht]⟩
      · exact .inr (.inl ⟨rfl, rfl, _, by simp [ht, raise_of_none hf]; rfl⟩)
    | false =>
      right; right
      cases hx : refuse s with
      | some e => exact .inl ⟨rfl, rfl, by simp [raise_of_none hf, hr s e hx]⟩
      | none => exact .inr ⟨rfl, rfl, op, f, activate (latch op f s.host s.ctl), (ha _).1, (ha _).2, by simp; rfl⟩

/-- What a host's request can do, when it answers a next state. -/
theorem hostTurn_cases {s t : State} (h : hostTurn s = .next t) :
    (t = s ∧ (s.hostQ = [] ∨ s.host.busy = true)) ∨
      ∃ r q, s.hostQ = r :: q ∧
        ((r = .await ∧ t = s.withHostQ q) ∨
          (r = .reset ∧ t = blockReset (drawByte s) (s.withHostQ q)) ∨
          (∃ v, t = (s.withHostQ q).withHostData v) ∨
          (∃ (a : Word) (v : Byte), t = (s.withHostQ q).withMem (cellsWrite Config.memUnlisted s.mem a.toNat v)) ∨
          (∃ o v, t = (s.withHostQ q).withHost (writeArg o v s.host)) ∨
          (∃ v, writeCmd v (s.withHostQ q) = .next t)) := by
  unfold hostTurn at h
  split at h
  · rename_i hq
    cases h; exact .inl ⟨rfl, .inl hq⟩
  · rename_i r q hq
    split at h
    · rename_i hb
      cases h; exact .inl ⟨rfl, .inr hb.2⟩
    · refine .inr ⟨r, q, hq, ?_⟩
      cases r with
      | write o z v =>
        simp only [hostRequest] at h
        split at h
        · split at h
          · exact .inr (.inr (.inr (.inr (.inr ⟨v, h⟩))))
          · cases h; exact .inr (.inr (.inr (.inr (.inl ⟨_, v, rfl⟩))))
        · cases h
      | read o z =>
        simp only [hostRequest] at h
        split at h
        · cases h; exact .inr (.inr (.inl ⟨_, rfl⟩))
        · cases h
      | putByte a v =>
        simp only [hostRequest, hostPutByte, memWrite] at h
        split at h
        · cases h
        · split at h
          · rename_i hm
            split at hm
            · cases hm; cases h
              exact .inr (.inr (.inr (.inl ⟨a, v, rfl⟩)))
            · cases hm
          · cases h
      | getByte a =>
        simp only [hostRequest, hostGetByte] at h
        split at h
        · cases h
        · split at h
          · cases h; exact .inr (.inr (.inl ⟨_, rfl⟩))
          · cases h
      | await => cases h; exact .inl ⟨rfl, rfl⟩
      | reset => cases h; exact .inr (.inl ⟨rfl, rfl⟩)

/-- What a CMD write can do (30_encoding.md R107, R110, R112): it always answers a next state. -/
theorem writeCmd_cases (v : Word) (s : State) :
    (s.faulted ≠ none ∧ writeCmd v s = .next s) ∨
      (s.faulted = none ∧ s.host.busy = true ∧ writeCmd v s = .next (s.withFaulted (some (.hostOverrun v)))) ∨
      (s.faulted = none ∧ s.host.busy = false ∧
        ∃ e, (e = .illegalOp v ∨ e = .badParam s.host.argAddr) ∧
          writeCmd v s = .next ((s.withHost { s.host with cmd := v }).withFaulted (some e))) ∨
      (s.faulted = none ∧ s.host.busy = false ∧ ∃ op f fr, frameOp fr = op ∧ isStart fr = true ∧
        writeCmd v s =
          .next (((s.withCtl (latch op f s.host s.ctl)).withHost { s.host with cmd := v, busy := true }).withStack [fr])) := by
  cases hf : s.faulted with
  | some g => exact .inl ⟨by simp, by simp [writeCmd, hf]⟩
  | none =>
    by_cases hb : s.host.busy = true
    · exact .inr (.inl ⟨rfl, hb, by simp [writeCmd, hf, raise_of_none hf, hb]⟩)
    · right; right
      have hw : writeCmd v s =
          match decodeCmd v with
          | .ok i => exec i (s.withHost { s.host with cmd := v })
          | .error _ => .next (raise (.illegalOp v) (s.withHost { s.host with cmd := v })) := by
        cases hd : decodeCmd v <;> simp [writeCmd, hf, hb, hd]
      rw [hw]
      replace hb := Bool.not_eq_true _ ▸ hb
      cases hd : decodeCmd v with
      | error e =>
        refine .inl ⟨rfl, hb, _, .inl rfl, ?_⟩
        exact congrArg Host.Outcome.next (raise_of_none (s := s.withHost { s.host with cmd := v }) hf)
      | ok i =>
        obtain ⟨w, hw⟩ := decodeCmd_encode hd
        rcases exec_host_cases hw (s.withHost { s.host with cmd := v }) with
          ⟨h1, _⟩ | ⟨_, h1, _⟩ | ⟨_, h1, _⟩ | ⟨_, _, h⟩ | ⟨_, _, op, f, fr, h1, h2, h⟩
        · exact absurd hf h1
        · exact absurd h1 (by simp [hb])
        · exact absurd h1 (by simp [hb])
        · exact .inl ⟨rfl, hb, _, .inr rfl, h⟩
        · exact .inr ⟨rfl, hb, op, f, fr, h1, h2, h⟩

/-! ### One step of the machine -/

/-- One step of the machine, by the agent that took it. -/
theorem step_cases {s t : State} (h : step s = .next t) :
    ((takeChoice s).now.agent = .controller ∧ (t = takeChoice s ∨ t = controllerStep (takeChoice s))) ∨
      ((takeChoice s).now.agent = .engineLoad ∧ t = engineLoad (takeChoice s)) ∨
      ((takeChoice s).now.agent = .engineExchange ∧ exchangeTurn (takeChoice s) = .next t) ∨
      ((takeChoice s).now.agent = .engineCs ∧ t = applyPend (takeChoice s)) ∨
      ((takeChoice s).now.agent = .peerTick ∧ t = peerTickStep (takeChoice s)) ∨
      ((takeChoice s).now.agent = .abortEnv ∧ t = abortEnvStep (takeChoice s)) ∨
      ((takeChoice s).now.agent = .host ∧ hostTurn (takeChoice s) = .next t) := by
  unfold step agentTurn at h
  generalize takeChoice s = u at h ⊢
  cases ha : u.now.agent <;> simp only [ha] at h <;>
    simp only [reduceCtorEq, false_and, true_and, false_or, or_false]
  · rcases controllerTurn_cases u with ⟨_, hc⟩ | ⟨_, hc⟩ <;> rw [hc] at h <;> cases h
    · exact .inl rfl
    · exact .inr rfl
  · cases h; rfl
  · exact h
  · rw [drainTurn_eq] at h; cases h; rfl
  · cases h; rfl
  · cases h; rfl
  · exact h

end Sys2Proof.Machine
end

