-- ==== Sys2Proof/Laws/Controller.lean ====
section
/-! SUPPORT. What a line of each sub-machine, a return, and a whole step of the controller can change. -/

namespace Sys2Proof.Machine

/-! ### Activations keep their place -/

/-- `self` is an activation of the same sub-machine as `fr`, called with the same arguments. -/
def sameCall : Frame → Frame → Bool
  | .setSelect _ a, .setSelect _ b => a == b
  | .isAborted, .isAborted => true
  | .transfer _ x, .transfer _ y => x == y
  | .issue _ o x, .issue _ q y => o == q && x == y
  | .issueAddr _ o a, .issueAddr _ q b => o == q && a == b
  | .waitReady _, .waitReady _ => true
  | .enableWrite, .enableWrite => true
  | .diagStatus _, .diagStatus _ => true
  | .eraseSeq _, .eraseSeq _ => true
  | _, _ => false

theorem sameCall_refl (fr : Frame) : sameCall fr fr = true := by cases fr <;> simp [sameCall]

theorem sameCall_frameOp {fr self : Frame} (h : sameCall fr self = true) : frameOp self = frameOp fr := by
  cases fr <;> cases self <;> simp_all [sameCall, frameOp]

theorem sameCall_waitsFor {fr self : Frame} (h : sameCall fr self = true) (c : Frame) : waitsFor c self = waitsFor c fr := by
  cases fr <;> cases self <;> simp only [sameCall, Bool.false_eq_true, Bool.and_eq_true, beq_iff_eq] at h
  all_goals (try obtain ⟨rfl, rfl⟩ := h)
  all_goals
    rcases c with l | _ | ⟨l, x⟩ | ⟨l, o, x⟩ | ⟨l, o, a⟩ | l | _ | l | l <;> first | rfl | (cases l <;> rfl)

/-- Moving the running activation to another of its labels keeps the stack legal. -/
theorem sameCall_stackLegal {fr self : Frame} (h : sameCall fr self = true) (below : List Frame) :
    stackLegal (self :: below) = stackLegal (fr :: below) := by
  cases below with
  | nil =>
    cases fr <;> cases self <;> simp only [sameCall, Bool.false_eq_true, Bool.and_eq_true, beq_iff_eq] at h
    all_goals (try obtain ⟨rfl, rfl⟩ := h)
    all_goals rfl
  | cons c rest => simp only [stackLegal, sameCall_waitsFor h]

/-- A legal stack of two or more: the top is what the next waits for. -/
theorem stackLegal_cons (a b : Frame) (r : List Frame) : stackLegal (a :: b :: r) = (waitsFor b a && stackLegal (b :: r)) := by
  cases a <;> rfl

/-- A started operation's stack is legal. -/
theorem start_legal {fr : Frame} (h : isStart fr = true) : stackLegal [fr] = true := by
  rcases fr with l | _ | ⟨l, x⟩ | ⟨l, o, x⟩ | ⟨l, o, a⟩ | l | _ | l | l <;> first | rfl | (cases l <;> first | exact h | cases h)

/-- The lower part of a legal stack is legal. -/
theorem legal_suffix {above k : List Frame} (h : stackLegal (above ++ k) = true) : stackLegal k = true := by
  induction above with
  | nil => exact h
  | cons a l ih =>
    apply ih
    cases hl : l ++ k with
    | nil => rfl
    | cons c r => simp only [List.cons_append, hl, stackLegal_cons, Bool.and_eq_true] at h; exact h.2

/-! ### What a line, and a return to a waiting activation, do -/

/-- What an act leaves: its own activation moved, a callee it may wait for; nothing else of the stack is said here. -/
def keepsPlace (fr : Frame) : Act → Prop
  | .goto self _ => sameCall fr self = true
  | .call self callee _ => sameCall fr self = true ∧ waitsFor self callee = true ∧ isStart callee = true
  | .done _ _ => True
  | .halt _ => True

theorem seqCall_place (p : Params) (k : BitVec 4) :
    waitsFor (.eraseSeq .Q1) (seqCall p k) = true ∧ isStart (seqCall p k) = true := by
  unfold seqCall
  split <;> exact ⟨rfl, rfl⟩

theorem keepsPlace_goto {fr self : Frame} {s : State} (h : sameCall fr self = true) : keepsPlace fr (.goto self s) := h

theorem keepsPlace_call {fr callee : Frame} {s : State} (hw : waitsFor fr callee = true) (hs : isStart callee = true) :
    keepsPlace fr (.call fr callee s) :=
  ⟨sameCall_refl fr, hw, hs⟩

theorem sameCall_transfer (l m : XLabel) (x : XferArgs) : sameCall (.transfer l x) (.transfer m x) = true := by
  simp [sameCall]

theorem sameCall_issue (l m : TLabel) (o : Byte) (x : XferArgs) : sameCall (.issue l o x) (.issue m o x) = true := by
  simp [sameCall]

theorem sameCall_issueAddr (l m : ALabel) (o : Byte) (a : FlashAddr) :
    sameCall (.issueAddr l o a) (.issueAddr m o a) = true := by
  simp [sameCall]

theorem stepFrame_place (fr : Frame) (s : State) : keepsPlace fr (stepFrame fr s) := by
  cases fr with
  | setSelect l a =>
    cases l
    · exact keepsPlace_goto (by simp [sameCall])
    · trivial
  | isAborted => trivial
  | transfer l x =>
    cases l <;> simp only [stepFrame, stepTransfer] <;> (repeat' split) <;>
      first
      | trivial
      | exact keepsPlace_goto (sameCall_transfer _ _ x)
      | exact keepsPlace_call rfl rfl
  | issue l o x =>
    cases l <;> simp only [stepFrame, stepIssue] <;> (repeat' split) <;>
      first
      | trivial
      | exact keepsPlace_goto (sameCall_issue _ _ o x)
      | exact keepsPlace_call rfl rfl
      | exact keepsPlace_call (beq_self_eq_true x) rfl
  | issueAddr l o a =>
    cases l <;> simp only [stepFrame, stepIssueAddr] <;> (repeat' split) <;>
      first
      | trivial
      | exact keepsPlace_goto (sameCall_issueAddr _ _ o a)
      | exact keepsPlace_call rfl rfl
  | waitReady l =>
    cases l <;> simp only [stepFrame, stepWaitReady] <;> (repeat' split) <;> trivial
  | enableWrite => exact keepsPlace_call rfl rfl
  | diagStatus l =>
    cases l <;> simp only [stepFrame, stepDiagStatus] <;> trivial
  | eraseSeq l =>
    cases l <;> simp only [stepFrame, stepEraseSeq] <;> (repeat' split) <;>
      first
      | trivial
      | exact keepsPlace_goto rfl
      | exact keepsPlace_call (seqCall_place _ _).1 (seqCall_place _ _).2

theorem resumeFrame_place (fr : Frame) (r : Result) (s : State) : keepsPlace fr (resumeFrame fr r s) := by
  cases fr with
  | setSelect l a => simp [resumeFrame, keepsPlace, sameCall]
  | isAborted => simp [resumeFrame, keepsPlace, sameCall]
  | transfer l x =>
    simp only [resumeFrame]; unfold resumeTransfer
    split <;> simp [keepsPlace, sameCall]
  | issue l o x => cases l <;> simp [resumeFrame, resumeIssue, keepsPlace, sameCall]
  | issueAddr l o a => cases l <;> simp [resumeFrame, resumeIssueAddr, keepsPlace, sameCall]
  | waitReady l =>
    simp only [resumeFrame]; unfold resumeWaitReady
    split <;> simp [keepsPlace, sameCall]
  | enableWrite => trivial
  | diagStatus l =>
    cases l <;> simp only [resumeFrame, resumeDiagStatus] <;> (repeat' split) <;> simp [keepsPlace, sameCall]
  | eraseSeq l =>
    cases l <;> simp only [resumeFrame, resumeEraseSeq] <;> (repeat' split) <;> simp [keepsPlace, sameCall]

/-- A return to a waiting activation never waits again and never faults. -/
theorem resumeFrame_cases (fr : Frame) (r : Result) (s : State) :
    (∃ self c, sameCall fr self = true ∧ resumeFrame fr r s = .goto self (s.withCtl c)) ∨
      ∃ r', resumeFrame fr r s = .done r' s := by
  have hs : s = s.withCtl s.ctl := rfl
  have hp := resumeFrame_place fr r s
  have hx : (∃ self c, resumeFrame fr r s = .goto self (s.withCtl c)) ∨ ∃ r', resumeFrame fr r s = .done r' s := by
    cases fr with
    | setSelect l a => exact .inl ⟨_, s.ctl, rfl⟩
    | isAborted => exact .inl ⟨_, s.ctl, rfl⟩
    | transfer l x =>
      simp only [resumeFrame]; unfold resumeTransfer
      split
      · exact .inl ⟨_, _, rfl⟩
      · exact .inl ⟨_, s.ctl, rfl⟩
      · exact .inr ⟨_, rfl⟩
      · exact .inl ⟨_, s.ctl, rfl⟩
    | issue l o x =>
      cases l
      · exact .inl ⟨_, s.ctl, rfl⟩
      · exact .inl ⟨_, s.ctl, rfl⟩
      · exact .inl ⟨_, s.ctl, rfl⟩
      · exact .inr ⟨_, rfl⟩
    | issueAddr l o a => cases l <;> exact .inl ⟨_, s.ctl, rfl⟩
    | waitReady l =>
      simp only [resumeFrame]; unfold resumeWaitReady
      split
      · split
        · exact .inl ⟨_, _, rfl⟩
        · exact .inl ⟨_, s.ctl, rfl⟩
      · exact .inl ⟨_, _, rfl⟩
      · exact .inl ⟨_, s.ctl, rfl⟩
      · exact .inl ⟨_, s.ctl, rfl⟩
    | enableWrite => exact .inr ⟨_, rfl⟩
    | diagStatus l =>
      cases l <;> simp only [resumeFrame, resumeDiagStatus] <;> (repeat' split) <;>
        exact .inl ⟨_, _, rfl⟩
    | eraseSeq l =>
      cases l <;> simp only [resumeFrame, resumeEraseSeq]
      · exact .inl ⟨_, s.ctl, rfl⟩
      · split <;> exact .inl ⟨_, _, rfl⟩
      · exact .inl ⟨_, s.ctl, rfl⟩
  rcases hx with ⟨self, c, h⟩ | h
  · rw [h] at hp; exact .inl ⟨self, c, hp, h⟩
  · exact .inr h

/-- A return ends at the host, or at a waiting activation, which moved; it changes internal registers, and at the host the
result registers, ABORTED and BUSY (30_encoding.md R111). -/
theorem deliver_cases (k : List Frame) (r : Result) (s : State) :
    (∃ r', deliver k r s = returnToHost r' s) ∨
      ∃ above fr below self c, k = above ++ fr :: below ∧ sameCall fr self = true ∧
        (∃ r', resumeFrame fr r' s = .goto self (s.withCtl c)) ∧
        deliver k r s = (s.withCtl c).withStack (self :: below) := by
  induction k generalizing r with
  | nil => exact .inl ⟨r, rfl⟩
  | cons fr below ih =>
    unfold deliver
    rcases resumeFrame_cases fr r s with ⟨self, c, hs, h⟩ | ⟨r', h⟩
    · refine .inr ⟨[], fr, below, self, c, rfl, hs, ⟨r, h⟩, ?_⟩
      rw [h]
    · rw [h]
      simp only
      rcases ih r' with ⟨r'', h'⟩ | ⟨above, fr', below', self, c, hk, hs, hr, h'⟩
      · exact .inl ⟨r'', h'⟩
      · exact .inr ⟨fr :: above, fr', below', self, c, by rw [hk]; rfl, hs, hr, h'⟩

/-! ### What a line changes -/

/-- The state an act leaves. -/
def actState : Act → State
  | .goto _ s => s
  | .call _ _ s => s
  | .done _ s => s
  | .halt s => s

/-- A step of an unfaulted controller that runs: the line's state, under the new stack, or returned. -/
theorem controllerStep_cases {s : State} {fr : Frame} {below : List Frame} (hf : s.faulted = none)
    (hs : s.stack = fr :: below) :
    (∃ self, sameCall fr self = true ∧ stepFrame fr s = .goto self (actState (stepFrame fr s)) ∧
        controllerStep s = (actState (stepFrame fr s)).withStack (self :: below)) ∨
      (∃ self callee, sameCall fr self = true ∧ waitsFor self callee = true ∧ isStart callee = true ∧
        stepFrame fr s = .call self callee (actState (stepFrame fr s)) ∧
        controllerStep s = (actState (stepFrame fr s)).withStack (callee :: self :: below)) ∨
      (∃ r, stepFrame fr s = .done r (actState (stepFrame fr s)) ∧
        controllerStep s = deliver below r (actState (stepFrame fr s))) ∨
      (stepFrame fr s = .halt (actState (stepFrame fr s)) ∧ controllerStep s = actState (stepFrame fr s)) := by
  have hp := stepFrame_place fr s
  rw [controllerStep_cons hf hs]
  cases h : stepFrame fr s with
  | goto self s' => rw [h] at hp; exact .inl ⟨self, hp, rfl, rfl⟩
  | call self callee s' => rw [h] at hp; exact .inr (.inl ⟨self, callee, hp.1, hp.2.1, hp.2.2, rfl, rfl⟩)
  | done r s' => exact .inr (.inr (.inl ⟨r, rfl, rfl⟩))
  | halt s' => exact .inr (.inr (.inr ⟨rfl, rfl⟩))

/-- The transmit and receive queues after a line: a byte written to DR, a byte read from DR, or neither. -/
def portMove (s t : State) : Prop :=
  t.engine = s.engine ∨
    (s.engine.txq.length ≠ s.params.depth ∧ ∃ b, t.engine = { s.engine with txq := s.engine.txq ++ [b] }) ∨
    ∃ b q, s.engine.rxq = b :: q ∧ t.engine = { s.engine with rxq := q }

/-- Everything a line leaves alone, whatever the line. -/
def lineFrame (s t : State) : Prop :=
  t = { s with
    ctl := t.ctl, engine := t.engine, cs := t.cs, trace := t.trace, peer := t.peer, mem := t.mem, faulted := t.faulted } ∧
  portMove s t

theorem lineFrame_raise (e : BlockFault) (s : State) : lineFrame s (raise e s) := by
  rw [raise_spec]; exact ⟨rfl, .inl rfl⟩

theorem lineFrame_applyPend (s : State) : lineFrame s (applyPend s) := by
  rcases applyPend_spec s with ⟨_, h⟩ | ⟨c, _, _, h⟩ | ⟨c, _, _, h⟩ <;> rw [h] <;> exact ⟨rfl, .inl rfl⟩

theorem stepFrame_frame (fr : Frame) (s : State) : lineFrame s (actState (stepFrame fr s)) := by
  cases fr with
  | setSelect l a =>
    cases l
    · exact ⟨rfl, .inl rfl⟩
    · exact lineFrame_applyPend s
  | isAborted => exact ⟨rfl, .inl rfl⟩
  | transfer l x =>
    cases l <;> simp only [stepFrame, stepTransfer]
    case X0 =>
      split
      · exact ⟨rfl, .inl rfl⟩
      · exact lineFrame_raise _ s
    case X5 =>
      rcases writeDr_cases (s.ctl.xb.setWidth 32) s with ⟨_, h⟩ | ⟨hd, h⟩ <;> rw [h]
      · exact lineFrame_raise _ s
      · exact ⟨rfl, .inr (.inl ⟨hd, _, rfl⟩)⟩
    case X6 =>
      split
      · rcases readDr_cases s with ⟨_, h⟩ | ⟨b, q, hq, h⟩ <;> rw [h]
        · exact lineFrame_raise _ s
        · simp only
          split <;> exact ⟨rfl, .inr (.inr ⟨b, q, hq, rfl⟩)⟩
      · exact ⟨rfl, .inl rfl⟩
    case X7 =>
      unfold storeXb
      cases s.ctl.xRxk with
      | none => exact ⟨rfl, .inl rfl⟩
      | stat => exact ⟨rfl, .inl rfl⟩
      | mem =>
        simp only [memWrite]
        cases admitsWrite s.params (rxAddress s.ctl) <;> exact ⟨rfl, .inl rfl⟩
    all_goals (repeat' split) <;> exact ⟨rfl, .inl rfl⟩
  | issue l o x =>
    cases l <;> simp only [stepFrame, stepIssue]
    · split
      · exact ⟨rfl, .inl rfl⟩
      · exact lineFrame_raise _ s
    · exact ⟨rfl, .inl rfl⟩
    · rcases writeDr_cases (s.ctl.dOpc.setWidth 32) s with ⟨_, h⟩ | ⟨hd, h⟩ <;> rw [h]
      · exact lineFrame_raise _ s
      · exact ⟨rfl, .inr (.inl ⟨hd, _, rfl⟩)⟩
    · exact ⟨rfl, .inl rfl⟩
  | issueAddr l o a =>
    have hb (k : Nat) :
        (∃ e, sendAddressByte k s = .error e) ∨
          (s.engine.txq.length ≠ s.params.depth ∧ ∃ b c, sendAddressByte k s =
            .ok ((s.withEngine { s.engine with txq := s.engine.txq ++ [b] }).withCtl c)) := by
      unfold sendAddressByte
      rcases writeDr_cases ((addressByte s.ctl.aw k).setWidth 32) s with ⟨_, h⟩ | ⟨hd, h⟩ <;> rw [h]
      · exact .inl ⟨_, rfl⟩
      · exact .inr ⟨hd, _, _, rfl⟩
    cases l <;> simp only [stepFrame, stepIssueAddr]
    case A0 =>
      split
      · exact ⟨rfl, .inl rfl⟩
      · exact lineFrame_raise _ s
    case A1 => exact ⟨rfl, .inl rfl⟩
    case A2 =>
      rcases hb 0 with ⟨e, h⟩ | ⟨hd, b, c, h⟩ <;> rw [h]
      · exact lineFrame_raise _ s
      · exact ⟨rfl, .inr (.inl ⟨hd, b, rfl⟩)⟩
    case A3 =>
      rcases hb 1 with ⟨e, h⟩ | ⟨hd, b, c, h⟩ <;> rw [h]
      · exact lineFrame_raise _ s
      · exact ⟨rfl, .inr (.inl ⟨hd, b, rfl⟩)⟩
    case A4 =>
      rcases hb 2 with ⟨e, h⟩ | ⟨hd, b, c, h⟩ <;> rw [h]
      · exact lineFrame_raise _ s
      · exact ⟨rfl, .inr (.inl ⟨hd, b, rfl⟩)⟩
    case A5 =>
      rcases hb 3 with ⟨e, h⟩ | ⟨hd, b, c, h⟩ <;> rw [h]
      · exact lineFrame_raise _ s
      · exact ⟨rfl, .inr (.inl ⟨hd, b, rfl⟩)⟩
  | waitReady l => cases l <;> simp only [stepFrame, stepWaitReady] <;> (repeat' split) <;> exact ⟨rfl, .inl rfl⟩
  | enableWrite => exact ⟨rfl, .inl rfl⟩
  | diagStatus l => cases l <;> exact ⟨rfl, .inl rfl⟩
  | eraseSeq l => cases l <;> simp only [stepFrame, stepEraseSeq] <;> (repeat' split) <;> exact ⟨rfl, .inl rfl⟩

/-- A return leaves everything but the internal registers, the stack and, at the host, STATUS and the result registers. -/
theorem deliver_frame (k : List Frame) (r : Result) (s : State) :
    deliver k r s =
      { s with ctl := (deliver k r s).ctl, stack := (deliver k r s).stack, host := (deliver k r s).host } := by
  rcases deliver_cases k r s with ⟨r', h⟩ | ⟨_, _, below, self, c, _, _, _, h⟩ <;> rw [h] <;> rfl

/-! ### Who writes which internal register -/

/-- The internal registers that a sub-machine writes (10_state.md R29). -/
def ownRegs (fr : Frame) (c d : Ctl) : Ctl :=
  match fr with
  | .setSelect _ _ => { c with csAct := d.csAct }
  | .isAborted => c
  | .transfer _ _ => { c with
      xTxk := d.xTxk, xRxk := d.xRxk, xTxb := d.xTxb, xRxb := d.xRxb, xImm := d.xImm, txRem := d.txRem
      rxRem := d.rxRem, skipRem := d.skipRem, sent := d.sent, recv := d.recv, tl := d.tl, rl := d.rl, prog := d.prog
      xabort := d.xabort, xb := d.xb, stat := d.stat }
  | .issue _ _ _ => { c with dOpc := d.dOpc }
  | .issueAddr _ _ _ => { c with aw := d.aw, ai := d.ai }
  | .waitReady _ => { c with pabort := d.pabort }
  | .enableWrite => c
  | .diagStatus _ => { c with gacc := d.gacc, gi := d.gi, gabort := d.gabort }
  | .eraseSeq _ => { c with sk := d.sk, sabort := d.sabort, sfirst := d.sfirst }

theorem ownRegs_self (fr : Frame) (c : Ctl) : ownRegs fr c c = c := by cases fr <;> rfl

/-- A line writes only the internal registers of its own sub-machine. -/
theorem stepFrame_ctl (fr : Frame) (s : State) :
    (actState (stepFrame fr s)).ctl = ownRegs fr s.ctl (actState (stepFrame fr s)).ctl := by
  have hr : ∀ (e : BlockFault), (raise e s).ctl = s.ctl := by intro e; rw [raise_spec]; rfl
  cases fr with
  | setSelect l a =>
    cases l
    · rfl
    · show (applyPend s).ctl = ownRegs _ s.ctl (applyPend s).ctl
      rw [applyPend_frame]; rfl
  | isAborted => rfl
  | transfer l x =>
    cases l <;> simp only [stepFrame, stepTransfer]
    case X0 =>
      split
      · rfl
      · simp only [actState, hr]; rfl
    case X5 =>
      rcases writeDr_cases (s.ctl.xb.setWidth 32) s with ⟨_, h⟩ | ⟨hd, h⟩ <;> rw [h]
      · simp only [actState, hr]; rfl
      · rfl
    case X6 =>
      split
      · rcases readDr_cases s with ⟨_, h⟩ | ⟨b, q, hq, h⟩ <;> rw [h]
        · simp only [actState, hr]; rfl
        · simp only; split <;> rfl
      · rfl
    case X7 =>
      unfold storeXb
      cases s.ctl.xRxk with
      | none => rfl
      | stat => rfl
      | mem =>
        simp only [memWrite]
        cases admitsWrite s.params (rxAddress s.ctl) <;> rfl
    all_goals (repeat' split) <;> rfl
  | issue l o x =>
    cases l <;> simp only [stepFrame, stepIssue]
    · split
      · rfl
      · simp only [actState, hr]; rfl
    · rfl
    · rcases writeDr_cases (s.ctl.dOpc.setWidth 32) s with ⟨_, h⟩ | ⟨hd, h⟩ <;> rw [h]
      · simp only [actState, hr]; rfl
      · rfl
    · rfl
  | issueAddr l o a =>
    have hb (k : Nat) :
        (∃ e, sendAddressByte k s = .error e) ∨ ∃ s' i, sendAddressByte k s = .ok s' ∧ s'.ctl = { s.ctl with ai := i } := by
      unfold sendAddressByte
      rcases writeDr_cases ((addressByte s.ctl.aw k).setWidth 32) s with ⟨_, h⟩ | ⟨hd, h⟩ <;> rw [h]
      · exact .inl ⟨_, rfl⟩
      · exact .inr ⟨_, _, rfl, rfl⟩
    cases l <;> simp only [stepFrame, stepIssueAddr]
    case A0 =>
      split
      · rfl
      · simp only [actState, hr]; rfl
    case A1 => rfl
    case A2 => rcases hb 0 with ⟨e, h⟩ | ⟨s', i, h, hc⟩ <;> rw [h] <;> simp only [actState, *] <;> rfl
    case A3 => rcases hb 1 with ⟨e, h⟩ | ⟨s', i, h, hc⟩ <;> rw [h] <;> simp only [actState, *] <;> rfl
    case A4 => rcases hb 2 with ⟨e, h⟩ | ⟨s', i, h, hc⟩ <;> rw [h] <;> simp only [actState, *] <;> rfl
    case A5 => rcases hb 3 with ⟨e, h⟩ | ⟨s', i, h, hc⟩ <;> rw [h] <;> simp only [actState, *] <;> rfl
  | waitReady l => cases l <;> simp only [stepFrame, stepWaitReady] <;> (repeat' split) <;> rfl
  | enableWrite => rfl
  | diagStatus l => cases l <;> rfl
  | eraseSeq l => cases l <;> simp only [stepFrame, stepEraseSeq] <;> (repeat' split) <;> rfl

/-- A waiting activation that goes on writes only its own internal registers. -/
theorem resumeFrame_ctl {fr self : Frame} {r : Result} {s : State} {c : Ctl}
    (h : resumeFrame fr r s = .goto self (s.withCtl c)) : c = ownRegs fr s.ctl c := by
  have hx : ∀ {self' self : Frame} {c' c : Ctl}, Act.goto self' (s.withCtl c') = .goto self (s.withCtl c) → c = c' := by
    intro _ _ c' c h
    simp only [Act.goto.injEq] at h
    exact (congrArg State.ctl h.2).symm
  have hy : ∀ {self' self : Frame} {c : Ctl}, Act.goto self' s = .goto self (s.withCtl c) → c = s.ctl := by
    intro _ _ c h
    exact hx (c' := s.ctl) h
  cases fr with
  | setSelect l a => obtain rfl := hy h; rfl
  | isAborted => obtain rfl := hy h; rfl
  | transfer l x =>
    simp only [resumeFrame] at h; unfold resumeTransfer at h
    split at h
    · obtain rfl := hx h; rfl
    · obtain rfl := hy h; rfl
    · cases h
    · obtain rfl := hy h; rfl
  | issue l o x => cases l <;> first | (obtain rfl := hy h; rfl) | cases h
  | issueAddr l o a => cases l <;> (obtain rfl := hy h; rfl)
  | waitReady l =>
    simp only [resumeFrame] at h; unfold resumeWaitReady at h
    split at h
    · split at h
      · obtain rfl := hx h; rfl
      · obtain rfl := hy h; rfl
    · obtain rfl := hx h; rfl
    · obtain rfl := hy h; rfl
    · obtain rfl := hy h; rfl
  | enableWrite => cases h
  | diagStatus l =>
    cases l <;> simp only [resumeFrame, resumeDiagStatus] at h
    · obtain rfl := hy h; rfl
    · split at h <;> (obtain rfl := hx h; rfl)
    · split at h <;> (obtain rfl := hx h; rfl)
    · split at h <;> (obtain rfl := hx h; rfl)
    · obtain rfl := hy h; rfl
  | eraseSeq l =>
    cases l <;> simp only [resumeFrame, resumeEraseSeq] at h
    · obtain rfl := hy h; rfl
    · split at h <;> (obtain rfl := hx h; split <;> rfl)
    · obtain rfl := hy h; rfl

/-! ### TOP -/

theorem ownRegs_top (fr : Frame) (c d : Ctl) : (ownRegs fr c d).top = c.top := by cases fr <;> rfl

/-- No line writes TOP. -/
theorem stepFrame_top (fr : Frame) (s : State) : (actState (stepFrame fr s)).ctl.top = s.ctl.top := by
  rw [stepFrame_ctl, ownRegs_top]

/-- No waiting activation that goes on writes TOP. -/
theorem resumeFrame_top {fr self : Frame} {r : Result} {s : State} {c : Ctl}
    (h : resumeFrame fr r s = .goto self (s.withCtl c)) : c.top = s.ctl.top := by
  rw [resumeFrame_ctl h, ownRegs_top]

/-! ### Who writes memory, the line and FAULTED -/

/-- Only X7 writes memory or STAT; only CS2 moves the pin, and with it the trace and the peer; only CS1 and CS2 write the
chip-select state; the engine and FAULTED are the transport's and the dispatcher's; RXQ is the transport's. -/
theorem stepFrame_outside (fr : Frame) (s : State) :
    ((∀ x, fr ≠ .transfer .X7 x) →
      (actState (stepFrame fr s)).mem = s.mem ∧ (actState (stepFrame fr s)).ctl.stat = s.ctl.stat) ∧
    ((∀ l a, fr ≠ .setSelect l a) → (actState (stepFrame fr s)).cs = s.cs) ∧
    ((∀ a, fr ≠ .setSelect .CS2 a) →
      (actState (stepFrame fr s)).cs.pin = s.cs.pin ∧ (actState (stepFrame fr s)).peer = s.peer ∧
        (actState (stepFrame fr s)).trace = s.trace) ∧
    ((∀ l x, fr ≠ .transfer l x) → (actState (stepFrame fr s)).engine.rxq = s.engine.rxq) ∧
    ((∀ l x, fr ≠ .transfer l x) → (∀ l o x, fr ≠ .issue l o x) → (∀ l o a, fr ≠ .issueAddr l o a) →
      (actState (stepFrame fr s)).engine = s.engine ∧ (actState (stepFrame fr s)).faulted = s.faulted) := by
  have hb (k : Nat) :
      (∃ e, sendAddressByte k s = .error e) ∨
        ∃ t, sendAddressByte k s = .ok t ∧ t.mem = s.mem ∧ t.ctl.stat = s.ctl.stat ∧ t.cs = s.cs ∧ t.peer = s.peer ∧
          t.trace = s.trace ∧ t.engine.rxq = s.engine.rxq := by
    unfold sendAddressByte
    rcases writeDr_cases ((addressByte s.ctl.aw k).setWidth 32) s with ⟨_, h⟩ | ⟨hd, h⟩ <;> rw [h]
    · exact .inl ⟨_, rfl⟩
    · exact .inr ⟨_, rfl, rfl, rfl, rfl, rfl, rfl, rfl⟩
  cases fr with
  | setSelect l a =>
    cases l
    · simp [stepFrame, stepSetSelect, actState, writeCsctrl]
    · have e : actState (stepFrame (.setSelect .CS2 a) s) = applyPend s := rfl
      rw [e, applyPend_frame s]; simp
  | isAborted => simp [stepFrame, stepIsAborted, actState]
  | transfer l x =>
    cases l <;> simp only [stepFrame, stepTransfer]
    case X5 =>
      rcases writeDr_cases (s.ctl.xb.setWidth 32) s with ⟨_, h⟩ | ⟨hd, h⟩ <;> rw [h] <;> simp [actState]
    case X6 =>
      split
      · rcases readDr_cases s with ⟨_, h⟩ | ⟨b, q, hq, h⟩ <;> rw [h]
        · simp [actState]
        · simp only; split <;> simp [actState]
      · simp [actState]
    case X7 =>
      unfold storeXb
      cases s.ctl.xRxk with
      | none => simp [actState]
      | stat => simp [actState]
      | mem =>
        simp only [memWrite]
        cases admitsWrite s.params (rxAddress s.ctl) <;> simp [actState]
    all_goals (repeat' split) <;> simp [actState, startTransfer]
  | issue l o x =>
    cases l <;> simp only [stepFrame, stepIssue]
    case T2 =>
      rcases writeDr_cases (s.ctl.dOpc.setWidth 32) s with ⟨_, h⟩ | ⟨hd, h⟩ <;> rw [h] <;> simp [actState]
    all_goals (repeat' split) <;> simp [actState]
  | issueAddr l o a =>
    cases l <;> simp only [stepFrame, stepIssueAddr]
    case A2 => rcases hb 0 with ⟨e, h⟩ | ⟨t, h, h1, h2, h3, h4, h5, h6⟩ <;> rw [h] <;> simp [actState, *]
    case A3 => rcases hb 1 with ⟨e, h⟩ | ⟨t, h, h1, h2, h3, h4, h5, h6⟩ <;> rw [h] <;> simp [actState, *]
    case A4 => rcases hb 2 with ⟨e, h⟩ | ⟨t, h, h1, h2, h3, h4, h5, h6⟩ <;> rw [h] <;> simp [actState, *]
    case A5 => rcases hb 3 with ⟨e, h⟩ | ⟨t, h, h1, h2, h3, h4, h5, h6⟩ <;> rw [h] <;> simp [actState, *]
    all_goals (repeat' split) <;> simp [actState]
  | waitReady l => cases l <;> simp only [stepFrame, stepWaitReady] <;> (repeat' split) <;> simp [actState]
  | enableWrite => simp [stepFrame, stepEnableWrite, actState]
  | diagStatus l => cases l <;> simp [stepFrame, stepDiagStatus, actState]
  | eraseSeq l => cases l <;> simp only [stepFrame, stepEraseSeq] <;> (repeat' split) <;> simp [actState]

/-- X7: STAT changes only for the destination `stat`, memory only at the byte's own address (41_fifo_transport.md R150). -/
theorem stepFrame_store (x : XferArgs) (s : State) :
    (s.ctl.xRxk ≠ .stat → (actState (stepFrame (.transfer .X7 x) s)).ctl.stat = s.ctl.stat) ∧
    ∀ a, (s.ctl.xRxk = .mem → a ≠ rxAddress s.ctl) →
      byteAt (actState (stepFrame (.transfer .X7 x) s)).mem a = byteAt s.mem a := by
  simp only [stepFrame, stepTransfer]
  unfold storeXb
  cases h : s.ctl.xRxk with
  | none => exact ⟨fun _ => rfl, fun _ _ => rfl⟩
  | stat => exact ⟨fun h => absurd rfl h, fun _ _ => rfl⟩
  | mem =>
    simp only [memWrite]
    cases admitsWrite s.params (rxAddress s.ctl)
    · exact ⟨fun _ => rfl, fun _ _ => rfl⟩
    · exact ⟨fun _ => rfl, fun a ha => byteAt_write_other _ _ (ha trivial)⟩

/-! ### The in-flight count -/

theorem inFlight_push (s : State) (b c) : inFlight ((s.withEngine { s.engine with txq := s.engine.txq ++ [b] }).withCtl c) = inFlight s + 1 := by
  simp [inFlight]; omega
theorem inFlight_write (s : State) (b) : inFlight (s.withEngine { s.engine with txq := s.engine.txq ++ [b] }) = inFlight s + 1 := by
  simp [inFlight]; omega
theorem inFlight_pop (s : State) {b q c} (h : s.engine.rxq = b :: q) : inFlight ((s.withEngine { s.engine with rxq := q }).withCtl c) + 1 = inFlight s := by
  simp [inFlight, h]; omega

end Sys2Proof.Machine
end

