-- ==== Sys2Proof/Laws/Decode.lean ====
section
/-! SUPPORT. The bits of a command word and the fields read back from one (30_encoding.md R101). -/

namespace Sys2Proof

/-- A command word bit by bit (30_encoding.md R101). -/
theorem encodeCmd_getLsbD (op : BitVec 4) (f : CmdFields) (i : Nat) :
    (encodeCmd op f).getLsbD i =
      if i < 4 then op.getLsbD i
      else if i < 6 then f.txk.getLsbD (i - 4)
      else if i < 8 then f.rxk.getLsbD (i - 6)
      else if i < 16 then f.opc.getLsbD (i - 8)
      else if i < 24 then f.imm.getLsbD (i - 16)
      else if i = 24 then f.act
      else false := by
  unfold encodeCmd
  simp only [BitVec.getLsbD_append]
  have e1 (n : Nat) : n - 4 - 2 = n - 6 := by omega
  have e2 (n : Nat) : n - 4 - 2 - 2 = n - 8 := by omega
  have e3 (n : Nat) : n - 4 - 2 - 2 - 8 = n - 16 := by omega
  have e4 (n : Nat) : n - 4 - 2 - 2 - 8 - 8 = n - 24 := by omega
  rw [e4, e3, e2, e1]
  by_cases h0 : i < 4
  · simp [h0]
  by_cases h1 : i < 6
  · simp [h0, h1, show i - 4 < 2 by omega]
  by_cases h2 : i < 8
  · simp [h0, h1, h2, show ¬ i - 4 < 2 by omega, show i - 6 < 2 by omega]
  by_cases h3 : i < 16
  · simp [h0, h1, h2, h3, show ¬ i - 4 < 2 by omega, show ¬ i - 6 < 2 by omega, show i - 8 < 8 by omega]
  by_cases h4 : i < 24
  · simp [h0, h1, h2, h3, h4, show ¬ i - 4 < 2 by omega, show ¬ i - 6 < 2 by omega, show ¬ i - 8 < 8 by omega, show i - 16 < 8 by omega]
  by_cases h5 : i = 24
  · subst h5; simp
  · simp [h0, h1, h2, h3, h4, h5, show ¬ i - 4 < 2 by omega, show ¬ i - 6 < 2 by omega, show ¬ i - 8 < 8 by omega, show ¬ i - 16 < 8 by omega, show ¬ i - 24 < 1 by omega]

/-- OP of an encoded word. -/
theorem cmdOp_encode (op : BitVec 4) (f : CmdFields) : cmdOp (encodeCmd op f) = op := by
  apply BitVec.eq_of_getLsbD_eq
  intro i hi
  simp only [cmdOp, BitVec.getLsbD_extractLsb', encodeCmd_getLsbD]
  simp [hi]

/-- The reserved bits of an encoded word. -/
theorem cmdRsvd_encode (op : BitVec 4) (f : CmdFields) : cmdRsvd (encodeCmd op f) = 0#7 := by
  apply BitVec.eq_of_getLsbD_eq
  intro i hi
  simp only [cmdRsvd, BitVec.getLsbD_extractLsb', encodeCmd_getLsbD]
  simp [show ¬ 25 + i < 4 by omega, show ¬ 25 + i < 6 by omega, show ¬ 25 + i < 8 by omega, show ¬ 25 + i < 16 by omega,
    show ¬ 25 + i < 24 by omega, show ¬ 25 + i = 24 by omega]

/-- The five fields of an encoded word. -/
theorem cmdFields_encode (op : BitVec 4) (f : CmdFields) : cmdFields (encodeCmd op f) = f := by
  obtain ⟨txk, rxk, opc, imm, act⟩ := f
  simp only [cmdFields, CmdFields.mk.injEq]
  refine ⟨?_, ?_, ?_, ?_, ?_⟩
  · apply BitVec.eq_of_getLsbD_eq
    intro i hi
    simp only [BitVec.getLsbD_extractLsb', encodeCmd_getLsbD]
    interval_cases i <;> simp
  · apply BitVec.eq_of_getLsbD_eq
    intro i hi
    simp only [BitVec.getLsbD_extractLsb', encodeCmd_getLsbD]
    interval_cases i <;> simp
  · apply BitVec.eq_of_getLsbD_eq
    intro i hi
    simp only [BitVec.getLsbD_extractLsb', encodeCmd_getLsbD]
    interval_cases i <;> simp
  · apply BitVec.eq_of_getLsbD_eq
    intro i hi
    simp only [BitVec.getLsbD_extractLsb', encodeCmd_getLsbD]
    interval_cases i <;> simp
  · exact encodeCmd_getLsbD op _ 24

/-- A word whose reserved bits are zero is its fields put together again. -/
theorem encode_fields (v : Word) (h : cmdRsvd v = 0#7) : encodeCmd (cmdOp v) (cmdFields v) = v := by
  apply BitVec.eq_of_getLsbD_eq
  intro i hi
  have : ∀ j, j < 7 → v.getLsbD (25 + j) = false := by
    intro j hj
    have := congrArg (fun w => w.getLsbD j) h
    simpa [cmdRsvd, hj] using this
  rw [encodeCmd_getLsbD]
  by_cases h25 : i < 25
  · interval_cases i <;> simp [cmdOp, cmdFields]
  · obtain ⟨j, rfl⟩ := Nat.exists_eq_add_of_le (Nat.not_lt.mp h25)
    rw [this j (by omega)]
    simp [show ¬ 25 + j < 4 by omega, show ¬ 25 + j < 6 by omega, show ¬ 25 + j < 8 by omega, show ¬ 25 + j < 16 by omega,
    show ¬ 25 + j < 24 by omega, show ¬ 25 + j = 24 by omega]

/-- What the opcode table fixes of a command word: OP and the reserved bits. -/
theorem encodeCmd_fixed (op : BitVec 4) (f : CmdFields) : encodeCmd op f &&& 0xFE00000F#32 = op.setWidth 32 := by
  apply BitVec.eq_of_getLsbD_eq
  intro i hi
  rw [BitVec.getLsbD_and, encodeCmd_getLsbD, BitVec.getLsbD_setWidth]
  interval_cases i <;> simp

end Sys2Proof
end

