-- ==== Sys2Proof/Laws/Fairness.lean ====
section
/-! SUPPORT. Runs under a schedule, and how weak fairness makes a run reach a goal (20_memory.md R78; 45_flash_commands.md R279). -/

namespace Sys2Proof.Machine

/-! ### Runs -/

theorem runOn_succ {c : Nat → Config.Choice} {s t : State} {k : Nat} (h : runOn c s k = .next t) :
    runOn c s (k + 1) = step (chosen (c k).agent (c k).draw t) := by
  simp only [runOn, h]

/-- While the host asks for nothing every step answers a next state, and the host still asks for nothing. -/
theorem step_quiet {s : State} (h : s.hostQ = []) : ∃ t, step s = .next t ∧ t.hostQ = [] := by
  have hq : (takeChoice s).hostQ = [] := by simpa using h
  have keep : ∀ {t : State}, step s = .next t → t.hostQ = [] := by
    intro t ht
    rcases step_cases ht with ⟨_, h | h⟩ | ⟨_, h⟩ | ⟨_, h⟩ | ⟨_, h⟩ | ⟨_, h⟩ | ⟨_, h⟩ | ⟨_, h⟩
    · rw [h]; exact hq
    · rw [h]
      cases hf : (takeChoice s).faulted with
      | some f => rw [controllerStep_faulted (fun e => by rw [hf] at e; cases e)]; exact hq
      | none =>
        cases hs : (takeChoice s).stack with
        | nil => rw [controllerStep_nil hs]; exact hq
        | cons fr below =>
          have hl : (actState (stepFrame fr (takeChoice s))).hostQ = [] := by
            rw [(stepFrame_frame fr (takeChoice s)).1]; exact hq
          rcases controllerStep_cases hf hs with ⟨_, _, _, h⟩ | ⟨_, _, _, _, _, _, h⟩ | ⟨r, _, h⟩ | ⟨_, h⟩ <;> rw [h]
          · exact hl
          · exact hl
          · rw [deliver_frame]; exact hl
          · exact hl
    · rw [h]; rcases engineLoad_cases (takeChoice s) with e | ⟨_, _, _, _, e⟩ <;> rw [e] <;> exact hq
    · rcases exchangeTurn_effect (takeChoice s) with e | ⟨_, _, _, _, t', ht', he, _⟩
      · rw [e] at h; cases h; exact hq
      · rw [ht'] at h; cases h; rw [he]; exact hq
    · rw [h, applyPend_frame]; exact hq
    · rw [h]; unfold peerTickStep; split <;> exact hq
    · rw [h]; exact hq
    · simp only [hostTurn, hq, Host.Outcome.next.injEq] at h; rw [← h]; exact hq
  suffices ∃ t, step s = .next t from let ⟨t, ht⟩ := this; ⟨t, ht, keep ht⟩
  unfold step agentTurn
  generalize takeChoice s = u at hq
  cases u.now.agent
  · rcases controllerTurn_cases u with ⟨_, h⟩ | ⟨_, h⟩ <;> exact ⟨_, h⟩
  · exact ⟨_, rfl⟩
  · rcases exchangeTurn_effect u with h | ⟨_, _, _, _, t, h, _⟩ <;> exact ⟨_, h⟩
  · exact ⟨_, drainTurn_eq u⟩
  · exact ⟨_, rfl⟩
  · exact ⟨_, rfl⟩
  · exact ⟨u, by simp [hostTurn, hq]⟩

/-! ### Progress -/

/-- From step `k₀` on: where every step keeps the invariant and does not raise the measure, and the helpful agent's step, enabled
until it is taken, lowers it, a run that is fair to the helpful agents reaches the goal. -/
theorem fair_reaches {α : Type} [WellFoundedRelation α] {c : Nat → Config.Choice} {s : State} (k₀ : Nat) (inv goal : State → Prop)
    (μ : State → α) (helper : State → Config.Agent)
    (start : ∃ t, runOn c s k₀ = .next t ∧ inv t)
    (moves : ∀ k t, k₀ ≤ k → runOn c s k = .next t → inv t → ¬goal t →
      ∃ t', step (chosen (c k).agent (c k).draw t) = .next t' ∧
        (goal t' ∨ (inv t' ∧ (WellFoundedRelation.rel (μ t') (μ t) ∨
          (μ t' = μ t ∧ helper t' = helper t ∧ (c k).agent ≠ helper t)))))
    (enabled : ∀ t, inv t → ¬goal t → canMove (helper t) t)
    (fair : ∀ t, inv t → ¬goal t → fairTo (helper t) c s) :
    ∃ k t, runOn c s k = .next t ∧ goal t := by
  have main : ∀ (m : α) (k : Nat) (t : State), k₀ ≤ k → runOn c s k = .next t → inv t → μ t = m →
      ∃ k t, runOn c s k = .next t ∧ goal t := by
    have wf : WellFounded (WellFoundedRelation.rel : α → α → Prop) := WellFoundedRelation.wf
    intro m
    induction m using wf.induction with
    | _ m ih =>
      intro k t hk hr hi hm
      by_cases hg : goal t
      · exact ⟨k, t, hr, hg⟩
      obtain ⟨j, hkj, hj⟩ := fair t hi hg k
      have along : ∀ d, k + d ≤ j → (∃ k t, runOn c s k = .next t ∧ goal t) ∨
          ∃ u, runOn c s (k + d) = .next u ∧ inv u ∧ ¬goal u ∧ μ u = m ∧ helper u = helper t := by
        intro d
        induction d with
        | zero => exact fun _ => .inr ⟨t, hr, hi, hg, hm, rfl⟩
        | succ d ihd =>
          intro hd
          rcases ihd (by omega) with h | ⟨u, hu, hiu, hgu, hmu, hhu⟩
          · exact .inl h
          · obtain ⟨u', hs, h⟩ := moves (k + d) u (by omega) hu hiu hgu
            have hr' : runOn c s (k + d + 1) = .next u' := (runOn_succ hu).trans hs
            by_cases hg' : goal u'
            · exact .inl ⟨_, _, hr', hg'⟩
            rcases h with h | ⟨hi', h | ⟨hm', hh', _⟩⟩
            · exact absurd h hg'
            · rw [hmu] at h; exact .inl (ih (μ u') h (k + d + 1) u' (by omega) hr' hi' rfl)
            · exact .inr ⟨u', hr', hi', hg', hm'.trans hmu, hh'.trans hhu⟩
      rcases along (j - k) (by omega) with h | ⟨u, hu, hiu, hgu, hmu, hhu⟩
      · exact h
      · have e : k + (j - k) = j := by omega
        rw [e] at hu
        rcases hj with ha | hd
        · obtain ⟨u', hs, h⟩ := moves j u (by omega) hu hiu hgu
          have hr' : runOn c s (j + 1) = .next u' := (runOn_succ hu).trans hs
          rcases h with h | ⟨hi', h | ⟨_, _, hne⟩⟩
          · exact ⟨_, _, hr', h⟩
          · rw [hmu] at h; exact ih (μ u') h (j + 1) u' (by omega) hr' hi' rfl
          · exact absurd (ha.trans hhu.symm) hne
        · exact absurd (hhu ▸ enabled u hiu hgu) (hd u hu)
  obtain ⟨t, hr, hi⟩ := start
  exact main (μ t) k₀ t (Nat.le_refl _) hr hi rfl

end Sys2Proof.Machine
end

