-- ==== Sys2Proof/Laws/PerInstr.lean ====
section
/-! SUPPORT. One lemma per constructor: an instruction's code has the bits that its row of spec/opcode_table.json fixes. -/

namespace Sys2Proof.Laws.TableRow

/-- The `match` value of an instruction's row. -/
def tableMatch : Instr → Word
  | .setSelect _ => 0x00000001
  | .isAborted _ => 0x00000002
  | .transfer _ => 0x00000003
  | .issue _ => 0x00000004
  | .issueAddr _ => 0x00000005
  | .waitReady _ => 0x00000006
  | .enableWrite _ => 0x00000007
  | .eraseSeq _ => 0x00000008
  | .diagStatus _ => 0x00000009
  | .flashPp _ => 0x02
  | .flashRead _ => 0x03
  | .flashRdsr1 _ => 0x05
  | .flashWren _ => 0x06
  | .flashSe _ => 0x20
  | .flashRdsfdp _ => 0x5A
  | .flashRdid _ => 0x9F
  | .flashCe _ => 0xC7
  | .flashVwren _ => 0x50
  | .flashWrsr1 _ => 0x01
  | .flashWrsr2 _ => 0x31
  | .flashWrsr3 _ => 0x11
  | .flashRdsr2 _ => 0x35
  | .flashRdsr3 _ => 0x15

/-- The fixed bits of the row: OP and the reserved bits of a command word (mask 0xFE00000F), the whole first byte of a frame
(mask 0xFF). -/
def Statement (i : Instr) : Prop :=
  match encode i with
  | .cmd w => w &&& 0xFE00000F#32 = tableMatch i
  | .frame bytes => bytes.head? = some ((tableMatch i).setWidth 8)

theorem setSelect (f : CmdFields) : Statement (.setSelect f) := encodeCmd_fixed 1#4 f
theorem isAborted (f : CmdFields) : Statement (.isAborted f) := encodeCmd_fixed 2#4 f
theorem transfer (f : CmdFields) : Statement (.transfer f) := encodeCmd_fixed 3#4 f
theorem issue (f : CmdFields) : Statement (.issue f) := encodeCmd_fixed 4#4 f
theorem issueAddr (f : CmdFields) : Statement (.issueAddr f) := encodeCmd_fixed 5#4 f
theorem waitReady (f : CmdFields) : Statement (.waitReady f) := encodeCmd_fixed 6#4 f
theorem enableWrite (f : CmdFields) : Statement (.enableWrite f) := encodeCmd_fixed 7#4 f
theorem eraseSeq (f : CmdFields) : Statement (.eraseSeq f) := encodeCmd_fixed 8#4 f
theorem diagStatus (f : CmdFields) : Statement (.diagStatus f) := encodeCmd_fixed 9#4 f
theorem flashPp (rest : List Byte) : Statement (.flashPp rest) := rfl
theorem flashRead (rest : List Byte) : Statement (.flashRead rest) := rfl
theorem flashRdsr1 (rest : List Byte) : Statement (.flashRdsr1 rest) := rfl
theorem flashWren (rest : List Byte) : Statement (.flashWren rest) := rfl
theorem flashSe (rest : List Byte) : Statement (.flashSe rest) := rfl
theorem flashRdsfdp (rest : List Byte) : Statement (.flashRdsfdp rest) := rfl
theorem flashRdid (rest : List Byte) : Statement (.flashRdid rest) := rfl
theorem flashCe (rest : List Byte) : Statement (.flashCe rest) := rfl
theorem flashVwren (rest : List Byte) : Statement (.flashVwren rest) := rfl
theorem flashWrsr1 (rest : List Byte) : Statement (.flashWrsr1 rest) := rfl
theorem flashWrsr2 (rest : List Byte) : Statement (.flashWrsr2 rest) := rfl
theorem flashWrsr3 (rest : List Byte) : Statement (.flashWrsr3 rest) := rfl
theorem flashRdsr2 (rest : List Byte) : Statement (.flashRdsr2 rest) := rfl
theorem flashRdsr3 (rest : List Byte) : Statement (.flashRdsr3 rest) := rfl

end Sys2Proof.Laws.TableRow
end

