-- ==== Sys2Proof/Laws/Progress.lean ====
section
/-! SUPPORT. How far a running operation is from its end (70_reset_and_hazards.md R368): a measure that no step raises between two
polls, and that the controller, or the serial engine while it holds bytes, lowers. -/

namespace Sys2Proof.Machine

/-! ### Lines left -/

/-- Lines of TRANSFER and its callees that are left when its line `l` is next, its loop counted once. -/
def transferCost : XLabel → Nat
  | .X0 => 6 | .X1 => 5 | .X2 => 5 | .X3 => 5 | .X4 => 5 | .X5 => 5 | .X6 => 5 | .X7 => 5 | .X8 => 5 | .X9 => 4

/-- Lines of ISSUE. -/
def issueCost : TLabel → Nat
  | .T0 => 13 | .T1 => 12 | .T2 => 9 | .T3 => 8

/-- Lines of ISSUE_ADDR. -/
def issueAddrCost : ALabel → Nat
  | .A0 => 8 | .A1 => 7 | .A2 => 4 | .A3 => 3 | .A4 => 2 | .A5 => 1

/-- Lines of WAIT_READY until its next poll. -/
def waitReadyCost : WLabel → Nat
  | .W0 => 19 | .W1 => 18 | .W2 => 4 | .W3 => 3 | .W9 => 1

/-- Lines of DIAG_STATUS. -/
def diagStatusCost : MLabel → Nat
  | .M0 => 44 | .M1 => 43 | .M2 => 29 | .M3 => 15 | .M9 => 1

/-- Lines of ERASE_SEQ at row `sk`, 30 a row. -/
def eraseSeqCost (sk : BitVec 4) : QLabel → Nat
  | .Q0 => 363 | .Q1 => 2 + 30 * (12#4 - sk).toNat | .Q9 => 1

/-- The lines left of the running activation and its callees. -/
def runCost (c : Ctl) : Frame → Nat
  | .setSelect l _ => if l = .CS1 then 2 else 1
  | .isAborted => 1
  | .transfer l _ => transferCost l
  | .issue l _ _ => issueCost l
  | .issueAddr l _ _ => issueAddrCost l
  | .waitReady l => waitReadyCost l
  | .enableWrite => 15
  | .diagStatus l => diagStatusCost l
  | .eraseSeq l => eraseSeqCost c.sk l

/-- The lines left of a waiting activation once its callee returns: those of the line it goes on at. -/
def waitCost (c : Ctl) : Frame → Nat
  | .setSelect l _ => if l = .CS1 then 2 else 1
  | .isAborted => 1
  | .transfer l _ => if l = .X8 then 4 else if l = .X9 then 1 else transferCost l
  | .issue l _ _ => if l = .T1 then 9 else if l = .T3 then 1 else issueCost l
  | .issueAddr l _ _ => if l = .A1 then 4 else issueAddrCost l
  | .waitReady l => if l = .W1 then 4 else if l = .W3 then 1 else waitReadyCost l
  | .enableWrite => 1
  | .diagStatus l => if l = .M1 then 29 else if l = .M2 then 15 else if l = .M3 then 1 else diagStatusCost l
  | .eraseSeq l => if l = .Q1 then 2 + 30 * (11#4 - c.sk).toNat else eraseSeqCost c.sk l

/-- The waiting activations' lines. -/
def waitsCost (c : Ctl) (k : List Frame) : Nat := (k.map (waitCost c)).sum

/-- The lines left of the stack's activations. -/
def stackCost (c : Ctl) : List Frame → Nat
  | [] => 0
  | fr :: below => runCost c fr + waitsCost c below

/-! ### Inside a transfer's loop -/

/-- Payload and skipped bytes the transfer has yet to move. -/
def bytesLeft (c : Ctl) : Nat := c.txRem.toNat + c.skipRem.toNat + c.rxRem.toNat

/-- The serial engine's steps until every byte it holds is received. -/
def engineWork (e : Engine) : Nat := 2 * e.txq.length + e.sh.length

/-- Lines until the next byte moves, when every byte in flight is already received: at most one iteration on stale samples, then
one that enqueues or dequeues. -/
def loopLines (s : State) : List Frame → Nat
  | .transfer .X1 _ :: _ => 10
  | .transfer .X2 _ :: _ => 9 + (if transferDone s.ctl then 20 else 0)
  | .transfer .X3 _ :: _ => 8 + (if transferDone s.ctl || s.ctl.tl != 0 then 20 else 0)
  | .transfer .X4 _ :: _ =>
    7 + (if transferDone s.ctl || s.ctl.tl != 0 || s.ctl.rl.toNat != s.engine.rxq.length then 20 else 0)
  | .transfer .X5 _ :: _ => 6
  | .transfer .X6 _ :: _ => 5 + (if mayDequeue s.ctl then 0 else 20)
  | .transfer .X7 _ :: _ => 2
  | .transfer .X8 _ :: _ => 24
  | .isAborted :: .transfer .X8 _ :: _ => 23
  | _ => 0

/-- Is the controller in the loop X1 to X8 of a transfer? -/
def inLoop : List Frame → Bool
  | .transfer .X0 _ :: _ => false
  | .transfer .X9 _ :: _ => false
  | .transfer _ _ :: _ => true
  | .isAborted :: .transfer .X8 _ :: _ => true
  | _ => false

/-- How far the running operation is from its end. -/
def runMeasure (s : State) : Nat × Nat × Nat × Nat :=
  (stackCost s.ctl s.stack, bytesLeft s.ctl, engineWork s.engine,
    if engineWork s.engine = 0 then loopLines s s.stack else 0)

/-- Whose step lowers the measure: the serial engine's while a transfer's loop waits for bytes the engine holds, else the
controller's. -/
def helpfulAgent (s : State) : Config.Agent :=
  if inLoop s.stack && engineWork s.engine != 0 then
    if s.params.hold = 0 ∨ s.engine.sh ≠ [] then .engineExchange else .engineLoad
  else .controller

/-! ### The order -/

/-- The measure went down. -/
abbrev closer (t s : State) : Prop := WellFoundedRelation.rel (runMeasure t) (runMeasure s)

theorem closer_cost {s t : State} (h : stackCost t.ctl t.stack < stackCost s.ctl s.stack) : closer t s :=
  Prod.Lex.left _ _ h

theorem closer_bytes {s t : State} (h : stackCost t.ctl t.stack = stackCost s.ctl s.stack)
    (hb : bytesLeft t.ctl < bytesLeft s.ctl) : closer t s := by
  unfold closer runMeasure; rw [h]; exact Prod.Lex.right _ (Prod.Lex.left _ _ hb)

theorem closer_work {s t : State} (hc : t.ctl = s.ctl) (hs : t.stack = s.stack) (h : engineWork t.engine < engineWork s.engine) :
    closer t s := by
  unfold closer runMeasure; rw [hc, hs]; exact Prod.Lex.right _ (Prod.Lex.right _ (Prod.Lex.left _ _ h))

theorem closer_lines {s t : State} (h : stackCost t.ctl t.stack = stackCost s.ctl s.stack)
    (hb : bytesLeft t.ctl = bytesLeft s.ctl) (he : engineWork t.engine = engineWork s.engine) (h0 : engineWork s.engine = 0)
    (hl : loopLines t t.stack < loopLines s s.stack) : closer t s := by
  unfold closer runMeasure; rw [h, hb, he, if_pos h0, if_pos h0]
  exact Prod.Lex.right _ (Prod.Lex.right _ (Prod.Lex.right _ hl))

/-! ### Returns -/

theorem waitsCost_sk {c d : Ctl} (h : d.sk = c.sk) (k : List Frame) : waitsCost d k = waitsCost c k := by
  unfold waitsCost
  congr 2
  funext fr
  cases fr <;> simp only [waitCost, h]

/-- ERASE_SEQ's next row costs what was left of the rows after this one. -/
theorem rows_left (k : BitVec 4) : 12#4 - (k + 1) = 11#4 - k := by
  revert k; decide

/-- A waiting activation that goes on, its callee neither an abort sample nor a poll's, takes no more lines than it had left. -/
theorem resume_cost {fr self : Frame} {r : Result} {s : State} {c : Ctl} (h : resumeFrame fr r s = .goto self (s.withCtl c))
    (h8 : ∀ x, fr ≠ .transfer .X8 x) (h3 : fr ≠ .waitReady .W3) : runCost c self ≤ waitCost s.ctl fr := by
  have hx : ∀ {self' self : Frame} {c' c : Ctl}, Act.goto self' (s.withCtl c') = .goto self (s.withCtl c) → self = self' ∧ c = c' := by
    intro _ _ c' c h
    simp only [Act.goto.injEq] at h
    exact ⟨h.1.symm, (congrArg State.ctl h.2).symm⟩
  have hy : ∀ {self' self : Frame} {c : Ctl}, Act.goto self' s = .goto self (s.withCtl c) → self = self' ∧ c = s.ctl :=
    fun h => hx (c' := s.ctl) h
  cases fr with
  | setSelect l a => obtain ⟨rfl, rfl⟩ := hy h; exact Nat.le_refl _
  | isAborted => obtain ⟨rfl, rfl⟩ := hy h; exact Nat.le_refl _
  | transfer l x =>
    cases l <;> simp only [resumeFrame, resumeTransfer] at h
    case X8 => exact absurd rfl (h8 x)
    case X9 => cases h
    all_goals (obtain ⟨rfl, rfl⟩ := hy h; exact Nat.le_refl _)
  | issue l o x =>
    cases l <;> simp only [resumeFrame, resumeIssue] at h
    case T3 => cases h
    all_goals (obtain ⟨rfl, rfl⟩ := hy h; exact Nat.le_refl _)
  | issueAddr l o a => cases l <;> (obtain ⟨rfl, rfl⟩ := hy h; exact Nat.le_refl _)
  | waitReady l =>
    cases l <;> simp only [resumeFrame, resumeWaitReady] at h
    case W1 =>
      simp only [Act.goto.injEq] at h
      rw [← h.1]; exact Nat.le_refl _
    case W3 => exact absurd rfl h3
    all_goals (obtain ⟨rfl, rfl⟩ := hy h; exact Nat.le_refl _)
  | enableWrite => cases h
  | diagStatus l =>
    cases l <;> simp only [resumeFrame, resumeDiagStatus] at h <;> (try split at h) <;>
      (rw [← ((Act.goto.injEq ..).mp h).1]; exact Nat.le_of_ble_eq_true rfl)
  | eraseSeq l =>
    cases l <;> simp only [resumeFrame, resumeEraseSeq] at h
    case Q1 =>
      split at h
      · obtain ⟨rfl, rfl⟩ := hx h
        exact Nat.le_trans (by decide : 1 ≤ 2) (Nat.le_add_right _ _)
      · obtain ⟨rfl, rfl⟩ := hx h
        have : (if r.isAborted = true then noteAborted s.ctl else s.ctl).sk = s.ctl.sk := by split <;> rfl
        simp only [runCost, waitCost, eraseSeqCost, this, rows_left]; exact Nat.le_refl _
    all_goals (obtain ⟨rfl, rfl⟩ := hy h; exact Nat.le_refl _)

/-- ERASE_SEQ is no sub-machine's callee. -/
theorem below_eraseSeq {l : QLabel} {k : List Frame} (h : stackLegal (.eraseSeq l :: k) = true) : k = [] := by
  cases k with
  | nil => rfl
  | cons a r =>
    rw [stackLegal_cons, Bool.and_eq_true] at h
    rcases a with m | _ | ⟨m, x⟩ | ⟨m, o, x⟩ | ⟨m, o, a⟩ | m | _ | m | m <;> (try cases m) <;> cases h.1

/-- A return either ends the operation or costs no more than its callers had left. -/
theorem deliver_cost {callee : Frame} {k : List Frame} (hc : callee ≠ .isAborted) (hl : stackLegal (callee :: k) = true)
    (r : Result) (s : State) :
    (deliver k r s).stack = [] ∨ stackCost (deliver k r s).ctl (deliver k r s).stack ≤ waitsCost s.ctl k := by
  induction k generalizing callee r with
  | nil => exact .inl rfl
  | cons fr below ih =>
    rw [stackLegal_cons, Bool.and_eq_true] at hl
    have hfr : fr ≠ .isAborted := by rintro rfl; cases callee <;> cases hl.1
    have h8 : ∀ x, fr ≠ .transfer .X8 x := by
      rintro x rfl
      rcases callee with m | _ | ⟨m, x⟩ | ⟨m, o, x⟩ | ⟨m, o, a⟩ | m | _ | m | m <;>
        first | exact absurd rfl hc | cases hl.1
    have h3 : fr ≠ .waitReady .W3 := by
      rintro rfl
      rcases callee with m | _ | ⟨m, x⟩ | ⟨m, o, x⟩ | ⟨m, o, a⟩ | m | _ | m | m <;>
        first | exact absurd rfl hc | cases hl.1
    unfold deliver
    rcases resumeFrame_cases fr r s with ⟨self, c, _, h⟩ | ⟨r', h⟩
    · right
      have hr := resume_cost h h8 h3
      rw [h]
      show runCost c self + waitsCost c below ≤ waitCost s.ctl fr + waitsCost s.ctl below
      have : waitsCost c below = waitsCost s.ctl below := by
        by_cases he : ∃ l, fr = .eraseSeq l
        · obtain ⟨l, rfl⟩ := he
          rw [below_eraseSeq hl.2]; rfl
        · apply waitsCost_sk
          rw [resumeFrame_ctl h]
          cases fr <;> first | rfl | exact absurd ⟨_, rfl⟩ he
      omega
    · rw [h]
      rcases ih hfr hl.2 r' with h | h
      · exact .inl h
      · refine .inr (Nat.le_trans h ?_)
        show _ ≤ waitCost s.ctl fr + waitsCost s.ctl below
        omega

/-! ### Lines outside the loop -/

/-- What a line outside a transfer's loop does to the lines left: each lowers them, and the only halt is the entry check's. -/
def lineProgress (fr : Frame) (s : State) : Act → Prop
  | .goto self t => runCost t.ctl self < runCost s.ctl fr
  | .call self callee t => runCost t.ctl callee + waitCost t.ctl self < runCost s.ctl fr
  | .done _ _ => True
  | .halt t => ∃ n e, t.faulted = some (.entryMismatch n e)

theorem seqCall_cost (p : Params) (k : BitVec 4) (c : Ctl) : runCost c (seqCall p k) ≤ 19 := by
  unfold seqCall
  split <;> exact Nat.le_of_ble_eq_true rfl

theorem rows_call {k : BitVec 4} (h : k ≠ 12#4) : (12#4 - k).toNat = (11#4 - k).toNat + 1 := by
  revert k; decide

theorem line_progress {fr : Frame} {s : State} (hf : s.faulted = none) (hp : s.params.ok) (hl : labelFlow s fr)
    (hx : ∀ l x, fr = .transfer l x → l = .X0 ∨ l = .X9) : lineProgress fr s (stepFrame fr s) := by
  have hlt : ∀ {a b : Nat}, Nat.ble (a + 1) b = true → a < b := fun h => Nat.le_of_ble_eq_true h
  have hmis : ∀ n e, (raise (.entryMismatch n e) s).faulted = some (.entryMismatch n e) := by
    intro n e; rw [raise_of_none hf]; rfl
  have hdr : ∀ (n : Nat) (v : Word), n < 4 → inFlight s = n →
      writeDr v s = .ok (s.withEngine { s.engine with txq := s.engine.txq ++ [v.setWidth 8] }) := by
    intro n v hn hi
    rcases writeDr_cases v s with ⟨hd, _⟩ | ⟨_, h⟩
    · have := hp.1; unfold inFlight at hi; omega
    · exact h
  cases fr with
  | setSelect l a => cases l <;> first | exact hlt rfl | trivial
  | isAborted => trivial
  | transfer l x =>
    rcases hx l x rfl with rfl | rfl
    · simp only [stepFrame, stepTransfer]
      split
      · exact hlt rfl
      · exact ⟨_, _, hmis _ _⟩
    · exact hlt rfl
  | issue l o x =>
    cases l
    · simp only [stepFrame, stepIssue]
      split
      · exact hlt rfl
      · exact ⟨_, _, hmis _ _⟩
    · exact hlt rfl
    · simp only [stepFrame, stepIssue]
      rw [hdr 0 _ (by decide) hl]; exact hlt rfl
    · exact hlt rfl
  | issueAddr l o a =>
    cases l <;> simp only [stepFrame, stepIssueAddr, sendAddressByte]
    case A0 =>
      split
      · exact hlt rfl
      · exact ⟨_, _, hmis _ _⟩
    case A1 => exact hlt rfl
    case A2 => rw [hdr 0 _ (by decide) hl]; exact hlt rfl
    case A3 => rw [hdr 1 _ (by decide) hl]; exact hlt rfl
    case A4 => rw [hdr 2 _ (by decide) hl]; exact hlt rfl
    case A5 => rw [hdr 3 _ (by decide) hl]; trivial
  | waitReady l =>
    cases l <;> simp only [stepFrame, stepWaitReady]
    case W2 => split <;> exact hlt rfl
    case W9 => trivial
    all_goals exact hlt rfl
  | enableWrite => exact hlt rfl
  | diagStatus l => cases l <;> first | exact hlt rfl | trivial
  | eraseSeq l =>
    cases l <;> simp only [stepFrame, stepEraseSeq]
    case Q0 => exact (by decide : eraseSeqCost 0 .Q1 < 363)
    case Q1 =>
      split
      · exact Nat.lt_of_lt_of_le (by decide : 1 < 2) (Nat.le_add_right _ _)
      · rename_i hk
        have := seqCall_cost s.params s.ctl.sk s.ctl
        have := rows_call hk
        show runCost s.ctl (seqCall s.params s.ctl.sk) + (2 + 30 * (11#4 - s.ctl.sk).toNat) < 2 + 30 * (12#4 - s.ctl.sk).toNat
        omega
    case Q9 => trivial

/-- A line outside a transfer's loop brings the operation nearer its end, ends it, or fails an entry check. -/
theorem controller_outside {s : State} {fr : Frame} {below : List Frame} (hf : s.faulted = none) (hs : s.stack = fr :: below)
    (hfl : flowOk s) (hx : ∀ l x, fr = .transfer l x → l = .X0 ∨ l = .X9) (ha : fr ≠ .isAborted) :
    (controllerStep s).stack = [] ∨ (∃ n e, (controllerStep s).faulted = some (.entryMismatch n e)) ∨
      closer (controllerStep s) s := by
  have hleg : stackLegal (fr :: below) = true := hs ▸ hfl.2.2.2.2.1
  have hp := line_progress hf hfl.1 (hfl.2.2.2.2.2 hf fr (by rw [hs]; simp)) hx
  have hw : waitsCost (actState (stepFrame fr s)).ctl below = waitsCost s.ctl below := by
    by_cases he : ∃ l, fr = .eraseSeq l
    · obtain ⟨l, rfl⟩ := he
      rw [below_eraseSeq hleg]; rfl
    · apply waitsCost_sk
      rw [stepFrame_ctl]
      cases fr <;> first | rfl | exact absurd ⟨_, rfl⟩ he
  have hc : stackCost s.ctl s.stack = runCost s.ctl fr + waitsCost s.ctl below := by rw [hs]; rfl
  rcases controllerStep_cases hf hs with ⟨self, _, h1, h⟩ | ⟨self, callee, _, _, _, h1, h⟩ | ⟨r, h1, h⟩ | ⟨h1, h⟩ <;>
    rw [h] <;> rw [h1] at hp
  · right; right
    refine closer_cost ?_
    show runCost _ self + waitsCost (actState (stepFrame fr s)).ctl below < _
    rw [hc, hw]; exact Nat.add_lt_add_right hp _
  · right; right
    refine closer_cost ?_
    show runCost _ callee + (waitCost _ self + waitsCost (actState (stepFrame fr s)).ctl below) < _
    rw [hc, hw, ← Nat.add_assoc]; exact Nat.add_lt_add_right hp _
  · rcases deliver_cost ha hleg r (actState (stepFrame fr s)) with h | h
    · exact .inl h
    · right; right
      refine closer_cost (Nat.lt_of_le_of_lt h ?_)
      rw [hw, hc]
      have : 0 < runCost s.ctl fr := by
        rcases fr with l | _ | ⟨l, x⟩ | ⟨l, o, x⟩ | ⟨l, o, a⟩ | l | _ | l | l <;> (try cases l) <;>
          first | exact Nat.le_of_ble_eq_true rfl | exact Nat.lt_of_lt_of_le (by decide : 0 < 2) (Nat.le_add_right _ _)
      omega
  · exact .inr (.inl hp)

/-! ### Lines of the loop -/

/-- What a line of a transfer's loop can do to the measure: lower it, or, while the engine holds bytes, leave it. -/
def loopProgress (s t : State) : Prop :=
  closer t s ∨
    (engineWork s.engine ≠ 0 ∧ runMeasure t = runMeasure s ∧ inLoop t.stack = true ∧ engineWork t.engine = engineWork s.engine ∧
      t.engine.sh = s.engine.sh ∧ t.params = s.params)

theorem loop_same {s t : State} (hc : stackCost t.ctl t.stack = stackCost s.ctl s.stack) (hb : bytesLeft t.ctl = bytesLeft s.ctl)
    (he : t.engine.txq = s.engine.txq ∧ t.engine.sh = s.engine.sh) (hp : t.params = s.params) (hi : inLoop t.stack = true)
    (hl : engineWork s.engine = 0 → loopLines t t.stack < loopLines s s.stack) : loopProgress s t := by
  have hw : engineWork t.engine = engineWork s.engine := by unfold engineWork; rw [he.1, he.2]
  by_cases h0 : engineWork s.engine = 0
  · exact .inl (closer_lines hc hb hw h0 (hl h0))
  · refine .inr ⟨h0, ?_, hi, hw, he.2, hp⟩
    unfold runMeasure
    rw [hc, hb, hw, if_neg h0, if_neg h0]

theorem pred_toNat {c : Word} (h : c ≠ 0) : (c - 1).toNat + 1 = c.toNat := by
  have h0 : c.toNat ≠ 0 := fun e => h (BitVec.eq_of_toNat_eq (by simpa using e))
  have := c.isLt
  rw [BitVec.toNat_sub]; simp; omega

/-- With every byte in flight received and both levels sampled since, an iteration that has bytes to move may enqueue or dequeue:
no byte in flight means none is owed beyond those to be sent (70_reset_and_hazards.md R368). -/
theorem fresh_moves {s : State} {x : XferArgs} (hp : s.params.ok) (h : transferAccounts s .X4 x) (h0 : engineWork s.engine = 0)
    (hd : transferDone s.ctl = false) (htl : s.ctl.tl = 0) (hrl : s.ctl.rl.toNat = s.engine.rxq.length)
    (hn : mayEnqueue s.params s.ctl = false) : mayDequeue s.ctl = true := by
  rcases h with h | ⟨a, b, c, _, _, f⟩
  · cases h
  have hif : inFlight s = s.engine.rxq.length := by
    unfold engineWork at h0; unfold inFlight; omega
  simp only [inTransit] at c
  simp only [mayEnqueue, htl, Bool.and_eq_false_iff, decide_eq_false_iff_not, bne_eq_false_iff_eq] at hn
  simp only [transferDone, Bool.and_eq_false_iff, beq_eq_false_iff_ne] at hd
  have hz : ∀ c : Word, c.toNat = 0 → c = 0 := fun c h => BitVec.eq_of_toNat_eq (by simpa using h)
  simp only [mayDequeue, Bool.and_eq_true, Bool.or_eq_true, bne_iff_ne]
  have h4 := hp.1
  constructor
  · intro hr
    have hr0 : s.ctl.rl.toNat = 0 := by rw [hr]; rfl
    rcases hn with hn | hn
    · have hs0 : s.ctl.skipRem = 0 := by
        by_contra hs
        have h1 : s.ctl.recv = 0 := f hs
        have h2 : s.ctl.skipRem.toNat ≠ 0 := fun e => hs (hz _ e)
        have h3 : s.ctl.recv.toNat = 0 := by rw [h1]; rfl
        omega
      have hn0 : s.ctl.txRem.toNat = 0 := by rw [hn]; rfl
      have hs1 : s.ctl.skipRem.toNat = 0 := by rw [hs0]; rfl
      have hr1 : s.ctl.rxRem = 0 := hz _ (by omega)
      rcases hd with (hd | hd) | hd
      · exact hd hn
      · exact hd hs0
      · exact hd hr1
    · simp at hn; omega
  · by_contra hc
    simp only [not_or, not_not] at hc
    have h1 : s.ctl.skipRem.toNat = 0 := by rw [hc.1]; rfl
    have h2 : s.ctl.rxRem.toNat = 0 := by rw [hc.2]; rfl
    rcases hd with (hd | hd) | hd
    · have h3 : s.ctl.txRem.toNat ≠ 0 := fun e => hd (hz _ e)
      omega
    · exact hd hc.1
    · exact hd hc.2

/-- A line of a transfer's loop, no buffer access refused. -/
theorem controller_loop {s : State} {l : XLabel} {x : XferArgs} {below : List Frame} (hf : s.faulted = none)
    (hs : s.stack = .transfer l x :: below) (hfl : flowOk s) (hac : accountsOk s) (hm : ¬memoryRefuses s) (h0 : l ≠ .X0)
    (h9 : l ≠ .X9) : loopProgress s (controllerStep s) := by
  obtain ⟨hflow, hlev⟩ : labelFlow s (.transfer l x) := hfl.2.2.2.2.2 hf _ (by rw [hs]; simp)
  have hacc : transferAccounts s l x := hac hf l x (by rw [hs]; simp)
  have hcost : stackCost s.ctl s.stack = 5 + waitsCost s.ctl below := by
    rw [hs]; cases l <;> first | rfl | contradiction
  have hstep := controllerStep_cons hf hs
  cases l
  case X0 => contradiction
  case X9 => contradiction
  case X1 =>
    rw [hstep]; simp only [stepFrame, stepTransfer]
    by_cases hd : transferDone s.ctl = true
    · rw [if_pos hd]
      refine .inl (closer_cost ?_)
      rw [hcost]; show 4 + _ < _; exact Nat.add_lt_add_right (by decide) _
    · rw [if_neg hd]
      refine loop_same hcost.symm rfl ⟨rfl, rfl⟩ rfl rfl (fun _ => ?_)
      rw [hs]; simp [loopLines, hd]
  case X2 =>
    rw [hstep]; simp only [stepFrame, stepTransfer]
    refine loop_same hcost.symm rfl ⟨rfl, rfl⟩ rfl rfl (fun h => ?_)
    have ht : s.engine.txq = [] := by
      unfold engineWork at h; exact List.length_eq_zero_iff.mp (by omega)
    have : transferDone (s.withCtl { s.ctl with tl := (readTxflr s).setWidth Config.levelWidth }).ctl = transferDone s.ctl := rfl
    rw [hs]; simp only [State.withStack_stack, loopLines, State.withStack_ctl, this]
    simp [readTxflr, ht]
  case X3 =>
    rw [hstep]; simp only [stepFrame, stepTransfer]
    refine loop_same hcost.symm rfl ⟨rfl, rfl⟩ rfl rfl (fun h => ?_)
    have hlen : s.engine.rxq.length < 256 := by
      have := hfl.2.1; have := hfl.1.2.1; unfold inFlight at *; omega
    have : transferDone
        (s.withCtl { s.ctl with rl := (readRxflr s).setWidth Config.levelWidth, prog := false }).ctl = transferDone s.ctl := rfl
    rw [hs]; simp only [State.withStack_stack, loopLines, State.withStack_ctl, this]
    have hr : ((readRxflr s).setWidth Config.levelWidth).toNat = s.engine.rxq.length := by
      simp only [readRxflr, BitVec.toNat_setWidth, BitVec.toNat_ofNat, Config.levelWidth]; omega
    simp [hr]
  case X4 =>
    rw [hstep]; simp only [stepFrame, stepTransfer]
    by_cases he : mayEnqueue s.params s.ctl = true
    · rw [if_pos he]
      have : ∃ b, txByte s = some b := by
        unfold txByte
        cases hk : s.ctl.xTxk with
        | none => exact ⟨_, rfl⟩
        | imm => exact ⟨_, rfl⟩
        | mem =>
          cases ha : admitsRead s.params (txAddress s.ctl) with
          | false => exact absurd ⟨x, below, .inl ⟨hs, he, hk, ha⟩⟩ hm
          | true => exact ⟨_, by simp [memRead, ha]; rfl⟩
      obtain ⟨b, hb⟩ := this
      rw [hb]
      refine loop_same hcost.symm rfl ⟨rfl, rfl⟩ rfl rfl (fun _ => ?_)
      rw [hs]; simp only [State.withStack_stack, loopLines]; omega
    · rw [if_neg he]
      refine loop_same hcost.symm rfl ⟨rfl, rfl⟩ rfl rfl (fun h => ?_)
      rw [hs]; show 5 + (if mayDequeue s.ctl = true then 0 else 20) < 7 + (if _ then 20 else 0)
      by_cases hst : transferDone s.ctl || s.ctl.tl != 0 || s.ctl.rl.toNat != s.engine.rxq.length
      · rw [if_pos hst]; split <;> omega
      · have hst' := hst
        simp only [Bool.or_eq_true, not_or, bne_iff_ne, not_not, Bool.not_eq_true] at hst'
        rw [if_neg hst, if_pos (fresh_moves hfl.1 hacc h hst'.1.1 hst'.1.2 hst'.2 (Bool.not_eq_true _ ▸ he))]
        omega
  case X5 =>
    have hq : s.engine.txq.length ≠ s.params.depth := by
      have h := hlev.1; have := hfl.1.2.2; unfold inFlight at h; omega
    have hw : writeDr (s.ctl.xb.setWidth 32) s =
        .ok (s.withEngine { s.engine with txq := s.engine.txq ++ [(s.ctl.xb.setWidth 32).setWidth 8] }) := by
      rcases writeDr_cases (s.ctl.xb.setWidth 32) s with ⟨h, _⟩ | ⟨_, h⟩
      · exact absurd h hq
      · exact h
    rw [hstep]; simp only [stepFrame, stepTransfer, hw]
    refine .inl (closer_bytes hcost.symm ?_)
    rcases hacc with h | ⟨_, _, _, h, _, _⟩
    · cases h
    have := pred_toNat (h rfl)
    simp only [State.withStack_ctl, State.withCtl_ctl, State.withEngine_ctl, bytesLeft]
    omega
  case X6 =>
    rw [hstep]; simp only [stepFrame, stepTransfer]
    by_cases hd : mayDequeue s.ctl = true
    · rw [if_pos hd]
      rcases readDr_cases s with ⟨hq, _⟩ | ⟨b, q, hq, hr⟩
      · exfalso
        simp only [mayDequeue, Bool.and_eq_true, bne_iff_ne] at hd
        have h1 : s.ctl.rl.toNat ≤ 0 := by simpa [levelFlow, hq] using hlev
        exact hd.1 (BitVec.eq_of_toNat_eq (by simpa using h1))
      · rw [hr]
        by_cases hk : s.ctl.skipRem = 0
        · have hk' : ((s.withEngine { s.engine with rxq := q }).ctl.skipRem != 0) = false := by simp [hk]
          simp only [hk', Bool.false_eq_true, if_false]
          refine loop_same hcost.symm rfl ⟨rfl, rfl⟩ rfl rfl (fun _ => ?_)
          rw [hs]; exact Nat.lt_of_lt_of_le (by decide : 2 < 5) (Nat.le_add_right _ _)
        · have hk' : ((s.withEngine { s.engine with rxq := q }).ctl.skipRem != 0) = true := bne_iff_ne.mpr hk
          simp only [hk', if_true]
          refine .inl (closer_bytes hcost.symm ?_)
          have := pred_toNat hk
          simp only [State.withStack_ctl, State.withCtl_ctl, State.withEngine_ctl, bytesLeft]
          omega
    · rw [if_neg hd]
      refine loop_same hcost.symm rfl ⟨rfl, rfl⟩ rfl rfl (fun _ => ?_)
      rw [hs]; simp only [State.withStack_stack, loopLines, if_neg hd]; omega
  case X7 =>
    rcases hacc with h | ⟨_, _, _, _, h, _⟩
    · cases h
    have hpred := pred_toNat (h rfl).1
    have : ∃ u, storeXb s = some u ∧ bytesLeft u.ctl = bytesLeft s.ctl ∧ u.ctl.rxRem = s.ctl.rxRem ∧ u.ctl.sk = s.ctl.sk := by
      unfold storeXb
      cases hk : s.ctl.xRxk with
      | none => exact ⟨_, rfl, rfl, rfl, rfl⟩
      | stat => exact ⟨_, rfl, rfl, rfl, rfl⟩
      | mem =>
        cases ha : admitsWrite s.params (rxAddress s.ctl) with
        | false => exact absurd ⟨x, below, .inr ⟨hs, hk, ha⟩⟩ hm
        | true => exact
          ⟨s.withMem (cellsWrite Config.memUnlisted s.mem (rxAddress s.ctl).toNat s.ctl.xb),
            by simp only [memWrite, ha, if_true], rfl, rfl, rfl⟩
    obtain ⟨u, hu, hub, hur, husk⟩ := this
    rw [hstep]; simp only [stepFrame, stepTransfer, hu]
    refine .inl (closer_bytes ?_ ?_)
    · rw [hcost]
      show 5 + waitsCost (countReceived u.ctl) below = _
      rw [waitsCost_sk (show (countReceived u.ctl).sk = s.ctl.sk from husk)]
    · rw [← hub]
      have : (u.ctl.rxRem - 1).toNat + 1 = u.ctl.rxRem.toNat := by rw [hur]; exact hpred
      simp only [State.withStack_ctl, State.withCtl_ctl, countReceived, bytesLeft]
      omega
  case X8 =>
    rw [hstep]; simp only [stepFrame, stepTransfer]
    by_cases hp : s.ctl.prog = true
    · rw [if_pos hp]
      refine loop_same hcost.symm rfl ⟨rfl, rfl⟩ rfl rfl (fun _ => ?_)
      rw [hs]; simp only [State.withStack_stack, loopLines]; omega
    · rw [if_neg hp]
      refine loop_same ?_ rfl ⟨rfl, rfl⟩ rfl rfl (fun _ => ?_)
      · rw [hcost]; show 1 + (4 + waitsCost s.ctl below) = _; omega
      · rw [hs]; simp only [State.withStack_stack, loopLines]; omega

end Sys2Proof.Machine
end

