-- ==== Sys2Proof/Laws/Running.lean ====
section
/-! SUPPORT. A running operation under any agent's step: the faults its lines can enter, and that each step ends it, brings it nearer
its end, or leaves the agent that can do so enabled (70_reset_and_hazards.md R368; 60_exceptions.md R310, R311). -/

namespace Sys2Proof.Machine

/-- FAULTED holds nothing, one of the three faults that flow control rules out, or EntryMismatch. -/
def flowOrEntryFault (t : State) : Prop := ∀ f, t.faulted = some f → isFifoFault f = true ∨ ∃ n e, f = .entryMismatch n e

theorem flowOrEntryFault_none {t : State} (h : t.faulted = none) : flowOrEntryFault t := fun f h' => by rw [h] at h'; cases h'

theorem flowOrEntryFault_raise {s : State} {f} (hf : s.faulted = none)
    (h : isFifoFault f = true ∨ ∃ n e, f = .entryMismatch n e) :
    flowOrEntryFault (raise f s) := by
  rw [raise_of_none hf]; intro g hg
  cases hg; exact h

theorem applyPend_faulted (s) : (applyPend s).faulted = s.faulted := by rw [applyPend_frame]

/-- What a line of an unfaulted block can raise: the decode faults of R311 belong to the CMD write. -/
theorem line_faults (fr : Frame) {s : State} (hf : s.faulted = none) : flowOrEntryFault (actState (stepFrame fr s)) := by
  have hm : ∀ n e, flowOrEntryFault (raise (.entryMismatch n e) s) := fun n e => flowOrEntryFault_raise hf (.inr ⟨_, _, rfl⟩)
  have hn := flowOrEntryFault_none hf
  have hw : ∀ v, (∃ b, writeDr v s = .error (.txOverflow b)) ∨ ∃ e, writeDr v s = .ok (s.withEngine e) := by
    intro v; rcases writeDr_cases v s with ⟨_, h⟩ | ⟨_, h⟩
    · exact .inl ⟨_, h⟩
    · exact .inr ⟨_, h⟩
  have hr : readDr s = .error .rxUnderflow ∨ ∃ w e, readDr s = .ok (w, s.withEngine e) := by
    rcases readDr_cases s with ⟨_, h⟩ | ⟨_, _, _, h⟩
    · exact .inl h
    · exact .inr ⟨_, _, h⟩
  have ho : ∀ b, flowOrEntryFault (raise (.txOverflow b) s) := fun b => flowOrEntryFault_raise hf (.inl rfl)
  have hu : flowOrEntryFault (raise .rxUnderflow s) := flowOrEntryFault_raise hf (.inl rfl)
  have ap : flowOrEntryFault (applyPend s) := flowOrEntryFault_none (by rw [applyPend_faulted]; exact hf)
  cases fr with
  | setSelect l a => cases l <;> first | exact hn | exact ap
  | isAborted => exact hn
  | transfer l x =>
    cases l <;> simp only [stepFrame, stepTransfer]
    case X0 => split <;> first | exact hn | exact hm _ _
    case X4 => 
      split
      · split <;> exact hn
      · exact hn
    case X5 =>
      rcases hw (s.ctl.xb.setWidth 32) with ⟨b, h⟩ | ⟨e, h⟩ <;> rw [h]
      · exact ho b
      · exact flowOrEntryFault_none hf
    case X6 =>
      split
      · rcases hr with h | ⟨w, e, h⟩ <;> rw [h]
        · exact hu
        · simp only []; split <;> exact flowOrEntryFault_none hf
      · exact hn
    case X7 =>
      cases h : storeXb s with
      | none => exact hn
      | some u =>
        have : u.faulted = none := by
          unfold storeXb memWrite at h
          split at h
          · split at h <;> (cases h; try exact hf)
          · cases h; exact hf
          · cases h; exact hf
        exact flowOrEntryFault_none this
    all_goals (try split) <;> exact hn
  | issue l o x =>
    cases l <;> simp only [stepFrame, stepIssue]
    case T0 => split <;> first | exact hn | exact hm _ _
    case T2 =>
      rcases hw (s.ctl.dOpc.setWidth 32) with ⟨b, h⟩ | ⟨e, h⟩ <;> rw [h]
      · exact ho b
      · exact flowOrEntryFault_none hf
    all_goals exact hn
  | issueAddr l o a =>
    cases l <;> simp only [stepFrame, stepIssueAddr, sendAddressByte]
    case A0 => split <;> first | exact hn | exact hm _ _
    case A1 => exact hn
    all_goals
      split
      · rename_i w e h
        rcases writeDr_cases _ s with ⟨_, h'⟩ | ⟨_, h'⟩ <;> rw [h'] at h <;> cases h
        first | exact ho _ | exact flowOrEntryFault_none hf
      · rename_i w h
        rcases writeDr_cases _ s with ⟨_, h'⟩ | ⟨_, h'⟩ <;> rw [h'] at h <;> cases h
        exact ho _
  | waitReady l =>
    cases l <;> simp only [stepFrame, stepWaitReady] <;> (try split) <;> exact flowOrEntryFault_none hf
  | enableWrite => exact hn
  | diagStatus l => cases l <;> exact flowOrEntryFault_none hf
  | eraseSeq l =>
    cases l <;> simp only [stepFrame, stepEraseSeq] <;> (try split) <;> exact flowOrEntryFault_none hf

/-- A host operation runs unfaulted, the host asks for nothing, and the invariants hold. -/
structure Running (t : State) : Prop where
  flow : flowOk t
  acc : accountsOk t
  ctl : controlOk t
  unf : t.faulted = none
  busy : t.host.busy = true
  quiet : t.hostQ = []

/-- It returned unfaulted, faulted at an entry check, or is at a refused buffer access. -/
def Returned (t : State) : Prop :=
  (t.host.busy = false ∧ t.faulted = none) ∨ (∃ n e, t.faulted = some (.entryMismatch n e)) ∨ memoryRefuses t

theorem deliver_faulted (k r s) : (deliver k r s).faulted = s.faulted := by rw [deliver_frame]

theorem running_stack {s : State} (h : controlOk s) (hb : s.host.busy = true) : s.stack ≠ [] := by
  intro e; have := h.2.1; rw [e, hb] at this; cases this

theorem running_instr {s : State} (h : controlOk s) (hb : s.host.busy = true) : (runningInstr s).isSome = true := by
  have hne := running_stack h hb
  unfold runningInstr
  rw [if_pos hb]
  have := h.2.2
  cases hl : s.stack.getLast? with
  | none => rw [List.getLast?_eq_none_iff] at hl; exact absurd hl hne
  | some fr =>
    rw [hl] at this
    simp only at this
    rw [this]
    cases fr <;> rfl

/-- The measure depends on the controller's and the engine's state alone. -/
theorem runMeasure_same {s t : State} (hc : t.ctl = s.ctl) (hs : t.stack = s.stack) (he : t.engine = s.engine)
    (hp : t.params = s.params) :
    runMeasure t = runMeasure s ∧ helpfulAgent t = helpfulAgent s := by
  have hl : loopLines t s.stack = loopLines s s.stack := by
    unfold loopLines; simp only [hc, he]
  unfold runMeasure helpfulAgent
  rw [hc, hs, he, hl, hp]; exact ⟨rfl, rfl⟩

/-- A controller step that does not start another poll: the operation is over, or the measure went down, or it stayed while the
controller waits for the engine. -/
theorem controller_progress {u : State} (hi : Running u) (hg : ¬Returned u) (hpoll : ¬pollsAgain u)
    (hct : controlOk (controllerStep u)) (hflt : flowOk (controllerStep u)) :
    Returned (controllerStep u) ∨ ((controllerStep u).host.busy = true ∧ (controllerStep u).faulted = none ∧
      (closer (controllerStep u) u ∨
        (runMeasure (controllerStep u) = runMeasure u ∧ helpfulAgent (controllerStep u) = helpfulAgent u ∧
          helpfulAgent u ≠ .controller))) := by
  have hne := running_stack hi.ctl hi.busy
  obtain ⟨fr, below, hs⟩ := List.exists_cons_of_ne_nil hne
  have hlf : flowOrEntryFault (controllerStep u) := by
    have := line_faults fr hi.unf
    rcases controllerStep_cases hi.unf hs with ⟨_, _, _, h⟩ | ⟨_, _, _, _, _, _, h⟩ | ⟨r, _, h⟩ | ⟨_, h⟩ <;> rw [h]
    · exact this
    · exact this
    · intro f hf; rw [deliver_faulted] at hf; exact this f hf
    · exact this
  cases hf : (controllerStep u).faulted with
  | some f =>
    left; right; left
    rcases hlf f hf with h | ⟨n, e, rfl⟩
    · have := hflt.2.2.2.1 f hf; rw [h] at this; cases this
    · exact ⟨n, e, hf⟩
  | none =>
    by_cases hst : (controllerStep u).stack = []
    · left; left; refine ⟨?_, hf⟩
      rw [hct.2.1, hst]; rfl
    · right
      have hb : (controllerStep u).host.busy = true := by
        rw [hct.2.1]; cases h : (controllerStep u).stack with
        | nil => exact absurd h hst
        | cons a b => rfl
      refine ⟨hb, rfl, ?_⟩
      have hm : ¬memoryRefuses u := fun h => hg (.inr (.inr h))
      by_cases hx : ∀ l x, fr = .transfer l x → l = .X0 ∨ l = .X9
      · by_cases ha : fr = .isAborted
        · subst ha
          have hstep := controllerStep_cons hi.unf hs
          have hleg := hi.flow.2.2.2.2.1
          rw [hs] at hleg
          simp only [stepFrame, stepIsAborted] at hstep
          cases below with
          | nil => exfalso; apply hst; rw [hstep]; rfl
          | cons a k =>
            rw [stackLegal_cons, Bool.and_eq_true] at hleg
            rcases a with m | _ | ⟨m, x⟩ | ⟨m, o, x⟩ | ⟨m, o, a⟩ | m | _ | m | m
            case transfer =>
              cases m
              case X8 =>
                cases hb : abortTest u.params (readAbortreg u) with
                | true =>
                  rw [hb] at hstep
                  left; apply closer_cost
                  rw [hstep, hs]
                  show 4 + waitsCost u.ctl k < 1 + (4 + waitsCost u.ctl k)
                  omega
                | false =>
                  rw [hb] at hstep
                  have e1 : stackCost (controllerStep u).ctl (controllerStep u).stack = stackCost u.ctl u.stack := by
                    rw [hstep, hs]
                    show 5 + waitsCost u.ctl k = 1 + (4 + waitsCost u.ctl k)
                    omega
                  have hloop : loopProgress u (controllerStep u) := by
                    refine loop_same e1 ?_ ?_ ?_ ?_ ?_
                    · rw [hstep]; rfl
                    · rw [hstep]; exact ⟨rfl, rfl⟩
                    · rw [hstep]; rfl
                    · rw [hstep]; rfl
                    · intro _; rw [hstep, hs]; exact (by decide : 10 < 23)
                  rcases hloop with h | ⟨h1, h2, h3, h4, h5, h6⟩
                  · exact .inl h
                  · right
                    have hin : inLoop u.stack = true := by rw [hs]; rfl
                    refine ⟨h2, ?_, ?_⟩
                    · unfold helpfulAgent; rw [h3, hin, h4, h5, h6]
                    · unfold helpfulAgent; rw [hin]; simp only [Bool.true_and, bne_iff_ne]; rw [if_pos h1]; split <;> simp
              all_goals (cases hleg.1)
            case waitReady =>
              cases m
              case W3 =>
                cases hb : abortTest u.params (readAbortreg u) with
                | true =>
                  rw [hb] at hstep
                  left; apply closer_cost
                  rw [hstep, hs]
                  have e : waitsCost (deliver (.waitReady .W3 :: k) (.sampled true) u).ctl k = waitsCost u.ctl k :=
                    waitsCost_sk rfl k
                  show 1 + waitsCost (deliver (.waitReady .W3 :: k) (.sampled true) u).ctl k < 1 + (1 + waitsCost u.ctl k)
                  rw [e]; omega
                | false =>
                  exfalso; apply hpoll
                  refine ⟨hi.unf, ⟨k, hs⟩, ?_⟩
                  simpa [abortTest, readAbortreg] using hb
              all_goals (cases hleg.1)
            all_goals (try cases m) <;> cases hleg.1
        · rcases controller_outside hi.unf hs hi.flow hx ha with h | ⟨n, e, h⟩ | h
          · exact absurd h hst
          · rw [hf] at h; cases h
          · exact .inl h
      · push Not at hx
        obtain ⟨l, x, rfl, h0, h9⟩ := hx
        rcases controller_loop hi.unf hs hi.flow hi.acc hm h0 h9 with h | ⟨h1, h2, h3, h4, h5, h6⟩
        · exact .inl h
        · right
          have hin : inLoop u.stack = true := by rw [hs]; cases l <;> first | rfl | contradiction
          refine ⟨h2, ?_, ?_⟩
          · unfold helpfulAgent; rw [h3, hin, h4, h5, h6]
          · unfold helpfulAgent; rw [hin]; simp only [Bool.true_and, bne_iff_ne]; rw [if_pos h1]; split <;> simp


/-- The exchange of a byte the engine has ends in its answer's way into RXQ. -/
theorem exchange_taken {s v : State} {m} (h : engineTake s = some (m, v)) :
    ∃ e u, exchangeTurn s = .next (engineReceive e u) ∧ u = { v with trace := u.trace, peer := u.peer } := by
  rcases exchangeTurn_cases s with ⟨h', _⟩ | ⟨m', v', h', h2 | ⟨p, miso, _, _, h2⟩⟩
  · rw [h] at h'; cases h'
  · rw [h] at h'; cases h'; unfold exchangeDrawn at h2
    refine ⟨_, _, h2, ?_⟩
    split <;> rfl
  · rw [h] at h'; cases h'; unfold exchangeAnswered at h2
    exact ⟨_, _, h2, rfl⟩

theorem canMove_exchange {s : State} : canMove .engineExchange s ↔ ∃ m v, engineTake s = some (m, v) := by
  unfold canMove engineTake
  simp only []
  by_cases h0 : s.params.hold = 0
  · rw [if_pos h0, if_neg (by omega)]
    cases s.engine.txq <;> simp
  · rw [if_neg h0, if_pos (by omega)]
    cases s.engine.sh <;> simp

theorem applyPend_keeps (u : State) : (applyPend u).ctl = u.ctl ∧ (applyPend u).stack = u.stack ∧
    (applyPend u).engine = u.engine ∧
    (applyPend u).params = u.params ∧ (applyPend u).host = u.host ∧ (applyPend u).faulted = u.faulted := by
  rw [applyPend_frame]; exact ⟨rfl, rfl, rfl, rfl, rfl, rfl⟩

/-- A step of any agent, given that it keeps the invariants: the operation is over, or the measure went down, or it stayed and the
agent was not the one that can lower it. -/
theorem step_progress {t : State} (a : Config.Agent) (d : Nat) (hi : Running t) (hg : ¬Returned t)
    (hpoll : a = .controller → ¬pollsAgain t)
    (keep : ∀ t', step (chosen a d t) = .next t' → flowOk t' ∧ accountsOk t' ∧ controlOk t') :
    ∃ t', step (chosen a d t) = .next t' ∧ (Returned t' ∨ (Running t' ∧ (closer t' t ∨
      (runMeasure t' = runMeasure t ∧ helpfulAgent t' = helpfulAgent t ∧ a ≠ helpfulAgent t)))) := by
  have hc : Running (chosen a d t) := ⟨hi.flow, hi.acc, hi.ctl, hi.unf, hi.busy, hi.quiet⟩
  obtain ⟨t', ht, hq⟩ := step_quiet hc.quiet
  refine ⟨t', ht, ?_⟩
  obtain ⟨h1, h2, h3⟩ := keep t' ht
  have mk : t'.faulted = none → t'.host.busy = true → Running t' := fun a b => ⟨h1, h2, h3, a, b, hq⟩
  have hu : Running (taken a d t) := ⟨hi.flow, hi.acc, hi.ctl, hi.unf, hi.busy, hi.quiet⟩
  have hug : ¬Returned (taken a d t) := hg
  have e0 : runMeasure (taken a d t) = runMeasure t ∧ helpfulAgent (taken a d t) = helpfulAgent t := runMeasure_same rfl rfl rfl rfl
  rw [step_chosen] at ht
  have env : t'.ctl = t.ctl → t'.stack = t.stack → t'.engine = t.engine → t'.params = t.params → t'.host = t.host →
      t'.faulted = t.faulted → a ≠ helpfulAgent t → (Returned t' ∨ (Running t' ∧ (closer t' t ∨
      (runMeasure t' = runMeasure t ∧ helpfulAgent t' = helpfulAgent t ∧ a ≠ helpfulAgent t)))) := by
    intro e1 e2 e3 e4 e5 e6 e7
    exact .inr ⟨mk (e6.trans hi.unf) (by rw [e5]; exact hi.busy),
      .inr ⟨(runMeasure_same e1 e2 e3 e4).1, (runMeasure_same e1 e2 e3 e4).2, e7⟩⟩
  have hcon : ∀ {b}, b ≠ .controller → b ≠ .engineLoad → b ≠ .engineExchange → b ≠ helpfulAgent t := by
    intro b h1 h2 h3 e
    subst e; revert h1 h2 h3
    unfold helpfulAgent; split
    · split <;> simp
    · simp
  cases a
  case controller =>
    simp only [agentTurn, taken] at ht
    have hr := running_instr hu.ctl hu.busy
    rcases controllerTurn_cases (taken .controller d t) with ⟨h, _⟩ | ⟨_, h⟩
    · rw [h] at hr; cases hr
    · have ht' : controllerTurn (taken .controller d t) = .next t' := ht
      rw [h] at ht'; cases ht'
      rcases controller_progress hu hug (hpoll rfl) h3 h1 with h | ⟨hb, hf, h⟩
      · exact .inl h
      · refine .inr ⟨mk hf hb, ?_⟩
        rcases h with h | ⟨e1, e2, e3⟩
        · left; unfold closer at *; rw [← e0.1]; exact h
        · exact .inr ⟨e1.trans e0.1, e2.trans e0.2, fun e => e3 (e0.2.trans e.symm)⟩
  case engineLoad =>
    have ht' : t' = engineLoad (taken .engineLoad d t) := by
      simp only [agentTurn] at ht; exact (Host.Outcome.next.inj ht).symm
    by_cases hp : t.engine.txq ≠ [] ∧ t.engine.sh.length < t.params.hold
    · rcases engineLoad_cases (taken .engineLoad d t) with h | ⟨b, q, hb, hl, h⟩
      · exfalso
        obtain ⟨b, q, hbq⟩ := List.exists_cons_of_ne_nil hp.1
        have h' := congrArg (fun s : State => s.engine.txq.length) h
        unfold engineLoad at h'
        simp only [taken, hbq, hp.2, if_true] at h'
        simp at h'
      · rw [ht', h] at h1 h2 h3 ⊢
        refine .inr ⟨⟨h1, h2, h3, hi.unf, hi.busy, hi.quiet⟩, .inl (closer_work rfl rfl ?_)⟩
        have : t.engine.txq = b :: q := hb
        unfold engineWork; rw [this]
        show 2 * q.length + (t.engine.sh ++ [b]).length < _
        simp; omega
    · have : engineLoad (taken .engineLoad d t) = taken .engineLoad d t := by
        rcases engineLoad_cases (taken .engineLoad d t) with h | ⟨b, q, hb, hl, h⟩
        · exact h
        · exact absurd ⟨by rw [show t.engine.txq = b :: q from hb]; simp, hl⟩ hp
      rw [this] at ht'
      rw [ht']
      rw [ht'] at env
      refine env rfl rfl rfl rfl rfl rfl ?_
      intro e
      apply hp
      unfold helpfulAgent at e
      split at e
      · rename_i hin
        simp only [Bool.and_eq_true, bne_iff_ne] at hin
        split at e
        · cases e
        · rename_i hns
          simp only [not_or, not_not] at hns
          refine ⟨fun ex => hin.2 (by unfold engineWork; rw [ex, hns.2]; rfl), by rw [hns.2]; exact Nat.pos_of_ne_zero hns.1⟩
      · cases e
  case engineExchange =>
    have ht' : exchangeTurn (taken .engineExchange d t) = .next t' := ht
    by_cases hp : canMove .engineExchange (taken .engineExchange d t)
    · obtain ⟨m, v, hm⟩ := canMove_exchange.mp hp
      obtain ⟨e, u, hx, hu'⟩ := exchange_taken hm
      rw [hx] at ht'; cases ht'
      have hv : v = { taken .engineExchange d t with engine := v.engine } := by
        rcases engineTake_cases hm with ⟨_, q, _, h⟩ | ⟨_, q, _, h⟩ <;> rw [h] <;> rfl
      have hw : engineWork v.engine < engineWork t.engine := by
        unfold engineWork
        rcases engineTake_cases hm with ⟨_, q, hq, h⟩ | ⟨_, q, hq, h⟩
        · have hq' : t.engine.sh = m :: q := hq
          rw [h, hq']; show 2 * t.engine.txq.length + q.length < 2 * t.engine.txq.length + (m :: q).length
          simp
        · have hq' : t.engine.txq = m :: q := hq
          rw [h, hq']; show 2 * q.length + t.engine.sh.length < 2 * (m :: q).length + t.engine.sh.length
          simp
      have hu2 : u = { taken .engineExchange d t with engine := v.engine, trace := u.trace, peer := u.peer } := by
        rw [hu']; rw [hv]
      have huf : u.faulted = none := by rw [hu2]; exact hi.unf
      rcases engineReceive_cases e u with ⟨_, h⟩ | ⟨_, h⟩
      · exfalso
        have hf : (engineReceive e u).faulted = some (.rxOverflow e) := by
          rw [h, raise_of_none huf]; rfl
        have := h1.2.2.2.1 _ hf; cases this
      · rw [h] at mk ⊢
        refine .inr ⟨mk (by exact huf) ?_, .inl (closer_work ?_ ?_ ?_)⟩
        · show u.host.busy = true; rw [hu2]; exact hi.busy
        · show u.ctl = _; rw [hu2]; rfl
        · show u.stack = _; rw [hu2]; rfl
        · show engineWork { u.engine with rxq := _ } < _
          have : u.engine = v.engine := by rw [hu2]
          rw [this]; exact hw
    · rcases exchangeTurn_cases (taken .engineExchange d t) with ⟨_, h⟩ | ⟨m, v, hm, _⟩
      · rw [h] at ht'; cases ht'
        refine env rfl rfl rfl rfl rfl rfl ?_
        intro e
        apply hp
        unfold helpfulAgent at e
        split at e
        · rename_i hin
          simp only [Bool.and_eq_true, bne_iff_ne] at hin
          split at e
          · rename_i hor
            show if t.params.hold = 0 then t.engine.txq ≠ [] else t.engine.sh ≠ []
            split
            · rename_i h0
              have hsh : t.engine.sh = [] := List.length_eq_zero_iff.mp (by have := hi.flow.2.2.1; omega)
              intro ex; exact hin.2 (by unfold engineWork; rw [ex, hsh]; rfl)
            · rcases hor with h | h
              · contradiction
              · exact h
          · cases e
        · cases e
      · exact absurd (canMove_exchange.mpr ⟨_, _, hm⟩) hp
  case engineCs =>
    have ht' : applyPend (taken .engineCs d t) = t' := by
      simp only [agentTurn, drainTurn_eq] at ht; exact Host.Outcome.next.inj ht
    have := applyPend_keeps (taken .engineCs d t)
    rw [ht'] at this
    exact env this.1 this.2.1 this.2.2.1 this.2.2.2.1 this.2.2.2.2.1 this.2.2.2.2.2 (hcon (by simp) (by simp) (by simp))
  case peerTick =>
    have ht' : peerTickStep (taken .peerTick d t) = t' := by simp only [agentTurn] at ht; exact Host.Outcome.next.inj ht
    have hk : t'.ctl = t.ctl ∧ t'.stack = t.stack ∧ t'.engine = t.engine ∧ t'.params = t.params ∧ t'.host = t.host ∧
        t'.faulted = t.faulted := by
      rw [← ht']; unfold peerTickStep; split <;> exact ⟨rfl, rfl, rfl, rfl, rfl, rfl⟩
    exact env hk.1 hk.2.1 hk.2.2.1 hk.2.2.2.1 hk.2.2.2.2.1 hk.2.2.2.2.2 (hcon (by simp) (by simp) (by simp))
  case abortEnv =>
    have ht' : abortEnvStep (taken .abortEnv d t) = t' := by simp only [agentTurn] at ht; exact Host.Outcome.next.inj ht
    rw [← ht'] at env ⊢
    exact env rfl rfl rfl rfl rfl rfl (hcon (by simp) (by simp) (by simp))
  case host =>
    have ht' : taken .host d t = t' := by
      simp only [agentTurn] at ht
      have : hostTurn (taken .host d t) = .next (taken .host d t) := by
        unfold hostTurn; rw [show (taken .host d t).hostQ = [] from hi.quiet]
      rw [this] at ht; exact Host.Outcome.next.inj ht
    rw [← ht'] at env ⊢
    exact env rfl rfl rfl rfl rfl rfl (hcon (by simp) (by simp) (by simp))


/-- The agent whose step lowers the measure is enabled. -/
theorem helper_canMove {t : State} (hi : Running t) : canMove (helpfulAgent t) t := by
  unfold helpfulAgent
  split
  · rename_i hin
    simp only [Bool.and_eq_true, bne_iff_ne] at hin
    split
    · rename_i hor
      show if t.params.hold = 0 then t.engine.txq ≠ [] else t.engine.sh ≠ []
      split
      · rename_i h0
        have hsh : t.engine.sh = [] := List.length_eq_zero_iff.mp (by have := hi.flow.2.2.1; omega)
        intro ex; exact hin.2 (by unfold engineWork; rw [ex, hsh]; rfl)
      · rcases hor with h | h
        · contradiction
        · exact h
    · rename_i hns
      simp only [not_or, not_not] at hns
      exact ⟨fun ex => hin.2 (by unfold engineWork; rw [ex, hns.2]; rfl), by rw [hns.2]; exact Nat.pos_of_ne_zero hns.1⟩
  · exact ⟨hi.unf, running_stack hi.ctl hi.busy⟩

/-- Only WAIT_READY, the host's or ERASE_SEQ's, polls. -/
theorem pollsAgain_top {t : State} (h : controlOk t) (hp : pollsAgain t) : t.ctl.top = 6#4 ∨ t.ctl.top = 8#4 := by
  obtain ⟨_, ⟨below, hs⟩, _⟩ := hp
  have hl := h.1
  have ht := h.2.2
  rw [hs] at hl ht
  rw [stackLegal_cons, Bool.and_eq_true] at hl
  cases below with
  | nil => left; rw [ht]; rfl
  | cons a k =>
    have hl2 := hl.2
    rw [stackLegal_cons, Bool.and_eq_true] at hl2
    rcases a with m | _ | ⟨m, x⟩ | ⟨m, o, x⟩ | ⟨m, o, a⟩ | m | _ | m | m
    case eraseSeq =>
      have : k = [] := below_eraseSeq hl2.2
      subst this; right; rw [ht]; rfl
    all_goals (try cases m) <;> cases hl2.1

theorem controller_top {u : State} (hi : Running u) (hb : (controllerStep u).host.busy = true) :
    (controllerStep u).ctl.top = u.ctl.top := by
  obtain ⟨fr, below, hs⟩ := List.exists_cons_of_ne_nil (running_stack hi.ctl hi.busy)
  have ht := stepFrame_top fr u
  rcases controllerStep_cases hi.unf hs with ⟨_, _, _, h⟩ | ⟨_, _, _, _, _, _, h⟩ | ⟨r, _, h⟩ | ⟨_, h⟩ <;> rw [h] at hb ⊢
  · exact ht
  · exact ht
  · rcases deliver_cases below r (actState (stepFrame fr u)) with ⟨r', h'⟩ | ⟨_, fr', _, self, c, _, _, ⟨r', hr⟩, h'⟩ <;> rw [h'] at hb ⊢
    · cases hb
    · show c.top = _
      rw [resumeFrame_top hr]; exact ht
  · exact ht

/-- A running operation keeps TOP. -/
theorem running_top {t t' : State} {a d} (hi : Running t) (hs : step (chosen a d t) = .next t') (hb : t'.host.busy = true) :
    t'.ctl.top = t.ctl.top := by
  have hu : Running (taken a d t) := ⟨hi.flow, hi.acc, hi.ctl, hi.unf, hi.busy, hi.quiet⟩
  have hk : takeChoice (chosen a d t) = taken a d t := rfl
  rcases step_cases hs with ⟨_, h | h⟩ | ⟨_, h⟩ | ⟨_, h⟩ | ⟨_, h⟩ | ⟨_, h⟩ | ⟨_, h⟩ | ⟨_, h⟩ <;> rw [hk] at h
  · rw [h]; rfl
  · rw [h] at hb ⊢; exact controller_top hu hb
  · rw [h]; rcases engineLoad_cases (taken a d t) with e | ⟨_, _, _, _, e⟩ <;> rw [e] <;> rfl
  · rcases exchangeTurn_effect (taken a d t) with e | ⟨_, _, _, _, t2, ht', he, _⟩
    · rw [e] at h; cases h; rfl
    · rw [ht'] at h; cases h; rw [he]; rfl
  · rw [h, applyPend_frame]; rfl
  · rw [h]; unfold peerTickStep; split <;> rfl
  · rw [h]; rfl
  · unfold hostTurn at h; rw [show (taken a d t).hostQ = [] from hi.quiet] at h; cases h; rfl

end Sys2Proof.Machine
end

