-- ==== Sys2Proof/Tests/Slice0.lean ====
section
/-! SUPPORT. Tests of one step each, with expected values from spec/ (95_test_vectors.md unless another file is named), and a
witness for the hypotheses of every statement. -/

namespace Sys2Proof.Tests

open Sys2Proof Sys2Proof.Machine

/-! ### Helpers -/

/-- The test peer of 95_test_vectors.md section 0, selected, with V63's table bytes. -/
def dev : RefPeer :=
  { busy := false, wel := false, sr1h := 0, sr2 := 0, sr3 := 0, vwe := false, array := { fill := 0xFF, cells := [] },
    jedec := 0xA1B2C3, sfdp := { fill := 0xFF, cells := [(0x10, 0x53), (0x11, 0x46)] }, busyLeft := 0, sel := true, fr := [] }

/-- The block just reset, under section 0's conventions. -/
def idle : State := { State.reset with ctl := Ctl.reset 0, abortIn := 0, peer := .reference dev }

/-- The block running the operation `op` with the given activations. -/
def running (op : BitVec 4) (k : List Frame) : State :=
  { idle with host := { idle.host with busy := true }, ctl := { idle.ctl with top := op }, stack := k }

/-- The device exchanging, chip-select asserted. -/
def selected (p : RefPeer) : State := { idle with cs := { idle.cs with pin := true }, peer := .reference p }

/-- The device seeing the deselect. -/
def released (p : RefPeer) : State := { idle with peer := .reference p }

/-- Does the outcome have a next state with this property? -/
def onNext (o : Host.Outcome State Fault Refusal) (p : State → Bool) : Bool :=
  match o with
  | .next s => p s
  | .fault _ => false
  | .refused _ => false

/-- A property of the reference peer after a step. -/
def onPeer (o : Host.Outcome State Fault Refusal) (p : RefPeer → Bool) : Bool :=
  onNext o (fun s => match s.peer with | .reference q => p q | .absent => false)

/-- The byte a device answers: the newest one of the receive FIFO. -/
def answer (o : Host.Outcome State Fault Refusal) (b : Byte) : Bool := onNext o (fun s => s.engine.rxq.getLast? == some b)

/-- The host's CMD write of `v` as the next step. -/
def cmdWrite (v : Word) (s : State) : State := chosen .host 0 { s with hostQ := [.write s.params.hostBase .word v] }

/-- Fields all zero. -/
def noFields : CmdFields := fieldsOf 0 0 0 0 false

/-! ### Well-formed and ill-formed terms (30_encoding.md R104, R107) -/

theorem test_wf_transfer : (Instr.transfer (fieldsOf 2 1 0 0 false)).wf = true := by decide
theorem test_ill_transfer_txk3 : (Instr.transfer (fieldsOf 3 0 0 0 false)).wf = false := by decide
theorem test_ill_transfer_rxk2 : (Instr.transfer (fieldsOf 0 2 0 0 false)).wf = false := by decide
theorem test_ill_transfer_rxk3 : (Instr.transfer (fieldsOf 0 3 0 0 false)).wf = false := by decide
theorem test_ill_issue_txk3 : (Instr.issue (fieldsOf 3 0 0 0 false)).wf = false := by decide
theorem test_ill_issue_rxk2 : (Instr.issue (fieldsOf 0 2 0 0 false)).wf = false := by decide
theorem test_ill_issue_rxk3 : (Instr.issue (fieldsOf 0 3 0 0 false)).wf = false := by decide
theorem test_wf_unused_fields : (Instr.issueAddr (fieldsOf 3 3 0 0 false)).wf = true := by decide

/-! ### Decoding: words from section 0 and R101's bit positions, rejections by name (V81 to V88) -/

/-- ACT at bit 24, OP 1, bit by bit: 0000000 1 00000000 00000000 00 00 0001. -/
theorem test_decode_set_select :
    decodeCmd 0b00000001000000000000000000000001 = .ok (.setSelect (fieldsOf 0 0 0 0 true)) := by decide
theorem test_decode_is_aborted : decodeCmd 0x00000002 = .ok (.isAborted noFields) := by decide
/-- IMM at [23:16], RXK at [7:6], TXK at [5:4], bit by bit: 0000000 0 10111011 00000000 01 10 0011. -/
theorem test_decode_transfer :
    decodeCmd 0b00000000101110110000000001100011 = .ok (.transfer (fieldsOf 2 1 0 0xBB false)) := by decide
theorem test_decode_issue_jedec : decodeCmd 0x00009F44 = .ok (.issue (fieldsOf 0 1 0x9F 0 false)) := by decide
theorem test_decode_issue_imm : decodeCmd 0x003C0124 = .ok (.issue (fieldsOf 2 0 0x01 0x3C false)) := by decide
theorem test_decode_issue_addr : decodeCmd 0x00000305 = .ok (.issueAddr (fieldsOf 0 0 0x03 0 false)) := by decide
theorem test_decode_wait_ready : decodeCmd 0x00000006 = .ok (.waitReady noFields) := by decide
theorem test_decode_enable_write : decodeCmd 0x00000007 = .ok (.enableWrite noFields) := by decide
theorem test_decode_erase_seq : decodeCmd 0x00000008 = .ok (.eraseSeq noFields) := by decide
theorem test_decode_diag_status : decodeCmd 0x00000009 = .ok (.diagStatus noFields) := by decide
theorem test_decode_unused_fields : decodeCmd 0x000003F5 = .ok (.issueAddr (fieldsOf 3 3 0x03 0 false)) := by decide
theorem test_reject_op0 : decodeCmd 0x00000000 = .error .reservedOp := by decide
theorem test_reject_opA : decodeCmd 0x0000000A = .error .reservedOp := by decide
theorem test_reject_opF : decodeCmd 0x0000000F = .error .reservedOp := by decide
theorem test_reject_rsvd : decodeCmd 0x02000006 = .error .reservedBits := by decide
theorem test_reject_rsvd_top : decodeCmd 0x80000006 = .error .reservedBits := by decide
theorem test_reject_txk : decodeCmd 0x00000033 = .error .reservedTxk := by decide
theorem test_reject_rxk2 : decodeCmd 0x00000083 = .error .reservedRxk := by decide
theorem test_reject_rxk3 : decodeCmd 0x000000C4 = .error .reservedRxk := by decide
theorem test_encode_issue : encode (.issue (fieldsOf 0 1 0x9F 0 false)) = .cmd 0x00009F44 := by decide

/-! Frames: the opcodes of 00_scope.md R9 (V8), with the frames of V62 to V76. -/

theorem test_decode_pp : decodeFrame [0x02, 0x00, 0x01, 0x00, 0x0F] = .ok (.flashPp [0x00, 0x01, 0x00, 0x0F]) := by decide
theorem test_decode_read : decodeFrame [0x03, 0xFF, 0xFF, 0xFF, 0x00] = .ok (.flashRead [0xFF, 0xFF, 0xFF, 0x00]) := by decide
theorem test_decode_rdsr1 : decodeFrame [0x05, 0x00] = .ok (.flashRdsr1 [0x00]) := by decide
theorem test_decode_wren : decodeFrame [0x06] = .ok (.flashWren []) := by decide
theorem test_decode_se : decodeFrame [0x20, 0x00, 0x12, 0x34] = .ok (.flashSe [0x00, 0x12, 0x34]) := by decide
theorem test_decode_rdsfdp : decodeFrame [0x5A, 0, 0, 0x10, 0, 0] = .ok (.flashRdsfdp [0, 0, 0x10, 0, 0]) := by decide
theorem test_decode_rdid : decodeFrame [0x9F, 0, 0, 0] = .ok (.flashRdid [0, 0, 0]) := by decide
theorem test_decode_ce : decodeFrame [0xC7] = .ok (.flashCe []) := by decide
theorem test_decode_vwren : decodeFrame [0x50] = .ok (.flashVwren []) := by decide
theorem test_decode_wrsr1 : decodeFrame [0x01, 0xFC] = .ok (.flashWrsr1 [0xFC]) := by decide
theorem test_decode_wrsr2 : decodeFrame [0x31, 0x00] = .ok (.flashWrsr2 [0x00]) := by decide
theorem test_decode_wrsr3 : decodeFrame [0x11, 0x20] = .ok (.flashWrsr3 [0x20]) := by decide
theorem test_decode_rdsr2 : decodeFrame [0x35, 0x00] = .ok (.flashRdsr2 [0x00]) := by decide
theorem test_decode_rdsr3 : decodeFrame [0x15, 0x00] = .ok (.flashRdsr3 [0x00]) := by decide
theorem test_reject_frame_opcode : decodeFrame [0x9E] = .error (.unknownOpcode 0x9E) := by decide
theorem test_reject_frame_empty : decodeFrame [] = .error .emptyFrame := by decide

/-! ### Host operations, one step each -/

/-- V14: after CS1 the write is pending and the pin has not moved. -/
theorem test_set_select_posts :
    onNext (exec (.setSelect noFields) (running 1 [.setSelect .CS1 true]))
      (fun t => t.cs == { csreg := 1, pend := some true, pin := false }) = true := by decide

/-- V13: CS2 deasserts, and the peer executes its frame (06 sets WEL, V64). -/
theorem test_set_select_ends_frame :
    onPeer (exec (.setSelect noFields)
        { running 1 [.setSelect .CS2 false] with
          cs := { csreg := 0, pend := some false, pin := true }, peer := .reference { dev with fr := [0x06] } })
      (fun p => p.wel && !p.sel) = true := by decide

/-- V15: a set bit under the mask. -/
theorem test_is_aborted_set :
    onNext (exec (.isAborted noFields) { running 2 [.isAborted] with abortIn := 0x00020000 })
      (fun t => t.host.resValue == 1 && !t.host.aborted && !t.host.busy) = true := by decide

/-- V17: every bit outside the mask. -/
theorem test_is_aborted_masked :
    onNext (exec (.isAborted noFields) { running 2 [.isAborted] with abortIn := 0xFFFCFFFF })
      (fun t => t.host.resValue == 0) = true := by decide

/-- V20's arguments: TRANSFER mem(0x100), mem(0x200), 3, 0. -/
def args20 : XferArgs := { txk := .mem, txb := 0x100, imm := 0, rxk := .mem, rxb := 0x200, n := 3, skip := 0 }

/-- V20's internal registers, with `D = 4`: the counters and levels given. -/
def state20 (l : XLabel) (txRem rxRem sent recv : Word) (tl rl : Byte) : State :=
  { running 3 [.transfer l args20] with
    params := { idle.params with depth := 4 }
    mem := [(0x100, 0x9F)]
    ctl := { (running 3 []).ctl with
      xTxk := .mem, xTxb := 0x100, xRxk := .mem, xRxb := 0x200, txRem := txRem, rxRem := rxRem, sent := sent, recv := recv
      tl := tl, rl := rl } }

/-- V20, iteration 1: X4 takes 9F from memory and goes to X5. -/
theorem test_transfer_takes_byte :
    onNext (exec (.transfer noFields) (state20 .X4 3 3 0 0 0 0))
      (fun t => t.ctl.xb == 0x9F && t.stack == [.transfer .X5 args20]) = true := by decide

/-- V20, iteration 3: 2 is not below D - 2 = 2, so nothing is enqueued. -/
theorem test_transfer_guard :
    onNext (exec (.transfer noFields) (state20 .X4 1 3 2 0 2 0)) (fun t => t.stack == [.transfer .X6 args20]) = true := by decide

/-- P4, write 5: ISSUE's T0 finds two bytes in flight, EntryMismatch(2, 0), STATUS 0x47 less ABORTED here. -/
theorem test_issue_entry_mismatch :
    onNext (exec (.issue noFields)
        { running 4 [.issue .T0 0x05 args20] with engine := { txq := [0x05, 0x00], sh := [], rxq := [] } })
      (fun t => t.faulted == some (.entryMismatch 2 0) && statusWord t == 0x45) = true := by decide

/-- 42_command_dispatcher.md R180: T2 pushes the opcode. -/
theorem test_issue_pushes_opcode :
    onNext (exec (.issue noFields)
        { running 4 [.issue .T2 0x9F args20] with ctl := { (running 4 []).ctl with dOpc := 0x9F } })
      (fun t => t.engine.txq == [0x9F]) = true := by decide

/-- V9: AW = 0x03123456. -/
theorem test_issue_addr_word :
    onNext (exec (.issueAddr noFields) (running 5 [.issueAddr .A0 0x03 0x123456])) (fun t => t.ctl.aw == 0x03123456) = true := by
  decide

/-- V92: with D = 3 the fourth write overflows. -/
theorem test_issue_addr_overflow :
    onNext (exec (.issueAddr noFields)
        { running 5 [.issueAddr .A5 0x03 0] with
          params := { idle.params with depth := 3 }, engine := { txq := [0x03, 0, 0], sh := [], rxq := [] } })
      (fun t => t.faulted == some (.txOverflow 0x00)) = true := by decide

/-- 43_status_poller.md R200: STAT[0] = 1 goes to the abort sample. -/
theorem test_wait_ready_busy :
    onNext (exec (.waitReady noFields) { running 6 [.waitReady .W2] with ctl := { (running 6 []).ctl with stat := 0x01 } })
      (fun t => t.stack == [.waitReady .W3]) = true := by decide

/-- R200: STAT[0] = 0 ends the wait. -/
theorem test_wait_ready_ready :
    onNext (exec (.waitReady noFields) { running 6 [.waitReady .W2] with ctl := { (running 6 []).ctl with stat := 0xFE } })
      (fun t => t.stack == [.waitReady .W9]) = true := by decide

/-- 43_status_poller.md R201: ENABLE_WRITE is ISSUE of 0x06 without payload. -/
theorem test_enable_write :
    onNext (exec (.enableWrite noFields) (running 7 [.enableWrite]))
      (fun t => match t.stack.head? with | some (.issue .T0 opc x) => opc == 0x06 && x.n == 0 | _ => false) = true := by decide

/-- V10, 44_erase_sequencer.md R231: row 10 writes 0x20 by 0x11. -/
theorem test_erase_seq_row10 :
    onNext (exec (.eraseSeq noFields) { running 8 [.eraseSeq .Q1] with ctl := { (running 8 []).ctl with sk := 10 } })
      (fun t => match t.stack.head? with | some (.issue .T0 opc x) => opc == 0x11 && x.imm == 0x20 | _ => false) = true := by
  decide

/-- V52: aborted at row 5, step 3, STATUS 0x2. -/
theorem test_erase_seq_result :
    onNext (exec (.eraseSeq noFields)
        { running 8 [.eraseSeq .Q9] with ctl := { (running 8 []).ctl with sabort := true, sfirst := 5 } })
      (fun t => t.host.resValue == 5 && t.host.resStep == 3 && statusWord t == 0x2) = true := by decide

/-- P3, step 2: the third read's byte 0x20 lands in bits [23:16]. -/
theorem test_diag_status_third :
    onNext (exec (.diagStatus noFields)
        { running 9 [.setSelect .CS2 false, .transfer .X9 statusRead, .issue .T3 0x15 statusRead, .diagStatus .M3] with
          ctl := { (running 9 []).ctl with stat := 0x20 } })
      (fun t => t.ctl.gacc == 0x200000 && t.stack == [.diagStatus .M9]) = true := by decide

/-- P3: the composite in RES_VALUE. -/
theorem test_diag_status_result :
    onNext (exec (.diagStatus noFields) { running 9 [.diagStatus .M9] with ctl := { (running 9 []).ctl with gacc := 0x200000 } })
      (fun t => t.host.resValue == 0x00200000 && statusWord t == 0) = true := by decide

/-! ### Faults and registers -/

/-- V81: IllegalOp, STATUS 0x14. -/
theorem test_illegal_op : onNext (step (cmdWrite 0 idle)) (fun t => statusWord t == 0x14 && t.host.cmd == 0) = true := by decide

/-- V88: RSVD before BadParam. -/
theorem test_rsvd_before_bad_param :
    onNext (step (cmdWrite 0x02000005 { idle with host := { idle.host with argAddr := 0x01000000 } }))
      (fun t => statusWord t == 0x14) = true := by decide

/-- V37, R107: BadParam, STATUS 0x24. -/
theorem test_bad_param :
    onNext (step (cmdWrite 0x00000305 { idle with host := { idle.host with argAddr := 0x01000000 } }))
      (fun t => statusWord t == 0x24) = true := by decide

/-- V89: HostOverrun, STATUS 0x35, CMD unchanged. -/
theorem test_host_overrun :
    onNext (step (cmdWrite 0x02000000 { running 6 [.waitReady .W0] with host := { idle.host with busy := true, cmd := 6 } }))
      (fun t => statusWord t == 0x35 && t.host.cmd == 6) = true := by decide

/-- V93: offset 0x30 reads zero. -/
theorem test_reserved_offset :
    onNext (step (chosen .host 0 { idle with hostData := 5, hostQ := [.read 0x30 .word] })) (fun t => t.hostData == 0) = true := by
  decide

/-- 20_memory.md R83: a word access only. -/
theorem test_narrow_access :
    step (chosen .host 0 { idle with hostQ := [.read 0x00 .byte] }) = .refused (.hostAccessShape 0) := rfl

/-- 20_memory.md R68 and R86: ABORTREG of the RP2040 by its address, and no port register at 0. -/
theorem test_port_addresses :
    portAt (rp2040Params idle.params) 0x4001801C = some .abortreg ∧ portAt (rp2040Params idle.params) 0 = none := by decide

/-- 20_memory.md R75, 00_scope.md R16: a frame with no closing cs(0) is not listed. -/
theorem test_trace_frames :
    traceFrames [.cs true, .x 0x05 0xFF, .x 0x00 0x01, .cs false, .cs true, .x 0x06 0xFF] = [[0x05, 0x00]] := by decide

/-! ### Flash commands at the device -/

/-- V66: F0 AND 0F. -/
theorem test_pp_ands :
    onPeer (exec (.flashPp [0x00, 0x01, 0x00, 0x0F])
        (released { dev with wel := true, array := { fill := 0xFF, cells := [(0x100, 0xF0)] } }))
      (fun p => storeRead p.array 0x100 == 0x00 && p.busy && !p.wel) = true := by decide

/-- V65: the third byte wraps to the start of the page. -/
theorem test_pp_wraps :
    onPeer (exec (.flashPp [0x00, 0x00, 0xFE, 0x12, 0x34, 0x56]) (released { dev with wel := true }))
      (fun p => p.array.cells == [(0x00, 0x56), (0xFE, 0x12), (0xFF, 0x34)]) = true := by decide

/-- V62: the array wraps after 0xFFFFFF. -/
theorem test_read_wraps :
    answer (exec (.flashRead [0xFF, 0xFF, 0xFF, 0x00, 0x00]) (selected { dev with array := { fill := 0xFF, cells := [(0, 0x22)] } }))
      0x22 = true := by decide

/-- V71: SR1 while busy. -/
theorem test_rdsr1_busy : answer (exec (.flashRdsr1 [0x00, 0x00]) (selected { dev with busy := true })) 0x01 = true := by decide

/-- V64. -/
theorem test_wren : onPeer (exec (.flashWren []) (released dev)) (fun p => p.wel) = true := by decide

/-- V68, on a byte inside the sector and one before it: the erased byte is no longer listed. -/
theorem test_se :
    onPeer (exec (.flashSe [0x00, 0x12, 0x34])
        (released { dev with wel := true, array := { fill := 0xFF, cells := [(0xFFF, 0x11), (0x1FFF, 0x22)] } }))
      (fun p => p.array.cells == [(0xFFF, 0x11)] && p.busy && !p.wel) = true := by decide

/-- V79: cut inside its address. -/
theorem test_se_cut : onPeer (exec (.flashSe [0x00, 0x12]) (released { dev with wel := true })) (fun p => p.wel && !p.busy) = true := by
  decide

/-- V63: after the dummy byte, SFDP[0x10]. -/
theorem test_rdsfdp : answer (exec (.flashRdsfdp [0, 0, 0x10, 0, 0]) (selected dev)) 0x53 = true := by decide

/-- V63: the fifth byte is the dummy. -/
theorem test_rdsfdp_dummy : answer (exec (.flashRdsfdp [0, 0, 0x10, 0]) (selected dev)) 0xFF = true := by decide

/-- V60: the second identification byte. -/
theorem test_rdid : answer (exec (.flashRdid [0, 0]) (selected dev)) 0xB2 = true := by decide

/-- V61: after the third, IDLE_MISO. -/
theorem test_rdid_after : answer (exec (.flashRdid [0, 0, 0, 0]) (selected dev)) 0xFF = true := by decide

/-- V69. -/
theorem test_ce :
    onPeer (exec (.flashCe []) (released { dev with wel := true, array := { fill := 0xFF, cells := [(7, 0x11)] } }))
      (fun p => p.array == { fill := 0xFF, cells := [] } && p.busy && !p.wel) = true := by decide

/-- V70: ignored while busy. -/
theorem test_ce_busy :
    onPeer (exec (.flashCe []) (released { dev with busy := true, wel := true, array := { fill := 0xFF, cells := [(7, 0x11)] } }))
      (fun p => p.array.cells == [(7, 0x11)] && p.wel) = true := by decide

/-- V72, first frame. -/
theorem test_vwren : onPeer (exec (.flashVwren []) (released dev)) (fun p => p.vwe) = true := by decide

/-- V76. -/
theorem test_wrsr1 :
    onPeer (exec (.flashWrsr1 [0xFC]) (released { dev with wel := true }))
      (fun p => p.sr1h == 0x3F && p.busy && !p.wel && peerSr1 p == 0xFD) = true := by decide

/-- V72: volatile, not busy. -/
theorem test_wrsr2_volatile :
    onPeer (exec (.flashWrsr2 [0x00]) (released { dev with sr2 := 0x02, vwe := true }))
      (fun p => p.sr2 == 0x00 && !p.busy && !p.vwe) = true := by decide

/-- V78: cut before its data byte, WEL stays. -/
theorem test_wrsr2_cut :
    onPeer (exec (.flashWrsr2 []) (released { dev with sr2 := 0x02, wel := true })) (fun p => p.sr2 == 0x02 && p.wel) = true := by
  decide

/-- V75. -/
theorem test_wrsr3 :
    onPeer (exec (.flashWrsr3 [0x20]) (released { dev with wel := true })) (fun p => p.sr3 == 0x20 && p.busy && !p.wel) = true := by
  decide

/-- V77. -/
theorem test_rdsr2 : answer (exec (.flashRdsr2 [0x00]) (selected { dev with sr2 := 0x02 })) 0x02 = true := by decide

/-- V77. -/
theorem test_rdsr3 : answer (exec (.flashRdsr3 [0x00]) (selected { dev with sr3 := 0x20 })) 0x20 = true := by decide

/-- V80. -/
theorem test_peer_tick :
    onPeer (step (chosen .peerTick 0 (released { dev with busy := true, busyLeft := 1 }))) (fun p => !p.busy && p.busyLeft == 0) =
      true := by decide

/-! ### Witnesses: a concrete state and operands that meet a statement's hypotheses -/

theorem witness_decodeOfEncode : (Instr.issue (fieldsOf 2 1 0xFF 0xFF true)).wf = true ∧ (Instr.flashPp []).wf = true := by decide

theorem witness_encodeOfDecode :
    decode (.cmd 0x01FFFFA9) = .ok (.diagStatus (fieldsOf 2 2 0xFF 0xFF true)) ∧ decode (.frame [0x50]) = .ok (.flashVwren []) := by
  decide

/-- The four reasons of R107 (a) to (d) at their boundary values, and BadParam beside none of them. -/
theorem witness_illegalCommandFaults :
    isReady idle ∧
      ((0x00000000 : Word).extractLsb' 0 4 = 0#4 ∧ 9 < ((0x0000000A : Word).extractLsb' 0 4).toNat ∧
        (0x02000006 : Word).extractLsb' 25 7 ≠ 0#7 ∧ (0x00000033 : Word).extractLsb' 4 2 = 3#2 ∧
        (0x00000083 : Word).extractLsb' 6 2 = 2#2 ∧ (0x000000C4 : Word).extractLsb' 6 2 = 3#2) ∧
      ((0x00000305 : Word).extractLsb' 0 4 = 5#4 ∧ (0x00000305 : Word).extractLsb' 25 7 = 0#7 ∧
        (0x01000000 : Word).extractLsb' 24 8 ≠ 0#8) := by decide

theorem witness_commandStartsOperation :
    isReady idle ∧ hostOp 5#4 noFields = some (.issueAddr noFields) ∧ (Instr.issueAddr noFields).wf = true ∧
      idle.host.argAddr.extractLsb' 24 8 = 0#8 ∧
      hostOp 3#4 (fieldsOf 1 1 0 0 false) = some (.transfer (fieldsOf 1 1 0 0 false)) ∧
      (Instr.transfer (fieldsOf 1 1 0 0 false)).wf = true := by decide

theorem witness_commandWhileBusyOrFaulted :
    ((running 6 [.waitReady .W0]).faulted = none ∧ (running 6 [.waitReady .W0]).host.busy = true) ∧
      { idle with faulted := some .rxUnderflow }.faulted ≠ none := by decide

theorem witness_stepRunsHostOperation :
    (isReady idle ∧ decodeCmd 0x00000006 = .ok (.waitReady noFields)) ∧
      runningInstr (running 6 [.waitReady .W0]) = some (.waitReady noFields) ∧ runningInstr idle = none := by decide

/-- A device that saw 05 and is sent 00; and one that saw 06 and is deselected, by the drain and as it stands. -/
theorem witness_stepRunsFlashCommand :
    (∃ s', engineTake (taken .engineExchange 0
          { selected { dev with fr := [0x05] } with engine := { txq := [0x00], sh := [], rxq := [] } }) = some (0x00, s')) ∧
      decodeFrame ([0x05] ++ [0x00]) = .ok (.flashRdsr1 [0x00]) ∧ (selected dev).cs.pin = true ∧
      { (selected dev).cs with pend := some false }.pend = some false ∧ decodeFrame [0x06] = .ok (.flashWren []) ∧
      deselecting { dev with fr := [0x06] } (released { dev with fr := [0x06] }) :=
  ⟨⟨_, rfl⟩, by decide, by decide, by decide, by decide, by decide⟩

theorem witness_placedRowRunsNext :
    decodeTableWord 32 0x00000001 = some (.setSelect noFields) ∧ decodeTableWord 8 0x03 = some (.flashRead [0, 0, 0, 0]) ∧
      decodeTableWord 8 0xC7 = some (.flashCe []) := by decide

/-- Each clause at the boundary offsets 0x00, 0x2C; 0x30, 0xFFFFFFFC; 0x04, 0x14; 0x18. -/
theorem witness_hostRegisterMap :
    ((0x00 : Word), idle.host.cmd) ∈ [((0x00 : Word), idle.host.cmd), (0x2C, idle.host.resStep.setWidth 32)] ∧
      ((0x30 : Word).extractLsb' 0 2 = 0#2 ∧ 0x30 ≤ (0x30 : Word).toNat) ∧
      ((0xFFFFFFFC : Word).extractLsb' 0 2 = 0#2 ∧ 0x30 ≤ (0xFFFFFFFC : Word).toNat) ∧
      ((0x14 : Word), { idle.host with argSkip := 9 }) ∈
        [((0x04 : Word), { idle.host with argAddr := 9 }), (0x14, { idle.host with argSkip := 9 })] ∧
      ((0x18 : Word).extractLsb' 0 2 = 0#2 ∧ 0x18 ≤ (0x18 : Word).toNat) := by decide

/-- TRANSFER mem(0x100), mem(0x200), 3, as its CMD write latched it. -/
def receiving : State :=
  { running 3 [.transfer .X1 args20] with
    ctl := { (running 3 []).ctl with lTxk := 1, lTx := 0x100, lRxk := 1, lRx := 0x200, lN := 3 } }

/-- R60: a host read of the running operation's transmit buffer is outside the model. -/
theorem test_transmit_buffer_read :
    step (chosen .host 0 { receiving with hostQ := [.getByte 0x102] }) = .refused (.hostBufferRace 0x102) := rfl

/-- The byte after it is not. -/
theorem test_byte_after_buffer :
    onNext (step (chosen .host 0 { receiving with mem := [(0x103, 0x5A)], hostQ := [.getByte 0x103] })) (fun t => t.hostData == 0x5A) =
      true := by decide

/-- A narrow and a misaligned access; the last byte of each buffer of a running TRANSFER; the bytes after them and an idle block's,
admitted by the launch memory and refused by it; the wait of a busy and of an idle block. -/
theorem witness_outsideHostAccessesStop :
    (idle.params.hostBase.extractLsb' 0 2 = 0#2 ∧ AccessSize.byte ≠ .word ∧ (0x00000003 : Word).extractLsb' 0 2 ≠ 0#2) ∧
      (receiving.host.busy = true ∧ receiving.ctl.top = 3#4 ∧ 2 < receiving.ctl.lN.toNat ∧ receiving.ctl.lTxk = 1#2 ∧
        (0x102 : Word) = receiving.ctl.lTx + BitVec.ofNat 32 2 ∧ receiving.ctl.lRxk = 1#2 ∧
        (0x202 : Word) = receiving.ctl.lRx + BitVec.ofNat 32 2) ∧
      ((∀ k, k < 3 → (0x203 : Word) ≠ 0x100 + BitVec.ofNat 32 k ∧ (0x203 : Word) ≠ 0x200 + BitVec.ofNat 32 k) ∧
        admitsWrite receiving.params 0x203 = true ∧ admitsRead receiving.params 0x203 = true) ∧
      (idle.host.busy = false ∧ admitsWrite { idle.params with regions := [] } 0 = false ∧
        admitsRead { idle.params with regions := [] } 0 = false) := by decide

/-- CS1 of the host's operation and of a transfer's end; CS2 with its write pending, and landed; a deassertion that ends a frame. -/
theorem witness_setSelectWritesAndReadsBack :
    runsAt 1#4 [.setSelect .CS1 true] (running 1 [.setSelect .CS1 true]) ∧
      lineAt (.setSelect .CS1 false) [.transfer .X9 args20] (running 3 [.setSelect .CS1 false, .transfer .X9 args20]) ∧
      (runsAt 1#4 [.setSelect .CS2 false] (running 1 [.setSelect .CS2 false]) ∧
        selectPosted false (running 1 [.setSelect .CS2 false])) ∧
      selectPosted false
        { running 1 [.setSelect .CS2 false] with cs := { csreg := 0, pend := some false, pin := true } } := by decide

/-- A quiet machine running one activation meets the flow invariant when the label's condition holds. -/
theorem flowOk_running {op : BitVec 4} {fr : Frame} (hl : stackLegal [fr] = true) (hf : labelFlow (running op [fr]) fr) :
    flowOk (running op [fr]) := by
  refine ⟨(by decide : idle.params.ok), Nat.zero_le _, Nat.zero_le _, fun f h => absurd h (by simp [running, idle, State.reset]), hl, ?_⟩
  intro _ fr' h
  rw [List.mem_singleton.mp h]
  exact hf

/-- SET_SELECT 1 with EN_CS and the abort environment between its two lines. -/
theorem witness_selectHoldsUnderEveryInterleaving :
    runsAt 1#4 [.setSelect .CS1 true] (running 1 [.setSelect .CS1 true]) ∧ flowOk (running 1 [.setSelect .CS1 true]) ∧
      ∀ c ∈ [({ agent := .engineCs, draw := 0 } : Config.Choice), { agent := .abortEnv, draw := 7 }],
        c.agent ≠ .controller ∧ c.agent ≠ .host :=
  ⟨by decide, flowOk_running rfl trivial, by decide⟩

/-- EN_CS and CS2, each moving the pin. -/
theorem witness_pinChangesOnlyWhenPostedWriteLands :
    onNext (step (chosen .engineCs 0 { idle with cs := { idle.cs with pend := some true } })) (fun t => t.cs.pin != idle.cs.pin) =
        true ∧
      onNext (step (chosen .controller 0
          { running 1 [.setSelect .CS2 true] with cs := { idle.cs with pend := some true } })) (fun t => t.cs.pin != idle.cs.pin) =
        true := by decide

theorem witness_isAbortedCompletes : runsAt 2#4 [.isAborted] (running 2 [.isAborted]) := by decide

theorem witness_abortSignalNeverWritten :
    (∃ t, exec (.isAborted noFields) (running 2 [.isAborted]) = .next t) ∧
      (∃ t, step (chosen .controller 0 (running 2 [.isAborted])) = .next t) ∧
      (takeChoice (chosen .controller 0 (running 2 [.isAborted]))).now.agent ≠ .abortEnv :=
  ⟨⟨_, rfl⟩, ⟨_, rfl⟩, by decide⟩

theorem witness_transferEntry :
    (lineAt (.transfer .X0 args20) [] (running 3 [.transfer .X0 args20]) ∧
        inFlight (running 3 [.transfer .X0 args20]) = args20.skip.toNat) ∧
      inFlight { running 3 [.transfer .X0 args20] with engine := { txq := [0x05], sh := [], rxq := [] } } ≠ args20.skip.toNat := by
  decide

theorem witness_transferSamplesBothLevels :
    lineAt (.transfer .X1 args20) [] (running 3 [.transfer .X1 args20]) ∧
      lineAt (.transfer .X2 args20) [] (running 3 [.transfer .X2 args20]) ∧
      lineAt (.transfer .X3 args20) [] (running 3 [.transfer .X3 args20]) := by decide

/-- V20's registers at a label, with the kinds, the regions and the queues given. -/
def moving (s : State) (tx : TxKind) (rx : RxKind) (regions : List Region) (txq rxq : List Byte) : State :=
  { s with
    params := { s.params with regions := regions }, engine := { s.engine with txq := txq, rxq := rxq }
    ctl := { s.ctl with xTxk := tx, xRxk := rx } }

/-- The guard of X4 holds, with 1 below D - 2 = 2. -/
theorem witness_transferEnqueues_guard :
    0 < (state20 .X4 3 3 0 0 1 0).ctl.txRem.toNat ∧
      (state20 .X4 3 3 0 0 1 0).ctl.tl.toNat + (state20 .X4 3 3 0 0 1 0).ctl.rl.toNat < (state20 .X4 3 3 0 0 1 0).params.depth - 2 := by
  decide

/-- The guard fails at 2, and by TX_REM = 0; then the three kinds, an admitted and a refused address. -/
theorem witness_transferEnqueues :
    (lineAt (.transfer .X4 args20) [] (state20 .X4 1 3 2 0 2 0) ∧
        ¬(state20 .X4 1 3 2 0 2 0).ctl.tl.toNat + (state20 .X4 1 3 2 0 2 0).ctl.rl.toNat < (state20 .X4 1 3 2 0 2 0).params.depth - 2) ∧
      (lineAt (.transfer .X4 args20) [] (state20 .X4 0 3 3 0 0 0) ∧ ¬0 < (state20 .X4 0 3 3 0 0 0).ctl.txRem.toNat) ∧
      lineAt (.transfer .X4 args20) [] (moving (state20 .X4 3 3 0 0 1 0) .none .none [] [] []) ∧
      lineAt (.transfer .X4 args20) [] (moving (state20 .X4 3 3 0 0 1 0) .imm .none [] [] []) ∧
      (lineAt (.transfer .X4 args20) [] (moving (state20 .X4 3 3 0 0 1 0) .mem .none idle.params.regions [] []) ∧
        admitsRead (moving (state20 .X4 3 3 0 0 1 0) .mem .none idle.params.regions [] []).params 0x100 = true) ∧
      (lineAt (.transfer .X4 args20) [] (moving (state20 .X4 3 3 0 0 1 0) .mem .none [] [] []) ∧
        admitsRead (moving (state20 .X4 3 3 0 0 1 0) .mem .none [] [] []).params 0x100 = false) := by decide

/-- X5 with room, and with the FIFO full. -/
theorem witness_transferEnqueues_write :
    (lineAt (.transfer .X5 args20) [] (state20 .X5 3 3 0 0 0 0) ∧
        (state20 .X5 3 3 0 0 0 0).engine.txq.length ≠ (state20 .X5 3 3 0 0 0 0).params.depth) ∧
      (lineAt (.transfer .X5 args20) [] (moving (state20 .X5 3 3 0 0 0 0) .mem .mem [] [0, 1, 2, 3] []) ∧
        (moving (state20 .X5 3 3 0 0 0 0) .mem .mem [] [0, 1, 2, 3] []).engine.txq.length =
          (moving (state20 .X5 3 3 0 0 0 0) .mem .mem [] [0, 1, 2, 3] []).params.depth) := by decide

/-- X6 with nothing sampled, with a level of 1 and no byte, and with a byte. -/
theorem witness_transferDequeues :
    (lineAt (.transfer .X6 args20) [] (state20 .X6 0 3 3 0 0 0) ∧ ¬0 < (state20 .X6 0 3 3 0 0 0).ctl.rl.toNat) ∧
      (lineAt (.transfer .X6 args20) [] (state20 .X6 0 3 3 0 0 1) ∧ 0 < (state20 .X6 0 3 3 0 0 1).ctl.rl.toNat ∧
        0 < (state20 .X6 0 3 3 0 0 1).ctl.rxRem.toNat ∧ (state20 .X6 0 3 3 0 0 1).engine.rxq = []) ∧
      (lineAt (.transfer .X6 args20) [] (moving (state20 .X6 0 3 3 0 0 1) .mem .mem [] [] [0xFF]) ∧
        (moving (state20 .X6 0 3 3 0 0 1) .mem .mem [] [] [0xFF]).engine.rxq = 0xFF :: []) := by decide

/-- X7 by its kinds, an admitted and a refused address. -/
theorem witness_transferDequeues_store :
    lineAt (.transfer .X7 args20) [] (moving (state20 .X7 0 3 3 0 0 1) .mem .none [] [] []) ∧
      lineAt (.transfer .X7 args20) [] (moving (state20 .X7 0 3 3 0 0 1) .mem .stat [] [] []) ∧
      (lineAt (.transfer .X7 args20) [] (state20 .X7 0 3 3 0 0 1) ∧ (state20 .X7 0 3 3 0 0 1).ctl.xRxk = .mem ∧
        admitsWrite (state20 .X7 0 3 3 0 0 1).params 0x200 = true) ∧
      (lineAt (.transfer .X7 args20) [] (moving (state20 .X7 0 3 3 0 0 1) .mem .mem [] [] []) ∧
        admitsWrite (moving (state20 .X7 0 3 3 0 0 1) .mem .mem [] [] []).params 0x200 = false) := by decide

theorem witness_transferSamplesAbortOnlyWhenIdle :
    lineAt (.transfer .X8 args20) [] (running 3 [.transfer .X8 args20]) ∧
      lineAt .isAborted [.transfer .X8 args20] (running 3 [.isAborted, .transfer .X8 args20]) ∧
      lineAt (.transfer .X9 args20) [] (running 3 [.transfer .X9 args20]) := by decide

/-- The three operations at their last line, the deassertion pending on an asserted line. -/
theorem witness_transfersComplete :
    let ending (s : State) : State := { s with cs := { csreg := 0, pend := some false, pin := true } }
    (runsAt 3#4 [.setSelect .CS2 false, .transfer .X9 args20] (ending (running 3 [.setSelect .CS2 false, .transfer .X9 args20])) ∧
        selectPosted false (ending (running 3 []))) ∧
      runsAt 4#4 [.setSelect .CS2 false, .transfer .X9 statusRead, .issue .T3 0x05 statusRead]
        (ending (running 4 [.setSelect .CS2 false, .transfer .X9 statusRead, .issue .T3 0x05 statusRead])) ∧
      runsAt 7#4 [.setSelect .CS2 false, .transfer .X9 noPayload, .issue .T3 0x06 noPayload, .enableWrite]
        (ending (running 7 [.setSelect .CS2 false, .transfer .X9 noPayload, .issue .T3 0x06 noPayload, .enableWrite])) := by decide

/-- V26's transfer: no payload, no skip. -/
def nothing26 : XferArgs := { noPayload with skip := 0 }

theorem witness_emptyTransferCompletes :
    runsAt 3#4 [.transfer .X0 nothing26] (running 3 [.transfer .X0 nothing26]) ∧ nothing26.n = 0 ∧ nothing26.skip = 0 ∧
      inFlight (running 3 [.transfer .X0 nothing26]) = 0 ∧ [0, 1, 2, 3, 4].length = 5 := by decide

/-- V20's transfer at X5, about to enqueue its first byte. -/
def enqueuing : State := chosen .controller 0 { state20 .X5 3 3 0 0 0 0 with params := idle.params }

theorem flowOk_enqueuing : flowOk enqueuing := by
  refine ⟨(by decide : idle.params.ok), Nat.zero_le _, Nat.zero_le _, ?_, rfl, ?_⟩
  · intro f h
    exact absurd h (by simp [enqueuing, chosen, state20, running, idle, State.reset])
  · intro _ fr h
    rw [List.mem_singleton.mp h]
    exact ⟨by decide, by decide, by decide⟩

theorem accountsOk_enqueuing : accountsOk enqueuing := by
  intro _ l x h
  obtain ⟨rfl, rfl⟩ := (Frame.transfer.injEq ..).mp (List.mem_singleton.mp h)
  exact .inr (by decide)

theorem witness_transferAccountsKept :
    flowOk enqueuing ∧ accountsOk enqueuing ∧ ∃ t, step enqueuing = .next t :=
  ⟨flowOk_enqueuing, accountsOk_enqueuing, ⟨_, rfl⟩⟩

/-- V21's end: two bytes sent, none received, the abort seen, CS2 next. -/
def returning : State :=
  { running 3 [.setSelect .CS2 false, .transfer .X9 args20] with
    engine := { txq := [0x9F, 0x00], sh := [], rxq := [] }
    ctl := { (state20 .X9 1 3 2 0 0 0).ctl with xabort := true } }

theorem witness_returnedTransferLeavesCountedBytes :
    accountsOk returning ∧ controlOk returning ∧ returning.faulted = none ∧ returning.host.busy = true ∧
      returning.ctl.top = 3#4 ∧ onNext (exec (.transfer noFields) returning) (fun t => !t.host.busy) = true := by
  refine ⟨?_, ⟨rfl, rfl, rfl⟩, by decide, by decide, by decide, by decide⟩
  intro _ l x h
  rcases List.mem_cons.mp h with h | h
  · exact absurd h (by simp)
  · obtain ⟨rfl, rfl⟩ := (Frame.transfer.injEq ..).mp (List.mem_singleton.mp h)
    exact .inr (by decide)

/-- V20's transfer with the two buffers at one address, `d = 0`: a state whose accounts balance. -/
def aliased (s : State) (rxq : List Byte) : State :=
  { s with ctl := { s.ctl with xTxb := 0x200 }, engine := { s.engine with rxq := rxq } }

/-- The one pre-pushed byte received and not yet discarded. -/
def skipping (s : State) : State := { s with ctl := { s.ctl with skipRem := 1 }, engine := { s.engine with rxq := [0xFF] } }

/-- X4 at its second byte, the first stored; X7 with the last of three; X6 with the byte owed, and with one skipped. -/
theorem witness_positionsAreReadBeforeWritten :
    (accountsOk (aliased (state20 .X4 2 2 1 1 0 0) []) ∧
        lineAt (.transfer .X4 args20) [] (aliased (state20 .X4 2 2 1 1 0 0) []) ∧
        mayEnqueue (aliased (state20 .X4 2 2 1 1 0 0) []).params (aliased (state20 .X4 2 2 1 1 0 0) []).ctl = true ∧
        admitsRead (aliased (state20 .X4 2 2 1 1 0 0) []).params 0x201 = true ∧
        (aliased (state20 .X4 2 2 1 1 0 0) []).ctl.xTxb = 0x200 + BitVec.ofNat 32 0 ∧ 0 + args20.n.toNat ≤ 2 ^ 32) ∧
      (accountsOk (aliased (state20 .X7 0 1 3 2 0 1) []) ∧
        lineAt (.transfer .X7 args20) [] (aliased (state20 .X7 0 1 3 2 0 1) []) ∧
        (aliased (state20 .X7 0 1 3 2 0 1) []).ctl.xRxk = .mem ∧
        admitsWrite (aliased (state20 .X7 0 1 3 2 0 1) []).params 0x202 = true) ∧
      (accountsOk (aliased (state20 .X6 0 1 3 2 0 1) [0xFF]) ∧
        lineAt (.transfer .X6 args20) [] (aliased (state20 .X6 0 1 3 2 0 1) [0xFF]) ∧
        0 < (aliased (state20 .X6 0 1 3 2 0 1) [0xFF]).ctl.rl.toNat ∧
        (aliased (state20 .X6 0 1 3 2 0 1) [0xFF]).ctl.skipRem = 0) ∧
      (accountsOk (skipping (state20 .X6 3 3 0 0 0 1)) ∧ lineAt (.transfer .X6 args20) [] (skipping (state20 .X6 3 3 0 0 0 1)) ∧
        (skipping (state20 .X6 3 3 0 0 0 1)).ctl.skipRem ≠ 0) := by
  refine ⟨⟨?_, by decide, by decide, by decide, by decide, by decide⟩, ⟨?_, by decide, by decide, by decide⟩,
    ⟨?_, by decide, by decide, by decide⟩, ?_, by decide, by decide⟩ <;>
    (intro _ l x h
     obtain ⟨rfl, rfl⟩ := (Frame.transfer.injEq ..).mp (List.mem_singleton.mp h)
     exact .inr (by decide))

theorem witness_issueLines :
    lineAt (.issue .T0 0x9F args20) [] (running 4 [.issue .T0 0x9F args20]) ∧
      lineAt (.issue .T1 0x9F args20) [] (running 4 [.issue .T1 0x9F args20]) ∧
      lineAt (.setSelect .CS1 true) [.issue .T1 0x9F args20] (running 4 [.setSelect .CS1 true, .issue .T1 0x9F args20]) ∧
      (lineAt (.setSelect .CS2 true) [.issue .T1 0x9F args20] (running 4 [.setSelect .CS2 true, .issue .T1 0x9F args20]) ∧
        selectPosted true { running 4 [] with cs := { csreg := 1, pend := some true, pin := false } }) ∧
      (lineAt (.issue .T2 0x9F args20) [] (running 4 [.issue .T2 0x9F args20]) ∧
        (running 4 [.issue .T2 0x9F args20]).engine.txq.length ≠ (running 4 [.issue .T2 0x9F args20]).params.depth) ∧
      lineAt (.issue .T3 0x06 noPayload) [.enableWrite] (running 7 [.issue .T3 0x06 noPayload, .enableWrite]) := by decide

theorem witness_issueAddrLines :
    lineAt (.issueAddr .A0 0x03 0x123456) [] (running 5 [.issueAddr .A0 0x03 0x123456]) ∧ idle.engine.txq.length ≠ idle.params.depth ∧
      lineAt (.issueAddr .A1 0x03 0) [] (running 5 [.issueAddr .A1 0x03 0]) ∧
      (lineAt (.setSelect .CS2 true) [.issueAddr .A1 0x03 0] (running 5 [.setSelect .CS2 true, .issueAddr .A1 0x03 0]) ∧
        selectPosted true { running 5 [] with cs := { csreg := 1, pend := none, pin := true } }) ∧
      lineAt (.issueAddr .A2 0x03 0) [] (running 5 [.issueAddr .A2 0x03 0]) ∧
      lineAt (.issueAddr .A3 0x03 0) [] (running 5 [.issueAddr .A3 0x03 0]) ∧
      lineAt (.issueAddr .A4 0x03 0) [] (running 5 [.issueAddr .A4 0x03 0]) ∧
      runsAt 5#4 [.issueAddr .A5 0x03 0] (running 5 [.issueAddr .A5 0x03 0]) := by decide

/-- V9's address at the smallest FIFO. -/
theorem witness_issueAddrStreamsFourBytes :
    runsAt 5#4 [.issueAddr .A0 0x03 ((0x12 : Byte) ++ (0x34 : Byte) ++ (0x56 : Byte))] (running 5 [.issueAddr .A0 0x03 0x123456]) ∧
      4 ≤ { idle.params with depth := 4 }.depth ∧ inFlight idle = 0 ∧ [0, 1, 2, 3, 4, 5, 6, 7].length = 8 := by decide

/-- The poll's return both in the host's WAIT_READY and inside ERASE_SEQ. -/
theorem witness_waitReadyLines :
    lineAt (.waitReady .W0) [] (running 6 [.waitReady .W0]) ∧ lineAt (.waitReady .W1) [] (running 6 [.waitReady .W1]) ∧
      lineAt (.waitReady .W2) [] (running 6 [.waitReady .W2]) ∧ lineAt (.waitReady .W3) [] (running 6 [.waitReady .W3]) ∧
      lineAt .isAborted [.waitReady .W3] (running 6 [.isAborted, .waitReady .W3]) ∧
      (lineAt (.setSelect .CS2 false) [.transfer .X9 statusRead, .issue .T3 0x05 statusRead, .waitReady .W1]
          (running 6 [.setSelect .CS2 false, .transfer .X9 statusRead, .issue .T3 0x05 statusRead, .waitReady .W1]) ∧
        selectPosted false (running 6 [])) ∧
      lineAt (.setSelect .CS2 false) [.transfer .X9 statusRead, .issue .T3 0x05 statusRead, .waitReady .W1, .eraseSeq .Q1]
        (running 8 [.setSelect .CS2 false, .transfer .X9 statusRead, .issue .T3 0x05 statusRead, .waitReady .W1, .eraseSeq .Q1]) ∧
      runsAt 6#4 [.waitReady .W9] (running 6 [.waitReady .W9]) := by decide

theorem witness_enableWriteIssuesWren : lineAt .enableWrite [] (running 7 [.enableWrite]) := by decide

theorem witness_diagStatusLines :
    lineAt (.diagStatus .M0) [] (running 9 [.diagStatus .M0]) ∧ lineAt (.diagStatus .M1) [] (running 9 [.diagStatus .M1]) ∧
      lineAt (.diagStatus .M2) [] (running 9 [.diagStatus .M2]) ∧ lineAt (.diagStatus .M3) [] (running 9 [.diagStatus .M3]) ∧
      lineAt (.setSelect .CS2 false) [.transfer .X9 statusRead, .issue .T3 0x15 statusRead, .diagStatus .M3]
        (running 9 [.setSelect .CS2 false, .transfer .X9 statusRead, .issue .T3 0x15 statusRead, .diagStatus .M3]) ∧
      selectPosted false (running 9 []) ∧ runsAt 9#4 [.diagStatus .M9] (running 9 [.diagStatus .M9]) := by decide

/-- A running ERASE_SEQ at its row `k`. -/
def atRow (l : QLabel) (k : BitVec 4) : State := { running 8 [.eraseSeq l] with ctl := { (running 8 []).ctl with sk := k } }

/-- Rows 0 and 11, the end at 12, and Q9 with the first aborted row 0, 11 and none. -/
theorem witness_eraseSeqLines :
    lineAt (.eraseSeq .Q0) [] (running 8 [.eraseSeq .Q0]) ∧ (lineAt (.eraseSeq .Q1) [] (atRow .Q1 12) ∧ (atRow .Q1 12).ctl.sk = 12#4) ∧
      (lineAt (.eraseSeq .Q1) [] (atRow .Q1 0) ∧ (atRow .Q1 0).ctl.sk.toNat = 0) ∧ (atRow .Q1 11).ctl.sk.toNat = 11 ∧
      (runsAt 8#4 [.eraseSeq .Q9] (atRow .Q9 0) ∧ (atRow .Q9 0).ctl.sabort = false) ∧
      { (atRow .Q9 0).ctl with sabort := true, sfirst := 11 }.sabort = true ∧
      ([1, 2, 2, 3, 3, 3, 4, 4, 4, 5, 5, 5] : List Byte)[(11#4).toNat]? = some 5 := by decide

/-- The three kinds of row at their returns. -/
theorem witness_eraseSeqStopsAtFirstAbort :
    lineAt (.waitReady .W9) [.eraseSeq .Q1] (running 8 [.waitReady .W9, .eraseSeq .Q1]) ∧
      (lineAt (.setSelect .CS2 false) [.transfer .X9 noPayload, .issue .T3 0xC7 noPayload, .eraseSeq .Q1]
          (running 8 [.setSelect .CS2 false, .transfer .X9 noPayload, .issue .T3 0xC7 noPayload, .eraseSeq .Q1]) ∧
        selectPosted false (running 8 [])) ∧
      lineAt (.setSelect .CS2 false) [.transfer .X9 noPayload, .issue .T3 0x06 noPayload, .enableWrite, .eraseSeq .Q1]
        (running 8 [.setSelect .CS2 false, .transfer .X9 noPayload, .issue .T3 0x06 noPayload, .enableWrite, .eraseSeq .Q1]) := by
  decide

theorem witness_exchanging : exchanging dev (selected dev) := by decide

theorem witness_deselecting : deselecting dev (released dev) ∧ dev.busy = false := by decide

theorem witness_flashReadsAnswer : exchanging dev (selected dev) ∧ [(0x00 : Byte)] ≠ [] := by decide

/-- A command of the table; and a frame of 0x9E, sent its second byte. -/
theorem witness_flashIdleAnswers :
    exchanging dev (selected dev) ∧ (Instr.flashWren [], (0x06 : Byte)) ∈ [(Instr.flashWren [], (0x06 : Byte))] ∧
      (∃ s', engineTake (taken .engineExchange 0
          { selected { dev with fr := [0x9E] } with engine := { txq := [0x00], sh := [], rxq := [] } }) = some (0x00, s')) ∧
      [0x9E] ++ [0x00] = (0x9E : Byte) :: [0x00] ∧ (0x9E : Byte) ∉ flashOpcodes :=
  ⟨by decide, by decide, ⟨_, rfl⟩, by decide, by decide⟩

/-- A busy device, one that is not; the drain that ends a frame of no byte, and one of 0x9E. -/
theorem witness_flashDeselectWithoutEffect :
    deselecting { dev with busy := true } (released { dev with busy := true }) ∧ deselecting dev (released dev) ∧
      ((selected dev).cs.pin = true ∧ { (selected dev).cs with pend := some false }.pend = some false) ∧
      (∀ opc ∈ dev.fr.head?, opc ∉ flashOpcodes) ∧
      (∀ opc ∈ { dev with fr := [0x9E, 0x00] }.fr.head?, opc ∉ flashOpcodes) := by decide

theorem witness_writeEnablesSetTheirLatches : deselecting dev (released dev) ∧ dev.busy = false := by decide

theorem witness_statusWritesFollowTheEnables :
    (deselecting dev (released dev) ∧ dev.busy = false ∧ dev.wel = false ∧ dev.vwe = false) ∧
      (deselecting { dev with wel := true } (released { dev with wel := true }) ∧ { dev with wel := true }.wel = true) ∧
      (deselecting { dev with vwe := true } (released { dev with vwe := true }) ∧ { dev with vwe := true }.vwe = true) := by decide

theorem witness_erasesMakeBytesReadFF :
    (deselecting dev (released dev) ∧ dev.busy = false ∧ dev.wel = false) ∧ [(0x00 : Byte), 0x12, 0x34].length = 3 ∧
      [(0x00 : Byte), 0x12].length ≠ 3 ∧
      (deselecting { dev with wel := true } (released { dev with wel := true }) ∧ { dev with wel := true }.wel = true) := by decide

/-- Frames of four bytes, of five, and the first and last data byte of V65's three. -/
theorem witness_pageProgramAndsIntoItsPage :
    (deselecting { dev with wel := true } (released { dev with wel := true }) ∧ { dev with wel := true }.busy = false) ∧
      [(0x00 : Byte), 0, 0xFE].length < 4 ∧ 4 ≤ [(0x00 : Byte), 0, 0xFE, 0x12].length ∧
      ([(0x00 : Byte), 0, 0xFE, 0x12, 0x34, 0x56].drop 3).length ≤ 0 + 256 ∧
      ([(0x00 : Byte), 0, 0xFE, 0x12, 0x34, 0x56].drop 3)[2]? = some 0x56 := by decide

theorem witness_flashCommandFrame :
    encode (.flashRdid [0]) = .frame [0x9F, 0] ∧ (∃ t, exec (.flashRdid [0]) (selected dev) = .next t) ∧
      (∃ t, exec (.flashRdid [0]) (released dev) = .next t) ∧ (released dev).cs.pin = false ∧
      (∃ t, exec (.flashRdid [0]) { idle with peer := .absent } = .next t) :=
  ⟨by decide, ⟨_, rfl⟩, ⟨_, rfl⟩, by decide, ⟨_, rfl⟩⟩

theorem witness_hostOperationFrame :
    encode (.transfer noFields) = .cmd 0x00000003 ∧ (∃ t, exec (.transfer noFields) (state20 .X7 0 3 3 0 0 1) = .next t) ∧
      (state20 .X7 0 3 3 0 0 1).host.busy = true ∧ (0x201 : Word) ≠ rxAddress (state20 .X7 0 3 3 0 0 1).ctl ∧
      onNext (exec (.transfer noFields) (state20 .X7 0 3 3 0 0 1)) (fun t => !t.stack.isEmpty) = true :=
  ⟨by decide, ⟨_, rfl⟩, by decide, by decide, by decide⟩

theorem controlOk_running {op : BitVec 4} {fr : Frame} (hl : stackLegal [fr] = true) (ho : op = frameOp fr) :
    controlOk (running op [fr]) := ⟨hl, rfl, ho⟩

theorem witness_shortOperationFrames :
    (controlOk (running 1 [.setSelect .CS1 true]) ∧ ∃ t, exec (.setSelect noFields) (running 1 [.setSelect .CS1 true]) = .next t) ∧
      (controlOk (running 2 [.isAborted]) ∧ ∃ t, exec (.isAborted noFields) (running 2 [.isAborted]) = .next t) ∧
      (controlOk (running 5 [.issueAddr .A5 0x03 0]) ∧
        ∃ t, exec (.issueAddr noFields) (running 5 [.issueAddr .A5 0x03 0]) = .next t) :=
  ⟨⟨controlOk_running rfl rfl, ⟨_, rfl⟩⟩, ⟨controlOk_running rfl rfl, ⟨_, rfl⟩⟩, controlOk_running rfl rfl, ⟨_, rfl⟩⟩

theorem witness_longOperationFrames :
    (controlOk (running 3 [.transfer .X1 args20]) ∧ ∃ t, exec (.transfer noFields) (running 3 [.transfer .X1 args20]) = .next t) ∧
      (controlOk (running 4 [.issue .T1 0x05 statusRead]) ∧
        ∃ t, exec (.issue noFields) (running 4 [.issue .T1 0x05 statusRead]) = .next t) ∧
      (controlOk (running 6 [.waitReady .W9]) ∧ ∃ t, exec (.waitReady noFields) (running 6 [.waitReady .W9]) = .next t) ∧
      (controlOk (running 7 [.enableWrite]) ∧ ∃ t, exec (.enableWrite noFields) (running 7 [.enableWrite]) = .next t) ∧
      (controlOk (running 8 [.eraseSeq .Q9]) ∧ ∃ t, exec (.eraseSeq noFields) (running 8 [.eraseSeq .Q9]) = .next t) ∧
      (controlOk (running 9 [.diagStatus .M9]) ∧ ∃ t, exec (.diagStatus noFields) (running 9 [.diagStatus .M9]) = .next t) ∧
      (∃ t, step (chosen .controller 0 (running 3 [.transfer .X1 args20])) = .next t) :=
  ⟨⟨controlOk_running rfl rfl, ⟨_, rfl⟩⟩, ⟨controlOk_running rfl rfl, ⟨_, rfl⟩⟩, ⟨controlOk_running rfl rfl, ⟨_, rfl⟩⟩,
    ⟨controlOk_running rfl rfl, ⟨_, rfl⟩⟩, ⟨controlOk_running rfl rfl, ⟨_, rfl⟩⟩, ⟨controlOk_running rfl rfl, ⟨_, rfl⟩⟩,
    ⟨_, rfl⟩⟩

/-- A block with V81's fault. -/
def broken : State := { idle with faulted := some (.illegalOp 0) }

theorem witness_faultedControllerStops :
    broken.faulted ≠ none ∧ encode (.setSelect noFields) = .cmd 0x00000001 := by decide

/-- V91 on a broken block, another agent on it, and a step that enters a fault (V81). -/
theorem witness_onlyResetLeavesAFault :
    (∃ t, step (chosen .host 0 { broken with hostQ := [.reset] }) = .next t) ∧
      (∃ t, step (chosen .controller 0 broken) = .next t) ∧ broken.faulted ≠ none ∧
      (idle.faulted = none ∧ onNext (step (cmdWrite 0 idle)) (fun t => t.faulted.isSome) = true) :=
  ⟨⟨_, rfl⟩, ⟨_, rfl⟩, by decide, by decide⟩

theorem witness_engineMovesBytes :
    { idle.engine with txq := [0x9F] }.txq = 0x9F :: [] ∧ (idle.cs.pin = false ∧ idle.params.hold = 0) ∧
      ({ selected dev with peer := .absent }.peer = .absent ∧ { selected dev with peer := .absent }.cs.pin = true) ∧
      1 ≤ { idle.params with hold := 1 }.hold ∧ { idle.engine with sh := [0x9F] }.sh = 0x9F :: [] := by decide

theorem witness_inFlightChangedOnlyByController :
    flowOk enqueuing ∧ onNext (step enqueuing) (fun t => inFlight t == inFlight enqueuing + 1) = true ∧
      (∃ t, step (chosen .engineLoad 0 enqueuing) = .next t) ∧ (takeChoice (chosen .engineLoad 0 enqueuing)).now.agent ≠ .controller :=
  ⟨flowOk_enqueuing, by decide, ⟨_, rfl⟩, by decide⟩

/-- The controller, EN_LOAD, EN_XCHG and the peer's tick in turn. -/
def inTurn (k : Nat) : Config.Choice :=
  { agent := if k % 4 = 0 then .controller else if k % 4 = 1 then .engineLoad else if k % 4 = 2 then .engineExchange else .peerTick
    draw := 0 }

theorem fairTo_inTurn (s : State) {a : Config.Agent} (i : Nat) (h : ∀ k, (inTurn (4 * k + i)).agent = a) : fairTo a inTurn s :=
  fun k => ⟨4 * k + i, by omega, .inl (h k)⟩

theorem fairTo_peerTick_inTurn (s : State) : fairTo .peerTick inTurn s :=
  fairTo_inTurn s 3 fun k => by simp [inTurn]

theorem fairSchedule_inTurn (s : State) : fairSchedule inTurn s :=
  ⟨fairTo_inTurn s 0 fun k => by simp [inTurn], fairTo_inTurn s 1 fun k => by simp [inTurn],
    fairTo_inTurn s 2 fun k => by simp [inTurn]⟩

theorem witness_peerTickCountsDown :
    (released dev).peer = .reference dev ∧ 0 < { dev with busyLeft := 1 }.busyLeft ∧ dev.busyLeft = 0 ∧
      (released dev).hostQ = [] ∧ { dev with busy := true, busyLeft := 2 }.busy = true ∧
      fairTo .peerTick inTurn (released { dev with busy := true, busyLeft := 2 }) :=
  ⟨by decide, by decide, by decide, by decide, by decide, fairTo_peerTick_inTurn _⟩

theorem witness_flowInvariantKept : flowOk enqueuing ∧ ∃ t, step enqueuing = .next t := ⟨flowOk_enqueuing, ⟨_, rfl⟩⟩

theorem witness_controlInvariantKept :
    controlOk (running 8 [.eraseSeq .Q1]) ∧ (∃ t, step (chosen .controller 0 (running 8 [.eraseSeq .Q1])) = .next t) ∧
      stackLegal [.setSelect .CS1 true, .issue .T1 0x05 statusRead, .waitReady .W1, .eraseSeq .Q1] = true :=
  ⟨controlOk_running rfl rfl, ⟨_, rfl⟩, by decide⟩

theorem witness_memoryFormKept : memoriesWf (state20 .X7 0 3 3 0 0 1) ∧ ∃ t, step (chosen .controller 0 (state20 .X7 0 3 3 0 0 1)) = .next t :=
  ⟨⟨by decide, by decide, by decide⟩, ⟨_, rfl⟩⟩

theorem witness_agentsKeepToTheirState :
    onNext (step (chosen .controller 0 { state20 .X7 0 3 3 0 0 1 with ctl := { (state20 .X7 0 3 3 0 0 1).ctl with xb := 5 } }))
        (fun t => t.mem != (state20 .X7 0 3 3 0 0 1).mem) = true ∧
      (takeChoice (chosen .abortEnv 0 idle)).now.agent ≠ .controller ∧ (takeChoice (chosen .abortEnv 0 idle)).now.agent ≠ .host := by
  decide

theorem witness_pseudoOperationsExpand : (0xFFFFFFFE : Word).toNat + 1 < 2 ^ 32 := by decide

theorem witness_rp2040ChipSelectField :
    (10 < 32 ∧ 10 ≠ 8 ∧ 10 ≠ 9) ∧ (7 < 32 ∧ 7 ≠ 8 ∧ 7 ≠ 9) ∧ (0x00000000 : Word).extractLsb' 8 2 = 0#2 ∧
      (0x00000100 : Word).extractLsb' 8 2 = 1#2 ∧
      (PortReg.abortreg, (0x4001801C : Word)) ∈ [(PortReg.txflr, (0x18000020 : Word)), (.abortreg, 0x4001801C)] := by decide

/-- A host's WAIT_READY about to start, and a transfer about to enqueue, under the agents' turns. -/
theorem witness_fairOperationsReturn :
    (fairSchedule inTurn (running 6 [.waitReady .W0]) ∧ flowOk (running 6 [.waitReady .W0]) ∧
        accountsOk (running 6 [.waitReady .W0]) ∧ controlOk (running 6 [.waitReady .W0]) ∧
        (running 6 [.waitReady .W0]).faulted = none ∧ (running 6 [.waitReady .W0]).host.busy = true ∧
        (running 6 [.waitReady .W0]).hostQ = []) ∧
      (fairSchedule inTurn enqueuing ∧ flowOk enqueuing ∧ accountsOk enqueuing ∧ controlOk enqueuing ∧
        enqueuing.faulted = none ∧ enqueuing.host.busy = true ∧ enqueuing.hostQ = []) :=
  ⟨⟨fairSchedule_inTurn _, flowOk_running rfl trivial,
      fun _ _ _ h => absurd (List.mem_singleton.mp h) (by simp), controlOk_running rfl rfl, by decide, by decide, by decide⟩,
    fairSchedule_inTurn _, flowOk_enqueuing, accountsOk_enqueuing, ⟨rfl, rfl, rfl⟩, by decide, by decide, by decide⟩

end Sys2Proof.Tests
end

/-! PROOFS. Who may change what in one step: the frame of the five agents beside the controller and the host, of the controller's
step, and of the host's turn (00_scope.md R8; 20_memory.md R60, R88; 10_state.md R28). -/

namespace Sys2Proof.Machine

/-! ### The agents beside the controller and the host -/

/-- The block's own state, its parameters and buffer memory are in `t` what they are in `s`. -/
structure SameBlock (s t : State) : Prop where
  params : t.params = s.params
  ctl : t.ctl = s.ctl
  stack : t.stack = s.stack
  host : t.host = s.host
  mem : t.mem = s.mem

theorem sameBlock_takeChoice (s : State) : SameBlock s (takeChoice s) := by constructor <;> simp

theorem SameBlock.trans {s t u : State} (h : SameBlock s t) (h' : SameBlock t u) : SameBlock s u :=
  ⟨h'.params.trans h.params, h'.ctl.trans h.ctl, h'.stack.trans h.stack, h'.host.trans h.host, h'.mem.trans h.mem⟩

theorem sameBlock_engineLoad (s : State) : SameBlock s (engineLoad s) := by
  rcases engineLoad_cases s with h | ⟨b, q, _, _, h⟩ <;> rw [h] <;> exact ⟨rfl, rfl, rfl, rfl, rfl⟩

theorem sameBlock_exchangeTurn {s t : State} (h : exchangeTurn s = .next t) : SameBlock s t := by
  rcases exchangeTurn_effect s with he | ⟨_, _, _, _, u, he, hu, _⟩ <;> rw [he] at h <;> cases h
  · exact ⟨rfl, rfl, rfl, rfl, rfl⟩
  · rw [hu]; exact ⟨rfl, rfl, rfl, rfl, rfl⟩

theorem sameBlock_applyPend (s : State) : SameBlock s (applyPend s) := by
  rw [applyPend_frame]; exact ⟨rfl, rfl, rfl, rfl, rfl⟩

theorem sameBlock_peerTickStep (s : State) : SameBlock s (peerTickStep s) := by
  unfold peerTickStep; split <;> exact ⟨rfl, rfl, rfl, rfl, rfl⟩

theorem sameBlock_abortEnvStep (s : State) : SameBlock s (abortEnvStep s) := ⟨rfl, rfl, rfl, rfl, rfl⟩

/-- A step is the controller's line, the host's turn, or leaves the block as it is. -/
theorem step_block_cases {s t : State} (h : step s = .next t) :
    SameBlock s t ∨ ((takeChoice s).now.agent = .controller ∧ t = controllerStep (takeChoice s)) ∨
      ((takeChoice s).now.agent = .host ∧ hostTurn (takeChoice s) = .next t) := by
  have hs := sameBlock_takeChoice s
  rcases step_cases h with ⟨ha, rfl | rfl⟩ | ⟨_, rfl⟩ | ⟨_, hx⟩ | ⟨_, rfl⟩ | ⟨_, rfl⟩ | ⟨_, rfl⟩ | ⟨ha, hx⟩
  · exact .inl hs
  · exact .inr (.inl ⟨ha, rfl⟩)
  · exact .inl (hs.trans (sameBlock_engineLoad _))
  · exact .inl (hs.trans (sameBlock_exchangeTurn hx))
  · exact .inl (hs.trans (sameBlock_applyPend _))
  · exact .inl (hs.trans (sameBlock_peerTickStep _))
  · exact .inl (hs.trans (sameBlock_abortEnvStep _))
  · exact .inr (.inr ⟨ha, hx⟩)

/-! ### The controller's step -/

/-- A line leaves the parameters, the host registers and the stack alone: the stack is the controller's to change. -/
theorem stepFrame_keeps (fr : Frame) (s : State) :
    (actState (stepFrame fr s)).params = s.params ∧ (actState (stepFrame fr s)).host = s.host ∧
      (actState (stepFrame fr s)).stack = s.stack := by
  have h := (stepFrame_frame fr s).1
  exact ⟨(congrArg State.params h :), (congrArg State.host h :), (congrArg State.stack h :)⟩

/-- A return leaves the parameters and buffer memory alone. -/
theorem deliver_keeps (k : List Frame) (r : Result) (s : State) :
    (deliver k r s).params = s.params ∧ (deliver k r s).mem = s.mem := by
  have h := deliver_frame k r s
  exact ⟨(congrArg State.params h :), (congrArg State.mem h :)⟩

/-- The controller's step has the parameters and the memory that its line leaves. -/
theorem controllerStep_line {s : State} {fr : Frame} {below : List Frame} (hf : s.faulted = none) (hs : s.stack = fr :: below) :
    (controllerStep s).params = (actState (stepFrame fr s)).params ∧
      (controllerStep s).mem = (actState (stepFrame fr s)).mem := by
  rcases controllerStep_cases hf hs with ⟨_, _, _, h⟩ | ⟨_, _, _, _, _, _, h⟩ | ⟨r, _, h⟩ | ⟨_, h⟩ <;> rw [h]
  · exact ⟨rfl, rfl⟩
  · exact ⟨rfl, rfl⟩
  · exact deliver_keeps below r _
  · exact ⟨rfl, rfl⟩

/-- A controller that takes a step is not faulted, and runs the line of its top activation. -/
theorem controllerStep_runs (s : State) :
    controllerStep s = s ∨ ∃ fr below, s.faulted = none ∧ s.stack = fr :: below := by
  by_cases hf : s.faulted = none
  · cases hs : s.stack with
    | nil => exact .inl (controllerStep_nil hs)
    | cons fr below => exact .inr ⟨fr, below, hf, rfl⟩
  · exact .inl (controllerStep_faulted hf)

theorem controllerStep_params (s : State) : (controllerStep s).params = s.params := by
  rcases controllerStep_runs s with h | ⟨fr, below, hf, hs⟩
  · rw [h]
  · rw [(controllerStep_line hf hs).1, (stepFrame_keeps fr s).1]

/-- The controller writes buffer memory at X7 only (41_fifo_transport.md R150). -/
theorem controllerStep_mem {s : State} (h : (controllerStep s).mem ≠ s.mem) :
    ∃ x below, s.stack = .transfer .X7 x :: below := by
  rcases controllerStep_runs s with he | ⟨fr, below, hf, hs⟩
  · exact absurd (congrArg State.mem he) h
  · by_contra hn
    have hfr : ∀ x, fr ≠ .transfer .X7 x := fun x e => hn ⟨x, below, e ▸ hs⟩
    exact h ((controllerStep_line hf hs).2.trans ((stepFrame_outside fr s).1 hfr).1)

/-! ### The host's turn -/

theorem writeCmd_params {v : Word} {s t : State} (h : writeCmd v s = .next t) : t.params = s.params := by
  rcases writeCmd_cases v s with ⟨_, hw⟩ | ⟨_, _, hw⟩ | ⟨_, _, _, _, hw⟩ | ⟨_, _, _, _, _, _, _, hw⟩ <;>
    rw [hw] at h <;> cases h <;> rfl

theorem hostTurn_params {s t : State} (h : hostTurn s = .next t) : t.params = s.params := by
  rcases hostTurn_cases h with ⟨rfl, _⟩ | ⟨r, q, _, ht⟩
  · rfl
  · rcases ht with ⟨_, rfl⟩ | ⟨_, rfl⟩ | ⟨_, rfl⟩ | ⟨_, _, rfl⟩ | ⟨_, _, rfl⟩ | ⟨v, hv⟩
    case inr.inr.inr.inr.inr => exact writeCmd_params (s := s.withHostQ q) hv
    all_goals rfl

/-! ### The statement -/

/-- No step changes the parameters (00_scope.md R8). -/
theorem step_params {s t : State} (h : step s = .next t) : t.params = s.params := by
  rcases step_block_cases h with hb | ⟨_, rfl⟩ | ⟨_, hx⟩
  · exact hb.params
  · rw [controllerStep_params, takeChoice_params]
  · rw [hostTurn_params hx, takeChoice_params]

/-- Settles O57: by the agent that took the step, from the frame of each agent's turn. -/
theorem agentsKeepToTheirState : Obligations.AgentsKeepToTheirState := by
  unfold Obligations.AgentsKeepToTheirState
  intro s t h
  refine ⟨step_params h, fun hm => ?_, fun hc hh => ?_⟩
  · rcases step_block_cases h with hb | ⟨ha, rfl⟩ | ⟨ha, _⟩
    · exact absurd hb.mem hm
    · exact .inr ⟨ha, by simpa using controllerStep_mem (s := takeChoice s) (by simpa using hm)⟩
    · exact .inl ha
  · rcases step_block_cases h with hb | ⟨ha, _⟩ | ⟨ha, _⟩
    · exact ⟨hb.ctl, hb.stack, hb.host, hb.mem⟩
    · exact absurd ha hc
    · exact absurd ha hh

end Sys2Proof.Machine

/-! PROOFS. The control invariant: every step keeps the control state legal, and the nesting of activations is bounded
(00_scope.md R14; 10_state.md R29, R30; 30_encoding.md R110, R111; 60_exceptions.md R331). -/

namespace Sys2Proof.Machine

/-! ### The bound on nested activations -/

/-- How many activations can be nested from this one up, itself counted: its calls are to sub-machines of a smaller number. -/
def nesting : Frame → Nat
  | .setSelect _ _ => 1
  | .isAborted => 1
  | .transfer _ _ => 2
  | .issueAddr _ _ _ => 2
  | .issue _ _ _ => 3
  | .waitReady _ => 4
  | .enableWrite => 4
  | .diagStatus _ => 4
  | .eraseSeq _ => 5

theorem nesting_pos (fr : Frame) : 1 ≤ nesting fr := by cases fr <;> simp [nesting]

theorem nesting_le_five (fr : Frame) : nesting fr ≤ 5 := by cases fr <;> simp [nesting]

/-- A callee is a sub-machine of a smaller number than its caller. -/
theorem nesting_lt_of_waitsFor {caller callee : Frame} (h : waitsFor caller callee = true) :
    nesting callee < nesting caller := by
  unfold waitsFor at h
  split at h
  case h_15 => cases h
  all_goals simp [nesting]

/-- Under a legal stack's top of number `n` there are at most `5 - n` activations. -/
theorem stackLegal_length {fr : Frame} {below : List Frame} (h : stackLegal (fr :: below) = true) :
    below.length + nesting fr ≤ 5 := by
  induction below generalizing fr with
  | nil => simpa using nesting_le_five fr
  | cons caller rest ih =>
    rw [stackLegal_cons, Bool.and_eq_true] at h
    have hrest := ih h.2
    have hcall := nesting_lt_of_waitsFor h.1
    simp only [List.length_cons]
    omega

theorem stackLegal_length_le_five {k : List Frame} (h : stackLegal k = true) : k.length ≤ 5 := by
  cases k with
  | nil => simp
  | cons fr below =>
    have hb := stackLegal_length h
    have hp := nesting_pos fr
    simp only [List.length_cons]
    omega

/-! ### What the control invariant reads -/

/-- The OP of the operation a stack belongs to: that of its outermost activation, 0 for an empty stack. -/
def outerOp (k : List Frame) : BitVec 4 := (k.getLast?.map frameOp).getD 0#4

@[simp] theorem outerOp_cons_cons (a b : Frame) (k : List Frame) : outerOp (a :: b :: k) = outerOp (b :: k) := by
  simp [outerOp]

/-- Frames above another one do not change the outermost one. -/
theorem outerOp_append_cons (above : List Frame) (fr : Frame) (below : List Frame) :
    outerOp (above ++ fr :: below) = outerOp (fr :: below) := by
  rw [outerOp, List.getLast?_append_cons, outerOp]

theorem outerOp_sameCall {fr self : Frame} (h : sameCall fr self = true) (below : List Frame) :
    outerOp (self :: below) = outerOp (fr :: below) := by
  cases below with
  | nil => exact sameCall_frameOp h
  | cons b k => simp

theorem controlOk_iff (s : State) :
    controlOk s ↔ stackLegal s.stack = true ∧ s.host.busy = !s.stack.isEmpty ∧ s.ctl.top = outerOp s.stack := by
  unfold controlOk outerOp
  cases s.stack.getLast? <;> rfl

/-- The control invariant reads the stack, BUSY and TOP only. -/
theorem controlOk_of_eq {s t : State} (h : controlOk s) (hk : t.stack = s.stack) (hb : t.host.busy = s.host.busy)
    (ht : t.ctl.top = s.ctl.top) : controlOk t := by
  rw [controlOk_iff] at h ⊢
  rwa [hk, hb, ht]

theorem SameBlock.keeps_controlOk {s t : State} (hst : SameBlock s t) (h : controlOk s) : controlOk t :=
  controlOk_of_eq h hst.stack (by rw [hst.host]) (by rw [hst.ctl])

/-- An idle block: no activation, BUSY and TOP clear (30_encoding.md R111; 70_reset_and_hazards.md R350). -/
theorem controlOk_idle {s : State} (hk : s.stack = []) (hb : s.host.busy = false) (ht : s.ctl.top = 0#4) : controlOk s := by
  rw [controlOk_iff, hk, hb, ht]; exact ⟨rfl, rfl, rfl⟩

/-- A started operation (R110): its first line, BUSY set, TOP its number. -/
theorem controlOk_started {s : State} {fr : Frame} (hs : isStart fr = true) (hk : s.stack = [fr]) (hb : s.host.busy = true)
    (ht : s.ctl.top = frameOp fr) : controlOk s := by
  rw [controlOk_iff, hk, hb, ht]; exact ⟨start_legal hs, rfl, rfl⟩

/-! ### Moves of the stack that keep it legal -/

/-- The activations above `fr` end, and `fr` goes on at another of its labels. -/
theorem controlOk_resume {s : State} {above below : List Frame} {fr self : Frame} (h : controlOk s)
    (hs : s.stack = above ++ fr :: below) (hself : sameCall fr self = true) : controlOk (s.withStack (self :: below)) := by
  rw [controlOk_iff, hs] at h
  obtain ⟨hlegal, hbusy, htop⟩ := h
  refine (controlOk_iff _).mpr ⟨?_, ?_, ?_⟩
  · rw [State.withStack_stack, sameCall_stackLegal hself]
    exact legal_suffix hlegal
  · rw [State.withStack_host, hbusy]
    simp
  · rw [State.withStack_ctl, State.withStack_stack, htop, outerOp_append_cons, outerOp_sameCall hself]

/-- The top activation calls a sub-machine it may wait for. -/
theorem controlOk_call {s : State} {self callee : Frame} {below : List Frame} (h : controlOk (s.withStack (self :: below)))
    (hw : waitsFor self callee = true) : controlOk (s.withStack (callee :: self :: below)) := by
  rw [controlOk_iff] at h ⊢
  obtain ⟨hlegal, hbusy, htop⟩ := h
  refine ⟨?_, hbusy, ?_⟩
  · rw [State.withStack_stack, stackLegal_cons, hw]
    exact hlegal
  · rw [State.withStack_stack, outerOp_cons_cons]
    exact htop

/-- A return keeps the control state legal, at the host or at the activation that goes on (30_encoding.md R111). -/
theorem controlOk_deliver {s : State} {fr : Frame} {below : List Frame} (r : Result) (h : controlOk s)
    (hs : s.stack = fr :: below) : controlOk (deliver below r s) := by
  rcases deliver_cases below r s with ⟨r', he⟩ | ⟨above, caller, rest, self, c, hk, hself, ⟨r', hr⟩, he⟩ <;> rw [he]
  · exact controlOk_idle rfl rfl rfl
  · have hc : controlOk (s.withCtl c) := controlOk_of_eq h rfl rfl (resumeFrame_top hr)
    exact controlOk_resume (above := fr :: above) hc (by simp [hs, hk]) hself

/-! ### The agents' steps -/

/-- A line alone, its activation left in place, keeps the control state legal. -/
theorem controlOk_stepFrame (fr : Frame) {s : State} (h : controlOk s) : controlOk (actState (stepFrame fr s)) := by
  obtain ⟨_, hhost, hstack⟩ := stepFrame_keeps fr s
  exact controlOk_of_eq h hstack (by rw [hhost]) (stepFrame_top fr s)

theorem controlOk_controllerStep {s : State} (h : controlOk s) : controlOk (controllerStep s) := by
  rcases controllerStep_runs s with he | ⟨fr, below, hf, hs⟩
  · rwa [he]
  have hline := controlOk_stepFrame fr h
  have hstack : (actState (stepFrame fr s)).stack = fr :: below := (stepFrame_keeps fr s).2.2.trans hs
  rcases controllerStep_cases hf hs with
    ⟨self, hself, _, he⟩ | ⟨self, callee, hself, hw, _, _, he⟩ | ⟨r, _, he⟩ | ⟨_, he⟩ <;> rw [he]
  · exact controlOk_resume (above := []) hline hstack hself
  · exact controlOk_call (controlOk_resume (above := []) hline hstack hself) hw
  · exact controlOk_deliver r hline hstack
  · exact hline

/-- No argument register is STATUS. -/
theorem writeArg_busy (o v : Word) (h : HostRegs) : (writeArg o v h).busy = h.busy := by
  unfold writeArg; split <;> rfl

theorem controlOk_writeCmd {v : Word} {s t : State} (h : controlOk s) (hw : writeCmd v s = .next t) : controlOk t := by
  rcases writeCmd_cases v s with ⟨_, he⟩ | ⟨_, _, he⟩ | ⟨_, _, e, _, he⟩ | ⟨_, _, op, f, fr, hop, hstart, he⟩ <;>
    rw [he] at hw <;> cases hw
  · exact h
  · exact h
  · exact h
  · exact controlOk_started hstart rfl rfl hop.symm

theorem controlOk_hostTurn {s t : State} (h : controlOk s) (ht : hostTurn s = .next t) : controlOk t := by
  rcases hostTurn_cases ht with ⟨rfl, _⟩ | ⟨r, q, _, hreq⟩
  · exact h
  rcases hreq with ⟨_, rfl⟩ | ⟨_, rfl⟩ | ⟨v, rfl⟩ | ⟨a, v, rfl⟩ | ⟨o, v, rfl⟩ | ⟨v, hv⟩
  · exact h
  · exact controlOk_idle rfl rfl rfl
  · exact h
  · exact h
  · exact controlOk_of_eq h rfl (writeArg_busy o v s.host) rfl
  · exact controlOk_writeCmd (s := s.withHostQ q) h hv

/-- Every step of every agent keeps the control state legal. -/
theorem step_controlOk {s t : State} (h : controlOk s) (hs : step s = .next t) : controlOk t := by
  have hu : controlOk (takeChoice s) := (sameBlock_takeChoice s).keeps_controlOk h
  rcases step_block_cases hs with hb | ⟨_, rfl⟩ | ⟨_, hx⟩
  · exact hb.keeps_controlOk h
  · exact controlOk_controllerStep hu
  · exact controlOk_hostTurn hu hx

/-- Settles O55: the invariant by the agent that took the step, the bound by the numbering of sub-machines. -/
theorem controlInvariantKept : Obligations.ControlInvariantKept := by
  unfold Obligations.ControlInvariantKept
  exact ⟨fun _ _ h hs => step_controlOk h hs, fun _ h => stackLegal_length_le_five h⟩

end Sys2Proof.Machine

/-! PROOFS. What a running host operation may write, line by line and when it returns: the sub-machines that run under it, the
kind of result each of them returns, and so the internal registers and the result registers it reaches (10_state.md R25, R27,
R29, R32; 30_encoding.md R111). -/

namespace Sys2Proof.Machine

/-! ### The sub-machines of an operation -/

/-- The numbers (`frameOp`) of the sub-machines that can run under an outermost activation: itself and what it calls, directly or
not (00_scope.md R14; the calls are `waitsFor`). -/
def subMachines : Frame → List (BitVec 4)
  | .setSelect _ _ => [1]
  | .isAborted => [2]
  | .transfer _ _ => [1, 2, 3]
  | .issue _ _ _ => [1, 2, 3, 4]
  | .issueAddr _ _ _ => [1, 5]
  | .waitReady _ => [1, 2, 3, 4, 6]
  | .enableWrite => [1, 2, 3, 4, 7]
  | .eraseSeq _ => [1, 2, 3, 4, 6, 7, 8]
  | .diagStatus _ => [1, 2, 3, 4, 9]

theorem frameOp_mem_subMachines_self (o : Frame) : frameOp o ∈ subMachines o := by
  cases o <;> simp [subMachines, frameOp]

theorem frameOp_mem_subMachines_callee {o caller callee : Frame} (hw : waitsFor caller callee = true)
    (h : frameOp caller ∈ subMachines o) : frameOp callee ∈ subMachines o := by
  unfold waitsFor at hw
  split at hw
  case h_15 => cases hw
  all_goals cases o <;> simp [subMachines, frameOp] at h ⊢

/-- The running activation of a legal stack is a sub-machine of the operation that the outermost one names. -/
theorem frameOp_mem_subMachines {o fr : Frame} {below : List Frame} (hl : stackLegal (fr :: below) = true)
    (ho : (fr :: below).getLast? = some o) : frameOp fr ∈ subMachines o := by
  induction below generalizing fr with
  | nil =>
    obtain rfl : fr = o := by simpa using ho
    exact frameOp_mem_subMachines_self fr
  | cons caller rest ih =>
    rw [stackLegal_cons, Bool.and_eq_true] at hl
    exact frameOp_mem_subMachines_callee hl.1 (ih hl.2 (by simpa using ho))

/-! ### Internal registers -/

/-- The internal registers of the transport and of the sub-machines it calls, with TOP, which the return to the host clears. -/
def transportRegs (c d : Ctl) : Ctl :=
  { c with
    csAct := d.csAct, xTxk := d.xTxk, xRxk := d.xRxk, xTxb := d.xTxb, xRxb := d.xRxb, xImm := d.xImm, txRem := d.txRem
    rxRem := d.rxRem, skipRem := d.skipRem, sent := d.sent, recv := d.recv, tl := d.tl, rl := d.rl, prog := d.prog
    xabort := d.xabort, xb := d.xb, stat := d.stat, top := d.top }

/-- `c` with the internal registers that an operation may write taken from `d` (10_state.md R29, R32). -/
def operationRegs (o : Frame) (c d : Ctl) : Ctl :=
  match o with
  | .setSelect _ _ => { c with csAct := d.csAct, top := d.top }
  | .isAborted => { c with top := d.top }
  | .transfer _ _ => transportRegs c d
  | .issue _ _ _ | .enableWrite => { transportRegs c d with dOpc := d.dOpc }
  | .issueAddr _ _ _ => { c with aw := d.aw, ai := d.ai, csAct := d.csAct, top := d.top }
  | .waitReady _ => { transportRegs c d with dOpc := d.dOpc, pabort := d.pabort }
  | .diagStatus _ => { transportRegs c d with dOpc := d.dOpc, gacc := d.gacc, gi := d.gi, gabort := d.gabort }
  | .eraseSeq _ =>
    { transportRegs c d with dOpc := d.dOpc, pabort := d.pabort, sk := d.sk, sabort := d.sabort, sfirst := d.sfirst }

theorem operationRegs_self (o : Frame) (c : Ctl) : operationRegs o c c = c := by cases o <;> rfl

theorem operationRegs_top (o : Frame) (c : Ctl) (v : BitVec 4) :
    operationRegs o c { c with top := v } = { c with top := v } := by cases o <;> rfl

theorem operationRegs_operationRegs (o : Frame) (c d e : Ctl) :
    operationRegs o (operationRegs o c d) e = operationRegs o c e := by cases o <;> rfl

/-- What a sub-machine of an operation writes is among what the operation may write. -/
theorem operationRegs_ownRegs {o fr : Frame} (h : frameOp fr ∈ subMachines o) (c d : Ctl) :
    operationRegs o c (ownRegs fr c d) = ownRegs fr c d := by
  cases o <;> cases fr <;> first | rfl | simp [subMachines, frameOp] at h

/-! ### Results -/

/-- The kind of result that each sub-machine returns (40_csr_access.md R140, R141; 41_fifo_transport.md R150;
42_command_dispatcher.md R180, R181; 43_status_poller.md R200 to R202; 44_erase_sequencer.md R230). -/
def returns (fr : Frame) (r : Result) : Bool :=
  match fr with
  | .setSelect _ _ | .issueAddr _ _ _ => (r matches .completed)
  | .isAborted => (r matches .sampled _)
  | .transfer _ _ | .issue _ _ _ | .enableWrite => (r matches .moved _ _ _ _)
  | .waitReady _ => (r matches .polled _ _)
  | .diagStatus _ => (r matches .composite _ _)
  | .eraseSeq _ => (r matches .sequenced _ _ _)

/-- A line that ends its activation returns the sub-machine's kind of result. -/
theorem stepFrame_returns {fr : Frame} {r : Result} {s t : State} (h : stepFrame fr s = .done r t) : returns fr r = true := by
  cases fr with
  | setSelect l a => cases l <;> cases h; rfl
  | isAborted => cases h; rfl
  | transfer l x => cases l <;> simp only [stepFrame, stepTransfer] at h <;> (repeat' split at h) <;> cases h
  | issue l o x => cases l <;> simp only [stepFrame, stepIssue] at h <;> (repeat' split at h) <;> cases h
  | issueAddr l o a =>
    cases l <;> simp only [stepFrame, stepIssueAddr] at h <;> (repeat' split at h) <;> cases h
    rfl
  | waitReady l =>
    cases l <;> simp only [stepFrame, stepWaitReady] at h <;> (repeat' split at h) <;> cases h
    rfl
  | enableWrite => cases h
  | diagStatus l => cases l <;> cases h; rfl
  | eraseSeq l =>
    cases l <;> simp only [stepFrame, stepEraseSeq] at h <;> (repeat' split at h) <;> cases h
    rfl

/-- So does an activation that its callee's return ends: a transfer with its own counts, ISSUE and ENABLE_WRITE with their
callee's. -/
theorem resumeFrame_returns {fr callee : Frame} {r r' : Result} {s t : State} (hw : waitsFor fr callee = true)
    (hr : returns callee r = true) (h : resumeFrame fr r s = .done r' t) : returns fr r' = true := by
  cases fr with
  | transfer l x =>
    simp only [resumeFrame] at h; unfold resumeTransfer at h
    split at h <;> cases h
    rfl
  | issue l o x =>
    cases l <;> cases h
    cases callee <;> first | exact hr | exact absurd hw Bool.false_ne_true
  | enableWrite =>
    cases h
    cases callee <;> first | exact hr | exact absurd hw Bool.false_ne_true
  | setSelect l a => cases h
  | isAborted => cases h
  | issueAddr l o a => cases l <;> cases h
  | waitReady l =>
    simp only [resumeFrame] at h; unfold resumeWaitReady at h
    split at h <;> cases h
  | diagStatus l => cases l <;> simp only [resumeFrame, resumeDiagStatus] at h <;> (repeat' split at h) <;> cases h
  | eraseSeq l => cases l <;> simp only [resumeFrame, resumeEraseSeq] at h <;> (repeat' split at h) <;> cases h

/-- `h` with the host registers that an operation writes at its return taken from `k`: BUSY, ABORTED and the result registers that
its result names (10_state.md R25; 30_encoding.md R111). -/
def resultRegs (o : Frame) (h k : HostRegs) : HostRegs :=
  match o with
  | .setSelect _ _ | .issueAddr _ _ _ => { h with busy := k.busy, aborted := k.aborted }
  | .transfer _ _ | .issue _ _ _ | .enableWrite =>
    { h with
      busy := k.busy, aborted := k.aborted, resSent := k.resSent, resRecv := k.resRecv, resSkipLeft := k.resSkipLeft }
  | .isAborted | .waitReady _ | .diagStatus _ => { h with busy := k.busy, aborted := k.aborted, resValue := k.resValue }
  | .eraseSeq _ => { h with busy := k.busy, aborted := k.aborted, resValue := k.resValue, resStep := k.resStep }

theorem resultRegs_self (o : Frame) (h : HostRegs) : resultRegs o h h = h := by cases o <;> rfl

theorem resultRegs_resultRegs (o : Frame) (h k m : HostRegs) : resultRegs o (resultRegs o h k) m = resultRegs o h m := by
  cases o <;> rfl

/-- The return to the host writes only what the operation's kind of result names. -/
theorem returnToHost_host {o : Frame} {r : Result} (hr : returns o r = true) (s : State) :
    (returnToHost r s).host = resultRegs o s.host (returnToHost r s).host := by
  cases o <;> cases r <;> first | rfl | cases hr

/-! ### One line of an operation -/

/-- From `s` to `t` only registers that the operation of the outermost activation `o` may write are written. -/
structure OperationWrites (o : Frame) (s t : State) : Prop where
  ctl : t.ctl = operationRegs o s.ctl t.ctl
  host : t.host = resultRegs o s.host t.host

theorem OperationWrites.trans {o : Frame} {s t u : State} (h : OperationWrites o s t) (h' : OperationWrites o t u) :
    OperationWrites o s u where
  ctl := by
    have hc := h'.ctl
    rwa [h.ctl, operationRegs_operationRegs] at hc
  host := by
    have hh := h'.host
    rwa [h.host, resultRegs_resultRegs] at hh

theorem OperationWrites.of_eq {o : Frame} {s t : State} (hc : t.ctl = s.ctl) (hh : t.host = s.host) : OperationWrites o s t :=
  ⟨by rw [hc, operationRegs_self], by rw [hh, resultRegs_self]⟩

/-- The operation may write the registers of its sub-machines. -/
theorem OperationWrites.of_ownRegs {o fr : Frame} {s t : State} (h : frameOp fr ∈ subMachines o)
    (hc : t.ctl = ownRegs fr s.ctl t.ctl) (hh : t.host = s.host) : OperationWrites o s t where
  ctl := by rw [hc, operationRegs_ownRegs h]
  host := by rw [hh, resultRegs_self]

theorem operationWrites_stepFrame {o fr : Frame} (h : frameOp fr ∈ subMachines o) (s : State) :
    OperationWrites o s (actState (stepFrame fr s)) :=
  .of_ownRegs h (stepFrame_ctl fr s) (stepFrame_keeps fr s).2.1

theorem operationWrites_returnToHost {o : Frame} {r : Result} (hr : returns o r = true) (s : State) :
    OperationWrites o s (returnToHost r s) :=
  ⟨(operationRegs_top o s.ctl 0).symm, returnToHost_host hr s⟩

/-- A return goes on in one of the operation's own sub-machines, or ends the operation with its own kind of result. -/
theorem operationWrites_deliver {o callee : Frame} {below : List Frame} {r : Result} (s : State)
    (hl : stackLegal (callee :: below) = true) (ho : (callee :: below).getLast? = some o) (hr : returns callee r = true) :
    OperationWrites o s (deliver below r s) := by
  induction below generalizing callee r with
  | nil =>
    obtain rfl : callee = o := by simpa using ho
    exact operationWrites_returnToHost hr s
  | cons fr rest ih =>
    rw [stackLegal_cons, Bool.and_eq_true] at hl
    have ho' : (fr :: rest).getLast? = some o := by simpa using ho
    unfold deliver
    rcases resumeFrame_cases fr r s with ⟨self, c, _, h⟩ | ⟨r', h⟩
    · simp only [h]
      exact .of_ownRegs (frameOp_mem_subMachines hl.2 ho') (resumeFrame_ctl h) rfl
    · simp only [h]
      exact ih hl.2 ho' (resumeFrame_returns hl.1 hr h)

/-- The controller's step under a legal stack writes only what the operation of the outermost activation may write. -/
theorem operationWrites_controllerStep {o : Frame} {s : State} (hl : stackLegal s.stack = true)
    (ho : s.stack.getLast? = some o) : OperationWrites o s (controllerStep s) := by
  rcases controllerStep_runs s with he | ⟨fr, below, hf, hs⟩
  · rw [he]; exact .of_eq rfl rfl
  rw [hs] at hl ho
  have hline := operationWrites_stepFrame (frameOp_mem_subMachines hl ho) s
  rcases controllerStep_cases hf hs with ⟨_, _, _, he⟩ | ⟨_, _, _, _, _, _, he⟩ | ⟨r, hd, he⟩ | ⟨_, he⟩ <;> rw [he]
  · exact hline.trans (.of_eq rfl rfl)
  · exact hline.trans (.of_eq rfl rfl)
  · exact hline.trans (operationWrites_deliver _ hl ho (stepFrame_returns hd))
  · exact hline

/-! ### What an operation without a transport, a dispatcher or a chip-select line leaves alone -/

/-- Outside the internal registers, the stack and the host registers, the controller's step is its line. -/
theorem controllerStep_line_frame {s : State} {fr : Frame} {below : List Frame} (hf : s.faulted = none)
    (hs : s.stack = fr :: below) :
    controllerStep s =
      { actState (stepFrame fr s) with
        ctl := (controllerStep s).ctl, stack := (controllerStep s).stack, host := (controllerStep s).host } := by
  rcases controllerStep_cases hf hs with ⟨_, _, _, h⟩ | ⟨_, _, _, _, _, _, h⟩ | ⟨r, _, h⟩ | ⟨_, h⟩ <;> rw [h]
  · rfl
  · rfl
  · exact deliver_frame below r _

/-- The controller stays, or its step is, outside the registers, a line of one of the operation's sub-machines. -/
theorem controllerStep_subMachine {o : Frame} {s : State} (hl : stackLegal s.stack = true) (ho : s.stack.getLast? = some o) :
    controllerStep s = s ∨
      ∃ fr, frameOp fr ∈ subMachines o ∧
        controllerStep s =
          { actState (stepFrame fr s) with
            ctl := (controllerStep s).ctl, stack := (controllerStep s).stack, host := (controllerStep s).host } := by
  rcases controllerStep_runs s with he | ⟨fr, below, hf, hs⟩
  · exact .inl he
  · rw [hs] at hl ho
    exact .inr ⟨fr, frameOp_mem_subMachines hl ho, controllerStep_line_frame hf hs⟩

theorem ne_of_frameOp {n : BitVec 4} {l : List (BitVec 4)} {fr g : Frame} (hfr : frameOp fr ∈ l) (hn : n ∉ l)
    (hg : frameOp g = n) : fr ≠ g := by
  rintro rfl
  exact hn (hg ▸ hfr)

/-- A line outside the transport leaves SH and RXQ. -/
theorem stepFrame_engine {fr : Frame} (h : ∀ l x, fr ≠ .transfer l x) (s : State) :
    (actState (stepFrame fr s)).engine = { s.engine with txq := (actState (stepFrame fr s)).engine.txq } := by
  obtain ⟨_, _, _, hrxq, _⟩ := stepFrame_outside fr s
  have hsh : (actState (stepFrame fr s)).engine.sh = s.engine.sh := by
    rcases (stepFrame_frame fr s).2 with he | ⟨_, _, he⟩ | ⟨_, _, _, he⟩ <;> rw [he]
  calc
    (actState (stepFrame fr s)).engine =
        ⟨_, (actState (stepFrame fr s)).engine.sh, (actState (stepFrame fr s)).engine.rxq⟩ := rfl
    _ = _ := by rw [hrxq h, hsh]

section
variable {o : Frame} {s : State} (hl : stackLegal s.stack = true) (ho : s.stack.getLast? = some o)
include hl ho

/-- An operation that runs no transfer leaves buffer memory, SH and RXQ. -/
theorem controllerStep_no_transfer (h : 3#4 ∉ subMachines o) :
    (controllerStep s).mem = s.mem ∧
      (controllerStep s).engine = { s.engine with txq := (controllerStep s).engine.txq } := by
  rcases controllerStep_subMachine hl ho with he | ⟨fr, hfr, he⟩ <;> rw [he]
  · exact ⟨rfl, rfl⟩
  · have hx : ∀ l x, fr ≠ .transfer l x := fun _ _ => ne_of_frameOp hfr h rfl
    exact ⟨((stepFrame_outside fr s).1 (hx .X7)).1, stepFrame_engine hx s⟩

/-- An operation that runs no transfer, ISSUE or ISSUE_ADDR leaves the engine, and enters no fault. -/
theorem controllerStep_no_port (h3 : 3#4 ∉ subMachines o) (h4 : 4#4 ∉ subMachines o) (h5 : 5#4 ∉ subMachines o) :
    (controllerStep s).engine = s.engine ∧ (controllerStep s).faulted = s.faulted := by
  rcases controllerStep_subMachine hl ho with he | ⟨fr, hfr, he⟩ <;> rw [he]
  · exact ⟨rfl, rfl⟩
  · obtain ⟨_, _, _, _, hport⟩ := stepFrame_outside fr s
    exact hport (fun _ _ => ne_of_frameOp hfr h3 rfl) (fun _ _ _ => ne_of_frameOp hfr h4 rfl)
      (fun _ _ _ => ne_of_frameOp hfr h5 rfl)

/-- An operation that runs no SET_SELECT leaves the chip-select state and the peer. -/
theorem controllerStep_no_select (h : 1#4 ∉ subMachines o) :
    (controllerStep s).cs = s.cs ∧ (controllerStep s).peer = s.peer := by
  rcases controllerStep_subMachine hl ho with he | ⟨fr, hfr, he⟩ <;> rw [he]
  · exact ⟨rfl, rfl⟩
  · obtain ⟨_, hcs, hpin, _⟩ := stepFrame_outside fr s
    have hx : ∀ l a, fr ≠ .setSelect l a := fun _ _ => ne_of_frameOp hfr h rfl
    exact ⟨hcs hx, (hpin (hx .CS2)).2.1⟩

end

/-! ### STAT -/

/-- No waiting activation that goes on writes STAT. -/
theorem resumeFrame_stat {fr self : Frame} {r : Result} {s : State} {c : Ctl}
    (h : resumeFrame fr r s = .goto self (s.withCtl c)) : c.stat = s.ctl.stat := by
  cases fr with
  | transfer l x =>
    have hstat : ∀ g u, resumeTransfer l x r s = .goto g u → u.ctl.stat = s.ctl.stat := by
      unfold resumeTransfer
      intro g u hg
      split at hg <;> cases hg <;> rfl
    exact hstat self _ h
  | _ => rw [resumeFrame_ctl h]; rfl

theorem deliver_stat (k : List Frame) (r : Result) (s : State) : (deliver k r s).ctl.stat = s.ctl.stat := by
  rcases deliver_cases k r s with ⟨r', h⟩ | ⟨_, _, _, _, _, _, _, ⟨_, hr⟩, h⟩ <;> rw [h]
  · rfl
  · exact resumeFrame_stat hr

/-- The controller writes STAT only at an X7 whose destination is `stat` (10_state.md R27). -/
theorem controllerStep_stat {s : State} (h : (∀ x below, s.stack ≠ .transfer .X7 x :: below) ∨ s.ctl.xRxk ≠ .stat) :
    (controllerStep s).ctl.stat = s.ctl.stat := by
  rcases controllerStep_runs s with he | ⟨fr, below, hf, hs⟩
  · rw [he]
  have hline : (actState (stepFrame fr s)).ctl.stat = s.ctl.stat := by
    by_cases hx : ∃ x, fr = .transfer .X7 x
    · obtain ⟨x, rfl⟩ := hx
      exact (stepFrame_store x s).1 (h.resolve_left fun hne => hne x below hs)
    · exact ((stepFrame_outside fr s).1 fun x he => hx ⟨x, he⟩).2
  rcases controllerStep_cases hf hs with ⟨_, _, _, he⟩ | ⟨_, _, _, _, _, _, he⟩ | ⟨r, _, he⟩ | ⟨_, he⟩ <;> rw [he]
  · exact hline
  · exact hline
  · exact (deliver_stat below r _).trans hline
  · exact hline

/-! ### The statements -/

/-- While an operation runs, its meaning is the controller's step, under an outermost activation that has its number. -/
theorem operate_writes {op : BitVec 4} {f : CmdFields} {refuse : State → Option BlockFault} {activate : Ctl → Frame}
    {s t : State} (hc : controlOk s) (hb : s.host.busy = true) (ht : s.ctl.top = op)
    (h : operate op f refuse activate s = .next t) :
    ∃ o, frameOp o = op ∧ s.stack.getLast? = some o ∧ t = controllerStep s ∧ OperationWrites o s t := by
  rw [operate_busy hb ht] at h
  cases h
  obtain ⟨hlegal, hbusy, htop⟩ := hc
  cases hlast : s.stack.getLast? with
  | none => exact absurd (List.getLast?_eq_none_iff.mp hlast) (running_stack ⟨hlegal, hbusy, htop⟩ hb)
  | some o =>
    rw [hlast, ht] at htop
    exact ⟨o, htop.symm, rfl, rfl, operationWrites_controllerStep hlegal hlast⟩

/-- Settles O45: the registers by the sub-machines of the operation, the rest by the sub-machines it does not run. -/
theorem shortOperationFrames : Obligations.ShortOperationFrames := by
  unfold Obligations.ShortOperationFrames
  intro f s t hc hb
  have hl := hc.1
  refine ⟨fun ht h => ?_, fun ht h => ?_, fun ht h => ?_⟩
  · obtain ⟨o, hop, ho, rfl, hw⟩ := operate_writes (refuse := noRefusal) hc hb ht h
    cases o with
    | setSelect l a =>
      obtain ⟨hmem, _⟩ := controllerStep_no_transfer hl ho (by simp [subMachines])
      obtain ⟨heng, hfault⟩ :=
        controllerStep_no_port hl ho (by simp [subMachines]) (by simp [subMachines]) (by simp [subMachines])
      exact ⟨hw.ctl, heng, hmem, hfault, hw.host⟩
    | _ => cases hop
  · obtain ⟨o, hop, ho, rfl, hw⟩ := operate_writes (refuse := noRefusal) hc hb ht h
    cases o with
    | isAborted =>
      obtain ⟨hmem, _⟩ := controllerStep_no_transfer hl ho (by simp [subMachines])
      obtain ⟨heng, hfault⟩ :=
        controllerStep_no_port hl ho (by simp [subMachines]) (by simp [subMachines]) (by simp [subMachines])
      obtain ⟨hcs, hpeer⟩ := controllerStep_no_select hl ho (by simp [subMachines])
      exact ⟨hw.ctl, heng, hcs, hpeer, hmem, hfault, hw.host⟩
    | _ => cases hop
  · obtain ⟨o, hop, ho, rfl, hw⟩ := operate_writes (refuse := refuseWideAddress) hc hb ht h
    cases o with
    | issueAddr l opc a =>
      obtain ⟨hmem, heng⟩ := controllerStep_no_transfer hl ho (by simp [subMachines])
      exact ⟨hw.ctl, heng, hmem, hw.host⟩
    | _ => cases hop

/-- Settles O46: the registers by the sub-machines of the operation, STAT by the one line that writes it. -/
theorem longOperationFrames : Obligations.LongOperationFrames := by
  unfold Obligations.LongOperationFrames
  intro f s t hc hb
  refine ⟨fun ht h => ?_, fun ht h => ?_, fun ht h => ?_, fun ht h => ?_, fun ht h => ?_, fun ht h => ?_, fun h hx => ?_⟩
  case refine_7 =>
    rw [step_chosen] at h
    rcases controllerTurn_cases (taken .controller 0 s) with ⟨_, he⟩ | ⟨_, he⟩ <;> cases he.symm.trans h
    · rfl
    · exact controllerStep_stat (s := taken .controller 0 s) hx
  all_goals
    obtain ⟨o, hop, _, _, hw⟩ := operate_writes (refuse := noRefusal) hc hb ht h
    cases o <;> cases hop
    exact ⟨hw.ctl, hw.host⟩

end Sys2Proof.Machine

/-! PROOFS. The registers the host sees: the register map at `HOST_BASE + offset`, STATUS bit by bit, and the state that reset
leaves (10_state.md R21 to R25, R43, R47, R48; 20_memory.md R86; 60_exceptions.md R311; 70_reset_and_hazards.md R357). -/

namespace Sys2Proof.Machine

/-! ### Accesses at an aligned offset -/

section
variable (s : State) (d : Nat) (q : List HostReq) {o : Word} (v : Word) (ha : o.extractLsb' 0 2 = 0#2)
include ha

theorem accessInModel_word : accessInModel o .word = true := by simp [accessInModel, ha]

/-- A word read at an aligned offset answers the register there. -/
theorem step_host_read :
    step (chosen .host d { s with hostQ := .read (s.params.hostBase + o) .word :: q }) =
      .next { taken .host d s with hostQ := q, hostData := readHostReg o s } := by
  have hread : ∀ u : State, u.params = s.params → hostRequest (.read (s.params.hostBase + o) .word) u =
      .next (u.withHostData (readHostReg o u)) := by
    intro u hu
    simp [hostRequest, hu, accessInModel_word ha]
  exact hread ((taken .host d s).withHostQ q) rfl

/-- A word write at an aligned offset other than CMD's sets what `writeArg` says, busy or not. -/
theorem step_host_write (ho : o ≠ 0) :
    step (chosen .host d { s with hostQ := .write (s.params.hostBase + o) .word v :: q }) =
      .next { taken .host d s with hostQ := q, host := writeArg o v s.host } := by
  have hwrite : ∀ u : State, u.params = s.params → hostRequest (.write (s.params.hostBase + o) .word v) u =
      .next (u.withHost (writeArg o v u.host)) := by
    intro u hu
    simp only [hostRequest, hu, hostOffset_add, accessInModel_word ha, if_true, if_neg ho]
  exact hwrite ((taken .host d s).withHostQ q) rfl

end

/-- Above RES_STEP every offset is reserved (log entry 19). -/
theorem readHostReg_reserved {o : Word} (s : State) (h : 0x30 ≤ o.toNat) : readHostReg o s = 0 := by
  unfold readHostReg
  split <;> first | rfl | omega

/-- Above ARG_SKIP no offset is writable. -/
theorem writeArg_readOnly {o : Word} (v : Word) (h : HostRegs) (ho : 0x18 ≤ o.toNat) : writeArg o v h = h := by
  unfold writeArg
  split <;> first | rfl | omega

/-- Settles O10: each clause is a read or a write at an aligned offset. -/
theorem hostRegisterMap : Obligations.HostRegisterMap := by
  unfold Obligations.HostRegisterMap
  refine ⟨fun s q o v hov => ?_, fun s q o ha ho => ?_, fun s q o v h hoh => ?_, fun s q o v ha ho => ?_⟩
  · simp only [List.mem_cons, Prod.mk.injEq, List.not_mem_nil, or_false] at hov
    rcases hov with ⟨rfl, rfl⟩ | ⟨rfl, rfl⟩ | ⟨rfl, rfl⟩ | ⟨rfl, rfl⟩ | ⟨rfl, rfl⟩ | ⟨rfl, rfl⟩ | ⟨rfl, rfl⟩ | ⟨rfl, rfl⟩ |
      ⟨rfl, rfl⟩ | ⟨rfl, rfl⟩ | ⟨rfl, rfl⟩ | ⟨rfl, rfl⟩ <;> exact step_host_read s 0 q (by decide)
  · rw [step_host_read s 0 q ha, readHostReg_reserved s ho]
  · simp only [List.mem_cons, Prod.mk.injEq, List.not_mem_nil, or_false] at hoh
    rcases hoh with ⟨rfl, rfl⟩ | ⟨rfl, rfl⟩ | ⟨rfl, rfl⟩ | ⟨rfl, rfl⟩ | ⟨rfl, rfl⟩ <;>
      exact step_host_write s 0 q v (by decide) (by decide)
  · have hne : o ≠ 0 := by rintro rfl; simp at ho
    rw [step_host_write s 0 q v ha hne, writeArg_readOnly v s.host ho]
    rfl

/-! ### STATUS -/

/-- STATUS bit by bit (10_state.md R24): bits 7 to 4 are FCODE, and there are none above. -/
theorem statusWord_getLsbD (s : State) (i : Nat) :
    (statusWord s).getLsbD i =
      match i with
      | 0 => s.host.busy
      | 1 => s.host.aborted
      | 2 => s.faulted.isSome
      | 3 => false
      | k + 4 => (faultCode s).getLsbD k := by
  simp only [statusWord, BitVec.getLsbD_append]
  rcases i with _ | _ | _ | _ | k <;> simp
  exact BitVec.lt_of_getLsbD

/-- The field of STATUS that starts at bit `k + 4` is the field of FCODE that starts at bit `k`. -/
theorem statusWord_extractLsb' (s : State) (k n : Nat) :
    (statusWord s).extractLsb' (k + 4) n = (faultCode s).extractLsb' k n := by
  ext i hi
  rw [BitVec.getElem_extractLsb', BitVec.getElem_extractLsb', show k + 4 + i = k + i + 4 by omega, statusWord_getLsbD]

/-- Settles O11: the low bits one by one, FCODE and the zeros above it as fields. -/
theorem statusFields : Obligations.StatusFields := by
  unfold Obligations.StatusFields
  intro s
  refine ⟨statusWord_getLsbD s 0, statusWord_getLsbD s 1, statusWord_getLsbD s 2, statusWord_getLsbD s 3, ?_, ?_⟩
  · rw [statusWord_extractLsb' s 4 24]
    ext i hi
    simp
  · rw [statusWord_extractLsb' s 0 4, BitVec.extractLsb'_eq_self, faultCode]
    cases s.faulted with
    | none => rfl
    | some f => cases f <;> rfl

/-! ### Reset -/

/-- Every host register reads 0 after reset. -/
theorem readHostReg_reset :
    ∀ o ∈ [(0x00 : Word), 0x04, 0x08, 0x0C, 0x10, 0x14, 0x18, 0x1C, 0x20, 0x24, 0x28, 0x2C], readHostReg o State.reset = 0 := by
  simp only [List.forall_mem_cons]
  exact ⟨rfl, rfl, rfl, rfl, rfl, rfl, rfl, rfl, rfl, rfl, rfl, rfl, List.forall_mem_nil _⟩

theorem accountsOk_reset : accountsOk State.reset := by
  intro _ l x hx
  simp [State.reset] at hx

theorem flowOk_reset : flowOk State.reset := by
  refine ⟨by decide, by decide, by decide, fun f hf => ?_, rfl, fun _ fr hfr => ?_⟩
  · cases hf
  · cases hfr

theorem memoriesWf_reset : memoriesWf State.reset := ⟨reset_mem_wf, cellsWf_nil, cellsWf_nil⟩

/-- Settles O50: the launch premise and each invariant at reset. -/
theorem resetState : Obligations.ResetState := by
  unfold Obligations.ResetState
  exact ⟨rfl, rfl, readHostReg_reset, rfl, rfl, rfl, by decide, memoriesWf_reset, controlOk_idle rfl rfl rfl,
    flowOk_reset, accountsOk_reset⟩

end Sys2Proof.Machine

/-! PROOFS. Flow control: what the host's turn leaves outside the block, what each line of the controller does to the bytes in
flight, and that no FIFO overflows or underflows (20_memory.md R73, R80; 41_fifo_transport.md R155, R165; 60_exceptions.md
R313). -/

namespace Sys2Proof.Machine

/-! ### What the host's turn leaves alone -/

/-- The serial engine, the pin, the device and the bus trace are in `t` what they are in `s`. -/
structure SameBus (s t : State) : Prop where
  engine : t.engine = s.engine
  cs : t.cs = s.cs
  peer : t.peer = s.peer
  trace : t.trace = s.trace

theorem sameBus_writeCmd {v : Word} {s t : State} (h : writeCmd v s = .next t) : SameBus s t := by
  rcases writeCmd_cases v s with ⟨_, hw⟩ | ⟨_, _, hw⟩ | ⟨_, _, _, _, hw⟩ | ⟨_, _, _, _, _, _, _, hw⟩ <;>
    rw [hw] at h <;> cases h <;> exact ⟨rfl, rfl, rfl, rfl⟩

/-- No request of the host reaches the engine, the pin or the device. -/
theorem sameBus_hostTurn {s t : State} (h : hostTurn s = .next t) : SameBus s t := by
  rcases hostTurn_cases h with ⟨rfl, _⟩ | ⟨r, q, _, ht⟩
  · exact ⟨rfl, rfl, rfl, rfl⟩
  · rcases ht with ⟨_, rfl⟩ | ⟨_, rfl⟩ | ⟨_, rfl⟩ | ⟨_, _, rfl⟩ | ⟨_, _, rfl⟩ | ⟨v, hv⟩
    case inr.inr.inr.inr.inr =>
      obtain ⟨he, hc, hp, ht⟩ := sameBus_writeCmd (s := s.withHostQ q) hv
      exact ⟨he, hc, hp, ht⟩
    all_goals exact ⟨rfl, rfl, rfl, rfl⟩

/-! ### Labels and the bytes in flight -/

/-- A label's condition stays when bytes only move on towards the receive FIFO. -/
theorem labelFlow_mono {s t : State} {fr : Frame} (h : labelFlow s fr) (hp : t.params = s.params)
    (htl : t.ctl.tl = s.ctl.tl) (hrl : t.ctl.rl = s.ctl.rl) (hi : inFlight t = inFlight s)
    (hq : s.engine.rxq.length ≤ t.engine.rxq.length) : labelFlow t fr := by
  cases fr with
  | transfer l x =>
    obtain ⟨hbound, hlevel⟩ := h
    refine ⟨by rwa [hi, hp], ?_⟩
    cases l <;> simp only [levelFlow, hi, hp, htl, hrl] at hlevel ⊢ <;> omega
  | issue l o x => cases l <;> first | trivial | exact hi.trans h
  | issueAddr l o a => cases l <;> first | trivial | exact hi.trans h
  | _ => trivial

/-- A waiting activation's condition speaks of the in-flight count alone. -/
theorem labelFlow_waiting {s t : State} {caller callee : Frame} (hw : waitsFor caller callee = true) (h : labelFlow s caller)
    (hp : t.params = s.params) (hi : inFlight t = inFlight s) : labelFlow t caller := by
  unfold waitsFor at hw
  split at hw
  case h_1 | h_2 => exact ⟨by rw [hi, hp]; exact h.1, trivial⟩
  case h_3 | h_5 => exact hi.trans h
  case h_15 => cases hw
  all_goals trivial

/-- An activation that waits for a sub-machine with calls of its own has no condition. -/
theorem labelFlow_of_waitsFor {caller callee : Frame} (hw : waitsFor caller callee = true) (hc : nesting callee ≠ 1) (t : State) :
    labelFlow t caller := by
  unfold waitsFor at hw
  split at hw
  case h_1 | h_2 | h_3 | h_5 => exact absurd rfl hc
  case h_15 => cases hw
  all_goals trivial

/-- Under a legal stack's top every activation waits for a callee. -/
theorem exists_waitsFor {fr g : Frame} {below : List Frame} (hl : stackLegal (fr :: below) = true) (hg : g ∈ below) :
    ∃ callee, waitsFor g callee = true := by
  induction below generalizing fr with
  | nil => cases hg
  | cons caller rest ih =>
    rw [stackLegal_cons, Bool.and_eq_true] at hl
    rcases List.mem_cons.mp hg with rfl | hg
    · exact ⟨fr, hl.1⟩
    · exact ih hl.2 hg

/-- The activations below the top keep their conditions: the top leaves the in-flight count, or none of them has a condition. -/
theorem labelFlow_below {s t : State} {fr : Frame} {below : List Frame} (hl : stackLegal (fr :: below) = true)
    (h : ∀ g ∈ below, labelFlow s g) (hp : t.params = s.params) (hi : nesting fr = 1 → inFlight t = inFlight s) :
    ∀ g ∈ below, labelFlow t g := by
  intro g hg
  by_cases hfr : nesting fr = 1
  · obtain ⟨callee, hw⟩ := exists_waitsFor hl hg
    exact labelFlow_waiting hw (h g hg) hp (hi hfr)
  · clear h hi
    induction below generalizing fr with
    | nil => cases hg
    | cons caller rest ih =>
      rw [stackLegal_cons, Bool.and_eq_true] at hl
      rcases List.mem_cons.mp hg with rfl | hg
      · exact labelFlow_of_waitsFor hl.1 hfr t
      · have := nesting_lt_of_waitsFor hl.1
        have := nesting_pos fr
        exact ih hl.2 hg (by omega)

/-- The first line of a sub-machine has no condition. -/
theorem labelFlow_start {fr : Frame} (h : isStart fr = true) (t : State) : labelFlow t fr := by
  cases fr with
  | transfer l x =>
    cases l <;> first | exact ⟨.inl rfl, trivial⟩ | cases h
  | issue l o x => cases l <;> trivial
  | issueAddr l o a => cases l <;> trivial
  | _ => trivial

/-- Only the transport and the dispatcher have conditions: TRANSFER, ISSUE and ISSUE_ADDR, by their numbers. -/
theorem labelFlow_free {fr : Frame} (h : frameOp fr ∉ [3#4, 4#4, 5#4]) (t : State) : labelFlow t fr := by
  cases fr with
  | transfer l x => simp [frameOp] at h
  | issue l o x => simp [frameOp] at h
  | issueAddr l o a => simp [frameOp] at h
  | _ => trivial

@[simp] theorem labelFlow_withStack (s : State) (k : List Frame) (fr : Frame) : labelFlow (s.withStack k) fr ↔ labelFlow s fr :=
  ⟨fun h => labelFlow_mono h rfl rfl rfl rfl (Nat.le_refl _), fun h => labelFlow_mono h rfl rfl rfl rfl (Nat.le_refl _)⟩

/-! ### What each line does to the bytes in flight -/

/-- After a line the activation `fr` meets the condition of the label it is then at. -/
def actLabelFlow (fr : Frame) : Act → Prop
  | .goto self t => labelFlow t self
  | .call self _ t => labelFlow t self
  | .done _ _ => True
  | .halt t => t.faulted = none → labelFlow t fr

/-- A line of `fr` at `s` keeps flow control: at most D bytes are in flight after it, it entered no FIFO fault, and its activation
meets the condition of the label it is then at. -/
structure LineFlows (fr : Frame) (s : State) (a : Act) : Prop where
  room : inFlight (actState a) ≤ s.params.depth
  fault : ∀ f, (actState a).faulted = some f → isFifoFault f = false
  label : actLabelFlow fr a

/-- With room in the transmit FIFO a DR write takes its byte (20_memory.md R65). -/
theorem writeDr_room {s : State} (h : inFlight s < s.params.depth) (v : Word) :
    writeDr v s = .ok (s.withEngine { s.engine with txq := s.engine.txq ++ [v.setWidth 8] }) := by
  rcases writeDr_cases v s with ⟨hfull, _⟩ | ⟨_, he⟩
  · unfold inFlight at h; omega
  · exact he

theorem noFifoFault_of_none {t : State} (h : t.faulted = none) : ∀ f, t.faulted = some f → isFifoFault f = false := by
  simp [h]

section
variable {fr self : Frame} {s t : State} (hi : inFlight t ≤ s.params.depth) (hf : t.faulted = none)
include hi hf

theorem lineFlows_goto (hl : labelFlow t self) : LineFlows fr s (.goto self t) :=
  ⟨hi, noFifoFault_of_none hf, hl⟩

theorem lineFlows_call (callee : Frame) (hl : labelFlow t self) : LineFlows fr s (.call self callee t) :=
  ⟨hi, noFifoFault_of_none hf, hl⟩

theorem lineFlows_done (r : Result) : LineFlows fr s (.done r t) :=
  ⟨hi, noFifoFault_of_none hf, trivial⟩

theorem lineFlows_halt (hl : labelFlow t fr) : LineFlows fr s (.halt t) :=
  ⟨hi, noFifoFault_of_none hf, fun _ => hl⟩

end

/-- A failed entry check is no FIFO fault (60_exceptions.md R311, code 4). -/
theorem lineFlows_mismatch {fr : Frame} {s : State} (hi : inFlight s ≤ s.params.depth) (hf : s.faulted = none) (n e : Nat) :
    LineFlows fr s (.halt (raise (.entryMismatch n e) s)) := by
  rw [raise_of_none hf]
  exact ⟨hi, fun f h => by cases h; rfl, fun h => by cases h⟩

/-- A level of at most 255 bytes is sampled whole (10_state.md R35, R36). -/
theorem levelSample_toNat {n : Nat} (h : n ≤ 255) :
    (((BitVec.ofNat Config.levelWidth n).setWidth 32).setWidth Config.levelWidth).toNat = n := by
  simp only [BitVec.toNat_setWidth, BitVec.toNat_ofNat, Config.levelWidth]
  omega

/-- X7 stores into STAT or memory alone, memory in its canonical form. -/
theorem storeXb_spec {s t : State} (h : storeXb s = some t) :
    t = { s with ctl := { s.ctl with stat := t.ctl.stat }, mem := t.mem } ∧ (Memory.wf s.mem → Memory.wf t.mem) := by
  unfold storeXb at h
  split at h
  · obtain ⟨_, rfl, hw⟩ := memWrite_spec h
    exact ⟨rfl, hw⟩
  · cases h; exact ⟨rfl, id⟩
  · cases h; exact ⟨rfl, id⟩

section
variable {s : State} (h : flowOk s) (hf : s.faulted = none)
include h hf

/-- The transport: the entry check bounds the bytes in flight by `skip`; X2 and X3 sample levels that bound what can come to lie in
both FIFOs, so that X4's guard leaves room for X5's byte, and X6 reads a FIFO that is not empty (41_fifo_transport.md R154 to R156,
R165). -/
theorem lineFlows_transfer {l : XLabel} {x : XferArgs} (hlabel : labelFlow s (.transfer l x)) :
    LineFlows (.transfer l x) s (stepFrame (.transfer l x) s) := by
  obtain ⟨⟨hd4, hd255, hhold⟩, hi, hsh, -⟩ := h
  obtain ⟨hbound, hlevel⟩ := hlabel
  have hlen : inFlight s = s.engine.txq.length + s.engine.sh.length + s.engine.rxq.length := rfl
  cases l <;> simp only [stepFrame, stepTransfer]
  case X0 =>
    split
    case isTrue he => exact lineFlows_goto hi hf ⟨.inr (Nat.le_trans (Nat.le_of_eq he) (Nat.le_max_left _ _)), trivial⟩
    case isFalse => exact lineFlows_mismatch hi hf _ _
  all_goals replace hbound := hbound.resolve_left nofun
  case X1 => split <;> exact lineFlows_goto hi hf ⟨.inr hbound, trivial⟩
  case X2 =>
    refine lineFlows_goto hi hf ⟨.inr hbound, ?_⟩
    have htl := levelSample_toNat (n := s.engine.txq.length) (by omega)
    show inFlight s ≤ ((readTxflr s).setWidth Config.levelWidth).toNat + s.params.hold + s.engine.rxq.length
    rw [readTxflr, htl]
    omega
  case X3 =>
    refine lineFlows_goto hi hf ⟨.inr hbound, ?_⟩
    have hrl := levelSample_toNat (n := s.engine.rxq.length) (by omega)
    show inFlight s ≤ s.ctl.tl.toNat + ((readRxflr s).setWidth Config.levelWidth).toNat + s.params.hold ∧
      ((readRxflr s).setWidth Config.levelWidth).toNat ≤ s.engine.rxq.length
    rw [readRxflr, hrl]
    exact ⟨Nat.le_trans hlevel (by omega), Nat.le_refl _⟩
  case X4 =>
    obtain ⟨hsum, hrl⟩ := hlevel
    split
    case isTrue hen =>
      have hguard : s.ctl.tl.toNat + s.ctl.rl.toNat + 2 < s.params.depth := by
        simpa [mayEnqueue] using (Bool.and_eq_true_iff.mp hen).2
      split
      · exact lineFlows_goto hi hf ⟨.inr hbound, by show inFlight s + 3 ≤ _; simp; omega, hrl⟩
      · exact lineFlows_halt hi hf ⟨.inr hbound, hsum, hrl⟩
    case isFalse => exact lineFlows_goto hi hf ⟨.inr hbound, hrl⟩
  case X5 =>
    obtain ⟨hroom, hrl⟩ := hlevel
    rw [writeDr_room (by omega)]
    refine lineFlows_goto ?_ hf ⟨.inr ?_, hrl⟩
    · rw [inFlight_push]; omega
    · rw [inFlight_push]; show _ ≤ max _ (s.params.depth - 2 + s.params.hold); omega
  case X6 =>
    split
    case isTrue hdeq =>
      rcases readDr_cases s with ⟨hempty, _⟩ | ⟨b, q, hq, he⟩
      · have hrl : s.ctl.rl.toNat = 0 := by simpa [levelFlow, hempty] using hlevel
        simp [mayDequeue, BitVec.eq_of_toNat_eq (y := 0) hrl] at hdeq
      · rw [he]
        have hle : ∀ c, inFlight ((s.withEngine { s.engine with rxq := q }).withCtl c) ≤ inFlight s := fun c => by
          have := inFlight_pop s (c := c) hq
          omega
        simp only
        split <;> exact lineFlows_goto ((hle _).trans hi) hf ⟨.inr ((hle _).trans hbound), trivial⟩
    case isFalse => exact lineFlows_goto hi hf ⟨.inr hbound, trivial⟩
  case X7 =>
    split
    case h_1 u hu =>
      rw [(storeXb_spec hu).1]
      exact lineFlows_goto hi hf ⟨.inr hbound, trivial⟩
    case h_2 => exact lineFlows_halt hi hf ⟨.inr hbound, trivial⟩
  case X8 =>
    split
    · exact lineFlows_goto hi hf ⟨.inr hbound, trivial⟩
    · exact lineFlows_call hi hf _ ⟨.inr hbound, trivial⟩
  case X9 => exact lineFlows_call hi hf _ ⟨.inr hbound, trivial⟩

/-- The dispatcher's ISSUE: no byte in flight from its entry check to the opcode's DR write (42_command_dispatcher.md R180). -/
theorem lineFlows_issue {l : TLabel} {o : Byte} {x : XferArgs} (hlabel : labelFlow s (.issue l o x)) :
    LineFlows (.issue l o x) s (stepFrame (.issue l o x) s) := by
  obtain ⟨⟨hd4, -, -⟩, hi, -⟩ := h
  cases l <;> simp only [stepFrame, stepIssue]
  case T0 =>
    split
    case isTrue he => exact lineFlows_goto hi hf he
    case isFalse => exact lineFlows_mismatch hi hf _ _
  case T1 => exact lineFlows_call hi hf _ hlabel
  case T2 =>
    have hzero : inFlight s = 0 := hlabel
    rw [writeDr_room (by omega)]
    exact lineFlows_goto (by rw [inFlight_write]; omega) hf trivial
  case T3 => exact lineFlows_call hi hf _ trivial

/-- A line A2 to A4 with `k` address bytes in flight leaves `k + 1`, and A5 ends with four (R181). -/
theorem sendAddressByte_room {k : Nat} (hk : k < 4) (hlabel : inFlight s = k) :
    ∃ t, sendAddressByte k s = .ok t ∧ inFlight t = k + 1 ∧ t.faulted = none ∧ inFlight t ≤ s.params.depth := by
  obtain ⟨⟨hd4, -, -⟩, -⟩ := h
  unfold sendAddressByte
  rw [writeDr_room (by omega)]
  exact ⟨_, rfl, (inFlight_push s _ _).trans (by rw [hlabel]), hf, (inFlight_push s _ _).le.trans (by omega)⟩

/-- The dispatcher's ISSUE_ADDR: at most four bytes in flight, and D is at least 4 (R181). -/
theorem lineFlows_issueAddr {l : ALabel} {o : Byte} {a : FlashAddr} (hlabel : labelFlow s (.issueAddr l o a)) :
    LineFlows (.issueAddr l o a) s (stepFrame (.issueAddr l o a) s) := by
  have ⟨_, hi, _⟩ := h
  cases l <;> simp only [stepFrame, stepIssueAddr]
  case A0 =>
    split
    case isTrue he => exact lineFlows_goto hi hf he
    case isFalse => exact lineFlows_mismatch hi hf _ _
  case A1 => exact lineFlows_call hi hf _ hlabel
  case A2 =>
    obtain ⟨t, he, hn, hft, hroom⟩ := sendAddressByte_room h hf (by decide : 0 < 4) hlabel
    rw [he]; exact lineFlows_goto hroom hft hn
  case A3 =>
    obtain ⟨t, he, hn, hft, hroom⟩ := sendAddressByte_room h hf (by decide : 1 < 4) hlabel
    rw [he]; exact lineFlows_goto hroom hft hn
  case A4 =>
    obtain ⟨t, he, hn, hft, hroom⟩ := sendAddressByte_room h hf (by decide : 2 < 4) hlabel
    rw [he]; exact lineFlows_goto hroom hft hn
  case A5 =>
    obtain ⟨t, he, hn, hft, hroom⟩ := sendAddressByte_room h hf (by decide : 3 < 4) hlabel
    rw [he]; exact lineFlows_done hroom hft _

/-- A sub-machine without a DR access leaves the engine and FAULTED, and has no condition. -/
theorem lineFlows_free {fr : Frame} (hfree : frameOp fr ∉ [3#4, 4#4, 5#4]) : LineFlows fr s (stepFrame fr s) := by
  have hne : ∀ g, frameOp g ∈ [3#4, 4#4, 5#4] → fr ≠ g := by
    rintro g hg rfl
    exact hfree hg
  obtain ⟨_, _, _, _, hport⟩ := stepFrame_outside fr s
  obtain ⟨heng, hfault⟩ := hport (fun _ _ => hne _ (by simp [frameOp])) (fun _ _ _ => hne _ (by simp [frameOp]))
    (fun _ _ _ => hne _ (by simp [frameOp]))
  have hi : inFlight (actState (stepFrame fr s)) ≤ s.params.depth := by
    unfold inFlight; rw [heng]; exact h.2.1
  have hft := hfault.trans hf
  have hself : ∀ {self : Frame}, sameCall fr self = true → ∀ t, labelFlow t self := fun hs =>
    labelFlow_free (by rwa [sameCall_frameOp hs])
  have hplace := stepFrame_place fr s
  cases hact : stepFrame fr s <;> rw [hact] at hi hft hplace
  case goto self t => exact lineFlows_goto hi hft (hself hplace t)
  case call self callee t => exact lineFlows_call hi hft callee (hself hplace.1 t)
  case done r t => exact lineFlows_done hi hft r
  case halt t => exact lineFlows_halt hi hft (labelFlow_free hfree t)

/-- Every line of the running activation keeps flow control. -/
theorem lineFlows_stepFrame {fr : Frame} (hlabel : labelFlow s fr) : LineFlows fr s (stepFrame fr s) := by
  cases fr with
  | transfer l x => exact lineFlows_transfer h hf hlabel
  | issue l o x => exact lineFlows_issue h hf hlabel
  | issueAddr l o a => exact lineFlows_issueAddr h hf hlabel
  | _ => exact lineFlows_free h hf (by simp [frameOp])

end

/-! ### The controller's step -/

/-- The control stack `k` is legal and every activation on it meets its label's condition. -/
structure StackFlows (s : State) (k : List Frame) : Prop where
  legal : stackLegal k = true
  label : ∀ fr ∈ k, labelFlow s fr

/-- A waiting activation that goes on meets the condition of the label it goes on at. -/
theorem resumeFrame_labelFlow {fr self : Frame} {r : Result} {s : State} {c : Ctl} (hl : labelFlow s fr)
    (h : resumeFrame fr r s = .goto self (s.withCtl c)) : labelFlow (s.withCtl c) self := by
  have hmove : ∀ {g t}, Act.goto g t = .goto self (s.withCtl c) → g = self ∧ t = s.withCtl c := (Act.goto.injEq ..).mp
  have hplace := resumeFrame_place fr r s
  rw [h] at hplace
  cases fr with
  | transfer l x =>
    have hbound (hne : l ≠ .X0) : labelFlow (s.withCtl c) (.transfer .X1 x) ∧ labelFlow (s.withCtl c) (.transfer .X9 x) :=
      ⟨⟨.inr (hl.1.resolve_left hne), trivial⟩, .inr (hl.1.resolve_left hne), trivial⟩
    simp only [resumeFrame] at h; unfold resumeTransfer at h
    split at h
    · obtain ⟨rfl, _⟩ := hmove h; exact (hbound nofun).2
    · obtain ⟨rfl, _⟩ := hmove h; exact (hbound nofun).1
    · cases h
    · obtain ⟨rfl, hc⟩ := hmove h; rwa [← hc]
  | issue l o x =>
    cases l <;> simp only [resumeFrame, resumeIssue] at h
    case T3 => cases h
    all_goals obtain ⟨rfl, _⟩ := hmove h; exact hl
  | issueAddr l o a =>
    cases l <;> simp only [resumeFrame, resumeIssueAddr] at h
    all_goals obtain ⟨rfl, _⟩ := hmove h; exact hl
  | _ => exact labelFlow_free (by rw [sameCall_frameOp hplace]; simp [frameOp]) _

/-- A return keeps the stack legal and the labels' conditions, at the host or at the activation that goes on. -/
theorem stackFlows_deliver {s : State} {fr : Frame} {below : List Frame} (r : Result) (hl : stackLegal (fr :: below) = true)
    (h : ∀ g ∈ below, labelFlow s g) : StackFlows (deliver below r s) (deliver below r s).stack := by
  rcases deliver_cases below r s with ⟨r', he⟩ | ⟨above, caller, rest, self, c, hk, hself, ⟨r', hr⟩, he⟩ <;> rw [he]
  · exact ⟨rfl, nofun⟩
  · have hcaller : caller ∈ below := by simp [hk]
    have hrest : stackLegal (caller :: rest) = true := legal_suffix (above := fr :: above) (by rw [← hl, hk]; rfl)
    refine ⟨(sameCall_stackLegal hself rest).trans hrest, fun g hg => ?_⟩
    rcases List.mem_cons.mp hg with rfl | hg
    · exact (labelFlow_withStack _ _ _).mpr (resumeFrame_labelFlow (h caller hcaller) hr)
    · obtain ⟨callee', hw'⟩ := exists_waitsFor hrest hg
      exact labelFlow_waiting hw' (h g (by simp [hk, hg])) rfl rfl

/-- SET_SELECT and IS_ABORTED move no byte. -/
theorem stepFrame_leaf_engine {fr : Frame} (h : nesting fr = 1) (s : State) : (actState (stepFrame fr s)).engine = s.engine := by
  obtain ⟨_, _, _, _, hport⟩ := stepFrame_outside fr s
  exact (hport (by rintro l x rfl; cases h) (by rintro l o x rfl; cases h) (by rintro l o a rfl; cases h)).1

theorem portMove_sh {s t : State} (h : portMove s t) : t.engine.sh = s.engine.sh := by
  rcases h with h | ⟨_, _, h⟩ | ⟨_, _, _, h⟩ <;> rw [h]

/-- What a line that keeps flow control leaves meets the invariant, under a stack that is legal and whose labels' conditions hold. -/
theorem flowOk_of_line {fr : Frame} {s t : State} (h : flowOk s) (hline : LineFlows fr s (stepFrame fr s))
    (hp : t.params = (actState (stepFrame fr s)).params) (he : t.engine = (actState (stepFrame fr s)).engine)
    (hf : t.faulted = (actState (stepFrame fr s)).faulted) (hlegal : stackLegal t.stack = true)
    (hlabels : t.faulted = none → ∀ g ∈ t.stack, labelFlow t g) : flowOk t := by
  obtain ⟨hpok, -, hsh, -⟩ := h
  rw [(stepFrame_keeps fr s).1] at hp
  refine ⟨?_, ?_, ?_, ?_, hlegal, hlabels⟩
  · rwa [hp]
  · unfold inFlight; rw [hp, he]; exact hline.room
  · rwa [hp, he, portMove_sh (stepFrame_frame fr s).2]
  · rw [hf]; exact hline.fault

/-- Every line of the controller keeps flow control. -/
theorem flowOk_controllerStep {s : State} (h : flowOk s) : flowOk (controllerStep s) := by
  rcases controllerStep_runs s with he | ⟨fr, below, hf, hs⟩
  · rwa [he]
  have ⟨_, _, _, _, hlegal, hlabels⟩ := h
  replace hlabels := hlabels hf
  rw [hs] at hlegal hlabels
  obtain ⟨hlabel, hbelow⟩ := List.forall_mem_cons.mp hlabels
  have hline := lineFlows_stepFrame h hf hlabel
  have hact := hline.label
  obtain ⟨hparams, -, hstack⟩ := stepFrame_keeps fr s
  replace hbelow : ∀ g ∈ below, labelFlow (actState (stepFrame fr s)) g :=
    labelFlow_below hlegal hbelow hparams fun hleaf => by unfold inFlight; rw [stepFrame_leaf_engine hleaf]
  rcases controllerStep_cases hf hs with
    ⟨self, hself, ha, he⟩ | ⟨self, callee, hself, hw, hstart, ha, he⟩ | ⟨r, ha, he⟩ | ⟨ha, he⟩ <;> rw [he] <;>
    rw [ha] at hact
  · refine flowOk_of_line h hline rfl rfl rfl ((sameCall_stackLegal hself below).trans hlegal) fun _ => ?_
    simpa using ⟨hact, hbelow⟩
  · have hlegal' : stackLegal (callee :: self :: below) = true := by
      rw [stackLegal_cons, hw, sameCall_stackLegal hself, hlegal]; rfl
    refine flowOk_of_line h hline rfl rfl rfl hlegal' fun _ => ?_
    simpa using ⟨labelFlow_start hstart _, hact, hbelow⟩
  · have hdeliver := stackFlows_deliver r hlegal hbelow
    have hframe := deliver_frame below r (actState (stepFrame fr s))
    exact flowOk_of_line h hline (congrArg State.params hframe :) (congrArg State.engine hframe :) (congrArg State.faulted hframe :)
      hdeliver.legal fun _ => hdeliver.label
  · refine flowOk_of_line h hline rfl rfl rfl (by rwa [hstack, hs]) fun hft => ?_
    rw [hstack, hs]
    exact List.forall_mem_cons.mpr ⟨hact hft, hbelow⟩

/-! ### The other agents -/

/-- A step that changes no label and loses no byte, and moves bytes only on towards the receive FIFO, keeps flow control. -/
theorem flowOk_of_moved {s t : State} (h : flowOk s) (hb : SameBlock s t) (hf : t.faulted = s.faulted)
    (hi : inFlight t = inFlight s) (hsh : t.engine.sh.length ≤ s.params.hold)
    (hq : s.engine.rxq.length ≤ t.engine.rxq.length) : flowOk t := by
  obtain ⟨hp, hroom, -, hfault, hlegal, hlabels⟩ := h
  refine ⟨?_, ?_, ?_, ?_, ?_, fun hft fr hfr => ?_⟩
  · rwa [hb.params]
  · rwa [hi, hb.params]
  · rwa [hb.params]
  · rwa [hf]
  · rwa [hb.stack]
  · exact labelFlow_mono (hlabels (hf ▸ hft) fr (hb.stack ▸ hfr)) hb.params (by rw [hb.ctl]) (by rw [hb.ctl]) hi hq

theorem flowOk_of_sameBlock {s t : State} (h : flowOk s) (hb : SameBlock s t) (hf : t.faulted = s.faulted)
    (he : t.engine = s.engine) : flowOk t :=
  flowOk_of_moved h hb hf (by unfold inFlight; rw [he]) (by rw [he]; exact h.2.2.1) (by rw [he])

/-- The byte EN_LOAD moves stays in flight, and SH has room for it (20_memory.md R71). -/
theorem engineLoad_inFlight (s : State) : inFlight (engineLoad s) = inFlight s := by
  rcases engineLoad_cases s with he | ⟨b, q, htxq, _, he⟩ <;> rw [he]
  simp [inFlight, htxq]; omega

theorem flowOk_engineLoad {s : State} (h : flowOk s) : flowOk (engineLoad s) := by
  refine flowOk_of_moved h (sameBlock_engineLoad s) ?_ (engineLoad_inFlight s) ?_ ?_ <;>
    rcases engineLoad_cases s with he | ⟨b, q, _, hroom, he⟩ <;> rw [he]
  · rfl
  · exact h.2.2.1
  · simpa using hroom
  · rfl

/-- The byte taken by EN_XCHG leaves SH no longer and RXQ as it is, one byte less in flight. -/
theorem engineTake_inFlight {s v : State} {m : Byte} (h : engineTake s = some (m, v)) :
    inFlight v + 1 = inFlight s ∧ v.engine.rxq = s.engine.rxq ∧ v.engine.sh.length ≤ s.engine.sh.length := by
  rcases engineTake_cases h with ⟨_, q, hq, rfl⟩ | ⟨_, q, hq, rfl⟩ <;> simp [inFlight, hq] <;> omega

/-- Under the flow invariant an exchange finds room in the receive FIFO for the byte it receives (20_memory.md R72, R80). -/
theorem exchangeTurn_flow {s t : State} (h : flowOk s) (hx : exchangeTurn s = .next t) :
    t.faulted = s.faulted ∧ inFlight t = inFlight s ∧ t.engine.sh.length ≤ s.params.hold ∧
      s.engine.rxq.length ≤ t.engine.rxq.length := by
  obtain ⟨-, hroom, hsh, -⟩ := h
  rcases exchangeTurn_effect s with he | ⟨m, v, e, hv, u, he, -, hu, -⟩ <;> rw [he] at hx <;> cases hx
  · exact ⟨rfl, rfl, hsh, Nat.le_refl _⟩
  · obtain ⟨hi, hrxq, hle⟩ := engineTake_inFlight hv
    rcases hu with ⟨hfull, -, -⟩ | ⟨-, heng, hf⟩
    · unfold inFlight at hi hroom
      omega
    · refine ⟨hf, ?_, ?_, ?_⟩
      · rw [← hi]; simp [inFlight, heng]; omega
      · rw [heng]; exact hle.trans hsh
      · simp [heng, hrxq]

/-- A faulted block has no label's condition to meet: a fault that flow control does not rule out keeps the invariant. -/
theorem flowOk_faulted {s t : State} (h : flowOk s) {f : BlockFault} (hf : t.faulted = some f) (hff : isFifoFault f = false)
    (hp : t.params = s.params) (he : t.engine = s.engine) (hk : t.stack = s.stack) : flowOk t := by
  obtain ⟨hpok, hroom, hsh, -, hlegal, -⟩ := h
  refine ⟨by rwa [hp], by unfold inFlight; rwa [he, hp], by rwa [he, hp], fun g hg => ?_, by rwa [hk], fun hn => ?_⟩
  · cases hf.symm.trans hg; exact hff
  · cases hf.symm.trans hn

/-- A block that is idle or at the first line of an operation meets every label's condition. -/
theorem flowOk_started {s t : State} (h : flowOk s) (hp : t.params = s.params) (he : t.engine = s.engine)
    (hf : t.faulted = none) (hk : t.stack = [] ∨ ∃ fr, isStart fr = true ∧ t.stack = [fr]) : flowOk t := by
  obtain ⟨hpok, hroom, hsh, -, -, -⟩ := h
  refine ⟨by rwa [hp], by unfold inFlight; rwa [he, hp], by rwa [he, hp], noFifoFault_of_none hf, ?_, fun _ => ?_⟩ <;>
    rcases hk with hk | ⟨fr, hs, hk⟩ <;> rw [hk]
  · rfl
  · exact start_legal hs
  · exact nofun
  · simpa using labelFlow_start hs t

theorem flowOk_writeCmd {v : Word} {s t : State} (h : flowOk s) (hw : writeCmd v s = .next t) : flowOk t := by
  rcases writeCmd_cases v s with ⟨_, he⟩ | ⟨_, _, he⟩ | ⟨_, _, e, hcode, he⟩ | ⟨hf, _, op, f, fr, hop, hstart, he⟩ <;>
    rw [he] at hw <;> cases hw
  · exact h
  · exact flowOk_faulted h rfl rfl rfl rfl rfl
  · exact flowOk_faulted h rfl (by rcases hcode with rfl | rfl <;> rfl) rfl rfl rfl
  · exact flowOk_started h rfl rfl hf (.inr ⟨fr, hstart, rfl⟩)

theorem flowOk_hostTurn {s t : State} (h : flowOk s) (ht : hostTurn s = .next t) : flowOk t := by
  rcases hostTurn_cases ht with ⟨rfl, _⟩ | ⟨r, q, _, hreq⟩
  · exact h
  rcases hreq with ⟨_, rfl⟩ | ⟨_, rfl⟩ | ⟨v, rfl⟩ | ⟨a, v, rfl⟩ | ⟨o, v, rfl⟩ | ⟨v, hv⟩
  · exact h
  · exact flowOk_started h rfl rfl rfl (.inl rfl)
  · exact h
  · exact h
  · exact h
  · exact flowOk_writeCmd (s := s.withHostQ q) h hv

theorem peerTickStep_frame (s : State) : peerTickStep s = { s with peer := (peerTickStep s).peer } := by
  unfold peerTickStep; split <;> rfl

/-- Settles O54: by the agent that took the step; the controller by what each line does to the bytes in flight. -/
theorem flowInvariantKept : Obligations.FlowInvariantKept := by
  unfold Obligations.FlowInvariantKept
  intro s t h hs
  have hu : flowOk (takeChoice s) := flowOk_of_sameBlock h (sameBlock_takeChoice s) (by simp) (by simp)
  rcases step_cases hs with ⟨_, rfl | rfl⟩ | ⟨_, rfl⟩ | ⟨_, hx⟩ | ⟨_, rfl⟩ | ⟨_, rfl⟩ | ⟨_, rfl⟩ | ⟨_, hx⟩
  · exact hu
  · exact flowOk_controllerStep hu
  · exact flowOk_engineLoad hu
  · obtain ⟨hf, hi, hsh, hq⟩ := exchangeTurn_flow hu hx
    exact flowOk_of_moved hu (sameBlock_exchangeTurn hx) hf hi hsh hq
  · obtain ⟨_, _, he, _, _, hf⟩ := applyPend_keeps (takeChoice s)
    exact flowOk_of_sameBlock hu (sameBlock_applyPend _) hf he
  · rw [peerTickStep_frame]; exact hu
  · exact hu
  · exact flowOk_hostTurn hu hx

/-! ### The in-flight count -/

/-- The controller's step writes one byte to DR, reads one from it, or leaves the engine (20_memory.md R65, R66). -/
theorem controllerStep_portMove (s : State) : portMove s (controllerStep s) := by
  rcases controllerStep_runs s with he | ⟨fr, below, hf, hs⟩
  · rw [he]; exact .inl rfl
  · have hline := (stepFrame_frame fr s).2
    unfold portMove
    rwa [(congrArg State.engine (controllerStep_line_frame hf hs) :)]

/-- What a port move does to the in-flight count. -/
theorem portMove_inFlight {s t : State} (h : portMove s t) :
    inFlight t = inFlight s ∨
      (inFlight t = inFlight s + 1 ∧ ∃ b, t.engine.txq = s.engine.txq ++ [b] ∧ t.engine.rxq = s.engine.rxq) ∨
      (inFlight s = inFlight t + 1 ∧ ∃ b, s.engine.rxq = b :: t.engine.rxq ∧ t.engine.txq = s.engine.txq) := by
  rcases h with he | ⟨_, b, he⟩ | ⟨b, q, hq, he⟩
  · exact .inl (by unfold inFlight; rw [he])
  · refine .inr (.inl ⟨by simp [inFlight, he]; omega, b, by rw [he], by rw [he]⟩)
  · refine .inr (.inr ⟨by simp [inFlight, he, hq]; omega, b, by rw [he, hq], by rw [he]⟩)

/-- Every agent but the controller conserves the in-flight count; the controller's step is a port move. -/
theorem step_inFlight {s t : State} (h : flowOk s) (hs : step s = .next t) :
    inFlight t = inFlight s ∨ ((takeChoice s).now.agent = .controller ∧ portMove s t) := by
  have hu : flowOk (takeChoice s) := flowOk_of_sameBlock h (sameBlock_takeChoice s) (by simp) (by simp)
  have heng : ∀ {t : State}, t.engine = (takeChoice s).engine → inFlight t = inFlight s := fun he => by
    unfold inFlight; rw [he, takeChoice_engine]
  rcases step_cases hs with ⟨ha, rfl | rfl⟩ | ⟨_, rfl⟩ | ⟨_, hx⟩ | ⟨_, rfl⟩ | ⟨_, rfl⟩ | ⟨_, rfl⟩ | ⟨_, hx⟩
  · exact .inl (heng rfl)
  · exact .inr ⟨ha, by simpa [portMove] using controllerStep_portMove (takeChoice s)⟩
  · exact .inl ((engineLoad_inFlight _).trans (heng rfl))
  · exact .inl ((exchangeTurn_flow hu hx).2.1.trans (heng rfl))
  · exact .inl (heng (applyPend_keeps _).2.2.1)
  · exact .inl (heng (by rw [peerTickStep_frame]))
  · exact .inl (heng rfl)
  · exact .inl (heng (sameBus_hostTurn hx).engine)

/-- Settles O52: from what each agent's step does to the in-flight count. -/
theorem inFlightChangedOnlyByController : Obligations.InFlightChangedOnlyByController := by
  unfold Obligations.InFlightChangedOnlyByController
  intro s t h hs
  rcases step_inFlight h hs with hi | ⟨ha, hmove⟩
  · exact ⟨fun _ => hi, by omega, by omega, by omega, by omega⟩
  · refine ⟨fun hc => absurd ha hc, ?_⟩
    rcases portMove_inFlight hmove with hi | ⟨hi, hb⟩ | ⟨hi, hb⟩
    · exact ⟨by omega, by omega, by omega, by omega⟩
    · exact ⟨by omega, by omega, fun _ => hb, by omega⟩
    · exact ⟨by omega, by omega, by omega, fun _ => hb⟩

end Sys2Proof.Machine

/-! PROOFS. The chip-select pin and the memories: who moves the line, and that every step keeps buffer memory, the flash array and
the SFDP table canonical (20_memory.md R61, R62, R67, R77; 45_flash_commands.md R276). -/

namespace Sys2Proof.Machine

/-! ### The pin -/

/-- A pin that EN_CS or CS2 moved: the posted state, nothing pending any more, an event of the bus (20_memory.md R67, R75, R77). -/
theorem applyPend_moves {s : State} (h : (applyPend s).cs.pin ≠ s.cs.pin) :
    s.cs.pend = some (applyPend s).cs.pin ∧ (applyPend s).cs.pend = none ∧
      (applyPend s).trace = s.trace ++ [.cs (applyPend s).cs.pin] := by
  rcases applyPend_spec s with ⟨_, he⟩ | ⟨c, _, _, he⟩ | ⟨c, hpend, _, he⟩ <;> rw [he] at h ⊢
  · exact absurd rfl h
  · exact absurd rfl h
  · exact ⟨hpend, rfl, rfl⟩

/-- The controller moves the pin at CS2 only, by the read-back (40_csr_access.md R140). -/
theorem controllerStep_pin {s : State} (h : (controllerStep s).cs.pin ≠ s.cs.pin) :
    (∃ act below, s.stack = .setSelect .CS2 act :: below) ∧ (controllerStep s).cs = (applyPend s).cs ∧
      (controllerStep s).trace = (applyPend s).trace := by
  rcases controllerStep_runs s with he | ⟨fr, below, hf, hs⟩
  · exact absurd (by rw [he]) h
  · have hline := controllerStep_line_frame hf hs
    rw [hline] at h ⊢
    by_cases hcs : ∃ act, fr = .setSelect .CS2 act
    · obtain ⟨act, rfl⟩ := hcs
      exact ⟨⟨act, below, hs⟩, rfl, rfl⟩
    · obtain ⟨_, _, hpin, _⟩ := stepFrame_outside fr s
      exact absurd (hpin fun act he => hcs ⟨act, he⟩).1 h

/-- Settles O15: by the agent that took the step; CS2 and EN_CS apply the pending write. -/
theorem pinChangesOnlyWhenPostedWriteLands : Obligations.PinChangesOnlyWhenPostedWriteLands := by
  unfold Obligations.PinChangesOnlyWhenPostedWriteLands
  intro s t hs hpin
  rcases step_cases hs with ⟨ha, rfl | rfl⟩ | ⟨_, rfl⟩ | ⟨_, hx⟩ | ⟨ha, rfl⟩ | ⟨_, rfl⟩ | ⟨_, rfl⟩ | ⟨_, hx⟩
  · exact absurd (by simp) hpin
  · obtain ⟨hstack, hcs, htrace⟩ := controllerStep_pin (s := takeChoice s) (by simpa using hpin)
    rw [hcs] at hpin ⊢
    obtain ⟨hpend, hnone, hev⟩ := applyPend_moves (s := takeChoice s) (by simpa using hpin)
    exact ⟨by simpa using hpend, hnone, by simpa [htrace] using hev, .inr ⟨ha, by simpa using hstack⟩⟩
  · rcases engineLoad_cases (takeChoice s) with he | ⟨_, _, _, _, he⟩ <;> exact absurd (by rw [he]; simp) hpin
  · rcases exchangeTurn_effect (takeChoice s) with he | ⟨_, _, _, _, u, he, hu, _⟩ <;> cases he.symm.trans hx
    · exact absurd (by simp) hpin
    · exact absurd (by rw [hu]; simp) hpin
  · obtain ⟨hpend, hnone, hev⟩ := applyPend_moves (s := takeChoice s) (by simpa using hpin)
    exact ⟨by simpa using hpend, hnone, by simpa using hev, .inl ha⟩
  · exact absurd (by rw [peerTickStep_frame]; simp) hpin
  · exact absurd (by simp [abortEnvStep]) hpin
  · exact absurd (by rw [(sameBus_hostTurn hx).cs]; simp) hpin

/-! ### Memories -/

theorem memoriesWf_of_eq {s t : State} (h : memoriesWf s) (hm : t.mem = s.mem) (hp : t.peer = s.peer) : memoriesWf t := by
  unfold memoriesWf; rwa [hm, hp]

theorem memoriesWf_applyPend {s : State} (h : memoriesWf s) : memoriesWf (applyPend s) := by
  obtain ⟨hmem, hpeer⟩ := h
  refine ⟨by rwa [(sameBlock_applyPend s).mem], ?_⟩
  rw [applyPend_peer]
  split
  · exact hpeer
  · exact peerSeesPin_wf _ _ hpeer

/-- The two lines that reach a memory: CS2 has the device execute its frame, X7 stores a byte (41_fifo_transport.md R150). -/
theorem memoriesWf_stepFrame (fr : Frame) {s : State} (h : memoriesWf s) : memoriesWf (actState (stepFrame fr s)) := by
  obtain ⟨hmem, _, hpin, _⟩ := stepFrame_outside fr s
  by_cases hcs : ∃ act, fr = .setSelect .CS2 act
  · obtain ⟨act, rfl⟩ := hcs
    exact memoriesWf_applyPend h
  have hpeer := (hpin fun act he => hcs ⟨act, he⟩).2.1
  by_cases hx : ∃ x, fr = .transfer .X7 x
  · obtain ⟨x, rfl⟩ := hx
    refine ⟨?_, by rw [hpeer]; exact h.2⟩
    simp only [stepFrame, stepTransfer]
    cases hst : storeXb s with
    | none => exact h.1
    | some u => exact (storeXb_spec hst).2 h.1
  · exact memoriesWf_of_eq h (hmem fun x he => hx ⟨x, he⟩).1 hpeer

theorem memoriesWf_controllerStep {s : State} (h : memoriesWf s) : memoriesWf (controllerStep s) := by
  rcases controllerStep_runs s with he | ⟨fr, below, hf, hs⟩
  · rwa [he]
  · have hline := controllerStep_line_frame hf hs
    exact memoriesWf_of_eq (memoriesWf_stepFrame fr h) (congrArg State.mem hline :) (congrArg State.peer hline :)

/-- An exchange changes the device's frame, not its stores (45_flash_commands.md R277). -/
theorem memoriesWf_exchangeTurn {s t : State} (h : memoriesWf s) (hx : exchangeTurn s = .next t) : memoriesWf t := by
  rcases exchangeTurn_effect s with he | ⟨_, _, _, _, u, he, hu, _, hpeer⟩ <;> cases he.symm.trans hx
  · exact h
  · refine ⟨by rw [hu]; exact h.1, ?_⟩
    rcases hpeer with hp | ⟨p, fr, hp, hp'⟩
    · rw [hp]; exact h.2
    · have hw := h.2
      rw [hp] at hw
      rw [hp']
      exact hw

theorem memoriesWf_peerTickStep {s : State} (h : memoriesWf s) : memoriesWf (peerTickStep s) := by
  obtain ⟨hmem, hpeer⟩ := h
  unfold peerTickStep
  split
  · exact ⟨hmem, hpeer⟩
  · rename_i p hp
    rw [hp] at hpeer
    refine ⟨hmem, ?_⟩
    show peerWf (.reference (peerTick p))
    unfold peerTick
    split <;> exact hpeer

/-- A CMD write leaves buffer memory. -/
theorem writeCmd_mem {v : Word} {s t : State} (h : writeCmd v s = .next t) : t.mem = s.mem := by
  rcases writeCmd_cases v s with ⟨_, he⟩ | ⟨_, _, he⟩ | ⟨_, _, _, _, he⟩ | ⟨_, _, _, _, _, _, _, he⟩ <;>
    cases he.symm.trans h <;> rfl

/-- The host writes buffer memory byte by byte, at an address of 32 bits (20_memory.md R60, R61). -/
theorem memoriesWf_hostTurn {s t : State} (h : memoriesWf s) (ht : hostTurn s = .next t) : memoriesWf t := by
  refine ⟨?_, by rw [(sameBus_hostTurn ht).peer]; exact h.2⟩
  rcases hostTurn_cases ht with ⟨rfl, _⟩ | ⟨r, q, _, hreq⟩
  · exact h.1
  rcases hreq with ⟨_, rfl⟩ | ⟨_, rfl⟩ | ⟨v, rfl⟩ | ⟨a, v, rfl⟩ | ⟨o, v, rfl⟩ | ⟨v, hv⟩
  · exact h.1
  · exact h.1
  · exact h.1
  · exact cellsWrite_wf v a.isLt h.1
  · exact h.1
  · rw [writeCmd_mem hv]; exact h.1

/-- Settles O56: by the agent that took the step; every store's operation keeps its form. -/
theorem memoryFormKept : Obligations.MemoryFormKept := by
  unfold Obligations.MemoryFormKept
  intro s t h hs
  have hu : memoriesWf (takeChoice s) := memoriesWf_of_eq h (by simp) (by simp)
  rcases step_cases hs with ⟨_, rfl | rfl⟩ | ⟨_, rfl⟩ | ⟨_, hx⟩ | ⟨_, rfl⟩ | ⟨_, rfl⟩ | ⟨_, rfl⟩ | ⟨_, hx⟩
  · exact hu
  · exact memoriesWf_controllerStep hu
  · rcases engineLoad_cases (takeChoice s) with he | ⟨_, _, _, _, he⟩ <;> rw [he] <;> exact hu
  · exact memoriesWf_exchangeTurn hu hx
  · exact memoriesWf_applyPend hu
  · exact memoriesWf_peerTickStep hu
  · exact hu
  · exact memoriesWf_hostTurn hu hx

end Sys2Proof.Machine

/-! PROOFS. The serial engine, the device's frame and the host's accesses: what EN_LOAD, EN_XCHG and EN_CS do, which host accesses
stop, and the RP2040 binding (20_memory.md R60, R68, R71, R72, R77, R83; 45_flash_commands.md R275 to R278). -/

namespace Sys2Proof.Machine

/-! ### Frames at the device -/

/-- The byte taken for an exchange leaves the pin and the device as they are. -/
theorem engineTake_outside {s v : State} {m : Byte} (h : engineTake s = some (m, v)) : v.cs = s.cs ∧ v.peer = s.peer := by
  rcases engineTake_cases h with ⟨_, _, _, rfl⟩ | ⟨_, _, _, rfl⟩ <;> exact ⟨rfl, rfl⟩

/-- With chip-select asserted, an exchange runs the command that the device's frame then is (20_memory.md R72; 45_flash_commands.md
R277). -/
theorem exchangeTurn_exec {s v : State} {m : Byte} {p : RefPeer} {i : Instr} (ht : engineTake s = some (m, v))
    (hpeer : s.peer = .reference p) (hpin : s.cs.pin = true) (hd : decodeFrame (p.fr ++ [m]) = .ok i) :
    exchangeTurn s = exec i v := by
  obtain ⟨hcs, hp⟩ := engineTake_outside ht
  rw [hpeer] at hp
  simp only [exchangeTurn, ht, hcs, hpin, hp, hd]

/-- A pending deassertion runs the command of the device's frame, the pin deasserted (20_memory.md R77; 45_flash_commands.md R278). -/
theorem drainTurn_exec {s : State} {p : RefPeer} {i : Instr} (hpeer : s.peer = .reference p) (hpin : s.cs.pin = true)
    (hpend : s.cs.pend = some false) (hd : decodeFrame p.fr = .ok i) :
    drainTurn s = exec i { s with cs := { s.cs with pend := none, pin := false }, trace := s.trace ++ [.cs false] } := by
  have he : drainTurn s = exec i (logEvent (.cs false) (s.withCs { s.cs with pend := none, pin := false })) := by
    simp only [drainTurn, hpend, hpin, hpeer, hd]
  exact he

/-- With chip-select deasserted, the command of the device's whole frame is its PeerDeselect (R278). -/
theorem exec_deselect {s : State} {p : RefPeer} {i : Instr} (h : deselecting p s) (hd : decodeFrame p.fr = .ok i) :
    exec i s = .next { s with peer := .reference (peerDeselect s.now.draw p) } := by
  obtain ⟨hpeer, hpin⟩ := h
  obtain ⟨opc, rest, answer, commit, _, hcommit, he⟩ := exec_flash (decodeFrame_encode hd)
  simp only [he, flashCommand, hpeer, hpin, hcommit, peerDeselect, hd]
  rfl

/-- Settles O8: EN_XCHG's turn, EN_CS's turn, and what a frame's command does at a deselected device. -/
theorem stepRunsFlashCommand : Obligations.StepRunsFlashCommand := by
  unfold Obligations.StepRunsFlashCommand
  refine ⟨fun s v d p m i ht hpeer hpin hd => ?_, fun s d p i hpeer hpin hpend hd => ?_, fun s p i h hd => exec_deselect h hd⟩
  · exact exchangeTurn_exec (s := taken .engineExchange d s) ht hpeer hpin hd
  · exact drainTurn_exec (s := taken .engineCs d s) hpeer hpin hpend hd

/-! ### Bytes through the engine -/

/-- The receive FIFO after an exchange whose byte nothing answers: the drawn byte in it, or RxOverflow (20_memory.md R72, R75). -/
theorem exchangeDrawn_eq (m : Byte) (s : State) :
    exchangeDrawn m s =
      if s.engine.rxq.length = s.params.depth then
        { s with
          trace := if s.cs.pin then s.trace ++ [.x m (drawByte s)] else s.trace
          faulted := some (s.faulted.getD (.rxOverflow (drawByte s))) }
      else
        { s with
          trace := if s.cs.pin then s.trace ++ [.x m (drawByte s)] else s.trace
          engine := { s.engine with rxq := s.engine.rxq ++ [drawByte s] } } := by
  unfold exchangeDrawn engineReceive
  cases s.cs.pin <;> simp only [logEvent, raise_spec] <;> rfl

section
variable {s : State} {m : Byte} {q : List Byte}

/-- EN_LOAD moves the oldest byte when SH has room for it (R71). -/
theorem engineLoad_cons (h : s.engine.txq = m :: q) :
    engineLoad s =
      if s.engine.sh.length < s.params.hold then s.withEngine { s.engine with txq := q, sh := s.engine.sh ++ [m] } else s := by
  simp only [engineLoad, h]

/-- Without a holding stage EN_XCHG takes from the transmit FIFO (R72). -/
theorem engineTake_txq (hhold : s.params.hold = 0) (h : s.engine.txq = m :: q) :
    engineTake s = some (m, s.withEngine { s.engine with txq := q }) := by
  simp only [engineTake, hhold, h]
  rfl

/-- With one it takes from SH. -/
theorem engineTake_sh (hhold : 1 ≤ s.params.hold) (h : s.engine.sh = m :: q) :
    engineTake s = some (m, s.withEngine { s.engine with sh := q }) := by
  simp only [engineTake, hhold, h, if_true]

end

/-- Settles O51: the byte each step takes, and what its exchange puts into the receive FIFO. -/
theorem engineMovesBytes : Obligations.EngineMovesBytes := by
  unfold Obligations.EngineMovesBytes
  intro s d m q
  refine ⟨fun htxq => ?_, fun hun => ⟨fun hhold htxq => ?_, fun hhold hsh => ?_⟩⟩
  · exact congrArg Host.Outcome.next (engineLoad_cons (s := taken .engineLoad d s) htxq)
  · have ht := engineTake_txq (s := taken .engineExchange d s) hhold htxq
    exact (exchangeTurn_drawn ht hun).trans (congrArg Host.Outcome.next (exchangeDrawn_eq m _))
  · have ht := engineTake_sh (s := taken .engineExchange d s) hhold hsh
    exact (exchangeTurn_drawn ht hun).trans (congrArg Host.Outcome.next (exchangeDrawn_eq m _))

/-! ### Host accesses -/

/-- A HOST_BASE that is a multiple of 4 leaves an address's alignment to its offset (20_memory.md R83, log entry 19). -/
theorem hostOffset_aligned {p : Params} (h : p.hostBase.extractLsb' 0 2 = 0#2) (a : Word) :
    (hostOffset p a).extractLsb' 0 2 = a.extractLsb' 0 2 := by
  have hb := congrArg BitVec.toNat h
  apply BitVec.eq_of_toNat_eq
  simp only [hostOffset, BitVec.extractLsb'_toNat, BitVec.toNat_sub, BitVec.toNat_ofNat, Nat.shiftRight_zero] at hb ⊢
  omega

/-- An address lies `k` bytes after another, `k` below a count, when its distance is below the count (20_memory.md R63). -/
theorem sub_toNat_lt_iff (a b n : Word) : (a - b).toNat < n.toNat ↔ ∃ k, k < n.toNat ∧ a = b + BitVec.ofNat 32 k := by
  constructor
  · intro h
    exact ⟨(a - b).toNat, h, by rw [BitVec.ofNat_toNat, BitVec.setWidth_eq, BitVec.add_comm, BitVec.sub_add_cancel]⟩
  · rintro ⟨k, hk, rfl⟩
    have := n.isLt
    have hsub : b + BitVec.ofNat 32 k - b = BitVec.ofNat 32 k := by rw [BitVec.add_comm, BitVec.add_sub_cancel]
    rw [hsub, BitVec.toNat_ofNat]
    omega

theorem accessInModel_iff (o : Word) (z : AccessSize) : accessInModel o z = true ↔ z = .word ∧ o.extractLsb' 0 2 = 0#2 := by
  simp [accessInModel]

/-- The bytes the host keeps off: those of the buffers of a running TRANSFER or ISSUE (R60). -/
theorem inBuffer_iff (s : State) (a : Word) :
    (inTxBuffer s a || inRxBuffer s a) = true ↔
      s.host.busy = true ∧ (s.ctl.top = 3#4 ∨ s.ctl.top = 4#4) ∧
        ∃ k, k < s.ctl.lN.toNat ∧ ((s.ctl.lTxk = 1#2 ∧ a = s.ctl.lTx + BitVec.ofNat 32 k) ∨
          (s.ctl.lRxk = 1#2 ∧ a = s.ctl.lRx + BitVec.ofNat 32 k)) := by
  simp only [inTxBuffer, inRxBuffer, Bool.or_eq_true, Bool.and_eq_true, beq_iff_eq, decide_eq_true_eq, sub_toNat_lt_iff]
  constructor
  · rintro (⟨⟨⟨hb, ht⟩, hk⟩, k, hlt, ha⟩ | ⟨⟨⟨hb, ht⟩, hk⟩, k, hlt, ha⟩)
    · exact ⟨hb, ht, k, hlt, .inl ⟨hk, ha⟩⟩
    · exact ⟨hb, ht, k, hlt, .inr ⟨hk, ha⟩⟩
  · rintro ⟨hb, ht, k, hlt, ⟨hk, ha⟩ | ⟨hk, ha⟩⟩
    · exact .inl ⟨⟨⟨hb, ht⟩, hk⟩, k, hlt, ha⟩
    · exact .inr ⟨⟨⟨hb, ht⟩, hk⟩, k, hlt, ha⟩

/-- A request that is no wait is taken off the queue and carried out. -/
theorem step_host_request (s : State) (d : Nat) {r : HostReq} (q : List HostReq) (hr : r ≠ .await) :
    step (chosen .host d { s with hostQ := r :: q }) = hostRequest r ((taken .host d s).withHostQ q) :=
  if_neg fun h => hr h.1

/-- A register access that is not a word at an aligned address is refused (R83). -/
theorem hostRequest_shape {s : State} (hb : s.params.hostBase.extractLsb' 0 2 = 0#2) {a : Word} {z : AccessSize}
    (h : z ≠ .word ∨ a.extractLsb' 0 2 ≠ 0#2) (v : Word) :
    hostRequest (.write a z v) s = .refused (.hostAccessShape a) ∧ hostRequest (.read a z) s = .refused (.hostAccessShape a) := by
  have hout : accessInModel (hostOffset s.params a) z = false := by
    rw [← Bool.not_eq_true, accessInModel_iff, hostOffset_aligned hb]
    tauto
  simp [hostRequest, hout]

section
variable {s : State} {a : Word} (hfree : (inTxBuffer s a || inRxBuffer s a) = false)
include hfree

theorem hostPutByte_refused (v : Byte) (h : admitsWrite s.params a = false) : hostPutByte a v s = .fault (.noSuchAddress a) := by
  simp [hostPutByte, hfree, memWrite, h]

theorem hostGetByte_refused (h : admitsRead s.params a = false) : hostGetByte a s = .fault (.noSuchAddress a) := by
  simp [hostGetByte, hfree, memRead, h]

theorem hostPutByte_admitted (v : Byte) (h : admitsWrite s.params a = true) :
    hostPutByte a v s = .next (s.withMem (cellsWrite Config.memUnlisted s.mem a.toNat v)) := by
  simp [hostPutByte, hfree, memWrite, h]

theorem hostGetByte_admitted (h : admitsRead s.params a = true) :
    hostGetByte a s = .next (s.withHostData ((byteAt s.mem a).setWidth 32)) := by
  simp [hostGetByte, hfree, memRead, h]

end

/-- A byte of a running operation's buffers is refused to the host (R60). -/
theorem hostByte_race {s : State} {a : Word} (h : (inTxBuffer s a || inRxBuffer s a) = true) (v : Byte) :
    hostPutByte a v s = .refused (.hostBufferRace a) ∧ hostGetByte a s = .refused (.hostBufferRace a) := by
  simp [hostPutByte, hostGetByte, h]

/-- Settles O12: the register accesses by their shape, the buffer accesses by whose the byte is and what the launch memory admits,
the wait by BUSY. -/
theorem outsideHostAccessesStop : Obligations.OutsideHostAccessesStop := by
  unfold Obligations.OutsideHostAccessesStop
  refine ⟨fun s q a v z hb hshape => ?_, fun s q a v => ?_, fun s q => ?_⟩
  · rw [step_host_request s 0 q (r := .write a z v) nofun, step_host_request s 0 q (r := .read a z) nofun]
    exact hostRequest_shape (s := (taken .host 0 s).withHostQ q) hb hshape v
  · intro put get used
    have hput : put = hostPutByte a v ((taken .host 0 s).withHostQ q) := step_host_request s 0 q nofun
    have hget : get = hostGetByte a ((taken .host 0 s).withHostQ q) := step_host_request s 0 q nofun
    have hused : (inTxBuffer s a || inRxBuffer s a) = true ↔ used := inBuffer_iff s a
    rw [hput, hget, ← hused, Bool.not_eq_true]
    refine ⟨fun hrace => ?_, fun hfree hw => ?_, fun hfree hr => ?_, fun hfree hw => ?_, fun hfree hr => ?_⟩
    · exact hostByte_race (s := (taken .host 0 s).withHostQ q) hrace v
    · exact hostPutByte_refused (s := (taken .host 0 s).withHostQ q) hfree v hw
    · exact hostGetByte_refused (s := (taken .host 0 s).withHostQ q) hfree hr
    · exact ⟨_, hostPutByte_admitted (s := (taken .host 0 s).withHostQ q) hfree v hw, rfl, byteAt_write_self s.mem a v,
        fun b hne => byteAt_write_other s.mem v hne⟩
    · exact hostGetByte_admitted (s := (taken .host 0 s).withHostQ q) hfree hr
  · by_cases hbusy : s.host.busy = true
    · rw [if_pos hbusy]
      exact if_pos ⟨rfl, hbusy⟩
    · rw [if_neg hbusy]
      exact if_neg fun h => hbusy h.2

/-! ### The RP2040 binding -/

/-- A chip-select write bit by bit: OUTOVER is bits 9 and 8, every other bit is the old one (20_memory.md R68). -/
theorem rp2040WriteCs_getLsbD (old : Word) (act : Bool) {k : Nat} (hk : k < 32) :
    (rp2040WriteCs old act).getLsbD k = if k = 8 ∨ k = 9 then (outoverOf act).bits.getLsbD (k - 8) else old.getLsbD k := by
  simp only [rp2040WriteCs, BitVec.getLsbD_append, BitVec.getLsbD_extractLsb']
  by_cases h8 : k < 8
  · simp [h8, show ¬(k = 8 ∨ k = 9) by omega]
  by_cases h10 : k - 8 < 2
  · simp [h8, h10, show k = 8 ∨ k = 9 by omega]
  · simp [h8, h10, show ¬(k = 8 ∨ k = 9) by omega, show k - 8 - 2 < 22 by omega, show 10 + (k - 8 - 2) = k by omega]

theorem rp2040WriteCs_outover (old : Word) (act : Bool) : (rp2040WriteCs old act).extractLsb' 8 2 = (outoverOf act).bits := by
  apply BitVec.eq_of_getLsbD_eq
  intro i hi
  rw [BitVec.getLsbD_extractLsb', rp2040WriteCs_getLsbD old act (by omega), if_pos (by omega)]
  simp [hi]

theorem rp2040Outover_of_bits {v : Word} {o : Outover} (h : v.extractLsb' 8 2 = o.bits) : rp2040Outover v = o := by
  cases o <;> simp [rp2040Outover, h, Outover.bits]

theorem portAddress_rp2040 (p : Params) (r : PortReg) : portAddress (rp2040Params p) r = rp2040Address r := by
  cases r <;> rfl

theorem rp2040Address_injective {r r' : PortReg} (h : rp2040Address r = rp2040Address r') : r = r' := by
  cases r <;> cases r' <;> simp [rp2040Address] at h ⊢

/-- Settles O59: the write by its bits, the addresses by their being different. -/
theorem rp2040ChipSelectField : Obligations.Rp2040ChipSelectField := by
  unfold Obligations.Rp2040ChipSelectField
  refine ⟨fun old act own => ?_, fun v own => ⟨fun h => ?_, fun h => ?_⟩, fun p => ⟨fun r a hra => ?_, rfl, rfl⟩⟩
  · have hbits := rp2040WriteCs_outover old act
    have hover := rp2040Outover_of_bits hbits
    refine ⟨?_, ?_, ?_, fun k hk h8 h9 => ?_⟩
    · rw [rp2040CsActive, hover]; cases act <;> rfl
    · rw [hbits]; cases act <;> rfl
    · rw [hover]; cases act <;> rfl
    · rw [rp2040WriteCs_getLsbD old act hk, if_neg (by omega)]
  · rw [rp2040Outover_of_bits (o := .normal) h]; rfl
  · rw [rp2040Outover_of_bits (o := .invert) h]; rfl
  · have haddr : rp2040Address r = a := by
      simp only [List.mem_cons, Prod.mk.injEq, List.not_mem_nil, or_false] at hra
      rcases hra with ⟨rfl, rfl⟩ | ⟨rfl, rfl⟩ | ⟨rfl, rfl⟩ | ⟨rfl, rfl⟩ | ⟨rfl, rfl⟩ <;> rfl
    have hport := portAddress_rp2040 p r
    rw [haddr] at hport
    refine ⟨hport, hport ▸ portAt_portAddress (fun r r' h => rp2040Address_injective ?_) r⟩
    rwa [portAddress_rp2040, portAddress_rp2040] at h

end Sys2Proof.Machine

/-! PROOFS. Encoding: decoding and encoding are each other's inverse, what a CMD write starts, refuses and ignores, which instruction
a step runs, a placed row of the opcode table, and the pseudo-operations (30_encoding.md R100 to R103, R107 to R115). -/

namespace Sys2Proof

/-! ### Operations by their number, flash commands by their opcode -/

/-- The nine operations of 30_encoding.md R102. -/
theorem hostOp_cases {op : BitVec 4} {f : CmdFields} {i : Instr} (h : hostOp op f = some i) :
    (op = 1#4 ∧ i = .setSelect f) ∨ (op = 2#4 ∧ i = .isAborted f) ∨ (op = 3#4 ∧ i = .transfer f) ∨
      (op = 4#4 ∧ i = .issue f) ∨ (op = 5#4 ∧ i = .issueAddr f) ∨ (op = 6#4 ∧ i = .waitReady f) ∨
      (op = 7#4 ∧ i = .enableWrite f) ∨ (op = 8#4 ∧ i = .eraseSeq f) ∨ (op = 9#4 ∧ i = .diagStatus f) := by
  unfold hostOp at h
  split at h
  all_goals
    rename_i hop
    cases h <;> simp [← BitVec.toNat_inj, hop]

/-- The numbers that no operation has (R107 (a)). -/
theorem hostOp_eq_none_iff (op : BitVec 4) (f : CmdFields) : hostOp op f = none ↔ op = 0#4 ∨ 9 < op.toNat := by
  have hlt := op.isLt
  rw [hostOp, ← BitVec.toNat_inj]
  interval_cases op.toNat <;> simp

/-- An operation is well formed when it ignores its kinds or they are legal (R107 (c), (d)). -/
theorem hostOp_wf {op : BitVec 4} {f : CmdFields} {i : Instr} (h : hostOp op f = some i) :
    i.wf = (!opHasKinds op || (f.txkLegal && f.rxkLegal)) := by
  rcases hostOp_cases h with ⟨rfl, rfl⟩ | ⟨rfl, rfl⟩ | ⟨rfl, rfl⟩ | ⟨rfl, rfl⟩ | ⟨rfl, rfl⟩ | ⟨rfl, rfl⟩ | ⟨rfl, rfl⟩ |
    ⟨rfl, rfl⟩ | ⟨rfl, rfl⟩ <;> rfl

/-- An operation's code is the command word of its number and its fields. -/
theorem encode_hostOp {op : BitVec 4} {f : CmdFields} {i : Instr} (h : hostOp op f = some i) :
    encode i = .cmd (encodeCmd op f) := by
  rcases hostOp_cases h with ⟨rfl, rfl⟩ | ⟨rfl, rfl⟩ | ⟨rfl, rfl⟩ | ⟨rfl, rfl⟩ | ⟨rfl, rfl⟩ | ⟨rfl, rfl⟩ | ⟨rfl, rfl⟩ |
    ⟨rfl, rfl⟩ | ⟨rfl, rfl⟩ <;> rfl

/-- The two formats of 30_encoding.md R100: an instruction is the operation of a number or the command of an opcode. -/
theorem encode_cases (i : Instr) :
    (∃ op f, hostOp op f = some i ∧ encode i = .cmd (encodeCmd op f)) ∨
      ∃ opc rest, flashOp opc rest = some i ∧ encode i = .frame (opc :: rest) := by
  cases i with
  | setSelect f | isAborted f | transfer f | issue f | issueAddr f | waitReady f | enableWrite f | eraseSeq f | diagStatus f =>
    exact .inl ⟨_, f, rfl, rfl⟩
  | flashPp rest | flashRead rest | flashRdsr1 rest | flashWren rest | flashSe rest | flashRdsfdp rest | flashRdid rest
  | flashCe rest | flashVwren rest | flashWrsr1 rest | flashWrsr2 rest | flashWrsr3 rest | flashRdsr2 rest | flashRdsr3 rest =>
    exact .inr ⟨_, rest, rfl, rfl⟩

/-- A frame may hold any bytes (R109). -/
theorem wf_of_encode_frame {i : Instr} {bytes : List Byte} (h : encode i = .frame bytes) : i.wf = true := by
  cases i with
  | transfer f | issue f => cases h
  | _ => rfl

/-! ### Decoding a command word -/

/-- What decodes has no reserved bit set, a number of R102, and legal kinds where it uses them. -/
theorem decodeCmd_eq_ok_iff {v : Word} {i : Instr} :
    decodeCmd v = .ok i ↔ cmdRsvd v = 0#7 ∧ hostOp (cmdOp v) (cmdFields v) = some i ∧ i.wf = true := by
  unfold decodeCmd
  cases hop : hostOp (cmdOp v) (cmdFields v) with
  | none => simp
  | some j =>
    have hwf := hostOp_wf hop
    constructor
    · intro h
      split_ifs at h with hrsvd htxk hrxk
      cases h
      exact ⟨not_not.mp hrsvd, rfl, by rw [hwf]; grind⟩
    · rintro ⟨hrsvd, hj, hlegal⟩
      cases hj
      rw [hwf] at hlegal
      split_ifs <;> simp_all

/-- The code of an operation whose kinds are legal decodes to it. -/
theorem decodeCmd_encodeCmd {op : BitVec 4} {f : CmdFields} {i : Instr} (h : hostOp op f = some i) (hw : i.wf = true) :
    decodeCmd (encodeCmd op f) = .ok i := by
  rw [decodeCmd_eq_ok_iff, cmdRsvd_encode, cmdOp_encode, cmdFields_encode]
  exact ⟨rfl, h, hw⟩

/-- The CMD values that R107 (a) to (d) refuse. -/
def illegalCmd (v : Word) : Prop :=
  cmdOp v = 0#4 ∨ 9 < (cmdOp v).toNat ∨ cmdRsvd v ≠ 0#7 ∨
    ((cmdOp v = 3#4 ∨ cmdOp v = 4#4) ∧ ((cmdFields v).txk = 3#2 ∨ (cmdFields v).rxk = 2#2 ∨ (cmdFields v).rxk = 3#2))

/-- They are the values that decode to nothing. -/
theorem illegalCmd_iff (v : Word) : illegalCmd v ↔ ¬∃ i, decodeCmd v = .ok i := by
  have hnone := hostOp_eq_none_iff (cmdOp v) (cmdFields v)
  simp only [decodeCmd_eq_ok_iff, illegalCmd]
  cases hop : hostOp (cmdOp v) (cmdFields v) with
  | none => simpa using (hnone.mp hop).imp_right .inl
  | some i =>
    have hwf := hostOp_wf hop
    rw [hop] at hnone
    simp only [opHasKinds, CmdFields.txkLegal, CmdFields.rxkLegal] at hwf
    -- The number is one of R102's, so that only the reserved bits and the kinds can refuse the value.
    grind

end Sys2Proof

namespace Sys2Proof.Machine

/-- Settles O1: an instruction is an operation of a number or a command of an opcode, and each format's decoder undoes its encoder. -/
theorem decodeOfEncode : Obligations.DecodeOfEncode := by
  unfold Obligations.DecodeOfEncode
  intro i hwf
  rcases encode_cases i with ⟨op, f, hop, he⟩ | ⟨opc, rest, hop, he⟩
  · rw [he]
    exact decodeCmd_encodeCmd hop hwf
  · simp only [he, decode, decodeFrame, hop]

/-- Settles O2: a command word by its fields put together again, a frame by its bytes. -/
theorem encodeOfDecode : Obligations.EncodeOfDecode := by
  unfold Obligations.EncodeOfDecode
  intro c i hd
  cases c with
  | cmd v =>
    obtain ⟨hrsvd, hop, hwf⟩ := decodeCmd_eq_ok_iff.mp hd
    exact ⟨hwf, by rw [encode_hostOp hop, encode_fields v hrsvd]⟩
  | frame bytes =>
    have he := decodeFrame_encode hd
    exact ⟨wf_of_encode_frame he, he⟩

/-- Settles O3: each word and frame decoded. -/
theorem specWordsDecode : Obligations.SpecWordsDecode := by
  unfold Obligations.SpecWordsDecode
  exact ⟨rfl, rfl, rfl, rfl, rfl, rfl, rfl, rfl⟩

/-! ### CMD writes -/

/-- The host's write to HOST_BASE is a CMD write. -/
theorem step_writeCmd (s : State) (v : Word) (q : List HostReq) :
    step (chosen .host 0 { s with hostQ := .write s.params.hostBase .word v :: q }) =
      writeCmd v ((taken .host 0 s).withHostQ q) := by
  have hreq : ∀ u : State, u.params = s.params → hostRequest (.write s.params.hostBase .word v) u = writeCmd v u := by
    intro u hu
    simp [hostRequest, hu, accessInModel]
  exact (step_host_request s 0 q (by simp)).trans (hreq _ rfl)

section
variable {s : State} {v : Word}

theorem writeCmd_busy (hf : s.faulted = none) (hb : s.host.busy = true) :
    writeCmd v s = .next (s.withFaulted (some (.hostOverrun v))) := by
  simp [writeCmd, hf, hb, raise_of_none]

theorem writeCmd_faulted (hf : s.faulted ≠ none) : writeCmd v s = .next s := by
  simp [writeCmd, Option.isSome_iff_ne_none.mpr hf]

/-- On a ready block the word is kept and the operation it decodes to runs (30_encoding.md R110). -/
theorem writeCmd_ready (hs : isReady s) {i : Instr} (hd : decodeCmd v = .ok i) :
    writeCmd v s = exec i (s.withHost { s.host with cmd := v }) := by
  simp only [writeCmd, hs.1, hs.2, hd]
  rfl

theorem writeCmd_illegal (hs : isReady s) (hv : illegalCmd v) :
    writeCmd v s = .next ((s.withHost { s.host with cmd := v }).withFaulted (some (.illegalOp v))) := by
  cases hd : decodeCmd v with
  | ok i => exact absurd ⟨i, hd⟩ ((illegalCmd_iff v).mp hv)
  | error e =>
    simp only [writeCmd, hs.1, hs.2, hd]
    exact congrArg Host.Outcome.next (raise_of_none hs.1)

/-- On a ready block an operation starts, unless it refuses its parameter (R107, R110). -/
theorem operate_start {op : BitVec 4} {f : CmdFields} {refuse : State → Option BlockFault} {activate : Ctl → Frame}
    (hs : isReady s) (hr : refuse s = none) :
    operate op f refuse activate s = .next (startOperation op f activate s) := by
  simp [operate, hs.1, hs.2, hr]

theorem refuseWideAddress_narrow (h : s.host.argAddr.extractLsb' 24 8 = 0#8) : refuseWideAddress s = none := by
  simp [refuseWideAddress, addressTooWide, h]

/-- ISSUE_ADDR with an address of more than 24 bits is refused (R107). -/
theorem exec_issueAddr_wide (hs : isReady s) (h : s.host.argAddr.extractLsb' 24 8 ≠ 0#8) (f : CmdFields) :
    exec (.issueAddr f) s = .next (s.withFaulted (some (.badParam s.host.argAddr))) := by
  have he : exec (.issueAddr f) s = operate 5#4 f refuseWideAddress (fun c => .issueAddr .A0 c.lOpc (c.lAddr.setWidth 24)) s := rfl
  rw [he]
  simp [operate, hs.1, hs.2, refuseWideAddress, addressTooWide, h, raise_of_none]

end

/-- Settles O6: a CMD write by BUSY and FAULTED. -/
theorem commandWhileBusyOrFaulted : Obligations.CommandWhileBusyOrFaulted := by
  unfold Obligations.CommandWhileBusyOrFaulted
  intro s v q
  rw [step_writeCmd]
  exact ⟨fun hf hb => writeCmd_busy (s := (taken .host 0 s).withHostQ q) hf hb,
    fun hf => writeCmd_faulted (s := (taken .host 0 s).withHostQ q) hf⟩

/-- On a ready block a CMD write of a legal word runs the operation it decodes to. -/
theorem step_writeCmd_ready {s : State} {v : Word} {i : Instr} (q : List HostReq) (hs : isReady s) (hd : decodeCmd v = .ok i) :
    step (chosen .host 0 { s with hostQ := .write s.params.hostBase .word v :: q }) =
      exec i { taken .host 0 s with hostQ := q, host := { s.host with cmd := v } } := by
  rw [step_writeCmd]
  exact writeCmd_ready (s := (taken .host 0 s).withHostQ q) hs hd

/-- Settles O7: the CMD write by what it decodes to, the controller's turn by the operation that runs. -/
theorem stepRunsHostOperation : Obligations.StepRunsHostOperation := by
  unfold Obligations.StepRunsHostOperation
  refine ⟨fun s v i q hs hd => step_writeCmd_ready q hs hd, fun s d i hi => ?_, fun s d hi => ?_⟩
  all_goals
    have hrun : runningInstr (taken .controller d s) = runningInstr s := rfl
    have hturn : step (chosen .controller d s) = controllerTurn (taken .controller d s) := rfl
    simp only [hturn, controllerTurn, hrun, hi]

/-- Settles O5: the word decodes to the operation, which starts, each with its own sub-machine. -/
theorem commandStartsOperation : Obligations.CommandStartsOperation := by
  unfold Obligations.CommandStartsOperation
  intro s op f i q hs hop hwf haddr c x start
  rw [step_writeCmd_ready q hs (decodeCmd_encodeCmd hop hwf)]
  rcases hostOp_cases hop with ⟨rfl, rfl⟩ | ⟨rfl, rfl⟩ | ⟨rfl, rfl⟩ | ⟨rfl, rfl⟩ | ⟨rfl, rfl⟩ | ⟨rfl, rfl⟩ | ⟨rfl, rfl⟩ |
    ⟨rfl, rfl⟩ | ⟨rfl, rfl⟩
  case inr.inr.inr.inr.inl =>
    exact operate_start hs (refuseWideAddress_narrow (haddr rfl))
  all_goals exact operate_start (refuse := noRefusal) hs rfl

/-- Settles O4: a value that decodes to nothing is IllegalOp; of the others only ISSUE_ADDR looks at a parameter. -/
theorem illegalCommandFaults : Obligations.IllegalCommandFaults := by
  unfold Obligations.IllegalCommandFaults
  intro s v q hs bad
  have hbad : ¬bad → ∃ i, decodeCmd v = .ok i := fun h => not_not.mp fun hn => h ((illegalCmd_iff v).mpr hn)
  refine ⟨fun hb => ?_, fun hb hop hwide => ?_, fun hb hnarrow => ?_⟩
  · rw [step_writeCmd]
    exact writeCmd_illegal (s := (taken .host 0 s).withHostQ q) hs hb
  · obtain ⟨i, hd⟩ := hbad hb
    obtain ⟨-, hi, -⟩ := decodeCmd_eq_ok_iff.mp hd
    rw [show cmdOp v = 5#4 from hop] at hi
    cases hi
    rw [step_writeCmd_ready q hs hd]
    exact exec_issueAddr_wide (s := { taken .host 0 s with hostQ := q, host := { s.host with cmd := v } }) hs hwide _
  · obtain ⟨i, hd⟩ := hbad hb
    obtain ⟨hrsvd, hi, hwf⟩ := decodeCmd_eq_ok_iff.mp hd
    have hstart := commandStartsOperation s (cmdOp v) (cmdFields v) i q hs hi hwf hnarrow
    rw [encode_fields v hrsvd] at hstart
    refine ⟨_, hstart, hs.1, rfl, rfl, ?_⟩
    rcases hostOp_cases hi with ⟨-, rfl⟩ | ⟨-, rfl⟩ | ⟨-, rfl⟩ | ⟨-, rfl⟩ | ⟨-, rfl⟩ | ⟨-, rfl⟩ | ⟨-, rfl⟩ |
      ⟨-, rfl⟩ | ⟨-, rfl⟩ <;> exact List.cons_ne_nil _ _

/-! ### A placed row of the opcode table -/

theorem eq_ok_of_toOption {ε α : Type} {x : Except ε α} {a : α} (h : x.toOption = some a) : x = .ok a := by
  cases x with
  | error e => cases h
  | ok b => exact congrArg Except.ok (Option.some.inj h)

/-- A frame is its bytes before the last, and the last. -/
theorem zeroFrame_split (opc : Byte) : (zeroFrame opc).dropLast ++ [(zeroFrame opc).getLastD opc] = zeroFrame opc :=
  List.dropLast_concat_getLast (List.cons_ne_nil _ _)

/-- The byte offered to the engine is the one EN_XCHG takes, and the engine is then as it was. -/
theorem engineTake_offer (m : Byte) {s u : State} (hp : u.params = s.params) (he : u.engine = engineOffer m s) :
    engineTake u = some (m, u.withEngine s.engine) := by
  unfold engineOffer at he
  by_cases hhold : 1 ≤ s.params.hold
  · rw [if_pos hhold] at he
    rw [engineTake_sh (q := s.engine.sh) (hp ▸ hhold) (by rw [he]), he]
  · rw [if_neg hhold] at he
    rw [engineTake_txq (q := s.engine.txq) (by rw [hp]; omega) (by rw [he]), he]

/-- A placed last byte is exchanged, and the device runs the frame that ends in it. -/
theorem step_placeLastByte (s : State) {init : List Byte} {m : Byte} {i : Instr} (hd : decodeFrame (init ++ [m]) = .ok i) :
    step (placeLastByte init m s) =
      exec i { s with
        peer := .reference { placedPeer s.peer with sel := true, fr := init }, cs := { s.cs with pin := true }
        now := { agent := .engineExchange, draw := 0 } } :=
  exchangeTurn_exec (engineTake_offer m (s := s) rfl rfl) rfl rfl hd

/-- A placed frame's deassertion reaches the pin, and the device runs the frame. -/
theorem step_placeDeselect (s : State) {frame : List Byte} {i : Instr} (hd : decodeFrame frame = .ok i) :
    step (placeDeselect frame s) =
      exec i { s with
        peer := .reference { placedPeer s.peer with sel := true, fr := frame }
        cs := { s.cs with pend := none, pin := false }, trace := s.trace ++ [.cs false]
        now := { agent := .engineCs, draw := 0 } } :=
  drainTurn_exec (s := taken .engineCs 0 { s with
    peer := .reference { placedPeer s.peer with sel := true, fr := frame }, cs := { s.cs with pend := some false, pin := true } })
    rfl rfl rfl hd

/-- Settles O9: a command word is a CMD write to a ready block; a flash row is an exchange or a drain at a device that has its
frame. -/
theorem placedRowRunsNext : Obligations.PlacedRowRunsNext := by
  unfold Obligations.PlacedRowRunsNext
  intro s w i
  refine ⟨fun h => ?_, fun h => ?_⟩
  · exact step_writeCmd_ready
      (s := { s with faulted := none, stack := [], ctl := { s.ctl with top := 0 }, host := { s.host with busy := false } })
      s.hostQ ⟨rfl, rfl⟩ (eq_ok_of_toOption h)
  · have hd : decodeFrame (zeroFrame (BitVec.ofNat 8 w)) = .ok i := eq_ok_of_toOption h
    have hplace : s.withFetchWord 8 w = placeFrame (BitVec.ofNat 8 w) s := rfl
    rw [hplace]
    simp only [placeFrame, hd]
    cases answersData i with
    | true => exact ⟨_, _, step_placeLastByte s ((zeroFrame_split _).symm ▸ hd), rfl, rfl, rfl, rfl⟩
    | false => exact ⟨_, _, step_placeDeselect s hd, rfl, rfl, rfl, rfl⟩

/-! ### Pseudo-operations -/

/-- A command word as a number (30_encoding.md R101). -/
theorem encodeCmd_toNat (op : BitVec 4) (f : CmdFields) :
    (encodeCmd op f).toNat =
      (((((f.act.toNat * 2 ^ 8 + f.imm.toNat) * 2 ^ 8 + f.opc.toNat) * 2 ^ 2 + f.rxk.toNat) * 2 ^ 2 + f.txk.toNat) * 2 ^ 4 +
        op.toNat) := by
  have happend {m n : Nat} (x : BitVec m) (y : BitVec n) : (x ++ y).toNat = x.toNat * 2 ^ n + y.toNat := by
    rw [BitVec.toNat_append, ← Nat.shiftLeft_add_eq_or_of_lt y.isLt, Nat.shiftLeft_eq]
  simp [encodeCmd, happend]

/-- The word of an ISSUE that writes the byte `b` with 0x01 (R115). -/
theorem encodeCmd_writeSr1 (b : Byte) :
    encodeCmd 4#4 (fieldsOf 2 0 Config.opcWrsr1 b false) = 0x00000124 + b.setWidth 32 * 0x10000 := by
  apply BitVec.eq_of_toNat_eq
  rw [encodeCmd_toNat]
  have := b.isLt
  simp [fieldsOf, Config.opcWrsr1]
  omega

/-- The CMD write is at HOST_BASE itself (10_state.md R21). -/
theorem command_eq (base : Word) (op : BitVec 4) (f : CmdFields) :
    command base op f = [.write base .word (encodeCmd op f), .await] := by
  simp [command, putReg]

/-- Settles O58: each CMD word evaluated, each argument write at its offset. -/
theorem pseudoOperationsExpand : Obligations.PseudoOperationsExpand := by
  unfold Obligations.PseudoOperationsExpand
  intro base a r n b cmd arg
  refine ⟨?_, ?_, ?_, ?_, fun _ => ?_, ?_, ?_⟩
  · simp only [pseudoReadData, lineIssueAddr, lineTransfer, command_eq, RxDest.kind]
    rfl
  · simp only [pseudoPageProgram, lineEnableWrite, lineIssueAddr, lineTransfer, lineWaitReady, command_eq, TxSource.kind,
      TxSource.byte]
    rfl
  · simp only [pseudoSectorErase, lineEnableWrite, lineIssueAddr, lineTransfer, lineWaitReady, command_eq]
    rfl
  · simp only [pseudoReadJedecId, lineIssue, command_eq, RxDest.kind]
    rfl
  · have hn : BitVec.ofNat 32 (n.toNat + 1) = n + 1 := by simp [BitVec.ofNat_add]
    rw [hn]
    simp only [pseudoReadSfdp, lineIssueAddr, lineTransfer, command_eq, RxDest.kind]
    rfl
  · rw [← encodeCmd_writeSr1]
    simp only [pseudoWriteSr1, lineEnableWrite, lineIssue, lineWaitReady, command_eq]
    rfl
  · simp only [pseudoEnableWrite, lineIssue, command_eq]
    rfl

end Sys2Proof.Machine

/-! PROOFS. The register port's chip-select and abort registers: SET_SELECT line by line and under every interleaving, IS_ABORTED,
and that only the abort environment writes the abort signal (40_csr_access.md R140 to R144; 20_memory.md R67, R69, R77, R81). -/

namespace Sys2Proof.Machine

/-! ### SET_SELECT's two lines -/

/-- The state CS1 leaves: the write in CSCTRL, posted, and the line as it was (40_csr_access.md R140; 20_memory.md R67). -/
def afterCs1 (act : Bool) (below : List Frame) (s : State) : State :=
  { s with
    stack := .setSelect .CS2 act :: below, ctl := { s.ctl with csAct := act }
    cs := { s.cs with csreg := if act then 1 else 0, pend := some act } }

/-- The state a host's CS2 leaves: the line in the state `act`, the operation over (R140; 30_encoding.md R111). -/
def afterCs2 (act : Bool) (s : State) : State :=
  { pinTakes act s with
    stack := [], ctl := { s.ctl with top := 0 }, host := { s.host with busy := false, aborted := false } }

section
variable {s : State} {act : Bool}

theorem controllerStep_cs1 {below : List Frame} (hf : s.faulted = none) (hs : s.stack = .setSelect .CS1 act :: below) :
    controllerStep s = afterCs1 act below s := by
  rw [controllerStep_cons hf hs]
  cases act <;> rfl

theorem controllerStep_cs2 (hf : s.faulted = none) (hs : s.stack = [.setSelect .CS2 act]) (hp : selectPosted act s) :
    controllerStep s = afterCs2 act s := by
  have hline : controllerStep s = returnToHost .completed (applyPend s) := controllerStep_cons hf hs
  rw [hline, applyPend_posted hp]
  rfl

/-- The controller's turn while a SET_SELECT runs. -/
theorem controllerTurn_setSelect {k : List Frame} (h : runsAt 1#4 k s) : controllerTurn s = .next (controllerStep s) := by
  obtain ⟨-, hb, ht, -⟩ := h
  refine ((controllerTurn_cases s).resolve_left ?_).2
  simp [runningInstr, hb, ht, hostOp]

/-- The meaning of a SET_SELECT that runs. -/
theorem exec_setSelect_runs {k : List Frame} (f : CmdFields) (h : runsAt 1#4 k s) :
    exec (.setSelect f) s = .next (controllerStep s) := by
  obtain ⟨-, hb, ht, -⟩ := h
  exact operate_busy (refuse := noRefusal) hb ht

end

/-- Settles O13: CS1 by its line, the host's CS2 by its line and its return. -/
theorem setSelectWritesAndReadsBack : Obligations.SetSelectWritesAndReadsBack := by
  unfold Obligations.SetSelectWritesAndReadsBack
  intro f s act below posted
  refine ⟨fun h => ?_, fun h hbelow => ?_, fun h hp => ?_⟩
  · have ⟨hf, _, hs⟩ := h
    rw [controllerTurn_line h, ← controllerStep_cons hf hs, controllerStep_cs1 hf hs]
    rfl
  · subst hbelow
    have ⟨hf, _, _, hs⟩ := h
    rw [exec_setSelect_runs f h, controllerStep_cs1 hf hs]
    rfl
  · have ⟨hf, _, _, hs⟩ := h
    rw [exec_setSelect_runs f h, controllerStep_cs2 hf hs hp]
    rfl

/-! ### Other agents between the two lines -/

/-- The state the line is in once a pending write, if there is one, has reached it (20_memory.md R67, R77). -/
def selectTarget (c : ChipSelect) : Bool := c.pend.getD c.pin

theorem selectPosted_iff (act : Bool) (s : State) : selectPosted act s ↔ selectTarget s.cs = act := by
  unfold selectPosted selectTarget
  cases s.cs.pend <;> simp

theorem selectTarget_applyPend (s : State) : selectTarget (applyPend s).cs = selectTarget s.cs := by
  rw [applyPend_cs]; rfl

/-- From `s` to `t` an agent moved that leaves the block, the schedule, FAULTED and the state requested of the line alone. -/
structure OutsideMove (s t : State) : Prop where
  block : SameBlock s t
  sched : t.sched = s.sched
  faulted : t.faulted = s.faulted
  target : selectTarget t.cs = selectTarget s.cs

/-- The engine, the peer and the abort environment always have a turn, and it is such a move: EN_CS brings the line to the state
requested, and under flow control no exchange faults. -/
theorem agentTurn_outside {s : State} (h : flowOk s) (hc : s.now.agent ≠ .controller) (hh : s.now.agent ≠ .host) :
    ∃ t, agentTurn s = .next t ∧ OutsideMove s t := by
  unfold agentTurn
  cases ha : s.now.agent with
  | controller => exact absurd ha hc
  | host => exact absurd ha hh
  | engineLoad =>
    refine ⟨_, rfl, sameBlock_engineLoad s, ?_, ?_, ?_⟩ <;>
      rcases engineLoad_cases s with he | ⟨_, _, _, _, he⟩ <;> rw [he] <;> rfl
  | engineExchange =>
    rcases exchangeTurn_effect s with he | ⟨_, _, _, _, t, he, ht, _⟩
    · exact ⟨s, he, sameBlock_exchangeTurn he, rfl, rfl, rfl⟩
    · exact ⟨t, he, sameBlock_exchangeTurn he, by rw [ht], (exchangeTurn_flow h he).1, by rw [ht]⟩
  | engineCs =>
    refine ⟨_, drainTurn_eq s, sameBlock_applyPend s, ?_, applyPend_faulted s, selectTarget_applyPend s⟩
    rw [applyPend_frame]
  | peerTick =>
    refine ⟨_, rfl, sameBlock_peerTickStep s, ?_, ?_, ?_⟩ <;> rw [peerTickStep_frame]
  | abortEnv => exact ⟨_, rfl, sameBlock_abortEnvStep s, rfl, rfl, rfl⟩

/-- A host's SET_SELECT is at CS2, and the line is in the state `act` or on its way there. -/
structure AwaitsReadBack (act : Bool) (s : State) : Prop where
  runs : runsAt 1#4 [.setSelect .CS2 act] s
  target : selectTarget s.cs = act
  flow : flowOk s

section
variable {s : State} {act : Bool} {rest : List Config.Choice}

/-- A controller's step while a SET_SELECT runs is its line. -/
theorem step_setSelect {k : List Frame} {d : Nat} (h : runsAt 1#4 k s)
    (hq : s.sched = { agent := .controller, draw := d } :: rest) :
    step s = .next (controllerStep (s.withChoice rest s.tick { agent := .controller, draw := d })) :=
  (step_sched hq).trans (controllerTurn_setSelect (s := s.withChoice rest s.tick _) h)

/-- CS1 leaves SET_SELECT awaiting its read-back. -/
theorem step_cs1 {d : Nat} (h : runsAt 1#4 [.setSelect .CS1 act] s) (hflow : flowOk s)
    (hq : s.sched = { agent := .controller, draw := d } :: rest) :
    ∃ t, step s = .next t ∧ AwaitsReadBack act t ∧ t.sched = rest := by
  have hstep := step_setSelect h hq
  obtain ⟨hf, hb, htop, hs⟩ := h
  rw [controllerStep_cs1 (s := s.withChoice rest s.tick _) hf hs] at hstep
  exact ⟨_, hstep, ⟨⟨hf, hb, htop, rfl⟩, rfl, flowInvariantKept s _ hflow hstep⟩, rfl⟩

/-- A step of the engine, the peer or the abort environment leaves it awaiting. -/
theorem AwaitsReadBack.step_outside {c : Config.Choice} (h : AwaitsReadBack act s) (hc : c.agent ≠ .controller)
    (hh : c.agent ≠ .host) (hq : s.sched = c :: rest) :
    ∃ t, step s = .next t ∧ AwaitsReadBack act t ∧ t.sched = rest := by
  obtain ⟨⟨hf, hb, htop, hs⟩, htarget, hflow⟩ := h
  obtain ⟨t, ht, hm⟩ := agentTurn_outside (s := s.withChoice rest s.tick c) hflow hc hh
  have hstep : step s = .next t := (step_sched hq).trans ht
  have hruns : runsAt 1#4 [.setSelect .CS2 act] t :=
    ⟨hm.faulted.trans hf, by rw [hm.block.host]; exact hb, by rw [hm.block.ctl]; exact htop, hm.block.stack.trans hs⟩
  exact ⟨t, hstep, ⟨hruns, hm.target.trans htarget, flowInvariantKept s t hflow hstep⟩, hm.sched⟩

/-- CS2 reads back, and the operation is over. -/
theorem AwaitsReadBack.step_cs2 {e : Nat} (h : AwaitsReadBack act s)
    (hq : s.sched = { agent := .controller, draw := e } :: rest) : ∃ u, step s = .next (afterCs2 act u) := by
  have hstep := step_setSelect h.runs hq
  obtain ⟨⟨hf, _, _, hs⟩, htarget, -⟩ := h
  rw [controllerStep_cs2 (s := s.withChoice rest s.tick _) hf hs ((selectPosted_iff act _).mpr htarget)] at hstep
  exact ⟨_, hstep⟩

/-- However often the engine, the peer and the abort environment step first, CS2 ends the operation. -/
theorem AwaitsReadBack.run_cs2 {e : Nat} {es : List Config.Choice} (h : AwaitsReadBack act s)
    (hes : ∀ c ∈ es, c.agent ≠ .controller ∧ c.agent ≠ .host)
    (hq : s.sched = es ++ { agent := .controller, draw := e } :: rest) :
    ∃ u, runSteps (es.length + 1) s = .next (afterCs2 act u) := by
  induction es generalizing s with
  | nil =>
    obtain ⟨u, hstep⟩ := h.step_cs2 hq
    exact ⟨u, runSteps_succ hstep⟩
  | cons c es ih =>
    obtain ⟨⟨hc, hh⟩, hes⟩ := List.forall_mem_cons.mp hes
    obtain ⟨t, hstep, ht, hqt⟩ := h.step_outside hc hh hq
    obtain ⟨u, hrun⟩ := ih ht hes hqt
    exact ⟨u, (runSteps_succ hstep).trans hrun⟩

end

/-- Settles O14: CS1 posts the write, the other agents leave it posted or bring it to the line, CS2 forces it there. -/
theorem selectHoldsUnderEveryInterleaving : Obligations.SelectHoldsUnderEveryInterleaving := by
  unfold Obligations.SelectHoldsUnderEveryInterleaving
  intro s act es rest d e hruns hflow hes hq
  obtain ⟨t, hstep, ht, hqt⟩ := step_cs1 hruns hflow hq
  obtain ⟨u, hrun⟩ := ht.run_cs2 hes hqt
  exact ⟨afterCs2 act u, (runSteps_succ hstep).trans hrun, rfl, rfl, rfl, rfl⟩

/-! ### The abort signal -/

/-- The sample that IS_ABORTED returns, as RES_VALUE shows it (40_csr_access.md R141). -/
theorem abortTest_word (p : Params) (v : Word) :
    (BitVec.ofBool (abortTest p v)).setWidth 32 = if v &&& p.abortMask = 0 then (0 : Word) else 1 := by
  unfold abortTest
  by_cases h : v &&& p.abortMask = 0
  · rw [if_pos h, h]; rfl
  · rw [if_neg h, bne_iff_ne.mpr h]; rfl

/-- Settles O16: AB1's line and its return to the host. -/
theorem isAbortedCompletes : Obligations.IsAbortedCompletes := by
  unfold Obligations.IsAbortedCompletes
  intro f s ⟨hf, hb, ht, hs⟩
  have hexec : exec (.isAborted f) s = .next (controllerStep s) := operate_busy (refuse := noRefusal) hb ht
  have hline : controllerStep s = returnToHost (.sampled (abortTest s.params s.abortIn)) s := controllerStep_cons hf hs
  rw [hexec, hline, ← abortTest_word]
  rfl

theorem engineReceive_abortIn (miso : Byte) (s : State) : (engineReceive miso s).abortIn = s.abortIn := by
  rcases engineReceive_cases miso s with ⟨_, h⟩ | ⟨_, h⟩ <;> rw [h] <;> simp

theorem exchangeDrawn_abortIn (m : Byte) (s : State) : (exchangeDrawn m s).abortIn = s.abortIn := by
  rw [exchangeDrawn_eq]; split <;> rfl

/-- No flash command reaches the abort signal. -/
theorem flashCommand_abortIn {opc : Byte} {rest : List Byte} {answer : List Byte → RefPeer → Byte}
    {commit : List Byte → Nat → RefPeer → RefPeer} {s t : State} (h : flashCommand opc rest answer commit s = .next t) :
    t.abortIn = s.abortIn := by
  unfold flashCommand at h
  split at h <;> cases h
  · exact exchangeDrawn_abortIn _ s
  · rfl
  · exact engineReceive_abortIn _ _
  · rfl

/-- No line of the controller does. -/
theorem controllerStep_abortIn (s : State) : (controllerStep s).abortIn = s.abortIn := by
  rcases controllerStep_runs s with he | ⟨fr, below, hf, hs⟩
  · rw [he]
  · rw [controllerStep_line_frame hf hs, (stepFrame_frame fr s).1]

theorem exec_abortIn {i : Instr} {s t : State} (h : exec i s = .next t) : t.abortIn = s.abortIn := by
  rcases encode_cases i with ⟨_, _, _, hcode⟩ | ⟨_, _, _, hcode⟩
  · rcases exec_host_cases hcode s with ⟨_, he⟩ | ⟨_, _, he⟩ | ⟨_, _, _, he⟩ | ⟨_, _, he⟩ | ⟨_, _, _, _, _, _, _, he⟩ <;>
      cases he.symm.trans h
    · rfl
    · exact controllerStep_abortIn s
    · rfl
    · rfl
    · rfl
  · obtain ⟨_, _, _, _, _, _, he⟩ := exec_flash hcode
    exact flashCommand_abortIn ((he s).symm.trans h)

theorem writeCmd_abortIn {v : Word} {s t : State} (h : writeCmd v s = .next t) : t.abortIn = s.abortIn := by
  rcases writeCmd_cases v s with ⟨_, he⟩ | ⟨_, _, he⟩ | ⟨_, _, _, _, he⟩ | ⟨_, _, _, _, _, _, _, he⟩ <;>
    cases he.symm.trans h <;> rfl

theorem hostTurn_abortIn {s t : State} (h : hostTurn s = .next t) : t.abortIn = s.abortIn := by
  rcases hostTurn_cases h with ⟨rfl, _⟩ | ⟨r, q, _, hreq⟩
  · rfl
  rcases hreq with ⟨_, rfl⟩ | ⟨_, rfl⟩ | ⟨_, rfl⟩ | ⟨_, _, rfl⟩ | ⟨_, _, rfl⟩ | ⟨v, hv⟩
  case inr.inr.inr.inr.inr => exact writeCmd_abortIn (s := s.withHostQ q) hv
  all_goals rfl

/-- Only the abort environment's step changes ABORT_IN (20_memory.md R69, R81). -/
theorem step_abortIn {s t : State} (h : step s = .next t) (ha : (takeChoice s).now.agent ≠ .abortEnv) :
    t.abortIn = s.abortIn := by
  rw [← takeChoice_abortIn s]
  rcases step_cases h with ⟨_, rfl | rfl⟩ | ⟨_, rfl⟩ | ⟨_, hx⟩ | ⟨_, rfl⟩ | ⟨_, rfl⟩ | ⟨he, _⟩ | ⟨_, hx⟩
  · rfl
  · exact controllerStep_abortIn _
  · rcases engineLoad_cases (takeChoice s) with he | ⟨_, _, _, _, he⟩ <;> rw [he]; rfl
  · rcases exchangeTurn_effect (takeChoice s) with he | ⟨_, _, _, _, u, he, hu, _⟩ <;> cases he.symm.trans hx
    · rfl
    · rw [hu]
  · rw [applyPend_frame]
  · rw [peerTickStep_frame]
  · exact absurd he ha
  · exact hostTurn_abortIn hx

/-- Settles O17: by the instruction's format and by the agent that took the step; the abort environment draws any value. -/
theorem abortSignalNeverWritten : Obligations.AbortSignalNeverWritten := by
  unfold Obligations.AbortSignalNeverWritten
  refine ⟨fun i s t h => exec_abortIn h, fun s t h ha => step_abortIn h ha, fun s v => ?_⟩
  have hdraw : drawWord (taken .abortEnv v.toNat s) = v := by simp [drawWord, taken]
  calc
    step (chosen .abortEnv v.toNat s) = .next ((taken .abortEnv v.toNat s).withAbortIn (drawWord (taken .abortEnv v.toNat s))) :=
      rfl
    _ = .next { taken .abortEnv v.toNat s with abortIn := v } := by rw [hdraw]; rfl

end Sys2Proof.Machine

/-! PROOFS. The FIFO transport's lines, one by one: the entry check, the two level samples, the enqueue guard, the dequeue condition
and the abort sample (41_fifo_transport.md R150 to R158). -/

namespace Sys2Proof.Machine

/-! ### The controller's turn, by what the line does -/

section
variable {fr self callee : Frame} {below : List Frame} {s t : State} (h : lineAt fr below s)
include h

theorem controllerTurn_goto (ha : stepFrame fr s = .goto self t) : controllerTurn s = .next (t.withStack (self :: below)) := by
  rw [controllerTurn_line h, ha]

theorem controllerTurn_call (ha : stepFrame fr s = .call self callee t) :
    controllerTurn s = .next (t.withStack (callee :: self :: below)) := by
  rw [controllerTurn_line h, ha]

theorem controllerTurn_halt (ha : stepFrame fr s = .halt t) : controllerTurn s = .next t := by
  rw [controllerTurn_line h, ha]

theorem controllerTurn_raise {f : BlockFault} (ha : stepFrame fr s = .halt (raise f s)) :
    controllerTurn s = .next (s.withFaulted (some f)) := by
  rw [controllerTurn_halt h ha, raise_of_none h.1]

end

/-! ### What the lines read -/

/-- X1's test (41_fifo_transport.md R158). -/
theorem transferDone_iff (c : Ctl) : transferDone c = true ↔ c.txRem = 0 ∧ c.skipRem = 0 ∧ c.rxRem = 0 := by
  simp [transferDone, and_assoc]

theorem toNat_pos_iff {n : Nat} (v : BitVec n) : 0 < v.toNat ↔ v ≠ 0 := by
  rw [Nat.pos_iff_ne_zero, ne_eq, ne_eq, BitVec.toNat_eq]
  simp

/-- X4's guard, on natural numbers (R154). -/
theorem mayEnqueue_iff (p : Params) (c : Ctl) :
    mayEnqueue p c = true ↔ 0 < c.txRem.toNat ∧ c.tl.toNat + c.rl.toNat < p.depth - 2 := by
  rw [toNat_pos_iff]
  simp [mayEnqueue]
  omega

/-- X6's condition (R156). -/
theorem mayDequeue_iff (c : Ctl) :
    mayDequeue c = true ↔ 0 < c.rl.toNat ∧ (0 < c.skipRem.toNat ∨ 0 < c.rxRem.toNat) := by
  rw [toNat_pos_iff, toNat_pos_iff, toNat_pos_iff]
  simp [mayDequeue]

/-- The addresses of R63 as sums of numbers. -/
theorem txAddress_eq (c : Ctl) : txAddress c = BitVec.ofNat 32 (c.xTxb.toNat + c.sent.toNat) := by
  simp [txAddress, BitVec.ofNat_add]

theorem rxAddress_eq (c : Ctl) : rxAddress c = BitVec.ofNat 32 (c.xRxb.toNat + c.recv.toNat) := by
  simp [rxAddress, BitVec.ofNat_add]

/-- A sample is the level's low LEVEL_W bits (10_state.md R35, R36). -/
theorem levelSample_eq (n : Nat) :
    ((BitVec.ofNat Config.levelWidth n).setWidth 32).setWidth Config.levelWidth = BitVec.ofNat 8 n :=
  BitVec.setWidth_setWidth_of_le _ (by decide)

/-- A byte is read back from the word it was widened to. -/
theorem setWidth_byte (b : Byte) : (b.setWidth 32 : Word).setWidth 8 = b :=
  (BitVec.setWidth_setWidth_of_le b (by decide)).trans (BitVec.setWidth_eq b)

/-! ### The lines that branch -/

section
variable {s : State} {x : XferArgs}

/-- X4 with its guard met goes on with the byte of the source (R150, R154). -/
theorem line_x4_byte {b : Byte} (h : mayEnqueue s.params s.ctl = true) (hb : txByte s = some b) :
    stepFrame (.transfer .X4 x) s = .goto (.transfer .X5 x) (s.withCtl { s.ctl with xb := b }) := by
  simp only [stepFrame, stepTransfer, if_pos h, hb]

/-- X4 at a byte that the launch memory refuses has no step (20_memory.md R61). -/
theorem line_x4_refused (h : mayEnqueue s.params s.ctl = true) (hb : txByte s = none) :
    stepFrame (.transfer .X4 x) s = .halt s := by
  simp only [stepFrame, stepTransfer, if_pos h, hb]

theorem line_x4_skip (h : ¬mayEnqueue s.params s.ctl = true) :
    stepFrame (.transfer .X4 x) s = .goto (.transfer .X6 x) s := if_neg h

/-- X5 with room in the transmit FIFO (R150, R154). -/
theorem line_x5_room (h : s.engine.txq.length ≠ s.params.depth) :
    stepFrame (.transfer .X5 x) s =
      .goto (.transfer .X6 x)
        ((s.withEngine { s.engine with txq := s.engine.txq ++ [s.ctl.xb] }).withCtl
          { s.ctl with txRem := s.ctl.txRem - 1, sent := s.ctl.sent + 1, prog := true }) := by
  have hw := ((writeDr_cases (s.ctl.xb.setWidth 32) s).resolve_left fun hd => h hd.1).2
  rw [setWidth_byte] at hw
  simp only [stepFrame, stepTransfer, hw]
  rfl

theorem line_x5_full (h : s.engine.txq.length = s.params.depth) :
    stepFrame (.transfer .X5 x) s = .halt (raise (.txOverflow s.ctl.xb) s) := by
  have hw := ((writeDr_cases (s.ctl.xb.setWidth 32) s).resolve_right fun hd => hd.1 h).2
  rw [setWidth_byte] at hw
  simp only [stepFrame, stepTransfer, hw]

theorem line_x6_stop (h : ¬mayDequeue s.ctl = true) : stepFrame (.transfer .X6 x) s = .goto (.transfer .X8 x) s := if_neg h

theorem line_x6_empty (h : mayDequeue s.ctl = true) (hq : s.engine.rxq = []) :
    stepFrame (.transfer .X6 x) s = .halt (raise .rxUnderflow s) := by
  simp only [stepFrame, stepTransfer, if_pos h, readDr, hq]

/-- X6 at a byte to discard counts it (R156). -/
theorem line_x6_discard (h : mayDequeue s.ctl = true) {b : Byte} {q : List Byte} (hq : s.engine.rxq = b :: q)
    (hs : s.ctl.skipRem ≠ 0) :
    stepFrame (.transfer .X6 x) s =
      .goto (.transfer .X8 x)
        ((s.withEngine { s.engine with rxq := q }).withCtl
          { s.ctl with xb := b, prog := true, skipRem := s.ctl.skipRem - 1 }) := by
  simp only [stepFrame, stepTransfer, if_pos h, readDr, hq, State.withEngine_ctl, bne_iff_ne.mpr hs, if_true, setWidth_byte]

/-- X6 at a byte that is owed hands it to X7 (R156). -/
theorem line_x6_take (h : mayDequeue s.ctl = true) {b : Byte} {q : List Byte} (hq : s.engine.rxq = b :: q)
    (hs : s.ctl.skipRem = 0) :
    stepFrame (.transfer .X6 x) s =
      .goto (.transfer .X7 x)
        ((s.withEngine { s.engine with rxq := q }).withCtl { s.ctl with xb := b, prog := true }) := by
  have hbne : ¬(s.ctl.skipRem != 0) = true := by rw [bne_iff_ne]; exact fun hn => hn hs
  simp only [stepFrame, stepTransfer, if_pos h, readDr, hq, State.withEngine_ctl, if_neg hbne, setWidth_byte]

/-- X7 with its destination writable counts the byte (R150). -/
theorem line_x7_store {t : State} (h : storeXb s = some t) :
    stepFrame (.transfer .X7 x) s = .goto (.transfer .X8 x) (t.withCtl (countReceived t.ctl)) := by
  simp only [stepFrame, stepTransfer, h]

/-- X7 at an address that the launch memory refuses has no step (20_memory.md R61). -/
theorem line_x7_refused (h : storeXb s = none) : stepFrame (.transfer .X7 x) s = .halt s := by
  simp only [stepFrame, stepTransfer, h]

theorem txByte_mem (hk : s.ctl.xTxk = .mem) (ha : admitsRead s.params (txAddress s.ctl) = true) :
    txByte s = some (byteAt s.mem (txAddress s.ctl)) := by
  simp [txByte, hk, memRead, ha]

theorem txByte_refused (hk : s.ctl.xTxk = .mem) (ha : admitsRead s.params (txAddress s.ctl) = false) : txByte s = none := by
  simp [txByte, hk, memRead, ha]

theorem storeXb_mem (hk : s.ctl.xRxk = .mem) (ha : admitsWrite s.params (rxAddress s.ctl) = true) :
    storeXb s = some (s.withMem (cellsWrite Config.memUnlisted s.mem (rxAddress s.ctl).toNat s.ctl.xb)) := by
  simp [storeXb, hk, memWrite, ha]

theorem storeXb_refused (hk : s.ctl.xRxk = .mem) (ha : admitsWrite s.params (rxAddress s.ctl) = false) : storeXb s = none := by
  simp [storeXb, hk, memWrite, ha]

end

/-! ### Entry and samples -/

/-- Settles O18: X0's two branches. -/
theorem transferEntry : Obligations.TransferEntry := by
  unfold Obligations.TransferEntry
  intro s x below h
  exact ⟨fun hi => controllerTurn_goto h (if_pos hi), fun hi => controllerTurn_raise h (if_neg hi)⟩

/-- Settles O19: X1's test, and the two samples, each whole. -/
theorem transferSamplesBothLevels : Obligations.TransferSamplesBothLevels := by
  unfold Obligations.TransferSamplesBothLevels
  intro s x below
  refine ⟨fun h => ?_, fun h => ?_, fun h => ?_⟩
  · by_cases hd : s.ctl.txRem = 0 ∧ s.ctl.skipRem = 0 ∧ s.ctl.rxRem = 0
    · rw [if_pos hd]
      exact controllerTurn_goto h (if_pos ((transferDone_iff s.ctl).mpr hd))
    · rw [if_neg hd]
      exact controllerTurn_goto h (if_neg fun ht => hd ((transferDone_iff s.ctl).mp ht))
  · rw [← levelSample_eq]
    exact controllerTurn_goto h rfl
  · rw [← levelSample_eq]
    exact controllerTurn_goto h rfl

/-! ### Enqueue and dequeue -/

/-- Settles O20: X4 by its guard and the source of the byte, X5 by the room in the transmit FIFO. -/
theorem transferEnqueues : Obligations.TransferEnqueues := by
  unfold Obligations.TransferEnqueues
  intro s x below
  refine ⟨fun h => ?_, fun h => ⟨fun hroom => ?_, fun hfull => ?_⟩⟩
  · rw [← mayEnqueue_iff, ← txAddress_eq]
    refine ⟨fun hg => ?_, fun hg hk => ?_, fun hg hk => ?_, fun hg hk ha => ?_, fun hg hk ha => ?_⟩
    · exact controllerTurn_goto h (line_x4_skip hg)
    · exact controllerTurn_goto h (line_x4_byte hg (by rw [txByte, hk]))
    · exact controllerTurn_goto h (line_x4_byte hg (by rw [txByte, hk]))
    · exact controllerTurn_goto h (line_x4_byte hg (txByte_mem hk ha))
    · exact controllerTurn_halt h (line_x4_refused hg (txByte_refused hk ha))
  · exact controllerTurn_goto h (line_x5_room hroom)
  · exact controllerTurn_raise h (line_x5_full hfull)

/-- X7 into memory: the byte at its address, every other byte of memory as it was (20_memory.md R62, R63). -/
theorem controllerTurn_x7_mem {s : State} {x : XferArgs} {below : List Frame} (h : lineAt (.transfer .X7 x) below s)
    (hk : s.ctl.xRxk = .mem) (ha : admitsWrite s.params (rxAddress s.ctl) = true) :
    ∃ t, controllerTurn s = .next t ∧
      t = { s with stack := .transfer .X8 x :: below, ctl := countReceived s.ctl, mem := t.mem } ∧
      byteAt t.mem (rxAddress s.ctl) = s.ctl.xb ∧ ∀ b, b ≠ rxAddress s.ctl → byteAt t.mem b = byteAt s.mem b :=
  ⟨_, controllerTurn_goto h (line_x7_store (storeXb_mem hk ha)), rfl, byteAt_write_self _ _ _,
    fun _ hb => byteAt_write_other _ _ hb⟩

/-- Settles O21: X6 by its condition, the receive FIFO and SKIP_REM; X7 by the destination of the byte. -/
theorem transferDequeues : Obligations.TransferDequeues := by
  unfold Obligations.TransferDequeues
  intro s x below
  refine ⟨fun h => ?_, fun h => ?_⟩
  · rw [← mayDequeue_iff]
    refine ⟨fun hg => ?_, fun hg hq => ?_, fun hg b q hq => ?_⟩
    · exact controllerTurn_goto h (line_x6_stop hg)
    · exact controllerTurn_raise h (line_x6_empty hg hq)
    · by_cases hs : s.ctl.skipRem = 0
      · rw [if_pos hs, if_pos hs, ← hs]
        exact controllerTurn_goto h (line_x6_take hg hq hs)
      · rw [if_neg hs, if_neg hs]
        exact controllerTurn_goto h (line_x6_discard hg hq hs)
  · rw [← rxAddress_eq]
    refine ⟨fun hk => ?_, fun hk => ?_, fun hk ha => controllerTurn_x7_mem h hk ha, fun hk ha => ?_⟩
    · exact controllerTurn_goto h (line_x7_store (by rw [storeXb, hk]))
    · exact controllerTurn_goto h (line_x7_store (by rw [storeXb, hk]))
    · exact controllerTurn_halt h (line_x7_refused (storeXb_refused hk ha))

/-! ### The abort sample -/

/-- Settles O22: X8 by PROG, AB1 by the sample, X9 by its call. -/
theorem transferSamplesAbortOnlyWhenIdle : Obligations.TransferSamplesAbortOnlyWhenIdle := by
  unfold Obligations.TransferSamplesAbortOnlyWhenIdle
  intro s x below
  refine ⟨fun h => ?_, fun h => ?_, fun h => controllerTurn_call h rfl⟩
  · by_cases hp : s.ctl.prog = true
    · rw [if_pos hp]
      exact controllerTurn_goto h (if_pos hp)
    · rw [if_neg hp]
      exact controllerTurn_call h (if_neg hp)
  · have hline : controllerTurn s = .next (deliver (.transfer .X8 x :: below) (.sampled (abortTest s.params s.abortIn)) s) :=
      controllerTurn_line h
    rw [hline]
    by_cases ha : s.abortIn &&& s.params.abortMask = 0
    · rw [if_pos ha, show abortTest s.params s.abortIn = false from bne_eq_false_iff_eq.mpr ha]
      rfl
    · rw [if_neg ha, show abortTest s.params s.abortIn = true from bne_iff_ne.mpr ha]
      rfl

end Sys2Proof.Machine

/-! PROOFS. The transport's accounts: what each line of TRANSFER does to its counters and the bytes in flight, and that every step of
every agent keeps them in balance (41_fifo_transport.md R154, R156, R162, R164; 20_memory.md R73). -/

namespace Sys2Proof.Machine

/-! ### What the accounts speak of -/

/-- The bytes in flight and the transfer's counters are in `t` what they are in `s`. -/
structure SameAccounts (s t : State) : Prop where
  inFlight : inFlight t = inFlight s
  txRem : t.ctl.txRem = s.ctl.txRem
  rxRem : t.ctl.rxRem = s.ctl.rxRem
  skipRem : t.ctl.skipRem = s.ctl.skipRem
  sent : t.ctl.sent = s.ctl.sent
  recv : t.ctl.recv = s.ctl.recv

theorem SameAccounts.of_ctl {s t : State} (hi : Machine.inFlight t = Machine.inFlight s) (hc : t.ctl = s.ctl) : SameAccounts s t :=
  ⟨hi, by rw [hc], by rw [hc], by rw [hc], by rw [hc], by rw [hc]⟩

theorem transferAccounts_of_same {s t : State} {l : XLabel} {x : XferArgs} (hst : SameAccounts s t)
    (h : transferAccounts s l x) : transferAccounts t l x := by
  obtain ⟨hi, htx, hrx, hskip, hsent, hrecv⟩ := hst
  unfold transferAccounts
  rwa [hi, htx, hrx, hskip, hsent, hrecv]

/-- A started transfer's accounts hold at every label with no condition of its own and the same bytes in transit. -/
theorem transferAccounts_label {s : State} {l m : XLabel} {x : XferArgs} (h : transferAccounts s l x) (hl : l ≠ .X0)
    (ht : inTransit m = inTransit l) (h5 : m ≠ .X5) (h7 : m ≠ .X7) : transferAccounts s m x := by
  obtain ⟨htx, hrx, hflight, _, _, hskip⟩ := h.resolve_left hl
  exact .inr ⟨htx, hrx, by rwa [ht], fun e => absurd e h5, fun e => absurd e h7, hskip⟩

/-- What an activation's label says of the accounts; only a transfer's says anything. -/
def frameAccounts (s : State) (fr : Frame) : Prop := ∀ l x, fr = .transfer l x → transferAccounts s l x

theorem frameAccounts_transfer {s : State} {l : XLabel} {x : XferArgs} :
    frameAccounts s (.transfer l x) ↔ transferAccounts s l x :=
  ⟨fun h => h l x rfl, fun h _ _ e => by cases e; exact h⟩

theorem frameAccounts_free {fr : Frame} (h : ∀ l x, fr ≠ .transfer l x) (s : State) : frameAccounts s fr :=
  fun l x e => absurd e (h l x)

theorem frameAccounts_of_same {s t : State} {fr : Frame} (hst : SameAccounts s t) (h : frameAccounts s fr) : frameAccounts t fr :=
  fun l x e => transferAccounts_of_same hst (h l x e)

theorem accountsOk_iff (s : State) : accountsOk s ↔ (s.faulted = none → ∀ fr ∈ s.stack, frameAccounts s fr) :=
  ⟨fun h hf _ hfr l x e => h hf l x (e ▸ hfr), fun h hf l x hx => h hf _ hx l x rfl⟩

/-- The first line of a sub-machine has no accounts yet. -/
theorem frameAccounts_start {fr : Frame} (h : isStart fr = true) (s : State) : frameAccounts s fr := by
  rintro l x rfl
  cases l <;> first | exact .inl rfl | cases h

/-- An activation of the same sub-machine as one that is no transfer is none. -/
theorem sameCall_not_transfer {fr self : Frame} (hself : sameCall fr self = true) (h : ∀ l x, fr ≠ .transfer l x) :
    ∀ l x, self ≠ .transfer l x := by
  rintro l x rfl
  cases fr with
  | transfer m y => exact h m y rfl
  | _ => cases hself

/-! ### Where a transfer is on the stack -/

/-- Under a legal stack's top every activation has a larger number. -/
theorem nesting_lt_below {fr g : Frame} {below : List Frame} (hl : stackLegal (fr :: below) = true) (hg : g ∈ below) :
    nesting fr < nesting g := by
  induction below generalizing fr with
  | nil => cases hg
  | cons caller rest ih =>
    rw [stackLegal_cons, Bool.and_eq_true] at hl
    have hcall := nesting_lt_of_waitsFor hl.1
    rcases List.mem_cons.mp hg with rfl | hg
    · exact hcall
    · exact hcall.trans (ih hl.2 hg)

/-- SET_SELECT and IS_ABORTED leave the accounts as they are. -/
theorem sameAccounts_leaf {fr : Frame} (h : nesting fr = 1) (s : State) : SameAccounts s (actState (stepFrame fr s)) := by
  have hi : inFlight (actState (stepFrame fr s)) = inFlight s := by
    unfold inFlight; rw [stepFrame_leaf_engine h]
  have hc := stepFrame_ctl fr s
  cases fr with
  | setSelect l a => exact ⟨hi, by rw [hc]; rfl, by rw [hc]; rfl, by rw [hc]; rfl, by rw [hc]; rfl, by rw [hc]; rfl⟩
  | isAborted => exact .of_ctl hi hc
  | _ => cases h

/-- A line keeps the accounts of the activations below: either it is of SET_SELECT or IS_ABORTED, or no transfer waits. -/
theorem frameAccounts_below {s : State} {fr : Frame} {below : List Frame} (hl : stackLegal (fr :: below) = true)
    (h : ∀ g ∈ below, frameAccounts s g) : ∀ g ∈ below, frameAccounts (actState (stepFrame fr s)) g := by
  intro g hg
  by_cases hleaf : nesting fr = 1
  · exact frameAccounts_of_same (sameAccounts_leaf hleaf s) (h g hg)
  · refine frameAccounts_free ?_ _
    rintro l x rfl
    have hlt : nesting fr < 2 := nesting_lt_below hl hg
    have hpos := nesting_pos fr
    omega

/-! ### The lines of TRANSFER -/

/-- A count below a bound that fits COUNT_W goes up by one without wrapping (00_scope.md R8). -/
theorem succ_toNat {c : Word} {n : Nat} (h : c.toNat < n) (hn : n < 2 ^ 32) : (c + 1).toNat = c.toNat + 1 :=
  BitVec.toNat_add_of_lt (show c.toNat + 1 < 2 ^ 32 by omega)

/-- The accounts of the activation `fr` after a line, at the label it is then at. -/
def actAccounts (fr : Frame) : Act → Prop
  | .goto self t => frameAccounts t self
  | .call self _ t => frameAccounts t self
  | .done _ _ => True
  | .halt t => frameAccounts t fr

/-- A fault changes no counter. -/
theorem transferAccounts_raise {s : State} {l : XLabel} {x : XferArgs} (h : transferAccounts s l x) (e : BlockFault) :
    transferAccounts (raise e s) l x :=
  transferAccounts_of_same (.of_ctl (by simp [inFlight]) (by simp)) h

section
variable {s t : State} {x : XferArgs}

/-- X5: one byte more in flight, and one more sent (41_fifo_transport.md R154, R162). -/
theorem transferAccounts_enqueued (h : transferAccounts s .X5 x) (hi : inFlight t = inFlight s + 1)
    (hc : t.ctl = { s.ctl with txRem := s.ctl.txRem - 1, sent := s.ctl.sent + 1, prog := true }) :
    transferAccounts t .X6 x := by
  obtain ⟨htx, hrx, hflight, hne, _, hskip⟩ := h.resolve_left nofun
  have hpred := pred_toNat (hne rfl)
  have hsucc := succ_toNat (c := s.ctl.sent) (n := x.n.toNat) (by omega) x.n.isLt
  unfold transferAccounts
  simp only [hc, inTransit] at hflight ⊢
  exact .inr ⟨by omega, hrx, by omega, nofun, nofun, hskip⟩

/-- X6 with a byte to discard: one less in flight, and one less to skip (R156). -/
theorem transferAccounts_skipped {v : Byte} (h : transferAccounts s .X6 x) (hi : inFlight t + 1 = inFlight s)
    (hc : t.ctl = { s.ctl with xb := v, prog := true, skipRem := s.ctl.skipRem - 1 }) (hs : s.ctl.skipRem ≠ 0) :
    transferAccounts t .X8 x := by
  obtain ⟨htx, hrx, hflight, _, _, hskip⟩ := h.resolve_left nofun
  have hpred := pred_toNat hs
  unfold transferAccounts
  simp only [hc, inTransit] at hflight ⊢
  exact .inr ⟨htx, hrx, by omega, nofun, nofun, fun _ => hskip hs⟩

/-- X6 with a byte that is owed: one less in flight, and one on its way to X7 (R156). -/
theorem transferAccounts_taken {v : Byte} (h : transferAccounts s .X6 x) (hi : inFlight t + 1 = inFlight s)
    (hc : t.ctl = { s.ctl with xb := v, prog := true }) (hs : s.ctl.skipRem = 0) (hr : s.ctl.rxRem ≠ 0) :
    transferAccounts t .X7 x := by
  obtain ⟨htx, hrx, hflight, _, _, hskip⟩ := h.resolve_left nofun
  unfold transferAccounts
  simp only [hc, inTransit] at hflight ⊢
  exact .inr ⟨htx, hrx, by omega, nofun, fun _ => ⟨hr, hs⟩, hskip⟩

/-- X7: the byte on its way is received (R150, R162). -/
theorem transferAccounts_received (h : transferAccounts s .X7 x) (hi : inFlight t = inFlight s)
    (hc : t.ctl = countReceived s.ctl) : transferAccounts t .X8 x := by
  obtain ⟨htx, hrx, hflight, _, howed, _⟩ := h.resolve_left nofun
  obtain ⟨hr, hs⟩ := howed rfl
  have hpred := pred_toNat hr
  have hsucc := succ_toNat (c := s.ctl.recv) (n := x.n.toNat) (by omega) x.n.isLt
  unfold transferAccounts
  simp only [hc, countReceived, inTransit] at hflight ⊢
  exact .inr ⟨htx, by omega, by omega, nofun, nofun, fun hne => absurd hs hne⟩

/-- Every line of a transfer keeps its accounts in balance. -/
theorem actAccounts_transfer {l : XLabel} (h : transferAccounts s l x) :
    actAccounts (.transfer l x) (stepFrame (.transfer l x) s) := by
  have stay : ∀ {m} {t : State}, SameAccounts s t → l ≠ .X0 → inTransit m = inTransit l → m ≠ .X5 → m ≠ .X7 →
      frameAccounts t (.transfer m x) := fun hst h0 ht h5 h7 =>
    frameAccounts_transfer.mpr (transferAccounts_of_same hst (transferAccounts_label h h0 ht h5 h7))
  have same : ∀ {t : State}, SameAccounts s t → frameAccounts t (.transfer l x) := fun hst =>
    frameAccounts_transfer.mpr (transferAccounts_of_same hst h)
  have hraise : ∀ e, frameAccounts (raise e s) (.transfer l x) := fun e =>
    frameAccounts_transfer.mpr (transferAccounts_raise h e)
  have hself : SameAccounts s s := .of_ctl rfl rfl
  cases l
  case X0 =>
    simp only [stepFrame, stepTransfer]
    split
    case isTrue hi =>
      have hflight : inFlight s + 0 + 0 = 0 + x.skip.toNat := by omega
      exact frameAccounts_transfer.mpr (.inr ⟨rfl, rfl, hflight, nofun, nofun, fun _ => rfl⟩)
    case isFalse => exact hraise _
  case X1 => simp only [stepFrame, stepTransfer]; split <;> exact stay hself nofun rfl nofun nofun
  case X2 => exact stay ⟨rfl, rfl, rfl, rfl, rfl, rfl⟩ nofun rfl nofun nofun
  case X3 => exact stay ⟨rfl, rfl, rfl, rfl, rfl, rfl⟩ nofun rfl nofun nofun
  case X4 =>
    by_cases hen : mayEnqueue s.params s.ctl = true
    · cases hb : txByte s with
      | some b =>
        rw [line_x4_byte hen hb]
        obtain ⟨htx, hrx, hflight, _, _, hskip⟩ := h.resolve_left nofun
        have hne : s.ctl.txRem ≠ 0 := (toNat_pos_iff _).mp ((mayEnqueue_iff _ _).mp hen).1
        exact frameAccounts_transfer.mpr (.inr ⟨htx, hrx, hflight, fun _ => hne, nofun, hskip⟩)
      | none => rw [line_x4_refused hen hb]; exact same hself
    · rw [line_x4_skip hen]; exact stay hself nofun rfl nofun nofun
  case X5 =>
    by_cases hroom : s.engine.txq.length = s.params.depth
    · rw [line_x5_full hroom]; exact hraise _
    · rw [line_x5_room hroom]
      exact frameAccounts_transfer.mpr (transferAccounts_enqueued h (inFlight_push s _ _) rfl)
  case X6 =>
    by_cases hdeq : mayDequeue s.ctl = true
    · cases hq : s.engine.rxq with
      | nil => rw [line_x6_empty hdeq hq]; exact hraise _
      | cons b q =>
        by_cases hs : s.ctl.skipRem = 0
        · rw [line_x6_take hdeq hq hs]
          have hr : s.ctl.rxRem ≠ 0 := by simpa [mayDequeue, hs] using (Bool.and_eq_true_iff.mp hdeq).2
          exact frameAccounts_transfer.mpr (transferAccounts_taken h (inFlight_pop s hq) rfl hs hr)
        · rw [line_x6_discard hdeq hq hs]
          exact frameAccounts_transfer.mpr (transferAccounts_skipped h (inFlight_pop s hq) rfl hs)
    · rw [line_x6_stop hdeq]; exact stay hself nofun rfl nofun nofun
  case X7 =>
    cases hu : storeXb s with
    | some u =>
      rw [line_x7_store hu]
      have hsame : SameAccounts s u := by
        rw [(storeXb_spec hu).1]
        exact ⟨rfl, rfl, rfl, rfl, rfl, rfl⟩
      exact frameAccounts_transfer.mpr (transferAccounts_received (transferAccounts_of_same hsame h) rfl rfl)
    | none => rw [line_x7_refused hu]; exact same hself
  case X8 => simp only [stepFrame, stepTransfer]; split <;> exact stay hself nofun rfl nofun nofun
  case X9 => exact stay hself nofun rfl nofun nofun

end

/-- Every line keeps its own activation's accounts: only a transfer has any. -/
theorem actAccounts_stepFrame {fr : Frame} {s : State} (h : frameAccounts s fr) : actAccounts fr (stepFrame fr s) := by
  by_cases hx : ∃ l x, fr = .transfer l x
  · obtain ⟨l, x, rfl⟩ := hx
    exact actAccounts_transfer (frameAccounts_transfer.mp h)
  · have hfr : ∀ l x, fr ≠ .transfer l x := fun l x e => hx ⟨l, x, e⟩
    have hplace := stepFrame_place fr s
    cases hact : stepFrame fr s <;> rw [hact] at hplace
    case goto self t => exact frameAccounts_free (sameCall_not_transfer hplace hfr) t
    case call self callee t => exact frameAccounts_free (sameCall_not_transfer hplace.1 hfr) t
    case done r t => trivial
    case halt t => exact frameAccounts_free hfr t

/-! ### Returns -/

/-- A waiting activation that goes on leaves the counters, and its accounts are those of the label it goes on at. -/
theorem resumeFrame_accounts {fr self : Frame} {r : Result} {s : State} {c : Ctl} (h : frameAccounts s fr)
    (hr : resumeFrame fr r s = .goto self (s.withCtl c)) :
    SameAccounts s (s.withCtl c) ∧ frameAccounts (s.withCtl c) self := by
  have hmove : ∀ {g t}, Act.goto g t = .goto self (s.withCtl c) → g = self ∧ t = s.withCtl c := (Act.goto.injEq ..).mp
  have hplace := resumeFrame_place fr r s
  rw [hr] at hplace
  by_cases hx : ∃ l x, fr = .transfer l x
  · obtain ⟨l, x, rfl⟩ := hx
    replace h := frameAccounts_transfer.mp h
    simp only [resumeFrame] at hr; unfold resumeTransfer at hr
    split at hr
    · obtain ⟨rfl, ht⟩ := hmove hr
      have hsame : SameAccounts s (s.withCtl c) := by rw [← ht]; exact ⟨rfl, rfl, rfl, rfl, rfl, rfl⟩
      exact ⟨hsame, frameAccounts_transfer.mpr
        (transferAccounts_of_same hsame (transferAccounts_label h nofun rfl nofun nofun))⟩
    · obtain ⟨rfl, ht⟩ := hmove hr
      rw [← ht]
      exact ⟨.of_ctl rfl rfl, frameAccounts_transfer.mpr (transferAccounts_label h nofun rfl nofun nofun)⟩
    · cases hr
    · obtain ⟨rfl, ht⟩ := hmove hr
      rw [← ht]
      exact ⟨.of_ctl rfl rfl, frameAccounts_transfer.mpr h⟩
  · have hfr : ∀ l x, fr ≠ .transfer l x := fun l x e => hx ⟨l, x, e⟩
    refine ⟨?_, frameAccounts_free (sameCall_not_transfer hplace hfr) _⟩
    have hc := resumeFrame_ctl hr
    cases fr with
    | transfer l x => exact absurd rfl (hfr l x)
    | _ => refine ⟨rfl, ?_, ?_, ?_, ?_, ?_⟩ <;> rw [State.withCtl_ctl, hc] <;> rfl

/-- A return keeps the accounts, at the host or at the activation that goes on. -/
theorem frameAccounts_deliver {s : State} {below : List Frame} (r : Result) (h : ∀ g ∈ below, frameAccounts s g) :
    ∀ g ∈ (deliver below r s).stack, frameAccounts (deliver below r s) g := by
  rcases deliver_cases below r s with ⟨r', he⟩ | ⟨above, caller, rest, self, c, hk, _, ⟨r', hr⟩, he⟩ <;> rw [he]
  · exact nofun
  · obtain ⟨hsame, hself⟩ := resumeFrame_accounts (h caller (by simp [hk])) hr
    intro g hg
    rcases List.mem_cons.mp hg with rfl | hg
    · exact hself
    · exact (frameAccounts_of_same hsame (h g (by simp [hk, hg])) :)

/-! ### The agents' steps -/

/-- Every line of the controller keeps the accounts. -/
theorem accountsOk_controllerStep {s : State} (hlegal : stackLegal s.stack = true) (h : accountsOk s) :
    accountsOk (controllerStep s) := by
  rcases controllerStep_runs s with he | ⟨fr, below, hf, hs⟩
  · rwa [he]
  have hall := (accountsOk_iff s).mp h hf
  rw [hs] at hlegal hall
  obtain ⟨htop, hbelow⟩ := List.forall_mem_cons.mp hall
  have hact := actAccounts_stepFrame htop
  replace hbelow := frameAccounts_below hlegal hbelow
  have hstack := (stepFrame_keeps fr s).2.2
  refine (accountsOk_iff _).mpr fun _ => ?_
  rcases controllerStep_cases hf hs with ⟨self, _, ha, he⟩ | ⟨self, callee, _, _, hstart, ha, he⟩ | ⟨r, ha, he⟩ | ⟨ha, he⟩ <;>
    rw [he] <;> rw [ha] at hact
  · exact List.forall_mem_cons.mpr ⟨hact, hbelow⟩
  · exact List.forall_mem_cons.mpr ⟨frameAccounts_start hstart _, List.forall_mem_cons.mpr ⟨hact, hbelow⟩⟩
  · exact frameAccounts_deliver r hbelow
  · rw [hstack, hs]
    exact List.forall_mem_cons.mpr ⟨hact, hbelow⟩

/-- A step that leaves the block and the number of bytes in flight keeps the accounts. -/
theorem accountsOk_of_moved {s t : State} (h : accountsOk s) (hb : SameBlock s t) (hf : t.faulted = s.faulted)
    (hi : inFlight t = inFlight s) : accountsOk t := fun hft l x hx =>
  transferAccounts_of_same (.of_ctl hi hb.ctl) (h (hf ▸ hft) l x (hb.stack ▸ hx))

/-- A block that is idle or at the first line of an operation has no accounts yet. -/
theorem accountsOk_started {t : State} (hk : t.stack = [] ∨ ∃ fr, isStart fr = true ∧ t.stack = [fr]) : accountsOk t := by
  refine (accountsOk_iff t).mpr fun _ => ?_
  rcases hk with hk | ⟨fr, hstart, hk⟩ <;> rw [hk]
  · exact nofun
  · simpa using frameAccounts_start hstart t

theorem accountsOk_writeCmd {v : Word} {s t : State} (h : accountsOk s) (hw : writeCmd v s = .next t) : accountsOk t := by
  rcases writeCmd_cases v s with ⟨_, he⟩ | ⟨_, _, he⟩ | ⟨_, _, e, _, he⟩ | ⟨_, _, op, f, fr, _, hstart, he⟩ <;>
    rw [he] at hw <;> cases hw
  · exact h
  · exact nofun
  · exact nofun
  · exact accountsOk_started (.inr ⟨fr, hstart, rfl⟩)

theorem accountsOk_hostTurn {s t : State} (h : accountsOk s) (ht : hostTurn s = .next t) : accountsOk t := by
  rcases hostTurn_cases ht with ⟨rfl, _⟩ | ⟨r, q, _, hreq⟩
  · exact h
  rcases hreq with ⟨_, rfl⟩ | ⟨_, rfl⟩ | ⟨v, rfl⟩ | ⟨a, v, rfl⟩ | ⟨o, v, rfl⟩ | ⟨v, hv⟩
  · exact h
  · exact accountsOk_started (.inl rfl)
  · exact h
  · exact h
  · exact h
  · exact accountsOk_writeCmd (s := s.withHostQ q) h hv

/-- Settles O25: by the agent that took the step; the controller by what each line does to the counters and the bytes in flight. -/
theorem transferAccountsKept : Obligations.TransferAccountsKept := by
  unfold Obligations.TransferAccountsKept
  intro s t hflow h hs
  have hu : accountsOk (takeChoice s) := accountsOk_of_moved h (sameBlock_takeChoice s) (by simp) (by simp [inFlight])
  have huflow : flowOk (takeChoice s) := flowOk_of_sameBlock hflow (sameBlock_takeChoice s) (by simp) (by simp)
  rcases step_cases hs with ⟨_, rfl | rfl⟩ | ⟨_, rfl⟩ | ⟨_, hx⟩ | ⟨_, rfl⟩ | ⟨_, rfl⟩ | ⟨_, rfl⟩ | ⟨_, hx⟩
  · exact hu
  · have ⟨_, _, _, _, hlegal, _⟩ := huflow
    exact accountsOk_controllerStep hlegal hu
  · refine accountsOk_of_moved hu (sameBlock_engineLoad _) ?_ (engineLoad_inFlight _)
    rcases engineLoad_cases (takeChoice s) with he | ⟨_, _, _, _, he⟩ <;> rw [he]; rfl
  · obtain ⟨hf, hi, _, _⟩ := exchangeTurn_flow huflow hx
    exact accountsOk_of_moved hu (sameBlock_exchangeTurn hx) hf hi
  · obtain ⟨_, _, he, _, _, hf⟩ := applyPend_keeps (takeChoice s)
    exact accountsOk_of_moved hu (sameBlock_applyPend _) hf (by unfold inFlight; rw [he])
  · rw [peerTickStep_frame]; exact hu
  · exact hu
  · exact accountsOk_hostTurn hu hx

end Sys2Proof.Machine

/-! PROOFS. The transport's end: chip-select is deasserted, the counts go to the host, and the bytes left in flight are those the
counts name; and what aliased buffers read and write (41_fifo_transport.md R158, R159, R161, R162, R164, R166; 30_encoding.md R111;
70_reset_and_hazards.md R363, R369). -/

namespace Sys2Proof.Machine

/-! ### The return of a transfer -/

/-- ISSUE at T3 and ENABLE_WRITE end with their callee's result (42_command_dispatcher.md R180, 43_status_poller.md R201). -/
def passesResult : Frame → Bool
  | .issue .T3 _ _ => true
  | .enableWrite => true
  | _ => false

theorem resumeFrame_passes {fr : Frame} (h : passesResult fr = true) (r : Result) (s : State) : resumeFrame fr r s = .done r s := by
  unfold passesResult at h
  split at h
  · rfl
  · rfl
  · cases h

/-- Through such activations alone a result reaches the host. -/
theorem deliver_passes {k : List Frame} (h : ∀ fr ∈ k, passesResult fr = true) (r : Result) (s : State) :
    deliver k r s = returnToHost r s := by
  induction k with
  | nil => rfl
  | cons fr below ih =>
    obtain ⟨hfr, hbelow⟩ := List.forall_mem_cons.mp h
    rw [deliver, resumeFrame_passes hfr]
    exact ih hbelow

/-- The read-back of X9's SET_SELECT under such activations: the pending write reaches the line, the counts the host. -/
theorem controllerStep_x9_returns {s : State} {act : Bool} {x : XferArgs} {k : List Frame} (hf : s.faulted = none)
    (hs : s.stack = .setSelect .CS2 act :: .transfer .X9 x :: k) (hk : ∀ fr ∈ k, passesResult fr = true) :
    controllerStep s = returnToHost (transferResult s.ctl) (applyPend s) := by
  have hline : controllerStep s = deliver k (transferResult (applyPend s).ctl) (applyPend s) := controllerStep_cons hf hs
  rw [hline, deliver_passes hk, (applyPend_keeps s).1]

/-- Settles O23: the three operations differ only in the activations that pass the transfer's result on. -/
theorem transfersComplete : Obligations.TransfersComplete := by
  unfold Obligations.TransfersComplete
  intro f s x opc hp done
  have returns : ∀ {op : BitVec 4} {activate : Ctl → Frame} {k : List Frame},
      runsAt op (.setSelect .CS2 false :: .transfer .X9 x :: k) s → (∀ fr ∈ k, passesResult fr = true) →
        done (operate op f noRefusal activate s) := by
    intro op activate k ⟨hf, hb, ht, hs⟩ hk
    rw [operate_busy hb ht, controllerStep_x9_returns hf hs hk, applyPend_posted hp]
    exact ⟨_, rfl, rfl, rfl⟩
  exact ⟨fun h => returns h (by simp), fun h => returns h (by simp [passesResult]),
    fun h => returns h (by simp [passesResult])⟩

/-! ### The empty transfer -/

/-- A host TRANSFER runs unfaulted with the activations `k`, every count zero and no abort sampled. -/
structure EmptyTransfer (k : List Frame) (s : State) : Prop where
  runs : runsAt 3#4 k s
  txRem : s.ctl.txRem = 0
  rxRem : s.ctl.rxRem = 0
  skipRem : s.ctl.skipRem = 0
  sent : s.ctl.sent = 0
  recv : s.ctl.recv = 0
  xabort : s.ctl.xabort = false

section
variable {k k' : List Frame} {s : State} {rest : List Config.Choice} {d : Nat} {x : XferArgs}

/-- A controller's step while a TRANSFER runs is its line. -/
theorem step_transfer (h : runsAt 3#4 k s) (hq : s.sched = { agent := .controller, draw := d } :: rest) :
    step s = .next (controllerStep (s.withChoice rest s.tick { agent := .controller, draw := d })) := by
  obtain ⟨-, hb, ht, -⟩ := h
  have hturn := (controllerTurn_cases (s.withChoice rest s.tick { agent := .controller, draw := d })).resolve_left (by
    simp [runningInstr, hb, ht, hostOp])
  exact (step_sched hq).trans hturn.2

/-- X0 sets every count to zero (41_fifo_transport.md R150, R151). -/
theorem emptyTransfer_step_x0 (h : runsAt 3#4 [.transfer .X0 x] s) (hn : x.n = 0) (hskip : x.skip = 0) (hi : inFlight s = 0)
    (hq : s.sched = { agent := .controller, draw := d } :: rest) :
    ∃ t, step s = .next t ∧ EmptyTransfer [.transfer .X1 x] t ∧ t.sched = rest ∧ t.mem = s.mem := by
  have hstep := step_transfer h hq
  obtain ⟨hf, hb, ht, hs⟩ := h
  have hline : stepFrame (.transfer .X0 x) (s.withChoice rest s.tick { agent := .controller, draw := d }) = .goto _ _ :=
    if_pos (hi.trans (by rw [hskip]; rfl))
  rw [controllerStep_cons (s := s.withChoice rest s.tick _) hf hs, hline] at hstep
  exact ⟨_, hstep, ⟨⟨hf, hb, ht, rfl⟩, hn, hn, hskip, rfl, rfl, rfl⟩, rfl, rfl⟩

/-- A line that only moves on leaves the transfer empty. -/
theorem EmptyTransfer.step_move (h : EmptyTransfer k s) (hq : s.sched = { agent := .controller, draw := d } :: rest)
    (hline : ∀ u : State, u.faulted = none → u.stack = k → u.ctl = s.ctl → controllerStep u = u.withStack k') :
    ∃ t, step s = .next t ∧ EmptyTransfer k' t ∧ t.sched = rest ∧ t.mem = s.mem := by
  have hstep := step_transfer h.runs hq
  obtain ⟨⟨hf, hb, ht, hs⟩, htx, hrx, hskip, hsent, hrecv, hab⟩ := h
  rw [hline (s.withChoice rest s.tick _) hf hs rfl] at hstep
  exact ⟨_, hstep, ⟨⟨hf, hb, ht, rfl⟩, htx, hrx, hskip, hsent, hrecv, hab⟩, rfl, rfl⟩

/-- X1 makes no iteration (R158). -/
theorem EmptyTransfer.step_x1 (h : EmptyTransfer [.transfer .X1 x] s)
    (hq : s.sched = { agent := .controller, draw := d } :: rest) :
    ∃ t, step s = .next t ∧ EmptyTransfer [.transfer .X9 x] t ∧ t.sched = rest ∧ t.mem = s.mem := by
  refine h.step_move hq fun u hf hs hc => ?_
  have hdone : transferDone u.ctl = true := (transferDone_iff _).mpr (hc ▸ ⟨h.txRem, h.skipRem, h.rxRem⟩)
  have hline : stepFrame (.transfer .X1 x) u = .goto (.transfer .X9 x) u := if_pos hdone
  rw [controllerStep_cons hf hs, hline]

/-- X9 calls SET_SELECT(0) (R159). -/
theorem EmptyTransfer.step_x9 (h : EmptyTransfer [.transfer .X9 x] s)
    (hq : s.sched = { agent := .controller, draw := d } :: rest) :
    ∃ t, step s = .next t ∧ EmptyTransfer [.setSelect .CS1 false, .transfer .X9 x] t ∧ t.sched = rest ∧ t.mem = s.mem :=
  h.step_move hq fun _ hf hs _ => controllerStep_cons hf hs

/-- CS1 posts the deassertion (40_csr_access.md R140). -/
theorem EmptyTransfer.step_cs1 (h : EmptyTransfer [.setSelect .CS1 false, .transfer .X9 x] s)
    (hq : s.sched = { agent := .controller, draw := d } :: rest) :
    ∃ t, step s = .next t ∧ EmptyTransfer [.setSelect .CS2 false, .transfer .X9 x] t ∧ t.cs.pend = some false ∧
      t.sched = rest ∧ t.mem = s.mem := by
  have hstep := step_transfer h.runs hq
  obtain ⟨⟨hf, hb, ht, hs⟩, htx, hrx, hskip, hsent, hrecv, hab⟩ := h
  rw [controllerStep_cs1 (s := s.withChoice rest s.tick _) hf hs] at hstep
  exact ⟨_, hstep, ⟨⟨hf, hb, ht, rfl⟩, htx, hrx, hskip, hsent, hrecv, hab⟩, rfl, rfl, rfl⟩

/-- CS2 ends the operation: Completed, with zero counts and chip-select deasserted (41_fifo_transport.md R159; 30_encoding.md
R111). -/
theorem EmptyTransfer.step_cs2 (h : EmptyTransfer [.setSelect .CS2 false, .transfer .X9 x] s) (hp : s.cs.pend = some false)
    (hq : s.sched = { agent := .controller, draw := d } :: rest) :
    ∃ t, step s = .next t ∧ t.host.busy = false ∧ t.host.aborted = false ∧ t.host.resSent = 0 ∧ t.host.resRecv = 0 ∧
      t.host.resSkipLeft = 0 ∧ t.cs.pin = false ∧ t.cs.pend = none ∧ t.mem = s.mem ∧ t.sched = rest := by
  have hstep := step_transfer h.runs hq
  obtain ⟨⟨hf, -, -, hs⟩, -, -, hskip, hsent, hrecv, hab⟩ := h
  rw [controllerStep_x9_returns (s := s.withChoice rest s.tick _) hf hs (by simp),
    applyPend_posted (s := s.withChoice rest s.tick _) (.inl hp)] at hstep
  exact ⟨_, hstep, rfl, hab, hsent, hrecv, hskip, rfl, rfl, rfl, rfl⟩

end

/-- Settles O24: X0, X1, X9, CS1 and CS2, in five steps of the controller. -/
theorem emptyTransferCompletes : Obligations.EmptyTransferCompletes := by
  unfold Obligations.EmptyTransferCompletes
  intro s x ds rest hruns hn hskip hi hlen hq
  obtain ⟨d₁, d₂, d₃, d₄, d₅, rfl⟩ : ∃ d₁ d₂ d₃ d₄ d₅, ds = [d₁, d₂, d₃, d₄, d₅] := by
    match ds, hlen with
    | [d₁, d₂, d₃, d₄, d₅], _ => exact ⟨d₁, d₂, d₃, d₄, d₅, rfl⟩
  obtain ⟨s₁, h₁, he₁, hq₁, hm₁⟩ := emptyTransfer_step_x0 hruns hn hskip hi hq
  obtain ⟨s₂, h₂, he₂, hq₂, hm₂⟩ := he₁.step_x1 hq₁
  obtain ⟨s₃, h₃, he₃, hq₃, hm₃⟩ := he₂.step_x9 hq₂
  obtain ⟨s₄, h₄, he₄, hp₄, hq₄, hm₄⟩ := he₃.step_cs1 hq₃
  obtain ⟨t, h₅, hbusy, hab, hsent, hrecv, hskip', hpin, hpend, hm₅, hq₅⟩ := he₄.step_cs2 hp₄ hq₄
  have hrun : runSteps 5 s = .next t := by
    rw [runSteps_succ h₁, runSteps_succ h₂, runSteps_succ h₃, runSteps_succ h₄, runSteps_succ h₅]
    rfl
  exact ⟨t, hrun, hbusy, hab, hsent, hrecv, hskip', hpin, hpend, by rw [hm₅, hm₄, hm₃, hm₂, hm₁], hq₅⟩

/-! ### The bytes a returned transfer leaves in flight -/

/-- Only a transfer at X9 and the activations that pass a result on end with their callee. -/
theorem resumeFrame_done_cases {fr : Frame} {r r' : Result} {s t : State} (h : resumeFrame fr r s = .done r' t) :
    (∃ x, fr = .transfer .X9 x) ∨ passesResult fr = true := by
  cases fr with
  | transfer l x =>
    simp only [resumeFrame] at h; unfold resumeTransfer at h
    split at h <;> cases h
    exact .inl ⟨x, rfl⟩
  | issue l o x => cases l <;> cases h; exact .inr rfl
  | enableWrite => exact .inr rfl
  | setSelect l a => cases h
  | isAborted => cases h
  | issueAddr l o a => cases l <;> cases h
  | waitReady l =>
    simp only [resumeFrame] at h; unfold resumeWaitReady at h
    split at h <;> cases h
  | diagStatus l => cases l <;> simp only [resumeFrame, resumeDiagStatus] at h <;> (repeat' split at h) <;> cases h
  | eraseSeq l => cases l <;> simp only [resumeFrame, resumeEraseSeq] at h <;> (repeat' split at h) <;> cases h

/-- A result that reaches the host ended every activation on its way. -/
theorem deliver_idle {k : List Frame} {r : Result} {s : State} (h : (deliver k r s).stack = []) :
    ∀ fr ∈ k, (∃ x, fr = .transfer .X9 x) ∨ passesResult fr = true := by
  induction k generalizing r with
  | nil => exact nofun
  | cons fr below ih =>
    unfold deliver at h
    rcases resumeFrame_cases fr r s with ⟨self, c, _, hr⟩ | ⟨r', hr⟩ <;> rw [hr] at h
    · cases h
    · exact List.forall_mem_cons.mpr ⟨resumeFrame_done_cases hr, ih h⟩

/-- Of the transport's and the dispatcher's sub-machines only SET_SELECT and IS_ABORTED have a line that ends them. -/
theorem stepFrame_done_leaf {fr : Frame} {r : Result} {s t : State} (h : stepFrame fr s = .done r t)
    (hop : frameOp fr ∈ [1#4, 2#4, 3#4, 4#4]) : (∃ act, fr = .setSelect .CS2 act) ∨ fr = .isAborted := by
  cases fr with
  | setSelect l act => cases l <;> cases h; exact .inl ⟨act, rfl⟩
  | isAborted => exact .inr rfl
  | transfer l x => cases l <;> simp only [stepFrame, stepTransfer] at h <;> (repeat' split at h) <;> cases h
  | issue l o x => cases l <;> simp only [stepFrame, stepIssue] at h <;> (repeat' split at h) <;> cases h
  | _ => simp [frameOp] at hop

/-- An activation that passes its callee's result on waits for neither SET_SELECT nor IS_ABORTED. -/
theorem nesting_of_passesResult {caller callee : Frame} (hp : passesResult caller = true) (hw : waitsFor caller callee = true) :
    nesting callee ≠ 1 := by
  unfold passesResult at hp
  split at hp
  case h_3 => cases hp
  all_goals cases callee <;> first | cases hw | simp [nesting]

/-- Under SET_SELECT or IS_ABORTED, activations that all end with their callee are a transfer at X9 and those that pass its result
on. -/
theorem legal_return {fr caller : Frame} {k : List Frame} (hl : stackLegal (fr :: caller :: k) = true)
    (hfr : (∃ act, fr = .setSelect .CS2 act) ∨ fr = .isAborted)
    (hends : ∀ g ∈ caller :: k, (∃ x, g = .transfer .X9 x) ∨ passesResult g = true) :
    ∃ act x, fr = .setSelect .CS2 act ∧ caller = .transfer .X9 x ∧ ∀ g ∈ k, passesResult g = true := by
  rw [stackLegal_cons, Bool.and_eq_true] at hl
  obtain ⟨hw, hk⟩ := hl
  obtain ⟨hcaller, hrest⟩ := List.forall_mem_cons.mp hends
  have hleaf : nesting fr = 1 := by rcases hfr with ⟨act, rfl⟩ | rfl <;> rfl
  obtain ⟨x, rfl⟩ := hcaller.resolve_right fun hp => nesting_of_passesResult hp hw hleaf
  obtain ⟨act, rfl⟩ := hfr.resolve_right (by rintro rfl; cases hw)
  refine ⟨act, x, rfl, rfl, fun g hg => (hrest g hg).resolve_left ?_⟩
  rintro ⟨y, rfl⟩
  exact absurd (nesting_lt_below hk hg) (Nat.lt_irrefl 2)

/-- A TRANSFER or an ISSUE returns to the host at the read-back of X9's SET_SELECT only. -/
theorem stack_of_return {s : State} (hc : controlOk s) (hf : s.faulted = none) (hb : s.host.busy = true)
    (hop : s.ctl.top = 3#4 ∨ s.ctl.top = 4#4) (hidle : (controllerStep s).host.busy = false) :
    ∃ act x k, s.stack = .setSelect .CS2 act :: .transfer .X9 x :: k ∧ ∀ fr ∈ k, passesResult fr = true := by
  obtain ⟨fr, below, hs⟩ := List.exists_cons_of_ne_nil (running_stack hc hb)
  obtain ⟨hlegal, -, htop⟩ := (controlOk_iff s).mp hc
  rw [hs] at hlegal htop
  have hempty : (controllerStep s).stack = [] := by
    have hbusy := (controlOk_controllerStep hc).2.1
    simpa [hidle] using hbusy
  obtain ⟨o, ho⟩ : ∃ o, (fr :: below).getLast? = some o := ⟨_, List.getLast?_eq_some_getLast (by simp)⟩
  have hoop : frameOp o = s.ctl.top := by rw [htop, outerOp, ho]; rfl
  have hsub : subMachines o ⊆ [1#4, 2#4, 3#4, 4#4] := by
    cases o <;> simp [frameOp, ← hoop] at hop <;> simp [subMachines]
  rcases controllerStep_cases hf hs with ⟨self, _, _, he⟩ | ⟨self, callee, _, _, _, _, he⟩ | ⟨r, hd, he⟩ | ⟨_, he⟩ <;>
    rw [he] at hempty
  · cases hempty
  · cases hempty
  · have hends := deliver_idle hempty
    have hfr := stepFrame_done_leaf hd (hsub (frameOp_mem_subMachines hlegal ho))
    cases below with
    | nil =>
      obtain rfl : fr = o := by simpa using ho
      rcases hfr with ⟨act, rfl⟩ | rfl <;> simp [← hoop, frameOp] at hop
    | cons caller k =>
      obtain ⟨act, x, rfl, rfl, hk⟩ := legal_return hlegal hfr hends
      exact ⟨act, x, k, hs, hk⟩
  · rw [(stepFrame_keeps fr s).2.2, hs] at hempty
    cases hempty

/-- No more is received than was sent (41_fifo_transport.md R164). -/
theorem transferAccounts_recv_le {s : State} {l : XLabel} {x : XferArgs} (h : transferAccounts s l x) (hl : l ≠ .X0) :
    s.ctl.recv.toNat ≤ s.ctl.sent.toNat := by
  obtain ⟨_, _, hflight, _, _, hskip⟩ := h.resolve_left hl
  by_cases hs : s.ctl.skipRem = 0
  · rw [hs] at hflight
    simp at hflight
    omega
  · rw [hskip hs]
    exact Nat.zero_le _

/-- Settles O26: the accounts at X9, which the return copies into the result registers. -/
theorem returnedTransferLeavesCountedBytes : Obligations.ReturnedTransferLeavesCountedBytes := by
  unfold Obligations.ReturnedTransferLeavesCountedBytes
  intro i f s t hacc hc hf hb hi hexec hidle
  have ht : t = controllerStep s ∧ (s.ctl.top = 3#4 ∨ s.ctl.top = 4#4) := by
    rcases hi with ⟨rfl, htop⟩ | ⟨rfl, htop⟩
    · obtain ⟨_, _, _, ht, _⟩ := operate_writes (refuse := noRefusal) hc hb htop hexec
      exact ⟨ht, .inl htop⟩
    · obtain ⟨_, _, _, ht, _⟩ := operate_writes (refuse := noRefusal) hc hb htop hexec
      exact ⟨ht, .inr htop⟩
  obtain ⟨rfl, htop⟩ := ht
  obtain ⟨act, x, k, hs, hk⟩ := stack_of_return hc hf hb htop hidle
  have hx : transferAccounts s .X9 x := hacc hf .X9 x (by simp [hs])
  obtain ⟨_, _, hflight, _⟩ := hx.resolve_left nofun
  rw [controllerStep_x9_returns hf hs hk]
  have hi : inFlight (returnToHost (transferResult s.ctl) (applyPend s)) = inFlight s := by
    have he := (applyPend_keeps s).2.2.1
    show (applyPend s).engine.txq.length + (applyPend s).engine.sh.length + (applyPend s).engine.rxq.length = inFlight s
    rw [he]; rfl
  rw [hi]
  exact ⟨hflight, transferAccounts_recv_le hx nofun⟩

/-! ### Aliased buffers -/

/-- Two positions less than 2^32 have different addresses (20_memory.md R63). -/
theorem address_ne {i j : Nat} (a : Word) (hij : i < j) (hj : j < 2 ^ 32) : a + BitVec.ofNat 32 i ≠ a + BitVec.ofNat 32 j := by
  intro h
  have hn := congrArg BitVec.toNat (BitVec.add_right_inj a |>.mp h)
  simp only [BitVec.toNat_ofNat] at hn
  omega

/-- Position `i` of a buffer `d` bytes above another is the other's position `d + i`. -/
theorem address_shift {a b : Word} {d : Nat} (h : a = b + BitVec.ofNat 32 d) (i : Nat) :
    a + BitVec.ofNat 32 i = b + BitVec.ofNat 32 (d + i) := by
  rw [h, BitVec.add_assoc, BitVec.ofNat_add]

section
variable {s : State} {x : XferArgs} {d : Nat} (ha : s.ctl.xTxb = s.ctl.xRxb + BitVec.ofNat 32 d) (hd : d + x.n.toNat ≤ 2 ^ 32)
include ha hd

/-- What X4 reads was not stored over: a position is stored after it was read (41_fifo_transport.md R161). -/
theorem txAddress_unstored (hx : transferAccounts s .X4 x) (htx : 0 < s.ctl.txRem.toNat) {j : Nat} (hj : j < s.ctl.recv.toNat) :
    s.ctl.xRxb + BitVec.ofNat 32 j ≠ txAddress s.ctl := by
  have hle := transferAccounts_recv_le hx nofun
  obtain ⟨hsum, _⟩ := hx.resolve_left nofun
  have haddr : txAddress s.ctl = s.ctl.xRxb + BitVec.ofNat 32 (d + s.ctl.sent.toNat) := by
    rw [← address_shift ha, BitVec.ofNat_toNat, BitVec.setWidth_eq]
    rfl
  rw [haddr]
  exact address_ne _ (by omega) (by omega)

/-- Where X7 stores, X4 has nothing left to read (R161). -/
theorem rxAddress_read (hlt : s.ctl.recv.toNat < s.ctl.sent.toNat) {j : Nat} (hj : s.ctl.sent.toNat ≤ j) (hjn : j < x.n.toNat) :
    s.ctl.xTxb + BitVec.ofNat 32 j ≠ rxAddress s.ctl := by
  have haddr : rxAddress s.ctl = s.ctl.xRxb + BitVec.ofNat 32 s.ctl.recv.toNat := by
    rw [BitVec.ofNat_toNat, BitVec.setWidth_eq]
    rfl
  rw [haddr, address_shift ha]
  exact (address_ne _ (by omega) (by omega)).symm

end

/-- At X7 the byte to store is of a position already sent (R156). -/
theorem transferAccounts_x7_lt {s : State} {x : XferArgs} (h : transferAccounts s .X7 x) :
    s.ctl.recv.toNat < s.ctl.sent.toNat := by
  obtain ⟨_, _, hflight, _, howed, _⟩ := h.resolve_left nofun
  rw [(howed rfl).2] at hflight
  simp [inTransit] at hflight
  omega

/-- At X6 a byte in the receive FIFO is owed, so a level above zero is enough to dequeue it (R156). -/
theorem mayDequeue_of_byte {s : State} {x : XferArgs} (h : transferAccounts s .X6 x) (hrl : 0 < s.ctl.rl.toNat) {b : Byte}
    {q : List Byte} (hq : s.engine.rxq = b :: q) : mayDequeue s.ctl = true := by
  obtain ⟨htx, hrx, hflight, _⟩ := h.resolve_left nofun
  have hlen : 0 < inFlight s := by simp [inFlight, hq]
  rw [mayDequeue_iff]
  simp only [inTransit] at hflight
  omega

/-- Settles O27: each line by its accounts; the addresses of two positions less than 2^32 differ. -/
theorem positionsAreReadBeforeWritten : Obligations.PositionsAreReadBeforeWritten := by
  unfold Obligations.PositionsAreReadBeforeWritten
  intro s x below d hacc aliased
  have accounts : ∀ {l}, lineAt (.transfer l x) below s → transferAccounts s l x := fun ⟨hf, _, hs⟩ =>
    hacc hf _ x (by simp [hs])
  refine ⟨fun h hen hk ha => ⟨?_, fun ⟨hal, hd⟩ j hj => ?_⟩, fun h hk ha => ⟨?_, ?_, fun ⟨hal, hd⟩ j hj hjn => ?_⟩,
    fun h hrl b q hq => ?_⟩
  · exact controllerTurn_goto h (line_x4_byte hen (txByte_mem hk ha))
  · exact txAddress_unstored hal hd (accounts h) ((mayEnqueue_iff _ _).mp hen).1 hj
  · obtain ⟨t, ht, _, hself, hother⟩ := controllerTurn_x7_mem h hk ha
    exact ⟨t, ht, hself, hother⟩
  · exact transferAccounts_x7_lt (accounts h)
  · exact rxAddress_read hal hd (transferAccounts_x7_lt (accounts h)) hj hjn
  · have hdeq := mayDequeue_of_byte (accounts h) hrl hq
    by_cases hs : s.ctl.skipRem = 0
    · exact ⟨_, controllerTurn_goto h (line_x6_take hdeq hq hs), rfl, rfl, fun _ => rfl, fun hne => absurd hs hne⟩
    · exact ⟨_, controllerTurn_goto h (line_x6_discard hdeq hq hs), rfl, rfl, fun he => absurd he hs, fun _ => ⟨rfl, rfl⟩⟩

end Sys2Proof.Machine

/-! PROOFS. The Command Dispatcher: the lines of ISSUE and ISSUE_ADDR, one by one, and the eight controller steps that take a
started ISSUE_ADDR to its end (42_command_dispatcher.md R180, R181, R184; 30_encoding.md R106; 40_csr_access.md R140). -/

namespace Sys2Proof.Machine

/-! ### SET_SELECT under a waiting activation -/

section
variable {s : State} {act : Bool} {fr self : Frame} {below : List Frame}

theorem controllerTurn_step (h : lineAt fr below s) : controllerTurn s = .next (controllerStep s) := by
  have ⟨hf, _, hs⟩ := h
  rw [controllerTurn_line h, controllerStep_cons hf hs]

/-- CS1 posts the write, whatever waits below (40_csr_access.md R140). -/
theorem controllerTurn_cs1 (h : lineAt (.setSelect .CS1 act) below s) : controllerTurn s = .next (afterCs1 act below s) := by
  have ⟨hf, _, hs⟩ := h
  rw [controllerTurn_step h, controllerStep_cs1 hf hs]

/-- CS2 brings the line to the state `act`, and the activation that called goes on in the same step (R140; log entry 16). -/
theorem controllerTurn_cs2 (h : lineAt (.setSelect .CS2 act) (fr :: below) s) (hp : selectPosted act s)
    (hr : resumeFrame fr .completed (pinTakes act s) = .goto self (pinTakes act s)) :
    controllerTurn s = .next ((pinTakes act s).withStack (self :: below)) := by
  have hline : controllerTurn s = .next (deliver (fr :: below) .completed (applyPend s)) := controllerTurn_line h
  rw [hline, applyPend_posted hp, deliver, hr]

end

/-! ### The entry check -/

/-- T0 and A0 go on with nothing in flight, and else enter EntryMismatch (42_command_dispatcher.md R180, R181). -/
theorem controllerTurn_entryCheck {s t : State} {fr self : Frame} {below : List Frame} (h : lineAt fr below s)
    (hline : stepFrame fr s =
      if inFlight s = 0 then .goto self t else .halt (raise (.entryMismatch (inFlight s) 0) s)) :
    controllerTurn s =
      .next (if inFlight s = 0 then t.withStack (self :: below)
        else s.withFaulted (some (.entryMismatch (inFlight s) 0))) := by
  by_cases hi : inFlight s = 0
  · rw [if_pos hi]
    exact controllerTurn_goto h (hline.trans (if_pos hi))
  · rw [if_neg hi]
    exact controllerTurn_raise h (hline.trans (if_neg hi))

/-! ### Bytes into the transmit FIFO -/

section
variable {s : State} {opc : Byte} {a : FlashAddr} {x : XferArgs}

/-- A byte written to DR with room in the transmit FIFO is its last (20_memory.md R65). -/
theorem writeDr_byte (h : s.engine.txq.length ≠ s.params.depth) (b : Byte) :
    writeDr (b.setWidth 32) s = .ok (s.withEngine { s.engine with txq := s.engine.txq ++ [b] }) := by
  have hw := ((writeDr_cases (b.setWidth 32) s).resolve_left fun hd => h hd.1).2
  rwa [setWidth_byte] at hw

/-- T2 with room in the transmit FIFO (42_command_dispatcher.md R180). -/
theorem line_t2_room (h : s.engine.txq.length ≠ s.params.depth) :
    stepFrame (.issue .T2 opc x) s =
      .goto (.issue .T3 opc x) (s.withEngine { s.engine with txq := s.engine.txq ++ [s.ctl.dOpc] }) := by
  simp only [stepFrame, stepIssue, writeDr_byte h]

/-- The state that the write of byte `k` of AW leaves (R181; 30_encoding.md R106). -/
def afterAddressByte (k : Nat) (s : State) : State :=
  { s with
    engine := { s.engine with txq := s.engine.txq ++ [addressByte s.ctl.aw k] }
    ctl := { s.ctl with ai := BitVec.ofNat 3 (k + 1) } }

theorem sendAddressByte_ok (h : s.engine.txq.length ≠ s.params.depth) (k : Nat) :
    sendAddressByte k s = .ok (afterAddressByte k s) := by
  simp only [sendAddressByte, writeDr_byte h]
  rfl

/-- A2 to A4, each with the byte of AW that it writes and the line after it (R181). -/
def addressLines : List (ALabel × Nat × ALabel) := [(.A2, 0, .A3), (.A3, 1, .A4), (.A4, 2, .A5)]

theorem line_addressByte {l l' : ALabel} {k : Nat} (hl : (l, k, l') ∈ addressLines)
    (h : s.engine.txq.length ≠ s.params.depth) :
    stepFrame (.issueAddr l opc a) s = .goto (.issueAddr l' opc a) (afterAddressByte k s) := by
  simp only [addressLines, List.mem_cons, List.not_mem_nil, or_false, Prod.mk.injEq] at hl
  rcases hl with ⟨rfl, rfl, rfl⟩ | ⟨rfl, rfl, rfl⟩ | ⟨rfl, rfl, rfl⟩ <;>
    simp only [stepFrame, stepIssueAddr, sendAddressByte_ok h]

/-- The state that a host's A5 leaves: the fourth byte written, the operation over (R181; 30_encoding.md R111). -/
def afterA5 (s : State) : State :=
  { afterAddressByte 3 s with
    stack := [], ctl := { s.ctl with ai := 4, top := 0 }, host := { s.host with busy := false, aborted := false } }

theorem controllerStep_a5 (hf : s.faulted = none) (hs : s.stack = [.issueAddr .A5 opc a])
    (h : s.engine.txq.length ≠ s.params.depth) : controllerStep s = afterA5 s := by
  have hline : stepFrame (.issueAddr .A5 opc a) s = .done .completed (afterAddressByte 3 s) := by
    simp only [stepFrame, stepIssueAddr, sendAddressByte_ok h]
  rw [controllerStep_cons hf hs, hline]
  rfl

end

/-! ### The lines -/

/-- Settles O28: T0 by its entry check, the call and the read-back of SET_SELECT, T2 by the room in the transmit FIFO, T3 by its
call. -/
theorem issueLines : Obligations.IssueLines := by
  unfold Obligations.IssueLines
  intro s opc x below
  exact ⟨fun h => controllerTurn_entryCheck h rfl, fun h => controllerTurn_call h rfl, fun h => controllerTurn_cs1 h,
    fun h hp => controllerTurn_cs2 h hp rfl, fun h hroom => controllerTurn_goto h (line_t2_room hroom),
    fun h => controllerTurn_call h rfl⟩

/-- Settles O29: A0 by its entry check, the call and the read-back of SET_SELECT, A2 to A5 by the room in the transmit FIFO. -/
theorem issueAddrLines : Obligations.IssueAddrLines := by
  unfold Obligations.IssueAddrLines
  intro f s opc a below
  refine ⟨fun h => controllerTurn_entryCheck h rfl, fun h => controllerTurn_call h rfl,
    fun h hp => controllerTurn_cs2 h hp rfl, fun hroom => ?_⟩
  have sends : ∀ {l l' k}, (l, k, l') ∈ addressLines → lineAt (.issueAddr l opc a) below s →
      controllerTurn s = .next ((afterAddressByte k s).withStack (.issueAddr l' opc a :: below)) :=
    fun hl h => controllerTurn_goto h (line_addressByte hl hroom)
  refine ⟨sends (by decide), sends (by decide), sends (by decide), fun ⟨hf, hb, ht, hs⟩ => ?_⟩
  have hexec : exec (.issueAddr f) s = .next (controllerStep s) := operate_busy (refuse := refuseWideAddress) hb ht
  rw [hexec, controllerStep_a5 hf hs hroom]
  rfl

/-! ### The run of an ISSUE_ADDR -/

/-- Byte 0 of AW is the opcode, bytes 1 to 3 are those of the address (30_encoding.md R106). -/
theorem addressByte_zero (opc : Byte) (a : FlashAddr) : addressByte (addressWord opc a) 0 = opc :=
  BitVec.extractLsb'_append_eq_left

theorem addressByte_pos (opc : Byte) (a : FlashAddr) {k : Nat} (h : 0 < k) :
    addressByte (addressWord opc a) k = a.extractLsb' (24 - 8 * k) 8 :=
  BitVec.extractLsb'_append_eq_of_add_le (by omega)

/-- The bytes of AW are the opcode and the address bytes, most significant first (R106). -/
theorem addressBytes_eq (opc a2 a1 a0 : Byte) :
    [0, 1, 2, 3].map (addressByte (addressWord opc (a2 ++ a1 ++ a0))) = [opc, a2, a1, a0] := by
  have h2 : (a2 ++ a1 ++ a0).extractLsb' 16 8 = a2 :=
    (BitVec.extractLsb'_append_eq_of_le (by decide)).trans BitVec.extractLsb'_append_eq_left
  have h1 : (a2 ++ a1 ++ a0).extractLsb' 8 8 = a1 :=
    (BitVec.extractLsb'_append_eq_of_le (by decide)).trans BitVec.extractLsb'_append_eq_right
  have h0 : (a2 ++ a1 ++ a0).extractLsb' 0 8 = a0 := BitVec.extractLsb'_append_eq_right
  simp [addressByte_zero, addressByte_pos, h2, h1, h0]

theorem engine_of_inFlight_zero {s : State} (h : inFlight s = 0) : s.engine = { txq := [], sh := [], rxq := [] } := by
  cases he : s.engine with
  | mk txq sh rxq => simpa [inFlight, he, and_assoc] using h

/-- A host's ISSUE_ADDR runs unfaulted with the activations `k`, the host registers `regs` and the command/address word `aw`; the
bytes `sent` are in the transmit FIFO, which has room for four, and no others in flight. -/
structure AddressIssue (aw : Word) (regs : HostRegs) (k : List Frame) (sent : List Byte) (s : State) : Prop where
  runs : runsAt 5#4 k s
  aw : s.ctl.aw = aw
  host : s.host = regs
  engine : s.engine = { txq := sent, sh := [], rxq := [] }
  depth : 4 ≤ s.params.depth

section
variable {fr : Frame} {below : List Frame} {s : State} {rest : List Config.Choice} {d : Nat} {aw : Word} {regs : HostRegs}
  {sent : List Byte} {opc : Byte} {a : FlashAddr}

theorem lineAt_of_runs_issueAddr (h : runsAt 5#4 (fr :: below) s) : lineAt fr below s := by
  obtain ⟨hf, hb, ht, hs⟩ := h
  exact ⟨hf, by simp [runningInstr, hb, ht, hostOp], hs⟩

/-- The state in which the controller moves, once its choice was taken off the schedule. -/
def atController (d : Nat) (rest : List Config.Choice) (s : State) : State :=
  s.withChoice rest s.tick { agent := .controller, draw := d }

theorem step_controller (hq : s.sched = { agent := .controller, draw := d } :: rest) :
    step s = controllerTurn (atController d rest s) := step_sched hq

theorem AddressIssue.line (h : AddressIssue aw regs (fr :: below) sent s) (d : Nat) (rest : List Config.Choice) :
    lineAt fr below (atController d rest s) := lineAt_of_runs_issueAddr (s := atController d rest s) h.runs

theorem afterAddressByte_engine (haw : s.ctl.aw = aw) (heng : s.engine = { txq := sent, sh := [], rxq := [] }) (k : Nat) :
    (afterAddressByte k s).engine = { txq := sent ++ [addressByte aw k], sh := [], rxq := [] } := by
  simp [afterAddressByte, haw, heng]

/-- A0 with nothing in flight assembles AW (42_command_dispatcher.md R181; 30_encoding.md R106). -/
theorem addressIssue_step_a0 (h : runsAt 5#4 [.issueAddr .A0 opc a] s) (hd : 4 ≤ s.params.depth) (hi : inFlight s = 0)
    (hq : s.sched = { agent := .controller, draw := d } :: rest) :
    ∃ t, step s = .next t ∧ AddressIssue (addressWord opc a) s.host [.issueAddr .A1 opc a] [] t ∧ t.sched = rest := by
  have hturn := controllerTurn_goto (lineAt_of_runs_issueAddr (s := atController d rest s) h) (if_pos hi)
  obtain ⟨hf, hb, ht, -⟩ := h
  exact ⟨_, (step_controller hq).trans hturn, ⟨⟨hf, hb, ht, rfl⟩, rfl, rfl, engine_of_inFlight_zero hi, hd⟩, rfl⟩

/-- A1 calls SET_SELECT(1) (R181). -/
theorem AddressIssue.step_a1 (h : AddressIssue aw regs [.issueAddr .A1 opc a] sent s)
    (hq : s.sched = { agent := .controller, draw := d } :: rest) :
    ∃ t, step s = .next t ∧ AddressIssue aw regs [.setSelect .CS1 true, .issueAddr .A1 opc a] sent t ∧ t.sched = rest := by
  have hturn := controllerTurn_call (h.line d rest) rfl
  obtain ⟨⟨hf, hb, ht, -⟩, haw, hregs, heng, hd⟩ := h
  exact ⟨_, (step_controller hq).trans hturn, ⟨⟨hf, hb, ht, rfl⟩, haw, hregs, heng, hd⟩, rfl⟩

/-- CS1 posts the assertion (40_csr_access.md R140). -/
theorem AddressIssue.step_cs1 (h : AddressIssue aw regs (.setSelect .CS1 true :: below) sent s)
    (hq : s.sched = { agent := .controller, draw := d } :: rest) :
    ∃ t, step s = .next t ∧ AddressIssue aw regs (.setSelect .CS2 true :: below) sent t ∧ t.cs.pend = some true ∧
      t.sched = rest := by
  have hturn := controllerTurn_cs1 (h.line d rest)
  obtain ⟨⟨hf, hb, ht, -⟩, haw, hregs, heng, hd⟩ := h
  exact ⟨_, (step_controller hq).trans hturn, ⟨⟨hf, hb, ht, rfl⟩, haw, hregs, heng, hd⟩, rfl, rfl⟩

/-- CS2 asserts chip-select and returns to A2 (R140, R181). -/
theorem AddressIssue.step_cs2 (h : AddressIssue aw regs [.setSelect .CS2 true, .issueAddr .A1 opc a] sent s)
    (hp : s.cs.pend = some true) (hq : s.sched = { agent := .controller, draw := d } :: rest) :
    ∃ t, step s = .next t ∧ AddressIssue aw regs [.issueAddr .A2 opc a] sent t ∧ t.cs.pin = true ∧ t.cs.pend = none ∧
      t.sched = rest := by
  have hturn := controllerTurn_cs2 (h.line d rest) (.inl hp) rfl
  obtain ⟨⟨hf, hb, ht, -⟩, haw, hregs, heng, hd⟩ := h
  exact ⟨_, (step_controller hq).trans hturn, ⟨⟨hf, hb, ht, rfl⟩, haw, hregs, heng, hd⟩, rfl, rfl, rfl⟩

/-- With fewer than four bytes sent the transmit FIFO is not full. -/
theorem AddressIssue.room {k : List Frame} (h : AddressIssue aw regs k sent s) (hn : sent.length < 4) :
    s.engine.txq.length ≠ s.params.depth := by
  have hd := h.depth
  rw [h.engine]
  simp only
  omega

/-- A2 to A4 write their byte of AW and leave chip-select alone (R181). -/
theorem AddressIssue.step_addressByte {l l' : ALabel} {k : Nat} (h : AddressIssue aw regs [.issueAddr l opc a] sent s)
    (hl : (l, k, l') ∈ addressLines) (hn : sent.length < 4) (hq : s.sched = { agent := .controller, draw := d } :: rest) :
    ∃ t, step s = .next t ∧ AddressIssue aw regs [.issueAddr l' opc a] (sent ++ [addressByte aw k]) t ∧ t.cs = s.cs ∧
      t.sched = rest := by
  have hturn := controllerTurn_goto (h.line d rest) (line_addressByte hl (h.room hn))
  obtain ⟨⟨hf, hb, ht, -⟩, haw, hregs, heng, hd⟩ := h
  refine ⟨_, (step_controller hq).trans hturn, ⟨⟨hf, hb, ht, rfl⟩, haw, hregs, ?_, hd⟩, rfl, rfl⟩
  exact afterAddressByte_engine (s := atController d rest s) haw heng k

/-- A5 writes the fourth byte and ends the operation (R181; 30_encoding.md R111). -/
theorem AddressIssue.step_a5 (h : AddressIssue aw regs [.issueAddr .A5 opc a] sent s) (hn : sent.length < 4)
    (hq : s.sched = { agent := .controller, draw := d } :: rest) :
    ∃ t, step s = .next t ∧ t.engine = { txq := sent ++ [addressByte aw 3], sh := [], rxq := [] } ∧ t.cs = s.cs ∧
      t.host = { regs with busy := false, aborted := false } ∧ t.stack = [] := by
  have hturn := controllerTurn_step (h.line d rest)
  have hroom := h.room hn
  obtain ⟨⟨hf, -, -, hs⟩, haw, hregs, heng, -⟩ := h
  rw [controllerStep_a5 (s := atController d rest s) hf hs hroom] at hturn
  refine ⟨_, (step_controller hq).trans hturn, ?_, rfl, ?_, rfl⟩
  · exact afterAddressByte_engine (s := atController d rest s) haw heng 3
  · rw [← hregs]; rfl

end

/-- Settles O30: A0, A1, CS1, CS2, then A2 to A5 with a byte of AW each. -/
theorem issueAddrStreamsFourBytes : Obligations.IssueAddrStreamsFourBytes := by
  unfold Obligations.IssueAddrStreamsFourBytes
  intro s opc a2 a1 a0 ds rest hruns hd hi hlen hq
  obtain ⟨d₁, d₂, d₃, d₄, d₅, d₆, d₇, d₈, rfl⟩ :
      ∃ d₁ d₂ d₃ d₄ d₅ d₆ d₇ d₈, ds = [d₁, d₂, d₃, d₄, d₅, d₆, d₇, d₈] := by
    match ds, hlen with
    | [d₁, d₂, d₃, d₄, d₅, d₆, d₇, d₈], _ => exact ⟨d₁, d₂, d₃, d₄, d₅, d₆, d₇, d₈, rfl⟩
  obtain ⟨s₁, h₁, hr₁, hq₁⟩ := addressIssue_step_a0 hruns hd hi hq
  obtain ⟨s₂, h₂, hr₂, hq₂⟩ := hr₁.step_a1 hq₁
  obtain ⟨s₃, h₃, hr₃, hp₃, hq₃⟩ := hr₂.step_cs1 hq₂
  obtain ⟨s₄, h₄, hr₄, hpin, hpend, hq₄⟩ := hr₃.step_cs2 hp₃ hq₃
  obtain ⟨s₅, h₅, hr₅, hc₅, hq₅⟩ := hr₄.step_addressByte (k := 0) (l' := .A3) (by decide) (by decide) hq₄
  obtain ⟨s₆, h₆, hr₆, hc₆, hq₆⟩ := hr₅.step_addressByte (k := 1) (l' := .A4) (by decide) (by simp) hq₅
  obtain ⟨s₇, h₇, hr₇, hc₇, hq₇⟩ := hr₆.step_addressByte (k := 2) (l' := .A5) (by decide) (by simp) hq₆
  obtain ⟨t, h₈, heng, hc₈, hhost, hstack⟩ := hr₇.step_a5 (by simp) hq₇
  have hrun : runSteps 8 s = .next t := by
    rw [runSteps_succ h₁, runSteps_succ h₂, runSteps_succ h₃, runSteps_succ h₄, runSteps_succ h₅, runSteps_succ h₆,
      runSteps_succ h₇, runSteps_succ h₈]
    rfl
  have htxq : t.engine.txq = [opc, a2, a1, a0] := by
    rw [heng, ← addressBytes_eq opc a2 a1 a0]
    rfl
  have hcs : t.cs = s₄.cs := by rw [hc₈, hc₇, hc₆, hc₅]
  exact ⟨t, hrun, htxq, by rw [inFlight, heng]; rfl, hcs ▸ hpin, hcs ▸ hpend, hhost, hstack⟩

end Sys2Proof.Machine

/-! PROOFS. The Status Poller: the lines of WAIT_READY, ENABLE_WRITE and DIAG_STATUS, what each does with its callee's result, and
the return of the two that a host can start (43_status_poller.md R200, R201, R202, R205; 30_encoding.md R111). -/

namespace Sys2Proof.Machine

/-! ### Returns -/

section
variable {s t u : State} {fr caller self : Frame} {below : List Frame} {r : Result}

/-- A line that ends its activation lets the one that called it go on in the same step (log entry 16). -/
theorem controllerTurn_return (h : lineAt fr (caller :: below) s) (hd : stepFrame fr s = .done r t)
    (hr : resumeFrame caller r t = .goto self u) : controllerTurn s = .next (u.withStack (self :: below)) := by
  simp only [controllerTurn_line h, hd, deliver, hr]

/-- A frame's read-back at X9 ends its TRANSFER and its ISSUE too: the caller of ISSUE goes on with the transfer's result
(41_fifo_transport.md R158; 42_command_dispatcher.md R180). -/
theorem controllerTurn_issueReturns {opc : Byte} {x y : XferArgs}
    (h : lineAt (.setSelect .CS2 false) (.transfer .X9 x :: .issue .T3 opc y :: caller :: below) s) (hp : selectPosted false s)
    (hr : resumeFrame caller (transferResult s.ctl) (pinTakes false s) = .goto self u) :
    controllerTurn s = .next (u.withStack (self :: below)) := by
  have hline : controllerTurn s = .next (deliver (caller :: below) (transferResult (applyPend s).ctl) (applyPend s)) :=
    controllerTurn_line h
  rw [hline, (applyPend_keeps s).1, applyPend_posted hp]
  simp only [deliver, hr]

/-- The last line of an operation that a host started ends the operation (30_encoding.md R111). -/
theorem operate_returns {op : BitVec 4} {f : CmdFields} {refuse : State → Option BlockFault} {activate : Ctl → Frame}
    (h : runsAt op [fr] s) (hd : stepFrame fr s = .done r t) :
    operate op f refuse activate s = .next (returnToHost r t) := by
  obtain ⟨hf, hb, ht, hs⟩ := h
  rw [operate_busy hb ht, controllerStep_cons hf hs, hd]
  rfl

end

/-! ### WAIT_READY -/

section
variable {s : State} {below : List Frame}

/-- W2 goes to the abort sample while STAT[0] is set, and else to the end (43_status_poller.md R200). -/
theorem controllerTurn_w2 (h : lineAt (.waitReady .W2) below s) :
    controllerTurn s = .next (s.withStack ((if s.ctl.stat.getLsbD 0 then .waitReady .W3 else .waitReady .W9) :: below)) := by
  by_cases hbusy : s.ctl.stat.getLsbD 0 = true
  · rw [if_pos hbusy]
    exact controllerTurn_goto h (if_pos hbusy)
  · rw [if_neg hbusy]
    exact controllerTurn_goto h (if_neg hbusy)

/-- The sample that W3 called for: a clear abort signal polls again, a set one ends WAIT_READY as aborted (R200, R205;
60_exceptions.md R314). -/
theorem controllerTurn_w3_sample (h : lineAt .isAborted (.waitReady .W3 :: below) s) :
    controllerTurn s =
      .next (if s.abortIn &&& s.params.abortMask = 0 then s.withStack (.waitReady .W1 :: below)
        else (s.withCtl { s.ctl with pabort := true }).withStack (.waitReady .W9 :: below)) := by
  have sampled : ∀ b, abortTest s.params s.abortIn = b → stepFrame .isAborted s = .done (.sampled b) s := by
    rintro _ rfl
    rfl
  by_cases ha : s.abortIn &&& s.params.abortMask = 0
  · rw [if_pos ha]
    exact controllerTurn_return h (sampled _ (bne_eq_false_iff_eq.mpr ha)) rfl
  · rw [if_neg ha]
    exact controllerTurn_return h (sampled _ (bne_iff_ne.mpr ha)) rfl

/-- WAIT_READY remembers whether its status read was aborted (R200, W1). -/
theorem resumeFrame_w1 (c : Ctl) :
    resumeFrame (.waitReady .W1) (transferResult c) s =
      .goto (.waitReady .W2) (s.withCtl { s.ctl with pabort := s.ctl.pabort || c.xabort }) := by
  cases ha : c.xabort <;> simp [resumeFrame, resumeWaitReady, transferResult, Result.isAborted, ha, State.withCtl]

end

/-- Settles O31: each line by its definition, W2 by the status bit, W3 by the sample, W1's return by the transfer's result. -/
theorem waitReadyLines : Obligations.WaitReadyLines := by
  unfold Obligations.WaitReadyLines
  intro f s below
  exact ⟨fun h => controllerTurn_goto h rfl, fun h => controllerTurn_call h rfl, fun h => controllerTurn_w2 h,
    fun h => controllerTurn_call h rfl, fun h => controllerTurn_w3_sample h,
    fun x h hp => controllerTurn_issueReturns h hp (resumeFrame_w1 s.ctl),
    fun h => (operate_returns h rfl : execWaitReady f s = _)⟩

/-! ### ENABLE_WRITE -/

/-- Settles O32: E1 is a call. -/
theorem enableWriteIssuesWren : Obligations.EnableWriteIssuesWren := by
  unfold Obligations.EnableWriteIssuesWren
  exact fun _ _ h => controllerTurn_call h rfl

/-! ### DIAG_STATUS -/

/-- After an aborted read DIAG_STATUS makes no other (43_status_poller.md R202). -/
theorem resumeFrame_diagStatus_aborted {l : MLabel} {r : Result} (hl : l = .M1 ∨ l = .M2 ∨ l = .M3) (ha : r.isAborted = true)
    (s : State) :
    resumeFrame (.diagStatus l) r s = .goto (.diagStatus .M9) (s.withCtl { s.ctl with gabort := true }) := by
  rcases hl with rfl | rfl | rfl <;> exact if_pos ha

/-- Settles O33: each line by its definition; a read's return by whether it was aborted, and if not by which of the three it was. -/
theorem diagStatusLines : Obligations.DiagStatusLines := by
  unfold Obligations.DiagStatusLines
  intro f s below read
  refine ⟨fun h => controllerTurn_goto h rfl, fun h => controllerTurn_call h rfl, fun h => controllerTurn_call h rfl,
    fun h => controllerTurn_call h rfl, fun l opc x hl h hp => ?_,
    fun h => (operate_returns h rfl : execDiagStatus f s = _)⟩
  cases hx : s.ctl.xabort with
  | true =>
    have hstop : (transferResult s.ctl).isAborted = true := hx
    exact ⟨_, controllerTurn_issueReturns h hp (resumeFrame_diagStatus_aborted hl hstop _), rfl, fun _ => ⟨rfl, rfl⟩,
      nofun, nofun, nofun⟩
  | false =>
    have hkeep : ¬(transferResult s.ctl).isAborted = true := ne_true_of_eq_false hx
    rcases hl with rfl | rfl | rfl
    · exact ⟨_, controllerTurn_issueReturns h hp (if_neg hkeep), rfl, nofun, fun _ _ => ⟨rfl, rfl⟩, nofun, nofun⟩
    · exact ⟨_, controllerTurn_issueReturns h hp (if_neg hkeep), rfl, nofun, nofun, fun _ _ => ⟨rfl, rfl⟩, nofun⟩
    · exact ⟨_, controllerTurn_issueReturns h hp (if_neg hkeep), rfl, nofun, nofun, nofun, fun _ _ => ⟨rfl, rfl⟩⟩

end Sys2Proof.Machine

/-! PROOFS. The Erase Sequencer: the lines of ERASE_SEQ with the table of its rows, and what it does when a row's call returns
(44_erase_sequencer.md R230, R231, R232, R233; 30_encoding.md R111). -/

namespace Sys2Proof.Machine

/-! ### The table of rows -/

/-- A column of the table of R231: what `g` gives for each of the twelve rows. -/
def rowTable {α : Type} (g : BitVec 4 → α) : List α := (List.range 12).map fun i => g (BitVec.ofNat 4 i)

/-- The entry at row `k` is `g`'s, and only the twelve rows have one. -/
theorem rowTable_entry {α : Type} {g : BitVec 4 → α} {k : BitVec 4} {a : α} (h : (rowTable g)[k.toNat]? = some a) :
    k ≠ 12 ∧ g k = a := by
  obtain ⟨i, hi, rfl⟩ : ∃ i, (List.range 12)[k.toNat]? = some i ∧ g (BitVec.ofNat 4 i) = a := by
    simpa only [rowTable, List.getElem?_map, Option.map_eq_some_iff] using h
  obtain ⟨hlt, rfl⟩ := List.getElem?_eq_some_iff.mp hi
  rw [List.length_range] at hlt
  refine ⟨?_, by simp⟩
  rintro rfl
  exact absurd hlt (by decide)

/-! ### The lines -/

section
variable {s : State}

/-- Q1 before the end calls the row that SK names (R230, R231). -/
theorem line_q1_call (h : s.ctl.sk ≠ 12) :
    stepFrame (.eraseSeq .Q1) s = .call (.eraseSeq .Q1) (seqCall s.params s.ctl.sk) s := if_neg h

/-- Q1 after row 11 goes to the end (R230). -/
theorem line_q1_end (h : s.ctl.sk = 12) : stepFrame (.eraseSeq .Q1) s = .goto (.eraseSeq .Q9) s := if_pos h

end

/-- The source's step is that of the first aborted row (R230, R231, R232). -/
theorem eraseResult_aborted {c : Ctl} (h : c.sabort = true) : eraseResult c = .sequenced true c.sfirst (seqStep c.sfirst) := by
  rw [eraseResult, h]
  rfl

/-- Without an aborted row it is zero (R230). -/
theorem eraseResult_completed {c : Ctl} (h : c.sabort = false) : eraseResult c = .sequenced false c.sfirst 0 := by
  rw [eraseResult, h]
  rfl

/-- Q9 returns the sequence's result to the host (R230; 30_encoding.md R111). -/
theorem exec_eraseSeq_q9 {s : State} {r : Result} (f : CmdFields) (h : runsAt 8#4 [.eraseSeq .Q9] s)
    (hr : eraseResult s.ctl = r) : exec (.eraseSeq f) s = .next (returnToHost r s) :=
  (operate_returns h (congrArg (Act.done · s) hr) : execEraseSeq f s = _)

/-- Settles O34: each line by its definition, a row's call and its source step by the table, Q9 by whether a row was aborted. -/
theorem eraseSeqLines : Obligations.EraseSeqLines := by
  unfold Obligations.EraseSeqLines
  intro f s below issue write rows steps
  have hrows : rows = rowTable (seqCall s.params) := rfl
  have hsteps : steps = rowTable seqStep := rfl
  refine ⟨fun h => controllerTurn_goto h rfl, fun h hk => controllerTurn_goto h (line_q1_end hk),
    fun k callee h hk hrow => ?_, fun h ha st hst => ?_, fun h ha => exec_eraseSeq_q9 f h (eraseResult_completed ha)⟩
  · subst hk
    rw [hrows] at hrow
    obtain ⟨hne, rfl⟩ := rowTable_entry hrow
    exact controllerTurn_call h (line_q1_call hne)
  · rw [hsteps] at hst
    obtain ⟨-, rfl⟩ := rowTable_entry hst
    exact exec_eraseSeq_q9 f h (eraseResult_aborted ha)

/-! ### The return of a row's call -/

/-- The state in which ERASE_SEQ goes on from the return of row SK's call: a completed one makes SK the next row; an aborted one is
recorded if it is the first, and ends the sequence under SEQ_STOP_ON_ABORT (44_erase_sequencer.md R230, R233). -/
def afterRow (aborted : Bool) (below : List Frame) (s : State) : State :=
  if aborted = false then { s with stack := .eraseSeq .Q1 :: below, ctl := { s.ctl with sk := s.ctl.sk + 1 } }
  else if s.params.seqStopOnAbort then { s with stack := .eraseSeq .Q9 :: below, ctl := noteAborted s.ctl }
  else { s with stack := .eraseSeq .Q1 :: below, ctl := { noteAborted s.ctl with sk := s.ctl.sk + 1 } }

theorem deliver_eraseSeq (below : List Frame) (r : Result) (s : State) :
    deliver (.eraseSeq .Q1 :: below) r s = afterRow r.isAborted below s := by
  cases ha : r.isAborted with
  | false => simp [deliver, resumeFrame, resumeEraseSeq, afterRow, ha, State.withCtl, State.withStack]
  | true =>
    cases hstop : s.params.seqStopOnAbort <;>
      simp [deliver, resumeFrame, resumeEraseSeq, afterRow, ha, hstop, noteAborted, State.withCtl, State.withStack]

/-- Activations that pass their callee's result on leave it to the one below them. -/
theorem deliver_append_passes {k : List Frame} (h : ∀ fr ∈ k, passesResult fr = true) (below : List Frame) (r : Result)
    (s : State) : deliver (k ++ below) r s = deliver below r s := by
  induction k with
  | nil => rfl
  | cons fr k ih =>
    obtain ⟨hfr, hk⟩ := List.forall_mem_cons.mp h
    rw [List.cons_append, deliver, resumeFrame_passes hfr]
    exact ih hk

/-- A row that is a frame at the device returns at the read-back of its transfer's SET_SELECT(0), with the transfer's status
(41_fifo_transport.md R159; log entry 16). -/
theorem controllerTurn_frameRow {s : State} {x : XferArgs} {k below : List Frame} (hk : ∀ fr ∈ k, passesResult fr = true)
    (h : lineAt (.setSelect .CS2 false) (.transfer .X9 x :: (k ++ .eraseSeq .Q1 :: below)) s) (hp : selectPosted false s) :
    controllerTurn s = .next (afterRow s.ctl.xabort below (pinTakes false s)) := by
  have hline : controllerTurn s =
      .next (deliver (k ++ .eraseSeq .Q1 :: below) (transferResult (applyPend s).ctl) (applyPend s)) := controllerTurn_line h
  rw [hline, deliver_append_passes hk, deliver_eraseSeq, applyPend_posted hp]
  rfl

/-- A WAIT_READY row returns at W9 with its own status (43_status_poller.md R200). -/
theorem controllerTurn_pollRow {s : State} {below : List Frame} (h : lineAt (.waitReady .W9) (.eraseSeq .Q1 :: below) s) :
    controllerTurn s = .next (afterRow s.ctl.pabort below s) := by
  have hline : controllerTurn s = .next (deliver (.eraseSeq .Q1 :: below) (.polled s.ctl.pabort s.ctl.stat) s) :=
    controllerTurn_line h
  rw [hline, deliver_eraseSeq]
  rfl

/-- Settles O35: WAIT_READY rows return by W9, ISSUE and ENABLE_WRITE rows by the read-back that ends their frame. -/
theorem eraseSeqStopsAtFirstAbort : Obligations.EraseSeqStopsAtFirstAbort := by
  unfold Obligations.EraseSeqStopsAtFirstAbort
  intro s x opc below returned
  exact ⟨fun h => controllerTurn_pollRow h,
    fun h hp => controllerTurn_frameRow (k := [.issue .T3 opc x]) (by simp [passesResult]) h hp,
    fun h hp => controllerTurn_frameRow (k := [.issue .T3 opc x, .enableWrite]) (by simp [passesResult]) h hp⟩

end Sys2Proof.Machine

/-! PROOFS. The flash commands at the device: what each answers for a byte of its frame, what it does at the deselect, and what
none of them touches (45_flash_commands.md R260 to R278). -/

namespace Sys2Proof.Machine

/-! ### The answer to a byte (R277) -/

/-- A byte received with room for it joins the receive FIFO (20_memory.md R72). -/
theorem engineReceive_room {s : State} (b : Byte) (h : s.engine.rxq.length ≠ s.params.depth) :
    engineReceive b s = s.withEngine { s.engine with rxq := s.engine.rxq ++ [b] } := if_neg h

/-- The last byte of the frame `opc :: rest`, answered with room in the receive FIFO. -/
theorem exchangeAnswered_room {s : State} {p : RefPeer} (opc b : Byte) (rest : List Byte)
    (h : s.engine.rxq.length ≠ s.params.depth) :
    exchangeAnswered ((opc :: rest).getLastD opc) b (opc :: rest) p s = afterAnswer s p opc rest b :=
  engineReceive_room b (s := logEvent _ (s.withPeer _)) h

section
variable {s : State} {p : RefPeer} (opc : Byte) (answer : List Byte → RefPeer → Byte)
  (commit : List Byte → Nat → RefPeer → RefPeer)

/-- The opcode itself is answered by IDLE_MISO, whatever the command. -/
theorem flashCommand_opcode (h : exchanging p s) :
    flashCommand opc [] answer commit s = .next (afterAnswer s p opc [] 0xFF) := by
  obtain ⟨hpeer, hpin, hroom⟩ := h
  simp only [flashCommand, hpeer, hpin, exchangeAnswered_room opc _ _ hroom]
  rfl

/-- A later byte is answered by the command's own answer. -/
theorem flashCommand_exchange {rest : List Byte} (h : exchanging p s) (hrest : rest ≠ []) :
    flashCommand opc rest answer commit s = .next (afterAnswer s p opc rest (answer rest p)) := by
  obtain ⟨hpeer, hpin, hroom⟩ := h
  simp only [flashCommand, hpeer, hpin, exchangeAnswered_room opc _ _ hroom, if_neg hrest]

/-- A command that returns nothing answers every byte by IDLE_MISO. -/
theorem flashCommand_idle (rest : List Byte) (h : exchanging p s) :
    flashCommand opc rest answerIdle commit s = .next (afterAnswer s p opc rest 0xFF) := by
  by_cases hrest : rest = []
  · subst hrest
    exact flashCommand_opcode opc answerIdle commit h
  · exact flashCommand_exchange opc answerIdle commit h hrest

end

/-- A byte of JEDEC_ID is a digit of it to the base 256 (R276). -/
theorem jedecByte_eq (jedec : BitVec 24) (k : Nat) :
    jedecByte jedec k = BitVec.ofNat 8 (jedec.toNat / 256 ^ (3 - k)) := by
  apply BitVec.eq_of_toNat_eq
  rw [jedecByte, BitVec.extractLsb'_toNat, BitVec.toNat_ofNat, Nat.shiftRight_eq_div_pow, Nat.pow_mul]

section
variable (p : RefPeer) (rest : List Byte)

theorem answerRdid_eq :
    answerRdid rest p =
      if p.busy = true ∨ 3 < rest.length then 0xFF else BitVec.ofNat 8 (p.jedec.toNat / 256 ^ (3 - rest.length)) := by
  rw [answerRdid, jedecByte_eq]
  by_cases hb : p.busy = true
  · simp [hb, Config.idleMiso]
  · by_cases hk : 3 < rest.length
    · simp [hb, hk, Config.idleMiso]
    · simp [hb, hk, Nat.le_of_not_lt hk]

theorem answerRead_eq :
    answerRead rest p =
      if p.busy = true ∨ rest.length < 4 then 0xFF else storeRead p.array ((addressNat rest + rest.length - 4) % 2 ^ 24) := by
  rw [answerRead, frameAddress_toNat]
  by_cases hb : p.busy = true
  · simp [hb, Config.idleMiso]
  · by_cases hk : rest.length < 4
    · simp [hb, hk, Config.idleMiso, Nat.not_le_of_lt hk]
    · simp [hb, hk, Nat.le_of_not_lt hk]

theorem answerRdsfdp_eq :
    answerRdsfdp rest p =
      if p.busy = true ∨ rest.length < 5 then 0xFF else storeRead p.sfdp ((addressNat rest + rest.length - 5) % 256) := by
  rw [answerRdsfdp, frameAddress_toNat]
  by_cases hb : p.busy = true
  · simp [hb, Config.idleMiso]
  · by_cases hk : rest.length < 5
    · simp [hb, hk, Config.idleMiso, Nat.not_le_of_lt hk]
    · simp [hb, hk, Nat.le_of_not_lt hk]

end

/-- Settles O36: each command's answer to a byte after the opcode, in the statement's terms. -/
theorem flashReadsAnswer : Obligations.FlashReadsAnswer := by
  unfold Obligations.FlashReadsAnswer
  intro s p rest h hrest k
  rw [← answerRdid_eq, ← answerRead_eq, ← answerRdsfdp_eq]
  exact ⟨flashCommand_exchange Config.opcRdsr1 answerRdsr1 _ h hrest, flashCommand_exchange Config.opcRdsr2 answerRdsr2 _ h hrest,
    flashCommand_exchange Config.opcRdsr3 answerRdsr3 _ h hrest, flashCommand_exchange Config.opcRdid answerRdid _ h hrest,
    flashCommand_exchange Config.opcRead answerRead _ h hrest, flashCommand_exchange Config.opcRdsfdp answerRdsfdp _ h hrest⟩

/-- The byte taken for an exchange leaves the room in the receive FIFO as it is. -/
theorem exchanging_engineTake {s v : State} {p : RefPeer} {m : Byte} (h : exchanging p s) (ht : engineTake s = some (m, v)) :
    exchanging p v := by
  rcases engineTake_cases ht with ⟨_, _, _, rfl⟩ | ⟨_, _, _, rfl⟩ <;> exact h

/-- A byte of a frame whose opcode is none of the fourteen is answered by IDLE_MISO (R277). -/
theorem exchangeTurn_unknown {s v : State} {p : RefPeer} {m opc : Byte} {rest : List Byte} (h : exchanging p s)
    (ht : engineTake s = some (m, v)) (hfr : p.fr ++ [m] = opc :: rest) (hopc : opc ∉ flashOpcodes) :
    exchangeTurn s = .next (afterAnswer v p opc rest 0xFF) := by
  obtain ⟨hpeer, hpin, hroom⟩ := exchanging_engineTake h ht
  have hm : m = (opc :: rest).getLastD opc := by rw [← hfr]; simp
  simp only [exchangeTurn, ht, hpin, hpeer, hfr, decodeFrame_unknown hopc]
  rw [hm, exchangeAnswered_room opc _ _ hroom]
  rfl

/-- Settles O37: the fourteen opcodes, the eight commands that return nothing, and the frames of no command. -/
theorem flashIdleAnswers : Obligations.FlashIdleAnswers := by
  unfold Obligations.FlashIdleAnswers
  refine ⟨fun s p rest h => ⟨?_, ?_⟩, fun s v d p m opc rest h ht hfr hopc => ?_⟩
  · simp only [List.mem_cons, List.not_mem_nil, or_false, Prod.mk.injEq]
    rintro i opc (⟨rfl, rfl⟩ | ⟨rfl, rfl⟩ | ⟨rfl, rfl⟩ | ⟨rfl, rfl⟩ | ⟨rfl, rfl⟩ | ⟨rfl, rfl⟩ | ⟨rfl, rfl⟩ | ⟨rfl, rfl⟩) <;>
      exact flashCommand_idle _ _ rest h
  · simp only [List.mem_cons, List.not_mem_nil, or_false, Prod.mk.injEq]
    rintro i opc (⟨rfl, rfl⟩ | ⟨rfl, rfl⟩ | ⟨rfl, rfl⟩ | ⟨rfl, rfl⟩ | ⟨rfl, rfl⟩ | ⟨rfl, rfl⟩) <;>
      exact flashCommand_opcode _ _ _ h
  · exact exchangeTurn_unknown (s := taken .engineExchange d s) h ht hfr hopc

/-! ### The deselect (R278) -/

/-- At a deselected device a flash command is its effect on a whole frame, none on a busy device; the frame ends. -/
theorem exec_deselecting {s : State} {p : RefPeer} {i : Instr} {bytes : List Byte} (hi : encode i = .frame bytes)
    (h : deselecting p s) :
    exec i s = .next (afterDeselect s (if p.busy then p else commitFrame i s.now.draw p)) := by
  obtain ⟨hpeer, hpin⟩ := h
  obtain ⟨opc, rest, answer, commit, -, hcommit, he⟩ := exec_flash hi
  simp only [he, flashCommand, hpeer, hpin, hcommit]
  rfl

/-- On a device that is not busy it is that effect. -/
theorem exec_commit {s : State} {p : RefPeer} {i : Instr} {bytes : List Byte} (hi : encode i = .frame bytes)
    (h : deselecting p s) (hb : p.busy = false) :
    exec i s = .next (afterDeselect s (commitFrame i s.now.draw p)) := by
  rw [exec_deselecting hi h, hb]
  rfl

/-- A command whose effect leaves the device as it is, be it because the device is busy, ends the frame and no more. -/
theorem exec_no_effect {s : State} {p : RefPeer} {i : Instr} {bytes : List Byte} (hi : encode i = .frame bytes)
    (h : deselecting p s) (hn : p.busy = true ∨ commitFrame i s.now.draw p = p) : exec i s = .next (afterDeselect s p) := by
  rw [exec_deselecting hi h]
  rcases hn with hn | hn <;> simp [hn]

/-- A frame of no command ends without any other effect. -/
theorem peerDeselect_unknown {p : RefPeer} (d : Nat) (h : ∀ opc ∈ p.fr.head?, opc ∉ flashOpcodes) :
    peerDeselect d p = { p with sel := false, fr := [] } := by
  have hd : ∃ e, decodeFrame p.fr = .error e := by
    cases hfr : p.fr with
    | nil => exact ⟨_, rfl⟩
    | cons opc rest => exact ⟨_, decodeFrame_unknown (h opc (by simp [hfr]))⟩
  obtain ⟨e, hd⟩ := hd
  simp only [peerDeselect, hd, peerEndFrame, ite_self]

/-- The end of a frame of no command, as EN_CS brings it about (20_memory.md R77). -/
theorem drainTurn_unknown {s : State} {p : RefPeer} (hpeer : s.peer = .reference p) (hpin : s.cs.pin = true)
    (hpend : s.cs.pend = some false) (h : ∀ opc ∈ p.fr.head?, opc ∉ flashOpcodes) :
    drainTurn s =
      .next (afterDeselect { s with cs := { s.cs with pend := none, pin := false }, trace := s.trace ++ [.cs false] } p) := by
  rw [drainTurn_eq, applyPend_posted (act := false) (.inl hpend)]
  simp [pinTakes, hpin, hpeer, peerDeselect_unknown s.now.draw h, afterDeselect]

/-- Settles O38: a busy device, the six reading commands, and the frames of no command. -/
theorem flashDeselectWithoutEffect : Obligations.FlashDeselectWithoutEffect := by
  unfold Obligations.FlashDeselectWithoutEffect
  refine ⟨fun s p rest h => ⟨fun hb => ?_, ?_⟩, fun s d p hpeer hpin hpend hopc => ?_⟩
  · have ignored {i : Instr} {bytes : List Byte} (hi : encode i = .frame bytes) : exec i s = .next (afterDeselect s p) :=
      exec_no_effect hi h (.inl hb)
    simp only [List.forall_mem_cons]
    exact ⟨ignored rfl, ignored rfl, ignored rfl, ignored rfl, ignored rfl, ignored rfl, ignored rfl, ignored rfl, ignored rfl,
      ignored rfl, ignored rfl, ignored rfl, ignored rfl, ignored rfl, List.forall_mem_nil _⟩
  · have reads {i : Instr} {bytes : List Byte} (hi : encode i = .frame bytes) (hn : commitFrame i s.now.draw p = p) :
        exec i s = .next (afterDeselect s p) := exec_no_effect hi h (.inr hn)
    simp only [List.forall_mem_cons]
    exact ⟨reads rfl rfl, reads rfl rfl, reads rfl rfl, reads rfl rfl, reads rfl rfl, reads rfl rfl, List.forall_mem_nil _⟩
  · exact drainTurn_unknown (s := taken .engineCs d s) hpeer hpin hpend hopc

/-- Settles O39: both commands' effects on a whole frame. -/
theorem writeEnablesSetTheirLatches : Obligations.WriteEnablesSetTheirLatches := by
  unfold Obligations.WriteEnablesSetTheirLatches
  intro s p rest h hb
  exact ⟨exec_commit (i := .flashWren rest) rfl h hb, exec_commit (i := .flashVwren rest) rfl h hb⟩

/-! ### Status writes -/

/-- A device on which neither enable is set is the same with both ended. -/
theorem endEnables_of_disabled {p : RefPeer} (hw : p.wel = false) (hv : p.vwe = false) :
    { p with wel := false, vwe := false } = p := by
  cases p
  cases hw
  cases hv
  rfl

section
variable {s : State} {p : RefPeer} {b : Byte} {more : List Byte} {write : Byte → RefPeer → RefPeer}

/-- Under WEL the register is written and the device is busy for the drawn time (R269, R278). -/
theorem commitStatusWrite_wel (d : Nat) (hw : p.wel = true) :
    commitStatusWrite write (b :: more) d p =
      { write b p with busy := true, busyLeft := d + 1, wel := false, vwe := false } := by
  simp [commitStatusWrite, hw, peerStartBusy]

/-- Under VWE alone the register is written at once (R268, R278). -/
theorem commitStatusWrite_vwe (d : Nat) (hw : p.wel = false) (hv : p.vwe = true) :
    commitStatusWrite write (b :: more) d p = { write b p with wel := false, vwe := false } := by
  simp [commitStatusWrite, hw, hv]

/-- Under neither nothing is written. -/
theorem commitStatusWrite_disabled (d : Nat) (hw : p.wel = false) (hv : p.vwe = false) :
    commitStatusWrite write (b :: more) d p = p := by
  simp [commitStatusWrite, hw, hv, endEnables_of_disabled hw hv]

/-- A status write at the deselect, given that its command's effect is the status write by `write`. -/
theorem exec_statusWrite {i : List Byte → Instr} {bytes : List Byte → List Byte} (henc : ∀ r, encode (i r) = .frame (bytes r))
    (hi : ∀ r, commitFrame (i r) = commitStatusWrite write r) (h : deselecting p s) (hb : p.busy = false) :
    exec (i []) s = .next (afterDeselect s p) ∧
      (p.wel = true →
        ∃ n, 1 ≤ n ∧
          exec (i (b :: more)) s =
            .next (afterDeselect s { write b p with busy := true, busyLeft := n, wel := false, vwe := false })) ∧
      (p.wel = false → p.vwe = true →
        exec (i (b :: more)) s = .next (afterDeselect s { write b p with wel := false, vwe := false })) ∧
      (p.wel = false → p.vwe = false → exec (i (b :: more)) s = .next (afterDeselect s p)) := by
  have run (r : List Byte) : exec (i r) s = .next (afterDeselect s (commitStatusWrite write r s.now.draw p)) := by
    rw [exec_commit (henc r) h hb, hi]
  refine ⟨run [], fun hw => ⟨s.now.draw + 1, by omega, ?_⟩, fun hw hv => ?_, fun hw hv => ?_⟩
  · rw [run, commitStatusWrite_wel _ hw]
  · rw [run, commitStatusWrite_vwe _ hw hv]
  · rw [run, commitStatusWrite_disabled _ hw hv]

end

/-- Settles O40: the three registers, each with what its write sets. -/
theorem statusWritesFollowTheEnables : Obligations.StatusWritesFollowTheEnables := by
  unfold Obligations.StatusWritesFollowTheEnables
  intro s p b more h hb i w
  simp only [List.mem_cons, List.not_mem_nil, or_false, Prod.mk.injEq]
  rintro (⟨rfl, rfl⟩ | ⟨rfl, rfl⟩ | ⟨rfl, rfl⟩)
  · exact exec_statusWrite (write := fun b p => { p with sr1h := b.extractLsb' 2 6 }) (fun _ => rfl) (fun _ => rfl) h hb
  · exact exec_statusWrite (write := fun b p => { p with sr2 := b }) (fun _ => rfl) (fun _ => rfl) h hb
  · exact exec_statusWrite (write := fun b p => { p with sr3 := b }) (fun _ => rfl) (fun _ => rfl) h hb

/-! ### Erases and the page program -/

/-- A device whose WEL is 0 is the same with WEL ended. -/
theorem endWel_of_not_wel {p : RefPeer} (hw : p.wel = false) : { p with wel := false } = p := by
  rw [← hw]

section
variable {p : RefPeer} {rest : List Byte} (d : Nat)

/-- Chip erase takes a frame of the opcode alone (R267, R278). -/
theorem commitCe_length (h : rest ≠ []) : commitCe rest d p = p :=
  if_neg (fun hl => h (List.length_eq_zero_iff.mp hl))

theorem commitCe_disabled (hw : p.wel = false) : commitCe [] d p = p := by
  simp [commitCe, hw, endWel_of_not_wel hw]

theorem commitCe_wel (hw : p.wel = true) :
    commitCe [] d p = { p with busy := true, busyLeft := d + 1, wel := false, array := storeFillAll 0xFF } := by
  simp [commitCe, hw, peerStartBusy, Config.erasedByte]

/-- Sector erase takes a frame of the opcode and three address bytes (R264, R278). -/
theorem commitSe_length (h : rest.length ≠ 3) : commitSe rest d p = p := if_neg h

theorem commitSe_disabled (hw : p.wel = false) : commitSe rest d p = p := by
  simp [commitSe, hw, endWel_of_not_wel hw]

theorem commitSe_wel (hl : rest.length = 3) (hw : p.wel = true) :
    commitSe rest d p =
      { p with
        busy := true, busyLeft := d + 1, wel := false
        array := storeFillRange p.array (addressNat rest / 4096 * 4096) 4096 0xFF } := by
  simp only [commitSe, hl, hw, if_true, peerStartBusy, sectorBase_toNat, frameAddress_toNat, Config.erasedByte]

/-- A page program takes a frame of at least five bytes (R260, R278). -/
theorem commitPp_short (h : rest.length < 4) : commitPp rest d p = p := if_neg (Nat.not_le_of_lt h)

theorem commitPp_disabled (hw : p.wel = false) : commitPp rest d p = p := by
  simp [commitPp, hw, endWel_of_not_wel hw]

theorem commitPp_wel (hl : 4 ≤ rest.length) (hw : p.wel = true) :
    commitPp rest d p =
      { p with
        busy := true, busyLeft := d + 1, wel := false
        array := programPage (frameAddress rest) (rest.drop 3) p.array } := by
  simp [commitPp, hl, hw, peerStartBusy]

end

/-- After a sector is filled, its bytes are those with its number (R264). -/
theorem storeRead_fillSector (st : Store) (v : Byte) (n a : Nat) :
    storeRead (storeFillRange st (n * 4096) 4096 v) a = if a / 4096 = n then v else storeRead st a := by
  have hsector : n * 4096 ≤ a ∧ a < n * 4096 + 4096 ↔ a / 4096 = n := by omega
  simp only [storeRead_fillRange, hsector]

/-- Settles O41: by the frame's length and WEL; the bytes after an erase by what filling does to each. -/
theorem erasesMakeBytesReadFF : Obligations.ErasesMakeBytesReadFF := by
  unfold Obligations.ErasesMakeBytesReadFF
  intro s p rest h hb
  have ce (r : List Byte) : exec (.flashCe r) s = .next (afterDeselect s (commitCe r s.now.draw p)) := exec_commit rfl h hb
  have se : exec (.flashSe rest) s = .next (afterDeselect s (commitSe rest s.now.draw p)) := exec_commit rfl h hb
  refine ⟨fun hl => ?_, fun hl => ?_, fun hw => ?_, fun hw _ => ?_, fun hw => ?_, fun hw hl => ?_⟩
  · rw [ce, commitCe_length _ hl]
  · rw [se, commitSe_length _ hl]
  · rw [ce, commitCe_disabled _ hw]
  · rw [se, commitSe_disabled _ hw]
  · refine ⟨s.now.draw + 1, storeFillAll 0xFF, by omega, ?_, fun a _ => storeRead_fillAll _ a⟩
    rw [ce, commitCe_wel _ hw]
  · refine ⟨s.now.draw + 1, _, by omega, ?_, fun a _ => storeRead_fillSector p.array 0xFF (addressNat rest / 4096) a⟩
    rw [se, commitSe_wel _ hl hw]

/-- Settles O42: by the frame's length and WEL; the bytes after a page program by what programming does to each. -/
theorem pageProgramAndsIntoItsPage : Obligations.PageProgramAndsIntoItsPage := by
  unfold Obligations.PageProgramAndsIntoItsPage
  intro s p rest h hb
  have pp : exec (.flashPp rest) s = .next (afterDeselect s (commitPp rest s.now.draw p)) := exec_commit rfl h hb
  refine ⟨fun hl => ?_, fun _ hw => ?_, fun hl hw => ?_⟩
  · rw [pp, commitPp_short _ hl]
  · rw [pp, commitPp_disabled _ hw]
  · intro data at_
    have hat (i : Nat) : (pageAddress (frameAddress rest) i).toNat = at_ i := by
      rw [pageAddress_toNat, frameAddress_toNat]
    obtain ⟨hprog, hkeep⟩ := programPage_spec (frameAddress rest) data p.array
    simp only [hat] at hprog hkeep
    refine ⟨s.now.draw + 1, programPage (frameAddress rest) data p.array, by omega, ?_, hprog, fun a _ => hkeep a⟩
    rw [pp, commitPp_wel _ hl hw]

/-! ### The frame of the fourteen (R275) -/

/-- Receiving a byte changes the receive FIFO and FAULTED alone (20_memory.md R72). -/
theorem engineReceive_frame (b : Byte) (s : State) :
    engineReceive b s =
      { s with
        engine := { s.engine with rxq := (engineReceive b s).engine.rxq }, faulted := (engineReceive b s).faulted } := by
  rcases engineReceive_cases b s with ⟨-, h⟩ | ⟨-, h⟩ <;> rw [h]
  · rw [raise_spec]; rfl
  · rfl

theorem exchangeDrawn_frame (m : Byte) (s : State) :
    exchangeDrawn m s =
      { s with
        engine := { s.engine with rxq := (exchangeDrawn m s).engine.rxq }
        trace := (exchangeDrawn m s).trace, faulted := (exchangeDrawn m s).faulted } := by
  unfold exchangeDrawn
  rw [engineReceive_frame]
  cases s.cs.pin <;> rfl

theorem exchangeAnswered_frame (m miso : Byte) (frame : List Byte) (p : RefPeer) (s : State) :
    exchangeAnswered m miso frame p s =
      { s with
        peer := (exchangeAnswered m miso frame p s).peer
        engine := { s.engine with rxq := (exchangeAnswered m miso frame p s).engine.rxq }
        trace := (exchangeAnswered m miso frame p s).trace, faulted := (exchangeAnswered m miso frame p s).faulted } := by
  unfold exchangeAnswered
  rw [engineReceive_frame]
  rfl

/-- A flash command is an exchange while chip-select is asserted, and else changes the peer alone; without a peer there is none
after it. -/
theorem flashCommand_cases {opc : Byte} {rest : List Byte} {answer : List Byte → RefPeer → Byte}
    {commit : List Byte → Nat → RefPeer → RefPeer} {s t : State} (h : flashCommand opc rest answer commit s = .next t) :
    (s.cs.pin = true ∧ s.peer = .absent ∧ ∃ m, t = exchangeDrawn m s) ∨
      (s.cs.pin = true ∧ ∃ p m miso frame, s.peer = .reference p ∧ t = exchangeAnswered m miso frame p s) ∨
      (s.cs.pin = false ∧ s.peer = .absent ∧ t = s) ∨
      (s.cs.pin = false ∧ ∃ p q, s.peer = .reference p ∧ t = s.withPeer (.reference q)) := by
  unfold flashCommand at h
  split at h <;> rename_i hpeer hpin <;> cases h
  · exact .inl ⟨hpin, hpeer, _, rfl⟩
  · exact .inr (.inr (.inl ⟨hpin, hpeer, rfl⟩))
  · exact .inr (.inl ⟨hpin, _, _, _, _, hpeer, rfl⟩)
  · exact .inr (.inr (.inr ⟨hpin, _, _, hpeer, rfl⟩))

/-- Settles O43: by the line and the peer, an exchange or a deselect, with no peer or the reference peer. -/
theorem flashCommandFrame : Obligations.FlashCommandFrame := by
  unfold Obligations.FlashCommandFrame
  intro i bytes s t hi h
  obtain ⟨opc, rest, answer, commit, -, -, he⟩ := exec_flash hi
  rw [he] at h
  rcases flashCommand_cases h with ⟨hpin, hpeer, m, rfl⟩ | ⟨hpin, p, m, miso, frame, hpeer, rfl⟩ | ⟨hpin, hpeer, rfl⟩ |
    ⟨hpin, p, q, hpeer, rfl⟩
  · rw [exchangeDrawn_frame]
    exact ⟨rfl, fun hn => absurd (hpin.symm.trans hn) (by decide), fun _ => rfl, fun ha => ha⟩
  · rw [exchangeAnswered_frame]
    exact ⟨rfl, fun hn => absurd (hpin.symm.trans hn) (by decide), fun _ => rfl, fun ha => absurd (hpeer.symm.trans ha) (by simp)⟩
  · exact ⟨rfl, fun _ => rfl, fun _ => rfl, fun ha => ha⟩
  · exact ⟨rfl, fun _ => rfl, fun _ => rfl, fun ha => absurd (hpeer.symm.trans ha) (by simp)⟩

end Sys2Proof.Machine

/-! PROOFS. The reference peer's own step: it counts BUSY_LEFT down, no other step touches an internal operation, and under weak
fairness every internal operation ends (45_flash_commands.md R279). -/

namespace Sys2Proof.Machine

/-! ### The tick -/

theorem peerTick_counts {p : RefPeer} (h : 0 < p.busyLeft) :
    peerTick p = { p with busyLeft := p.busyLeft - 1, busy := if p.busyLeft = 1 then false else p.busy } := by
  have hlast : p.busyLeft - 1 = 0 ↔ p.busyLeft = 1 := by omega
  simp only [peerTick, h, if_true, hlast]

theorem peerTick_idle {p : RefPeer} (h : p.busyLeft = 0) : peerTick p = p := by simp [peerTick, h]

theorem peerTickStep_reference {s : State} {p : RefPeer} (h : s.peer = .reference p) :
    peerTickStep s = { s with peer := .reference (peerTick p) } := by
  simp only [peerTickStep, h]
  rfl

/-! ### An internal operation -/

/-- The device is in an internal operation that `n` more ticks end. -/
def busyFor (n : Nat) (x : Peer) : Prop := ∃ p, x = .reference p ∧ p.busy = true ∧ p.busyLeft = n

/-- BUSY_LEFT, 0 with no peer fixed. -/
def busyTicks : Peer → Nat
  | .absent => 0
  | .reference p => p.busyLeft

theorem busyTicks_of_busyFor {n : Nat} {x : Peer} (h : busyFor n x) : busyTicks x = n := by
  obtain ⟨p, rfl, -, hn⟩ := h
  exact hn

/-- A busy device ignores the command of a frame that ends (R278). -/
theorem peerDeselect_busy {p : RefPeer} (d : Nat) (h : p.busy = true) : peerDeselect d p = { p with sel := false, fr := [] } := by
  unfold peerDeselect
  split <;> simp [peerEndFrame, h]

section
variable {n : Nat} {s t : State}

/-- The line's changes leave an internal operation alone. -/
theorem busyFor_applyPend (h : busyFor n s.peer) : busyFor n (applyPend s).peer := by
  rw [applyPend_peer]
  split
  · exact h
  · obtain ⟨p, hp, hb, hn⟩ := h
    rw [hp]
    cases s.cs.pend.getD s.cs.pin with
    | true => exact ⟨peerSelect p, rfl, hb, hn⟩
    | false => exact ⟨{ p with sel := false, fr := [] }, congrArg Peer.reference (peerDeselect_busy _ hb), hb, hn⟩

/-- The controller reaches the device at CS2 only, by the line. -/
theorem busyFor_controllerStep (h : busyFor n s.peer) : busyFor n (controllerStep s).peer := by
  rcases controllerStep_runs s with he | ⟨fr, below, hf, hs⟩
  · rwa [he]
  · have hline : (controllerStep s).peer = (actState (stepFrame fr s)).peer :=
      (congrArg State.peer (controllerStep_line_frame hf hs) :)
    rw [hline]
    by_cases hcs : ∃ act, fr = .setSelect .CS2 act
    · obtain ⟨act, rfl⟩ := hcs
      exact busyFor_applyPend h
    · obtain ⟨-, -, hpin, -⟩ := stepFrame_outside fr s
      rwa [(hpin fun act he => hcs ⟨act, he⟩).2.1]

/-- An exchange changes the device's frame alone. -/
theorem busyFor_exchangeTurn (h : busyFor n s.peer) (hx : exchangeTurn s = .next t) : busyFor n t.peer := by
  rcases exchangeTurn_effect s with he | ⟨_, _, _, _, u, he, _, _, hpeer⟩ <;> cases he.symm.trans hx
  · exact h
  · rcases hpeer with hp | ⟨p, fr, hp, hp'⟩
    · rwa [hp]
    · obtain ⟨q, hq, hb, hn⟩ := h
      cases hp.symm.trans hq
      exact ⟨{ p with fr := fr }, hp', hb, hn⟩

/-- No step but the peer's own touches an internal operation. -/
theorem busyFor_step (h : busyFor n s.peer) (hs : step s = .next t) (ha : (takeChoice s).now.agent ≠ .peerTick) :
    busyFor n t.peer := by
  have hu : busyFor n (takeChoice s).peer := by simpa using h
  rcases step_cases hs with ⟨_, rfl | rfl⟩ | ⟨_, rfl⟩ | ⟨_, hx⟩ | ⟨_, rfl⟩ | ⟨hpt, _⟩ | ⟨_, rfl⟩ | ⟨_, hx⟩
  · exact hu
  · exact busyFor_controllerStep hu
  · rcases engineLoad_cases (takeChoice s) with he | ⟨_, _, _, _, he⟩ <;> rw [he] <;> exact hu
  · exact busyFor_exchangeTurn hu hx
  · exact busyFor_applyPend hu
  · exact absurd hpt ha
  · exact hu
  · rw [(sameBus_hostTurn hx).peer]
    exact hu

end

/-- The device's internal operation has ended. -/
def OperationEnded (s : State) : Prop := ∃ q, s.peer = .reference q ∧ q.busy = false ∧ q.busyLeft = 0

/-- The device is in an internal operation, and the host asks for nothing. -/
def OperationRuns (s : State) : Prop := s.hostQ = [] ∧ ∃ n, busyFor (n + 1) s.peer

/-- The tick ends an internal operation or brings it one tick nearer to its end (R279). -/
theorem peerTickStep_progress {n : Nat} {s : State} (h : busyFor (n + 1) s.peer) :
    OperationEnded (peerTickStep s) ∨ ∃ k, n = k + 1 ∧ busyFor (k + 1) (peerTickStep s).peer := by
  obtain ⟨p, hp, hb, hn⟩ := h
  rw [peerTickStep_reference hp, peerTick_counts (by omega), hn]
  cases n with
  | zero => exact .inl ⟨_, rfl, rfl, rfl⟩
  | succ k => exact .inr ⟨k, rfl, _, rfl, by simp [hb], rfl⟩

/-- While an internal operation runs, a step ends it, is a tick that brings its end nearer, or is another agent's and leaves it. -/
theorem operationRuns_step {s : State} (c : Config.Choice) (h : OperationRuns s) :
    ∃ t, step (chosen c.agent c.draw s) = .next t ∧
      (OperationEnded t ∨
        (OperationRuns t ∧ (busyTicks t.peer < busyTicks s.peer ∨
          (busyTicks t.peer = busyTicks s.peer ∧ c.agent ≠ .peerTick)))) := by
  obtain ⟨hq, n, hbusy⟩ := h
  obtain ⟨t, ht, htq⟩ := step_quiet (s := chosen c.agent c.draw s) hq
  refine ⟨t, ht, ?_⟩
  rw [busyTicks_of_busyFor hbusy]
  obtain ⟨agent, d⟩ := c
  by_cases ha : agent = .peerTick
  · subst ha
    cases ht
    rcases peerTickStep_progress (s := taken .peerTick d s) hbusy with hend | ⟨k, rfl, hleft⟩
    · exact .inl hend
    · exact .inr ⟨⟨htq, k, hleft⟩, .inl (lt_of_eq_of_lt (busyTicks_of_busyFor hleft) (by omega))⟩
  · have hkeep : busyFor (n + 1) t.peer := busyFor_step (s := chosen agent d s) hbusy ht ha
    exact .inr ⟨⟨htq, n, hkeep⟩, .inr ⟨busyTicks_of_busyFor hkeep, ha⟩⟩

/-- Under a fair peer every internal operation ends (R279): BUSY_LEFT is the measure, the peer the agent that lowers it. -/
theorem operationRuns_ends {c : Nat → Config.Choice} {s : State} (h : OperationRuns s) (hfair : fairTo .peerTick c s) :
    ∃ k t, runOn c s k = .next t ∧ OperationEnded t := by
  refine fair_reaches 0 OperationRuns OperationEnded (fun t => busyTicks t.peer) (fun _ => .peerTick) ⟨s, rfl, h⟩
    (fun k t _ _ hi _ => ?_) (fun t hi _ => ?_) (fun _ _ _ => hfair)
  · obtain ⟨t', hstep, hend | ⟨hruns, hlower | ⟨hsame, hother⟩⟩⟩ := operationRuns_step (c k) hi
    · exact ⟨t', hstep, .inl hend⟩
    · exact ⟨t', hstep, .inr ⟨hruns, .inl hlower⟩⟩
    · exact ⟨t', hstep, .inr ⟨hruns, .inr ⟨hsame, rfl, hother⟩⟩⟩
  · obtain ⟨-, n, p, hp, -, hn⟩ := hi
    exact ⟨p, hp, by omega⟩

/-- Settles O53: the tick's two cases; an internal operation ends by progress under fairness, BUSY_LEFT the measure. -/
theorem peerTickCountsDown : Obligations.PeerTickCountsDown := by
  unfold Obligations.PeerTickCountsDown
  refine ⟨fun s p d hp => ?_, fun c s p hq hp hb hleft hfair => ?_⟩
  · have hstep : step (chosen .peerTick d s) = .next { taken .peerTick d s with peer := .reference (peerTick p) } :=
      congrArg Host.Outcome.next (peerTickStep_reference (s := taken .peerTick d s) hp)
    refine ⟨fun h => ?_, fun h => ?_⟩
    · rw [hstep, peerTick_counts h]
    · rw [hstep, peerTick_idle h, ← hp]
      rfl
  · obtain ⟨k, t, hrun, q, hend⟩ := operationRuns_ends ⟨hq, p.busyLeft - 1, p, hp, hb, by omega⟩ hfair
    exact ⟨k, t, q, hrun, hend⟩

end Sys2Proof.Machine

/-! PROOFS. Faults: a faulted block stops, what a host operation leaves unchanged, and the first fault stays until the host resets
the block (60_exceptions.md R312, R330; 10_state.md R23, R25, R28, R29, R43; 70_reset_and_hazards.md R350). -/

namespace Sys2Proof.Machine

/-! ### A faulted block -/

/-- Settles O47: the meaning of a host operation on a faulted block, and the controller's step on one. -/
theorem faultedControllerStops : Obligations.FaultedControllerStops := by
  unfold Obligations.FaultedControllerStops
  intro s hf
  refine ⟨fun i w hi => ?_, fun d => ?_⟩
  · rcases exec_host_cases hi s with ⟨_, he⟩ | ⟨hn, _⟩ | ⟨hn, _⟩ | ⟨hn, _⟩ | ⟨hn, _⟩
    · exact he
    all_goals exact absurd hn hf
  · rw [step_chosen]
    rcases controllerTurn_cases (taken .controller d s) with ⟨_, ht⟩ | ⟨_, ht⟩
    · exact ht
    · rwa [controllerStep_faulted (s := taken .controller d s) hf] at ht

/-! ### The frame of the controller's step -/

/-- A result names result registers only (10_state.md R25). -/
theorem writeResults_frame (r : Result) (h : HostRegs) :
    writeResults r h =
      { h with
        resSent := (writeResults r h).resSent, resRecv := (writeResults r h).resRecv
        resSkipLeft := (writeResults r h).resSkipLeft, resValue := (writeResults r h).resValue
        resStep := (writeResults r h).resStep } := by
  cases r <;> rfl

/-- The controller leaves the host registers, or returns to the host, no activation left (30_encoding.md R111). -/
theorem controllerStep_host (s : State) :
    (controllerStep s).host = s.host ∨
      ((controllerStep s).stack = [] ∧
        ∃ r, (controllerStep s).host = { writeResults r s.host with aborted := r.isAborted, busy := false }) := by
  rcases controllerStep_runs s with he | ⟨fr, below, hf, hs⟩
  · exact .inl (by rw [he])
  have hline := (stepFrame_keeps fr s).2.1
  rcases controllerStep_cases hf hs with ⟨_, _, _, he⟩ | ⟨_, _, _, _, _, _, he⟩ | ⟨r, _, he⟩ | ⟨_, he⟩ <;> rw [he]
  · exact .inl hline
  · exact .inl hline
  · rcases deliver_cases below r (actState (stepFrame fr s)) with ⟨r', hd⟩ | ⟨_, _, _, _, _, _, _, _, hd⟩ <;> rw [hd]
    · exact .inr ⟨rfl, r', by rw [← hline]; rfl⟩
    · exact .inl hline
  · exact .inl hline

/-- The controller writes BUSY, ABORTED and the result registers, no other host register. -/
theorem controllerStep_host_frame (s : State) :
    (controllerStep s).host =
      { s.host with
        busy := (controllerStep s).host.busy, aborted := (controllerStep s).host.aborted
        resSent := (controllerStep s).host.resSent, resRecv := (controllerStep s).host.resRecv
        resSkipLeft := (controllerStep s).host.resSkipLeft, resValue := (controllerStep s).host.resValue
        resStep := (controllerStep s).host.resStep } := by
  rcases controllerStep_host s with he | ⟨_, r, he⟩ <;> rw [he]
  rw [writeResults_frame]

/-- The controller leaves the parameters, the abort signal, SH, and all that is the host's or the environment's. -/
theorem controllerStep_frame (s : State) :
    controllerStep s =
      { s with
        ctl := (controllerStep s).ctl, stack := (controllerStep s).stack, faulted := (controllerStep s).faulted
        cs := (controllerStep s).cs, peer := (controllerStep s).peer, mem := (controllerStep s).mem
        trace := (controllerStep s).trace, host := (controllerStep s).host
        engine := { (controllerStep s).engine with sh := s.engine.sh } } := by
  have hsh := portMove_sh (controllerStep_portMove s)
  rcases controllerStep_runs s with he | ⟨fr, below, hf, hs⟩
  · rw [he]
  rw [← hsh, controllerStep_line_frame hf hs, (stepFrame_frame fr s).1]

/-- The registers that the start of an operation latches (10_state.md R29, 30_encoding.md R110). -/
def latchedRegs (c : Ctl) :
    Byte × Byte × BitVec 2 × BitVec 2 × Bool × Word × Word × Word × Word × Word :=
  (c.lOpc, c.lImm, c.lTxk, c.lRxk, c.lAct, c.lAddr, c.lTx, c.lRx, c.lN, c.lSkip)

/-- No sub-machine has a latched register of its own. -/
theorem latchedRegs_ownRegs (fr : Frame) (c d : Ctl) : latchedRegs (ownRegs fr c d) = latchedRegs c := by cases fr <;> rfl

theorem latchedRegs_deliver (k : List Frame) (r : Result) (s : State) :
    latchedRegs (deliver k r s).ctl = latchedRegs s.ctl := by
  rcases deliver_cases k r s with ⟨_, he⟩ | ⟨_, fr, _, _, c, _, _, ⟨_, hr⟩, he⟩ <;> rw [he]
  · rfl
  · exact (congrArg latchedRegs (resumeFrame_ctl hr)).trans (latchedRegs_ownRegs fr s.ctl c)

/-- The controller writes no latched register (R29). -/
theorem latchedRegs_controllerStep (s : State) : latchedRegs (controllerStep s).ctl = latchedRegs s.ctl := by
  rcases controllerStep_runs s with he | ⟨fr, below, hf, hs⟩
  · rw [he]
  have hline : latchedRegs (actState (stepFrame fr s)).ctl = latchedRegs s.ctl := by
    rw [stepFrame_ctl, latchedRegs_ownRegs]
  rcases controllerStep_cases hf hs with ⟨_, _, _, he⟩ | ⟨_, _, _, _, _, _, he⟩ | ⟨r, _, he⟩ | ⟨_, he⟩ <;> rw [he]
  · exact hline
  · exact hline
  · exact (latchedRegs_deliver below r _).trans hline
  · exact hline

/-- The controller stores a byte at X7 only, at the received byte's own address (41_fifo_transport.md R150; 20_memory.md R63). -/
theorem controllerStep_byteAt {s : State} {a : Word}
    (h : ∀ x below, s.stack = .transfer .X7 x :: below → s.ctl.xRxk = .mem → a ≠ rxAddress s.ctl) :
    byteAt (controllerStep s).mem a = byteAt s.mem a := by
  by_cases hm : (controllerStep s).mem = s.mem
  · rw [hm]
  · obtain ⟨x, below, hs⟩ := controllerStep_mem hm
    rcases controllerStep_runs s with he | ⟨fr, below', hf, hs'⟩
    · rw [he]
    · obtain ⟨rfl, rfl⟩ : Frame.transfer .X7 x = fr ∧ below = below' := by simpa using hs.symm.trans hs'
      rw [(controllerStep_line hf hs).2]
      exact (stepFrame_store x s).2 a (h x below hs)

/-- The controller moves the pin, and with it the peer and the bus trace, at CS2 only (40_csr_access.md R140). -/
theorem controllerStep_bus {s : State} (h : ∀ act below, s.stack ≠ .setSelect .CS2 act :: below) :
    (controllerStep s).cs.pin = s.cs.pin ∧ (controllerStep s).peer = s.peer ∧ (controllerStep s).trace = s.trace := by
  rcases controllerStep_runs s with he | ⟨fr, below, hf, hs⟩
  · rw [he]; exact ⟨rfl, rfl, rfl⟩
  · obtain ⟨_, _, hpin, _⟩ := stepFrame_outside fr s
    rw [controllerStep_line_frame hf hs]
    exact hpin fun act he => h act below (he ▸ hs)

/-- Settles O44: by what a host operation's meaning can do; its line is the controller's step, by the frame of each part. -/
theorem hostOperationFrame : Obligations.HostOperationFrame := by
  unfold Obligations.HostOperationFrame
  intro i w s t hi h
  rcases exec_host_cases hi s with ⟨_, he⟩ | ⟨_, _, he⟩ | ⟨_, _, _, he⟩ | ⟨_, _, he⟩ | ⟨_, hb, _, _, _, _, _, he⟩ <;>
    cases he.symm.trans h
  case inr.inl =>
    refine ⟨?_, fun hk => ?_, fun _ => ?_, fun _ ha => controllerStep_byteAt ha, fun _ hcs => controllerStep_bus hcs⟩
    · rw [← controllerStep_host_frame]
      exact controllerStep_frame s
    · rcases controllerStep_host s with hh | ⟨hnil, _⟩
      · rw [hh]
      · exact absurd hnil hk
    · simpa only [latchedRegs, Prod.mk.injEq] using latchedRegs_controllerStep s
  case inr.inr.inr.inr =>
    have hidle : s.host.busy ≠ true := by simp [hb]
    exact ⟨rfl, fun _ => rfl, fun hbusy => absurd hbusy hidle, fun _ _ => rfl, fun hbusy => absurd hbusy hidle⟩
  all_goals
    exact ⟨rfl, fun _ => rfl, fun _ => ⟨rfl, rfl, rfl, rfl, rfl, rfl, rfl, rfl, rfl, rfl⟩, fun _ _ => rfl,
      fun _ _ => ⟨rfl, rfl, rfl⟩⟩

/-! ### Entering a fault -/

/-- The act leaves FAULTED, or it stays at its line and enters a fault, which is all it does (60_exceptions.md R312). -/
def faultsInPlace (s : State) (a : Act) : Prop :=
  (actState a).faulted = s.faulted ∨ ∃ e, a = .halt (raise e s)

theorem faultsInPlace_transfer (l : XLabel) (x : XferArgs) (s : State) :
    faultsInPlace s (stepFrame (.transfer l x) s) := by
  cases l
  case X0 =>
    simp only [stepFrame, stepTransfer]
    split
    · exact .inl rfl
    · exact .inr ⟨_, rfl⟩
  case X4 =>
    simp only [stepFrame, stepTransfer]
    repeat' split
    all_goals exact .inl rfl
  case X5 =>
    by_cases hfull : s.engine.txq.length = s.params.depth
    · exact .inr ⟨_, line_x5_full hfull⟩
    · rw [line_x5_room hfull]; exact .inl rfl
  case X6 =>
    simp only [stepFrame, stepTransfer]
    split
    · rcases readDr_cases s with ⟨_, h⟩ | ⟨_, _, _, h⟩ <;> rw [h]
      · exact .inr ⟨_, rfl⟩
      · simp only
        split <;> exact .inl rfl
    · exact .inl rfl
  case X7 =>
    cases h : storeXb s with
    | none => rw [line_x7_refused h]; exact .inl rfl
    | some t => rw [line_x7_store h, (storeXb_spec h).1]; exact .inl rfl
  all_goals
    simp only [stepFrame, stepTransfer]
    repeat' split
    all_goals exact .inl rfl

theorem faultsInPlace_issue (l : TLabel) (o : Byte) (x : XferArgs) (s : State) :
    faultsInPlace s (stepFrame (.issue l o x) s) := by
  cases l <;> simp only [stepFrame, stepIssue]
  case T0 =>
    split
    · exact .inl rfl
    · exact .inr ⟨_, rfl⟩
  case T2 =>
    rcases writeDr_cases (s.ctl.dOpc.setWidth 32) s with ⟨_, h⟩ | ⟨_, h⟩ <;> rw [h]
    · exact .inr ⟨_, rfl⟩
    · exact .inl rfl
  all_goals exact .inl rfl

/-- A line A2 to A5 with the transmit FIFO full is TxOverflow (42_command_dispatcher.md R181, 20_memory.md R65). -/
theorem sendAddressByte_full {s : State} (h : s.engine.txq.length = s.params.depth) (k : Nat) :
    ∃ e, sendAddressByte k s = .error e := by
  rcases writeDr_cases ((addressByte s.ctl.aw k).setWidth 32) s with ⟨_, hw⟩ | ⟨hroom, _⟩
  · exact ⟨_, by unfold sendAddressByte; rw [hw]⟩
  · exact absurd h hroom

theorem faultsInPlace_issueAddr (l : ALabel) (o : Byte) (a : FlashAddr) (s : State) :
    faultsInPlace s (stepFrame (.issueAddr l o a) s) := by
  by_cases hfull : s.engine.txq.length = s.params.depth
  · have hbyte := sendAddressByte_full hfull
    cases l <;> simp only [stepFrame, stepIssueAddr]
    case A0 =>
      split
      · exact .inl rfl
      · exact .inr ⟨_, rfl⟩
    case A1 => exact .inl rfl
    case A2 => obtain ⟨e, he⟩ := hbyte 0; rw [he]; exact .inr ⟨e, rfl⟩
    case A3 => obtain ⟨e, he⟩ := hbyte 1; rw [he]; exact .inr ⟨e, rfl⟩
    case A4 => obtain ⟨e, he⟩ := hbyte 2; rw [he]; exact .inr ⟨e, rfl⟩
    case A5 => obtain ⟨e, he⟩ := hbyte 3; rw [he]; exact .inr ⟨e, rfl⟩
  · cases l <;> simp only [stepFrame, stepIssueAddr, sendAddressByte_ok hfull]
    case A0 =>
      split
      · exact .inl rfl
      · exact .inr ⟨_, rfl⟩
    all_goals exact .inl rfl

/-- Every line that enters a fault stays where it is (R312). -/
theorem stepFrame_faultsInPlace (fr : Frame) (s : State) : faultsInPlace s (stepFrame fr s) := by
  obtain ⟨_, _, _, _, hport⟩ := stepFrame_outside fr s
  cases fr with
  | transfer l x => exact faultsInPlace_transfer l x s
  | issue l o x => exact faultsInPlace_issue l o x s
  | issueAddr l o a => exact faultsInPlace_issueAddr l o a s
  | _ => exact .inl (hport (by simp) (by simp) (by simp)).2

/-- The controller leaves FAULTED, or enters a fault and does nothing else. -/
theorem controllerStep_faults (s : State) :
    (controllerStep s).faulted = s.faulted ∨ ∃ e, controllerStep s = raise e s := by
  rcases controllerStep_runs s with he | ⟨fr, below, hf, hs⟩
  · exact .inl (by rw [he])
  rcases stepFrame_faultsInPlace fr s with hline | ⟨e, he⟩
  · exact .inl ((congrArg State.faulted (controllerStep_line_frame hf hs) :).trans hline)
  · exact .inr ⟨e, by rw [controllerStep_cons hf hs, he]⟩

/-! ### The first fault stays -/

/-- From `s` to `t` a fault stays, and entering one changes no host register but CMD, no activation and no byte of buffer
memory (10_state.md R43, 60_exceptions.md R312). -/
structure KeepsFault (s t : State) : Prop where
  first : s.faulted ≠ none → t.faulted = s.faulted
  entered : s.faulted = none → t.faulted ≠ none →
    t.host = { s.host with cmd := t.host.cmd } ∧ t.stack = s.stack ∧ t.mem = s.mem

theorem KeepsFault.of_faulted {s t : State} (h : t.faulted = s.faulted) : KeepsFault s t :=
  ⟨fun _ => h, fun hn hf => absurd (h.trans hn) hf⟩

theorem SameBlock.keepsFault {s t : State} (h : SameBlock s t) (hfirst : s.faulted ≠ none → t.faulted = s.faulted) :
    KeepsFault s t :=
  ⟨hfirst, fun _ _ => ⟨by rw [h.host], h.stack, h.mem⟩⟩

theorem raise_faulted_of_ne {e : BlockFault} {s : State} (h : s.faulted ≠ none) : (raise e s).faulted = s.faulted := by
  obtain ⟨f, hf⟩ := Option.ne_none_iff_exists'.mp h
  rw [raise_of_some hf]

theorem keepsFault_controllerStep (s : State) : KeepsFault s (controllerStep s) := by
  rcases controllerStep_faults s with h | ⟨e, h⟩
  · exact .of_faulted h
  · rw [h]
    exact ⟨raise_faulted_of_ne, fun _ _ => ⟨by rw [raise_host], raise_stack e s, raise_mem e s⟩⟩

theorem keepsFault_exchangeTurn {s t : State} (h : exchangeTurn s = .next t) : KeepsFault s t := by
  refine (sameBlock_exchangeTurn h).keepsFault fun hf => ?_
  obtain ⟨f, hf⟩ := Option.ne_none_iff_exists'.mp hf
  rcases exchangeTurn_effect s with he | ⟨_, _, _, _, u, he, _, hq, _⟩ <;> cases he.symm.trans h
  · rfl
  · rcases hq with ⟨_, _, hfault⟩ | ⟨_, _, hfault⟩ <;> rw [hfault]
    rw [hf, Option.getD_some]

theorem keepsFault_writeCmd {v : Word} {s t : State} (h : writeCmd v s = .next t) : KeepsFault s t := by
  rcases writeCmd_cases v s with ⟨_, he⟩ | ⟨hn, _, he⟩ | ⟨hn, _, _, _, he⟩ | ⟨_, _, _, _, _, _, _, he⟩ <;>
    cases he.symm.trans h
  · exact .of_faulted rfl
  · exact ⟨fun hf => absurd hn hf, fun _ _ => ⟨rfl, rfl, rfl⟩⟩
  · exact ⟨fun hf => absurd hn hf, fun _ _ => ⟨rfl, rfl, rfl⟩⟩
  · exact .of_faulted rfl

/-- The host's turn keeps a fault, or its request is the reset (70_reset_and_hazards.md R350; log entry 20). -/
theorem keepsFault_hostTurn {s t : State} (h : hostTurn s = .next t) :
    KeepsFault s t ∨ (s.hostQ.head? = some .reset ∧ t.faulted = none) := by
  rcases hostTurn_cases h with ⟨rfl, _⟩ | ⟨r, q, hq, hreq⟩
  · exact .inl (.of_faulted rfl)
  rcases hreq with ⟨_, rfl⟩ | ⟨rfl, rfl⟩ | ⟨_, rfl⟩ | ⟨_, _, rfl⟩ | ⟨_, _, rfl⟩ | ⟨v, hv⟩
  case inr.inr.inl => exact .inr ⟨by rw [hq]; rfl, rfl⟩
  case inr.inr.inr.inr.inr =>
    obtain ⟨hfirst, hentered⟩ := keepsFault_writeCmd (s := s.withHostQ q) hv
    exact .inl ⟨hfirst, hentered⟩
  all_goals exact .inl (.of_faulted rfl)

/-- A step keeps a fault, or is the host's reset. -/
theorem keepsFault_step {s t : State} (h : step s = .next t) :
    KeepsFault s t ∨ ((takeChoice s).now.agent = .host ∧ s.hostQ.head? = some .reset ∧ t.faulted = none) := by
  have taking : KeepsFault (takeChoice s) t → KeepsFault s t := fun ⟨hfirst, hentered⟩ =>
    ⟨by simpa using hfirst, by simpa using hentered⟩
  rcases step_cases h with ⟨_, rfl | rfl⟩ | ⟨_, rfl⟩ | ⟨_, hx⟩ | ⟨_, rfl⟩ | ⟨_, rfl⟩ | ⟨_, rfl⟩ | ⟨ha, hx⟩
  · exact .inl (taking (.of_faulted rfl))
  · exact .inl (taking (keepsFault_controllerStep _))
  · refine .inl (taking (.of_faulted ?_))
    rcases engineLoad_cases (takeChoice s) with he | ⟨_, _, _, _, he⟩ <;> rw [he]
    rfl
  · exact .inl (taking (keepsFault_exchangeTurn hx))
  · exact .inl (taking (.of_faulted (applyPend_faulted _)))
  · exact .inl (taking (.of_faulted (by rw [peerTickStep_frame])))
  · exact .inl (taking (.of_faulted rfl))
  · rcases keepsFault_hostTurn hx with hk | ⟨hq, hn⟩
    · exact .inl (taking hk)
    · exact .inr ⟨ha, by simpa using hq, hn⟩

/-- Settles O48: a step that is not the host's reset keeps the fault; the reset leaves none. -/
theorem onlyResetLeavesAFault : Obligations.OnlyResetLeavesAFault := by
  unfold Obligations.OnlyResetLeavesAFault
  intro s t h
  rcases keepsFault_step h with ⟨hfirst, hentered⟩ | ⟨ha, hq, hn⟩
  · exact ⟨fun hf => .inl (hfirst hf), hentered⟩
  · exact ⟨fun _ => .inr ⟨ha, hq, hn⟩, fun _ hf => absurd hn hf⟩

end Sys2Proof.Machine

/-! PROOFS. The block's reset, and the end of a running operation: under a fair controller and serial engine it returns, faults at
an entry check or is refused memory, unless it polls for ever (70_reset_and_hazards.md R350, R351, R368; 20_memory.md R78). -/

namespace Sys2Proof.Machine

/-! ### The block's reset -/

/-- The byte a step draws from a number below 256 is that number: a reset's STAT can be any byte (10_state.md R47). -/
theorem drawByte_taken_toNat (a : Config.Agent) (b : Byte) (s : State) : drawByte (taken a b.toNat s) = b :=
  BitVec.ofNat_toNat 8 b

/-- Settles O49: the host's turn takes the request off its queue and resets the block, STAT the step's drawn byte. -/
theorem blockResetLeavesTheOutside : Obligations.BlockResetLeavesTheOutside := by
  unfold Obligations.BlockResetLeavesTheOutside
  intro s q b
  have hturn : step (chosen .host b.toNat { s with hostQ := .reset :: q }) =
      .next (blockReset (drawByte (taken .host b.toNat s)) ((taken .host b.toNat s).withHostQ q)) := rfl
  rw [hturn, drawByte_taken_toNat]
  rfl

/-! ### A running operation, step by step -/

section
variable {c : Nat → Config.Choice} {s t t' : State} {a : Config.Agent} {d : Nat}

/-- Every step keeps the three invariants. -/
theorem Running.invariants_step (h : Running t) (hs : step (chosen a d t) = .next t') :
    flowOk t' ∧ accountsOk t' ∧ controlOk t' :=
  ⟨flowInvariantKept (chosen a d t) t' h.flow hs, transferAccountsKept (chosen a d t) t' h.flow h.acc hs,
    step_controlOk (s := chosen a d t) h.ctl hs⟩

/-- The abort sample between two polls faults nothing. -/
theorem controllerStep_poll_unfaulted (h : pollsAgain t) : (controllerStep t).faulted = none := by
  obtain ⟨hf, ⟨below, hs⟩, -⟩ := h
  rw [controllerStep_cons hf hs]
  exact (deliver_faulted _ _ _).trans hf

/-- A step that starts another poll leaves the operation running. -/
theorem Running.poll_step (h : Running t) (hp : pollsAgain t) (d : Nat) :
    ∃ t', step (chosen .controller d t) = .next t' ∧ (Returned t' ∨ Running t') := by
  obtain ⟨t', hs, hq⟩ := step_quiet (s := chosen .controller d t) h.quiet
  obtain ⟨hflow, hacc, hctl⟩ := h.invariants_step hs
  have hf : t'.faulted = none := by
    rw [step_chosen] at hs
    rcases controllerTurn_cases (taken .controller d t) with ⟨_, ht⟩ | ⟨_, ht⟩ <;> cases ht.symm.trans hs
    · exact h.unf
    · exact controllerStep_poll_unfaulted (t := taken .controller d t) hp
  refine ⟨t', hs, ?_⟩
  cases hb : t'.host.busy with
  | false => exact .inl (.inl ⟨hb, hf⟩)
  | true => exact .inr ⟨hflow, hacc, hctl, hf, hb, hq⟩

/-- Any step of a running operation ends it or leaves it running. -/
theorem Running.ends_or_runs (h : Running t) (hg : ¬Returned t) (a : Config.Agent) (d : Nat) :
    ∃ t', step (chosen a d t) = .next t' ∧ (Returned t' ∨ Running t') := by
  by_cases hp : a = .controller ∧ pollsAgain t
  · obtain ⟨rfl, hp⟩ := hp
    exact h.poll_step hp d
  · obtain ⟨t', hs, hend | ⟨hrun, -⟩⟩ := step_progress a d h hg (not_and.mp hp) fun _ => h.invariants_step
    · exact ⟨t', hs, .inl hend⟩
    · exact ⟨t', hs, .inr hrun⟩

/-- Until it ends, the operation runs on, and TOP names it. -/
theorem Running.along (h : Running s) (hg : ¬∃ k t, runOn c s k = .next t ∧ Returned t) (k : Nat) :
    ∃ t, runOn c s k = .next t ∧ Running t ∧ t.ctl.top = s.ctl.top := by
  induction k with
  | zero => exact ⟨s, rfl, h, rfl⟩
  | succ k ih =>
    obtain ⟨t, hk, hrun, htop⟩ := ih
    obtain ⟨t', hs, hnext⟩ := hrun.ends_or_runs (fun he => hg ⟨k, t, hk, he⟩) (c k).agent (c k).draw
    have hk' : runOn c s (k + 1) = .next t' := (runOn_succ hk).trans hs
    rcases hnext with he | hrun'
    · exact absurd ⟨k + 1, t', hk', he⟩ hg
    · exact ⟨t', hk', hrun', (running_top hrun hs hrun'.busy).trans htop⟩

/-! ### Fairness -/

/-- A fair schedule is fair to whichever agent can bring the operation nearer its end. -/
theorem fairSchedule_helpfulAgent (h : fairSchedule c s) (t : State) : fairTo (helpfulAgent t) c s := by
  obtain ⟨hctl, hload, hexchange⟩ := h
  unfold helpfulAgent
  split
  · split
    · exact hexchange
    · exact hload
  · exact hctl

/-- From where it polls no more, a running operation ends: `runMeasure` is the measure, `helpfulAgent` the agent that lowers it. -/
theorem Running.ends_unless_polling (hfair : fairSchedule c s) {k₀ : Nat} (start : ∃ t, runOn c s k₀ = .next t ∧ Running t)
    (hpoll : ∀ j t, k₀ ≤ j → runOn c s j = .next t → (c j).agent = .controller → ¬pollsAgain t) :
    ∃ k t, runOn c s k = .next t ∧ Returned t :=
  fair_reaches k₀ Running Returned runMeasure helpfulAgent start
    (fun k t hk hr hi hg => step_progress (c k).agent (c k).draw hi hg (hpoll k t hk hr) fun _ => hi.invariants_step)
    (fun _ hi _ => helper_canMove hi) (fun t _ _ => fairSchedule_helpfulAgent hfair t)

end

/-- Settles O60: an operation that never ends runs on for ever; were there a last poll, it would end after it; so it polls again and
again, which TOP allows to two operations alone. -/
theorem fairOperationsReturn : Obligations.FairOperationsReturn := by
  unfold Obligations.FairOperationsReturn
  intro c s hfair hflow hacc hctl hf hb hq
  have hs : Running s := ⟨hflow, hacc, hctl, hf, hb, hq⟩
  by_cases hend : ∃ k t, runOn c s k = .next t ∧ Returned t
  · exact .inl hend
  · have hpolls : ∀ k, ∃ j t, k ≤ j ∧ runOn c s j = .next t ∧ (c j).agent = .controller ∧ pollsAgain t := by
      by_contra hlast
      push Not at hlast
      obtain ⟨k₀, hnone⟩ := hlast
      obtain ⟨t, hk, hrun, -⟩ := hs.along hend k₀
      exact hend (Running.ends_unless_polling hfair ⟨t, hk, hrun⟩ hnone)
    obtain ⟨j, t, -, hj, -, hp⟩ := hpolls 0
    obtain ⟨u, hu, hrun, htop⟩ := hs.along hend j
    cases hj.symm.trans hu
    exact .inr ⟨htop ▸ pollsAgain_top hrun.ctl hp, hpolls⟩

end Sys2Proof.Machine
